-- ==== Sys2Proof/Word.lean ====
section
/-! DEFINITION. The words of the model: the byte, the two ports, the four drives, and the plain containers
that hold one thing for each port, each drive, and each combiner context. -/
namespace Sys2Proof

/-- A byte as it crosses a pin or lies in a memory. -/
abbrev Byte := BitVec 8

/-- The two equal serial ports (R118). -/
inductive PortId where
  | a | b
  deriving DecidableEq, Repr

/-- The four adaptor positions of the drive link, numbered by link address (introduction, *Terms*). -/
inductive DriveId where
  | d0 | d1 | d2 | d3
  deriving DecidableEq, Repr

/-- The other port. -/
def PortId.other : PortId → PortId
  | .a => .b
  | .b => .a

/-- A drive's number. -/
def DriveId.toNat : DriveId → Nat
  | .d0 => 0
  | .d1 => 1
  | .d2 => 2
  | .d3 => 3

/-- The drive of a number, where there is one. -/
def DriveId.ofNat? : Nat → Option DriveId
  | 0 => some .d0
  | 1 => some .d1
  | 2 => some .d2
  | 3 => some .d3
  | _ => none

/-- A view's number on its port, 0 to 3 (R134): an index of four, like a drive's. -/
abbrev ViewId := DriveId

/-- The drive after this one in the round-robin order 0, 1, 2, 3, 0, … -/
def DriveId.succ : DriveId → DriveId
  | .d0 => .d1
  | .d1 => .d2
  | .d2 => .d3
  | .d3 => .d0

/-- All four drives in ascending order. -/
def DriveId.all : List DriveId := [.d0, .d1, .d2, .d3]

/-- The four drives in round-robin order, beginning with the drive after `d`. -/
def DriveId.after (d : DriveId) : List DriveId := [d.succ, d.succ.succ, d.succ.succ.succ, d]

/-- One thing for each port. -/
structure Pair (α : Type) where
  a : α
  b : α
  deriving DecidableEq, Repr

/-- One thing for each of four: the drives, or the views of a port. -/
structure Quad (α : Type) where
  q0 : α
  q1 : α
  q2 : α
  q3 : α
  deriving DecidableEq, Repr

/-- One thing for each of the eight combiner contexts. -/
structure Oct (α : Type) where
  c0 : α
  c1 : α
  c2 : α
  c3 : α
  c4 : α
  c5 : α
  c6 : α
  c7 : α
  deriving DecidableEq, Repr

def Pair.get {α : Type} (x : Pair α) : PortId → α
  | .a => x.a
  | .b => x.b

def Pair.set {α : Type} (x : Pair α) (p : PortId) (v : α) : Pair α :=
  match p with
  | .a => { x with a := v }
  | .b => { x with b := v }

def Pair.map {α β : Type} (f : α → β) (x : Pair α) : Pair β := ⟨f x.a, f x.b⟩

def Quad.get {α : Type} (x : Quad α) : DriveId → α
  | .d0 => x.q0
  | .d1 => x.q1
  | .d2 => x.q2
  | .d3 => x.q3

def Quad.set {α : Type} (x : Quad α) (d : DriveId) (v : α) : Quad α :=
  match d with
  | .d0 => { x with q0 := v }
  | .d1 => { x with q1 := v }
  | .d2 => { x with q2 := v }
  | .d3 => { x with q3 := v }

def Quad.map {α β : Type} (f : α → β) (x : Quad α) : Quad β := ⟨f x.q0, f x.q1, f x.q2, f x.q3⟩

def Quad.toList {α : Type} (x : Quad α) : List α := [x.q0, x.q1, x.q2, x.q3]

/-- The four entries `f d0`, …, `f d3`. -/
def Quad.ofFn {α : Type} (f : DriveId → α) : Quad α := ⟨f .d0, f .d1, f .d2, f .d3⟩

def Oct.toList {α : Type} (x : Oct α) : List α := [x.c0, x.c1, x.c2, x.c3, x.c4, x.c5, x.c6, x.c7]

/-- The entry of a context number 0 to 7, and nothing for a larger number. -/
def Oct.get? {α : Type} (x : Oct α) : Nat → Option α
  | 0 => some x.c0
  | 1 => some x.c1
  | 2 => some x.c2
  | 3 => some x.c3
  | 4 => some x.c4
  | 5 => some x.c5
  | 6 => some x.c6
  | 7 => some x.c7
  | _ => none

/-- The entries with the one of context number `i` replaced; unchanged where there is no such number. -/
def Oct.set {α : Type} (x : Oct α) (i : Nat) (v : α) : Oct α :=
  match i with
  | 0 => { x with c0 := v }
  | 1 => { x with c1 := v }
  | 2 => { x with c2 := v }
  | 3 => { x with c3 := v }
  | 4 => { x with c4 := v }
  | 5 => { x with c5 := v }
  | 6 => { x with c6 := v }
  | 7 => { x with c7 := v }
  | _ => x

def Oct.map {α β : Type} (f : α → β) (x : Oct α) : Oct β :=
  ⟨f x.c0, f x.c1, f x.c2, f x.c3, f x.c4, f x.c5, f x.c6, f x.c7⟩

/-- The same thing for both ports. -/
def Pair.both {α : Type} (v : α) : Pair α := ⟨v, v⟩

/-- The same thing four times. -/
def Quad.four {α : Type} (v : α) : Quad α := ⟨v, v, v, v⟩

/-- The same thing eight times. -/
def Oct.all {α : Type} (v : α) : Oct α := ⟨v, v, v, v, v, v, v, v⟩

end Sys2Proof
end

