-- ==== Sys2Proof/Syntax.lean ====
section
/-! DEFINITION. The commands that reach the part: one constructor of `Instr` for each row of
spec/opcode_table.json, with the row's operands as they cross the part's pins. -/
namespace Sys2Proof

/-- A request frame as one port receives it whole, less its request code (R119): the tag, the parameter bytes
(their number is the frame's parameter length field) and the CRC-16 the frame carries. -/
structure Frame where
  tag : Byte
  params : List Byte
  crc : BitVec 16
  deriving DecidableEq, Repr

/-- What an adaptor does in a transaction that has a reply frame: it acknowledges the command frame, which opens the
reply frame (R86, R92); it begins to hold DLCK or lets it go (R93); or the reply frame, with its CRC-8, has been clocked
out whole (R89). The table has rows for the reply frames alone, and its reply rows carry the other three (log 28). -/
inductive LinkSignal where
  | ack | hold | resume
  | frame (bytes : List Byte)
  deriving DecidableEq, Repr

/-- The commands. A request row carries the port it comes from and its frame, whose parameter bytes are laid out
as chapter 12 gives them: a frame may fail its check or have a wrong length, and the row covers those refusals.
A reply row of the drive link carries what the adaptor does. A row of the profile
bus carries the bytes read or whether the memory acknowledged. -/
inductive Instr where
  /-- POWER_ON (R168): power is applied. -/
  | powerOn
  /-- RST_PIN (R132): the RST pin is asserted. -/
  | rstPin
  /-- IDENTIFY (R128). -/
  | identify (p : PortId) (f : Frame)
  /-- STATUS (R129). -/
  | status (p : PortId) (f : Frame)
  /-- SET PORT OPTIONS (R127): priority, defer limit. -/
  | setPortOptions (p : PortId) (f : Frame)
  /-- RESET (R130). -/
  | reset (p : PortId) (f : Frame)
  /-- PROFILE QUERY (R5): slot. -/
  | profileQuery (p : PortId) (f : Frame)
  /-- RELOAD (R164). -/
  | reload (p : PortId) (f : Frame)
  /-- PROFILE WRITE (R166): address, count, data. -/
  | profileWrite (p : PortId) (f : Frame)
  /-- MOUNT (R10): drive, slot. -/
  | mount (p : PortId) (f : Frame)
  /-- UNMOUNT (R14): drive. -/
  | unmount (p : PortId) (f : Frame)
  /-- RESUME (R19): drive. -/
  | resume (p : PortId) (f : Frame)
  /-- RECOVER (R37): drive, first unit, count. -/
  | recover (p : PortId) (f : Frame)
  /-- SWEEP (R35): drive, on or off, start unit. -/
  | sweep (p : PortId) (f : Frame)
  /-- ABANDON (R38): drive, unit. -/
  | abandon (p : PortId) (f : Frame)
  /-- QUERY MAP (R40): drive, first unit, count. -/
  | queryMap (p : PortId) (f : Frame)
  /-- QUERY MAP NEXT (R41): count. -/
  | queryMapNext (p : PortId) (f : Frame)
  /-- HOLD (R111): drive, duration. -/
  | hold (p : PortId) (f : Frame)
  /-- SET VIEW (R135): view, drive, base, size exponent, target, read-ahead, deliver-partial. -/
  | setView (p : PortId) (f : Frame)
  /-- CLEAR VIEW (R136): view. -/
  | clearView (p : PortId) (f : Frame)
  /-- READ (R138): address, count. -/
  | read (p : PortId) (f : Frame)
  /-- READ EVENTS (R153). -/
  | readEvents (p : PortId) (f : Frame)
  /-- CLEAR EVENTS (R153): event set. -/
  | clearEvents (p : PortId) (f : Frame)
  /-- SET MASK (R153): event set. -/
  | setMask (p : PortId) (f : Frame)
  /-- ERROR READ (R156): selection. -/
  | errorRead (p : PortId) (f : Frame)
  /-- ERROR RELEASE (R156): selection. -/
  | errorRelease (p : PortId) (f : Frame)
  /-- STATS READ (R158). -/
  | statsRead (p : PortId) (f : Frame)
  /-- STATS WRITE (R158): selection, counter number, value. -/
  | statsWrite (p : PortId) (f : Frame)
  /-- SLEEP (R169): reject mask, wake sources, wake time. -/
  | sleep (p : PortId) (f : Frame)
  /-- A complete request frame with a code chapter 12 does not list (R123). -/
  | unknownRequest (p : PortId) (code : Byte) (f : Frame)
  /-- A request frame that completes while a request of its port is in progress (R121). -/
  | waitingRequest (p : PortId) (code : Byte) (f : Frame)
  /-- The waiting request of a port is taken (R121). -/
  | waitingRequestTaken (p : PortId)
  /-- A response read frame in which the computer clocks `n` bytes, the kind byte 00h among them (R122). -/
  | responseRead (p : PortId) (n : Nat)
  /-- Frame select rises when the bytes given have been received and the frame is not complete (R119). -/
  | partialFrame (p : PortId) (bytes : List Byte)
  /-- A request frame that completes in DORMANT (R172). -/
  | dormantRequestFrame (p : PortId) (code : Byte) (f : Frame)
  /-- The link arbiter grants the free link (R105). -/
  | linkGrant
  /-- What the adaptor does in a PROBE, its reply frame above all (R89). -/
  | probeReply (g : LinkSignal)
  /-- The acknowledge of the POSITION in frame exchange (R96). -/
  | positionAck
  /-- A drive's poll timer runs out (R96). -/
  | pollTimerExpiry (d : DriveId)
  /-- What the adaptor does in a POLL of a positioning, its reply frame above all (R96). -/
  | positionPollReply (g : LinkSignal)
  /-- What the adaptor does in a READ, its reply frame above all (R97). -/
  | readReply (g : LinkSignal)
  /-- The acknowledge of the RELAX in frame exchange (R99). -/
  | relaxAck
  /-- A drive's presence timer runs out (R102). -/
  | presenceTimerExpiry (d : DriveId)
  /-- What the adaptor does in a presence POLL, its reply frame above all (R102). -/
  | presencePollReply (g : LinkSignal)
  /-- A drive's reprobe timer runs out (R101). -/
  | reprobeTimerExpiry (d : DriveId)
  /-- ACK_WAIT runs out with no acknowledge (R92). -/
  | noAck
  /-- An adaptor's hold of DLCK reaches STRETCH_LIMIT (R93). -/
  | stretchTimeout
  /-- The link-clear pattern has been sent (R93). -/
  | linkClearPatternSent
  /-- The repair search of context `i` ends (R61). -/
  | repairSearchEnd (i : Nat)
  /-- The store write of context `i` completes (R64). -/
  | storeWriteComplete (i : Nat)
  /-- A FREE context is granted to a waiting drive (R82). -/
  | contextGrant
  /-- The ABANDON of a port that waited for an evaluation is carried out and answered (R39). -/
  | abandonDeferredAnswer (p : PortId)
  /-- The UNMOUNTING mount of a drive completes (R15). -/
  | unmountComplete (d : DriveId)
  /-- A drive's rest timer reaches 0 (R112). -/
  | restExpiry (d : DriveId)
  /-- The quiet timer runs out (R115). -/
  | quietTimerExpiry
  /-- The settled part goes from ENTERING to SAVING (R170). -/
  | enterSaving
  /-- The write of the save image completes (R171). -/
  | saveImageWriteComplete
  /-- The wake timer reaches 0 in DORMANT (R172). -/
  | wakeTimerExpiry
  /-- The check of the save image ends (R173). `lost` gives the store bytes whose contents changed while the
  store was in self-refresh, with what they then hold: the empty list where nothing was lost. -/
  | restoreCheckEnd (lost : List Host.Cell)
  /-- The loader has read address 0 (R161). -/
  | loaderMarkerRead (b : Byte)
  /-- The loader has read byte 1 (R161). -/
  | loaderCountRead (b : Byte)
  /-- The loader has read the 48 bytes of a profile record (R162). -/
  | profileRecordRead (bytes : List Byte)
  /-- The loader has read the settings marker (R163). -/
  | settingsMarkerRead (b : Byte)
  /-- The loader has read the number of setting records (R163). -/
  | settingsCountRead (b : Byte)
  /-- The loader has read the three bytes of a setting record: the id and the value, low byte first (R163). -/
  | settingRecordRead (id lo hi : Byte)
  /-- The profile memory does not acknowledge a read of the loader (R161). -/
  | profileBusNoAck
  /-- The transfer of a profile write ends; `acked` says whether every byte was acknowledged (R166). -/
  | profileWriteTransferEnd (acked : Bool)
  /-- A poll of the profile memory ends; `acked` says whether it was acknowledged (R167). -/
  | writePollEnd (acked : Bool)
  /-- The 0.5 ms spacing between two polls of the profile memory runs out (R167). -/
  | writePollSpacingExpiry
  deriving DecidableEq, Repr

end Sys2Proof
end

