-- ==== Sys2Proof/Machine/Checks.lean ====
section
/-! DEFINITION. The four check computations of the part, each bit by bit as its rule gives it: CRC-8 of the drive
link (R87), CRC-16 of the ports (R120), and the unit checks C16 (R53) and C32 (R54). -/
namespace Sys2Proof.Machine

/-- The bits of a byte, most significant first. -/
def bitsMsb (b : Byte) : List Bool :=
  [b.getLsbD 7, b.getLsbD 6, b.getLsbD 5, b.getLsbD 4, b.getLsbD 3, b.getLsbD 2, b.getLsbD 1, b.getLsbD 0]

/-- The bits of a byte, least significant first. -/
def bitsLsb (b : Byte) : List Bool :=
  [b.getLsbD 0, b.getLsbD 1, b.getLsbD 2, b.getLsbD 3, b.getLsbD 4, b.getLsbD 5, b.getLsbD 6, b.getLsbD 7]

/-- One bit of R87. -/
def crc8Bit (r : BitVec 8) (bit : Bool) : BitVec 8 :=
  if r.getLsbD 7 != bit then (r <<< 1) ^^^ 0x07 else r <<< 1

/-- The CRC-8 of a run of bytes (R87). -/
def crc8 (bs : List Byte) : BitVec 8 := (bs.flatMap bitsMsb).foldl crc8Bit 0

/-- One bit of R53 and R120. -/
def crc16Bit (r : BitVec 16) (bit : Bool) : BitVec 16 :=
  if r.getLsbD 15 != bit then (r <<< 1) ^^^ 0x1021 else r <<< 1

/-- The C16 value of a run of bytes from a seed (R53). -/
def c16 (seed : BitVec 16) (bs : List Byte) : BitVec 16 := (bs.flatMap bitsMsb).foldl crc16Bit seed

/-- The CRC-16 of a run of bytes of a port frame (R120). -/
def crc16 (bs : List Byte) : BitVec 16 := c16 0xFFFF bs

/-- One bit of R54. -/
def crc32Bit (r : BitVec 32) (bit : Bool) : BitVec 32 :=
  if r.getLsbD 0 != bit then (r >>> 1) ^^^ 0xEDB88320 else r >>> 1

/-- The C32 value of a run of bytes (R54). -/
def c32 (bs : List Byte) : BitVec 32 := ~~~ ((bs.flatMap bitsLsb).foldl crc32Bit 0xFFFFFFFF)

end Sys2Proof.Machine
end

