-- ==== Sys2Proof/Config.lean ====
section
/-! DEFINITION. What the part fixes once for all: the sizes of its tables and memories, and the numbers that
identify it. Each is a number of the spec. There is no free value in this model: INVENTORY.md, under
*What the manual leaves open*, says for each open point what stands in its place. -/
namespace Sys2Proof.Config

/-- Map records of the Recovery Map (R20, R26). -/
def mapRecords : Nat := 32768

/-- Store pages that can be allocated to mounts, numbered from 0 (R12). -/
def storePages : Nat := 16128

/-- Bytes of a store page (introduction, *Sizes*). -/
def pageBytes : Nat := 4096

/-- Bytes of the image store: 64 MiB (introduction; 16,384 pages of 4,096 bytes). -/
def storeBytes : Nat := 67108864

/-- First byte of the save area, page 16,128 (R171). -/
def saveBase : Nat := 66060288

/-- Bytes of the save area: its 256 pages, 1 MiB (R171). -/
def saveBytes : Nat := 1048576

/-- What a store byte that nothing has written reads as.
DESIGN CHOICE (log 2): the spec gives the store no contents after power-on. -/
def storeFill : Byte := 0

/-- Entries of a work list (R27). -/
def workListSize : Nat := 64

/-- Entries of a Deferred Read Table (R142). -/
def deferredSize : Nat := 8

/-- Slots of the Profile Table (R3). -/
def profileSlots : Nat := 16

/-- Bytes of a profile record (R1, chapter 12). -/
def recordBytes : Nat := 48

/-- Parameter bytes a receiver keeps (R119). -/
def keptParams : Nat := 64

/-- Vendor code, part code and revision of IDENTIFY (R128). -/
def vendorCode : Nat := 0x2E
def partCode : Nat := 0x0030
def revision : Nat := 1

/-- Longest rest (R108, R111), in milliseconds. -/
def restMax : Nat := 600000

/-- Longest wake time (R169), in seconds. -/
def wakeTimeMax : Nat := 86400

/-- Most data bytes one READ carries (R137). -/
def readBytesMax : Nat := 16384

/-- The wait after which an unacknowledged poll ends a write (R167), in milliseconds. -/
def writeLimit : Nat := 25

/-- Last address of the profile memory (R159). -/
def profileMemoryTop : Nat := 1023

end Sys2Proof.Config
end

