-- ==== Sys2Proof/Machine/State.lean ====
section
/-! DEFINITION. The state of the part as plain data: every block of the spec's block overview with the fields its
chapter gives it, the queue of the commands that wait, and the state after power-on. -/
namespace Sys2Proof.Machine

/-! ### Profiles and mounts (chapter 1) -/

/-- The medium kind (R1). -/
inductive Kind where
  | floppy | cartridge
  deriving DecidableEq, Repr

/-- The unit check kind (R1). -/
inductive CheckKind where
  | c16 | c32
  deriving DecidableEq, Repr

/-- A profile record of twenty-one fields (R1). -/
structure Profile where
  name : List Byte
  kind : Kind
  cylinders : Nat
  heads : Nat
  sectors : Nat
  firstSector : Nat
  blocks : Nat
  unitSize : Nat
  check : CheckKind
  seed : BitVec 16
  attemptLimit : Nat
  minReads : Nat
  burst : Nat
  weakThreshold : Nat
  repairAfter : Nat
  repairLimit : Nat
  flipDepth : Nat
  shedQuality : Nat
  shedCount : Nat
  restBase : Nat
  positionLimit : Nat
  deriving DecidableEq, Repr

/-- Why a record is not valid: the codes of R2 other than NONE, in order. -/
inductive Reason where
  | sum | name | kind | cylinders | heads | sectors | firstSector | blocks | unitSize | checkKind
  | minReads | burst | weakThreshold | repairAfter | repairLimit | flipDepth | shedQuality | shedCount
  | restBase | positionLimit
  deriving DecidableEq, Repr

/-- Where a slot's record came from (R3). -/
inductive Source where
  | builtin | memory
  deriving DecidableEq, Repr

/-- A slot of the Profile Table (R3): what is present in each state, the record as its 48 bytes. -/
inductive Slot where
  | empty
  | valid (src : Source) (bytes : List Byte)
  | invalid (src : Source) (reason : Reason) (bytes : List Byte)
  deriving DecidableEq, Repr

/-- The mount states in which a medium is bound (R7). -/
inductive MountPhase where
  | mounted | lost | unmounting
  deriving DecidableEq, Repr

/-- The fields of a mount record that are present in MOUNTED, LOST and UNMOUNTING (R7). -/
structure MountRec where
  phase : MountPhase
  slot : Nat
  snap : Profile
  u : Nat
  mapFirst : Nat
  storeFirst : Nat
  pages : Nat
  sweepOn : Bool
  cursor : Nat
  terminal : Nat
  deriving DecidableEq, Repr

/-! ### The Recovery Map and the work lists (chapter 2) -/

/-- The seven unit states (R21). -/
inductive UnitState where
  | unread | active | tried | recovered | exhausted | blank | abandoned
  deriving DecidableEq, Repr

/-- How a RECOVERED unit was recovered (R20). -/
inductive Method where
  | none | clean | voted | repaired
  deriving DecidableEq, Repr

/-- A unit record of the Recovery Map (R20). -/
structure UnitRec where
  state : UnitState
  attempts : Nat
  contributing : Nat
  method : Method
  flips : Nat
  weak : Nat
  best : Nat
  ambiguous : Bool
  deriving DecidableEq, Repr

/-- The values MOUNT gives a unit record (R13). -/
def UnitRec.fresh : UnitRec := ⟨.unread, 0, 0, .none, 0, 0, 0, false⟩

/-- A port's class on a work list entry (R27). -/
inductive PortClass where
  | none | ahead | direct
  deriving DecidableEq, Repr

/-- An effective class (R28), weakest first. -/
inductive EffClass where
  | residual | sweep | ahead | direct
  deriving DecidableEq, Repr

/-- A work list entry (R27). Its insertion order is its place in the list, the oldest first. -/
structure Entry where
  unit : Nat
  cls : Pair PortClass
  sweep : Bool
  deriving DecidableEq, Repr

/-! ### Contexts (chapter 3) -/

/-- The record values an evaluation fixes as it begins (R46, R58). -/
structure EvalVals where
  attempts : Nat
  contributing : Nat
  best : Nat
  weak : Nat
  deriving DecidableEq, Repr

/-- A decided store write (R63, R64): the terminal state, method and flips to come, and the bytes of the slot. -/
structure StoreWork where
  state : UnitState
  method : Method
  flips : Nat
  data : List Byte
  mask : List Byte
  deriving DecidableEq, Repr

/-- The states of an open context (R42), each with what the combiner holds for it. -/
inductive CtxPhase where
  | collecting
  | evaluating (v : EvalVals)
  | repairing (v : EvalVals)
  | storing (w : StoreWork)
  deriving DecidableEq, Repr

/-- The fields of a context that are present when it is open (R42). -/
structure OpenCtx where
  phase : CtxPhase
  drive : DriveId
  unit : Option Nat
  b : Nat
  votes : List Int
  abandonPending : Bool
  deriving DecidableEq, Repr

/-! ### Schedulers and attempts (chapter 4) -/

/-- The states of an Attempt Scheduler (R66). -/
inductive SchedState where
  | stopped | idle | waiting | attempting
  deriving DecidableEq, Repr

/-- An Attempt Scheduler (R66). `owed` is the model's own: a choice that R69 calls for and that waits, within the
same moment, for a grant or for an ABANDON that is due (log 6). `savedUnits` holds the ACTIVE units whose votes a
restore has brought back and that the scheduler has not begun with yet (R173, log 32). -/
structure Sched where
  state : SchedState
  last : Option Nat
  burst : Nat
  position : Option Nat
  owed : Bool
  savedUnits : List Nat
  deriving DecidableEq, Repr

/-- Where an attempt in flight stands on the link (R77, R96, R97): a transaction wanted, in its frame exchange, or,
for `moving`, the poll timer running. -/
inductive AttemptPhase where
  | needPosition | positionSent | moving | needPoll | pollSent | needRead | readSent
  deriving DecidableEq, Repr

/-- The attempt of a drive that is in flight (R77), with the address R6 gives the unit. `abandoned` marks a
positioning abandoned while a transaction of it was in its frame exchange (R104). -/
structure Attempt where
  unit : Nat
  phase : AttemptPhase
  target : Nat
  readParams : List Byte
  b : Nat
  abandoned : Bool
  deriving DecidableEq, Repr

/-! ### The drive link (chapter 5) -/

/-- A drive's link state (R90). -/
inductive LinkState where
  | absent | online | offline
  deriving DecidableEq, Repr

/-- The transactions of a drive outside an attempt (R94). -/
inductive PendTx where
  | relax | probe | presencePoll
  deriving DecidableEq, Repr

/-- A timer: stopped, or running with the milliseconds it has left. One with none left has run out, and its expiry is to
be taken (log 3). -/
abbrev Timer := Option Nat

/-- The record of one drive (R90). `pend` is in the order of the requests. `posStart` is the moment of the last
positioning start; before the first it is 0, a value the spec does not give (log 36). -/
structure DriveLink where
  link : LinkState
  kind : Option Kind
  medium : Bool
  known : Bool
  miss : Nat
  presence : Timer
  reprobe : Timer
  poll : Timer
  posStart : Nat
  pend : List PendTx
  deriving DecidableEq, Repr

/-- The five commands of the drive link (R88). -/
inductive Cmd where
  | probe | position | poll | read | relax
  deriving DecidableEq, Repr

/-- The transaction in its frame exchange (R86): its drive and command, whether it is of the drive's attempt, the
command frame sent, the B that a READ names, the wait for the acknowledge, which is over once it has been taken (R92),
the hold of DLCK under way, if there is one (R93), and whether a RESET request was taken meanwhile (R107). -/
structure Exchange where
  drive : DriveId
  cmd : Cmd
  ofAttempt : Bool
  frame : List Byte
  b : Nat
  ack : Timer
  hold : Timer
  orphan : Bool
  deriving DecidableEq, Repr

/-- The link as a whole (R105): its transaction, whether the link-clear pattern of R93 is still to be sent, and the
last drive granted. -/
structure Link where
  exchange : Option Exchange
  clearing : Bool
  last : DriveId
  deriving DecidableEq, Repr

/-- The five link faults (R95). -/
inductive LinkFaultKind where
  | noAck | replyError | stretchTimeout | positionTimeout | adaptorFault
  deriving DecidableEq, Repr

/-! ### Rest and power (chapters 6 and 11) -/

/-- What set the running rest (R108). -/
inductive RestCause where
  | none | shed | hold
  deriving DecidableEq, Repr

/-- A Rest Controller (R108). The rest timer is stopped, and reads 0, while the drive does not rest. -/
structure Rest where
  timer : Timer
  cause : RestCause
  level : Nat
  weakRun : Nat
  deriving DecidableEq, Repr

/-- What the rest timer reads (R108, R129). -/
def Rest.left (r : Rest) : Nat := r.timer.getD 0

/-- The power states (chapters 6 and 11). -/
inductive PowerState where
  | active | quiet | entering | saving | dormant | restoring
  deriving DecidableEq, Repr

/-- The Power Controller: its state, the quiet timer (R114), the wake sources and wake time of the accepted sleep,
the wake timer, and the last sleep reject causes as the REJECTED payload numbers them (R169). -/
structure Power where
  state : PowerState
  quiet : Timer
  wakePort : Pair Bool
  wakeOnTimer : Bool
  wakeTime : Nat
  wakeTimer : Timer
  reject : BitVec 5
  deriving DecidableEq, Repr

/-! ### Ports (chapter 7) -/

/-- The status codes (chapter 7, chapter 12). -/
inductive Status where
  | ok | defer | partialData | blank | abandoned | busy | badRequest | badParam | notReady | noMedium
  | notMounted | alreadyMounted | noSpace | profileInvalid | kindMismatch | noView | gone | timeout
  | rejected | frameError
  deriving DecidableEq, Repr

/-- A response (R121), less its length field and CRC-16, which its bytes determine. -/
structure Response where
  status : Status
  tag : Byte
  payload : List Byte
  deriving DecidableEq, Repr

/-- A request whose answer has not yet come (R121): an ABANDON that waits for an evaluation (R39). -/
structure InProgress where
  tag : Byte
  drive : DriveId
  unit : Nat
  deriving DecidableEq, Repr

/-- A Port Unit (R118, R121, R41): the bytes of the frame under reception, what data out carried in the last frame,
the request in progress, the waiting request with its code, the pending response, and the map cursor. -/
structure Port where
  receiver : List Byte
  dataOut : List Byte
  inProgress : Option InProgress
  waiting : Option (Byte × Frame)
  response : Option Response
  cursor : Option (DriveId × Nat)
  deriving DecidableEq, Repr

/-- The options of a port (R126). -/
structure PortOptions where
  high : Bool
  deferLimit : Nat
  deriving DecidableEq, Repr

/-! ### Views and deferred reads (chapter 8) -/

/-- The fields of an enabled view (R134). -/
structure View where
  drive : DriveId
  base : Nat
  k : Nat
  target : Nat
  ra : Nat
  deliverPartial : Bool
  deriving DecidableEq, Repr

/-- A read-ahead stream (R147): the expected address, and the range as its first and last unit. -/
structure Stream where
  expected : Option Nat
  range : Option (Nat × Nat)
  deriving DecidableEq, Repr

/-- The states of a deferred read entry (R142). -/
inductive DeferState where
  | pending | ready | gone
  deriving DecidableEq, Repr

/-- A deferred read entry (R142). -/
structure Deferred where
  address : Nat
  count : Nat
  drive : DriveId
  first : Nat
  n : Nat
  retries : Nat
  state : DeferState
  deriving DecidableEq, Repr

/-! ### Events, captures and statistics (chapter 9) -/

/-- The thirteen events (R152), in the order of their positions. -/
inductive Event where
  | deferReady | mediumComplete | workIdle | restEntered | driveOffline | mediumChanged | linkFault | portError
  | loadDone | writeDone | wake | mapLost | resetDone
  deriving DecidableEq, Repr

/-- A port's raw flags and mask (R151), each a set of the positions 0 to 12. -/
structure EventRegs where
  raw : BitVec 13
  mask : BitVec 13
  deriving DecidableEq, Repr

/-- A valid error capture record (R154). -/
structure PortCapture where
  multiple : Bool
  status : Status
  code : Byte
  tag : Byte
  params : List Byte
  deriving DecidableEq, Repr

/-- A valid link-fault record (R155). -/
structure LinkCapture where
  multiple : Bool
  drive : DriveId
  cmd : Cmd
  unit : Option Nat
  kind : LinkFaultKind
  deriving DecidableEq, Repr

/-- The fifteen counters of a drive (R157), in the order of the table. -/
structure DriveStats where
  attempts : BitVec 32
  noSync : BitVec 32
  rec1 : BitVec 32
  rec2 : BitVec 32
  rec4 : BitVec 32
  rec8 : BitVec 32
  rec16 : BitVec 32
  rec17 : BitVec 32
  repaired : BitVec 32
  ambiguous : BitVec 32
  exhausted : BitVec 32
  blank : BitVec 32
  abandoned : BitVec 32
  rests : BitVec 32
  linkFaults : BitVec 32
  deriving DecidableEq, Repr

/-! ### The Profile Loader (chapter 10) -/

/-- What the loader reads next (R161 to R163); `idle` is the loader state IDLE, the others LOADING. -/
inductive LoadStage where
  | idle | marker | count | record (i : Nat) | settingsMarker | settingsCount | setting (j : Nat)
  deriving DecidableEq, Repr

/-- Where a profile write stands (R166, R167); `idle` is the write state IDLE, the others WRITING. -/
inductive WriteStage where
  | idle | transfer | polling | spacing
  deriving DecidableEq, Repr

/-- How the last write ended (R159). -/
inductive WriteOutcome where
  | none | done | noAck | timeout
  deriving DecidableEq, Repr

/-- The Profile Loader (R159), with the bytes of the write under way and the moment their last acknowledge was taken
(R166, R167). `m` is the number of setting records of the run (R163). -/
structure Loader where
  stage : LoadStage
  write : WriteStage
  writePort : PortId
  outcome : WriteOutcome
  noMemory : Bool
  badMarker : Bool
  busFault : Bool
  noSettings : Bool
  overflow : Bool
  records : Nat
  unknown : Nat
  clamped : Nat
  m : Nat
  writeAddr : Nat
  writeData : List Byte
  writeAcked : Nat
  deriving DecidableEq, Repr

/-- The settings (R165). -/
structure Settings where
  portHigh : Pair Bool
  deferLimit : Pair Nat
  quota : Quad Nat
  driveHigh : Quad Bool
  ackWait : Nat
  pollInterval : Nat
  stretchLimit : Nat
  presencePoll : Nat
  reprobeInterval : Nat
  missLimit : Nat
  quietDelay : Nat
  deriving DecidableEq, Repr

/-! ### The save image (R171) -/

/-- The fields the save image holds (R171). -/
structure SaveImage where
  mounts : Quad (Option MountRec)
  unitMap : List (Nat × UnitRec)
  contexts : Oct (Option OpenCtx)
  works : Quad (List Entry)
  views : Pair (Quad (Option View))
  streams : Pair (Quad Stream)
  deferred : Pair (List Deferred)
  events : Pair EventRegs
  errors : Pair (Option PortCapture)
  linkFault : Option LinkCapture
  stats : Quad DriveStats
  served : Pair (BitVec 40)
  deriving DecidableEq, Repr

/-- The part. `pending` is the queue of the commands that wait, first in, first out; `now` counts milliseconds. The
other fields are the blocks of the block overview. -/
structure State where
  pending : List Instr
  now : Nat
  ports : Pair Port
  options : Pair PortOptions
  views : Pair (Quad (Option View))
  streams : Pair (Quad Stream)
  deferred : Pair (List Deferred)
  events : Pair EventRegs
  errors : Pair (Option PortCapture)
  linkFault : Option LinkCapture
  mounts : Quad (Option MountRec)
  discard : Quad Bool
  unitMap : List (Nat × UnitRec)
  works : Quad (List Entry)
  contexts : Oct (Option OpenCtx)
  ctxReq : Quad (Option Nat)
  ctxLast : DriveId
  scheds : Quad Sched
  attempts : Quad (Option Attempt)
  drives : Quad DriveLink
  link : Link
  rests : Quad Rest
  power : Power
  stats : Quad DriveStats
  served : Pair (BitVec 40)
  table : List Slot
  loader : Loader
  settings : Settings
  store : List Host.Cell
  saved : Option SaveImage
  deriving DecidableEq, Repr

/-- The reasons a step can stop with a fault. -/
inductive Fault where
  /-- Raised by STORE_WRITE_COMPLETE, SAVE_IMAGE_WRITE_COMPLETE and RESTORE_CHECK_END when a byte to be written lies
  outside the 64 MiB image store. Safe: the model stops, and no run of the part reaches it. -/
  | storeAddress
  deriving DecidableEq, Repr

/-- The reasons a command can be refused. -/
inductive Refusal where
  /-- The command has no meaning in the model yet. Safe. -/
  | notModelled (mnemonic : String)
  /-- Raised by an event command whose event cannot arise in the state (log 7): a reply to a transaction that is not in
  its frame exchange, or before its acknowledge, the expiry of a stopped timer or of one that another will precede, the
  end of work that is not under way, a read that the loader has not asked for. The spec gives no such event a meaning.
  Safe: the model stops. -/
  | cannotOccur
  deriving DecidableEq, Repr

/-! ### The state after power-on -/

/-- R132: nothing received, no request, no response, no map cursor. -/
def Port.start : Port := ⟨[], [], none, none, none, none⟩

/-- R126 at power-on. -/
def PortOptions.start : PortOptions := ⟨false, 32⟩

/-- An empty stream (R147). -/
def Stream.empty : Stream := ⟨none, none⟩

/-- R67 at power-on, RESET and restore. -/
def Sched.start : Sched := ⟨.stopped, none, 0, none, false, []⟩

/-- R90 after every reset, with the PROBE that R101 requests at once. -/
def DriveLink.start : DriveLink := ⟨.absent, none, false, false, 0, none, none, none, 0, [.probe]⟩

/-- R108 at power-on. -/
def Rest.start : Rest := ⟨none, .none, 0, 0⟩

/-- R168. DESIGN CHOICE: the wake time, to which no rule gives a value here, is 0 (log 38). -/
def Power.start : Power := ⟨.active, none, ⟨false, false⟩, false, 0, none, 0⟩

/-- All fifteen counters 0 (R157). -/
def DriveStats.zero : DriveStats := ⟨0, 0, 0, 0, 0, 0, 0, 0, 0, 0, 0, 0, 0, 0, 0⟩

/-- R159 at power-on: a run has begun and reads address 0 next. -/
def Loader.start : Loader :=
  ⟨.marker, .idle, .a, .none, false, false, false, false, false, 0, 0, 0, 0, 0, [], 0⟩

/-- The defaults of R165. -/
def Settings.defaults : Settings where
  portHigh := ⟨false, false⟩
  deferLimit := ⟨32, 32⟩
  quota := ⟨4, 4, 4, 4⟩
  driveHigh := ⟨false, false, false, false⟩
  ackWait := 2
  pollInterval := 5
  stretchLimit := 50
  presencePoll := 500
  reprobeInterval := 2000
  missLimit := 3
  quietDelay := 60

/-- The masks of R151 at power-on: RESET_DONE (position 12) and LOAD_DONE (position 8). -/
def EventRegs.start : EventRegs := ⟨0, 0x1100⟩

/-- The part right after power-on (R168 and the power-on rows of each chapter): no command waits. -/
def State.reset : State where
  pending := []
  now := 0
  ports := ⟨Port.start, Port.start⟩
  options := ⟨PortOptions.start, PortOptions.start⟩
  views := ⟨⟨none, none, none, none⟩, ⟨none, none, none, none⟩⟩
  streams := Pair.both (Quad.four Stream.empty)
  deferred := ⟨[], []⟩
  events := ⟨EventRegs.start, EventRegs.start⟩
  errors := ⟨none, none⟩
  linkFault := none
  mounts := ⟨none, none, none, none⟩
  discard := ⟨false, false, false, false⟩
  unitMap := []
  works := ⟨[], [], [], []⟩
  contexts := Oct.all none
  ctxReq := ⟨none, none, none, none⟩
  ctxLast := .d3
  scheds := Quad.four Sched.start
  attempts := ⟨none, none, none, none⟩
  drives := Quad.four DriveLink.start
  link := ⟨none, false, .d3⟩
  rests := Quad.four Rest.start
  power := Power.start
  stats := Quad.four DriveStats.zero
  served := ⟨0, 0⟩
  table := List.replicate Config.profileSlots .empty
  loader := Loader.start
  settings := Settings.defaults
  store := []
  saved := none

end Sys2Proof.Machine
end

