-- ==== Sys2Proof/Machine/Operands.lean ====
section
/-! DEFINITION. The byte layouts of chapter 12: fields low byte first, request codes, request and response frames,
profile records, command and reply frames of the drive link. -/
namespace Sys2Proof.Machine

/-! ### Fields -/

/-- The byte at an offset, as a number; 0 beyond the end. -/
def byteAt (bs : List Byte) (i : Nat) : Nat := (bs.getD i 0).toNat

/-- A field of `n` bytes at offset `i`, low byte first (R175). -/
def leField (bs : List Byte) : Nat → Nat → Nat
  | 0, _ => 0
  | n + 1, i => byteAt bs i + 256 * leField bs n (i + 1)

/-- The `n` low bytes of a number, low byte first (R175). -/
def leBytes : Nat → Nat → List Byte
  | 0, _ => []
  | n + 1, v => BitVec.ofNat 8 v :: leBytes n (v / 256)

def flag (b : Bool) : Nat := if b then 1 else 0

/-- A set of flags, position 0 first, as a number (R175). -/
def flagSet : List Bool → Nat
  | [] => 0
  | b :: bs => flag b + 2 * flagSet bs

/-! ### Requests (chapter 12, section 12.2) -/

/-- The request codes. -/
inductive ReqCode where
  | identify | status | setPortOptions | reset | profileQuery | reload | profileWrite | mount | unmount | resume
  | recover | sweep | abandon | queryMap | queryMapNext | hold | setView | clearView | read | readEvents
  | clearEvents | setMask | errorRead | errorRelease | statsRead | statsWrite | sleep
  deriving DecidableEq, Repr

/-- A request's code on the wire. -/
def ReqCode.byte : ReqCode → Byte
  | .identify => 0x01
  | .status => 0x02
  | .setPortOptions => 0x03
  | .reset => 0x04
  | .profileQuery => 0x08
  | .reload => 0x09
  | .profileWrite => 0x0A
  | .mount => 0x10
  | .unmount => 0x11
  | .resume => 0x12
  | .recover => 0x18
  | .sweep => 0x19
  | .abandon => 0x1A
  | .queryMap => 0x1B
  | .queryMapNext => 0x1C
  | .hold => 0x20
  | .setView => 0x28
  | .clearView => 0x29
  | .read => 0x2A
  | .readEvents => 0x30
  | .clearEvents => 0x31
  | .setMask => 0x32
  | .errorRead => 0x34
  | .errorRelease => 0x35
  | .statsRead => 0x38
  | .statsWrite => 0x39
  | .sleep => 0x40

/-- Every request. -/
def ReqCode.all : List ReqCode :=
  [.identify, .status, .setPortOptions, .reset, .profileQuery, .reload, .profileWrite, .mount, .unmount, .resume,
   .recover, .sweep, .abandon, .queryMap, .queryMapNext, .hold, .setView, .clearView, .read, .readEvents,
   .clearEvents, .setMask, .errorRead, .errorRelease, .statsRead, .statsWrite, .sleep]

/-- The request of a code, where chapter 12 lists it. -/
def ReqCode.ofByte? (b : Byte) : Option ReqCode := ReqCode.all.find? fun c => c.byte == b

/-- The parameter length chapter 12 gives a request; for PROFILE WRITE the one its own count calls for (R123), and
no length beyond the 64 bytes a receiver keeps (R119). -/
def ReqCode.lengthOk (c : ReqCode) (params : List Byte) : Bool :=
  match c with
  | .identify | .status | .reset | .reload | .readEvents | .statsRead => params.length == 0
  | .profileQuery | .unmount | .resume | .queryMapNext | .clearView | .errorRead | .errorRelease =>
    params.length == 1
  | .setPortOptions | .mount | .clearEvents | .setMask => params.length == 2
  | .abandon => params.length == 3
  | .sweep | .queryMap => params.length == 4
  | .recover | .hold | .read => params.length == 5
  | .sleep => params.length == 6
  | .statsWrite => params.length == 7
  | .setView => params.length == 11
  | .profileWrite =>
    3 ≤ params.length && params.length == 3 + byteAt params 2 && params.length ≤ Config.keptParams

/-- The bytes of a request frame before its check field (R119). -/
def Frame.body (code : Byte) (f : Frame) : List Byte :=
  code :: f.tag :: (leBytes 2 f.params.length ++ f.params)

/-- The frame check of R123: the received CRC-16 is the computed one (R120). -/
def Frame.crcOk (code : Byte) (f : Frame) : Bool := crc16 (Frame.body code f) == f.crc

/-- The frame of a request with its CRC-16 as a computer should build it (R119, R120). -/
def Frame.good (code : Byte) (tag : Byte) (params : List Byte) : Frame :=
  ⟨tag, params, crc16 (code :: tag :: (leBytes 2 params.length ++ params))⟩

/-! ### Responses -/

/-- The values of the status codes (chapter 12). -/
def Status.byte : Status → Byte
  | .ok => 0x00
  | .defer => 0x03
  | .partialData => 0x04
  | .blank => 0x05
  | .abandoned => 0x06
  | .busy => 0x07
  | .badRequest => 0x10
  | .badParam => 0x11
  | .notReady => 0x12
  | .noMedium => 0x13
  | .notMounted => 0x14
  | .alreadyMounted => 0x15
  | .noSpace => 0x16
  | .profileInvalid => 0x17
  | .kindMismatch => 0x18
  | .noView => 0x19
  | .gone => 0x1A
  | .timeout => 0x1B
  | .rejected => 0x1C
  | .frameError => 0x1D

/-- The bytes of a response frame (R121): status, tag, payload length, payload, CRC-16. -/
def Response.bytes (r : Response) : List Byte :=
  let head := r.status.byte :: r.tag :: (leBytes 2 r.payload.length ++ r.payload)
  head ++ leBytes 2 (crc16 head).toNat

/-- The padding byte of R176, and the single bytes WORKING and NO_RESPONSE of R122. -/
def padding : Byte := 0xFF
def working : Byte := 0x01
def noResponse : Byte := 0x02

/-! ### Codes of enumerations (chapter 12) -/

def Kind.code : Kind → Nat
  | .floppy => 0
  | .cartridge => 1

def CheckKind.code : CheckKind → Nat
  | .c16 => 0
  | .c32 => 1

def UnitState.code : UnitState → Nat
  | .unread => 0
  | .active => 1
  | .tried => 2
  | .recovered => 3
  | .exhausted => 4
  | .blank => 5
  | .abandoned => 6

def Method.code : Method → Nat
  | .none => 0
  | .clean => 1
  | .voted => 2
  | .repaired => 3

def EffClass.code : EffClass → Nat
  | .residual => 1
  | .sweep => 2
  | .ahead => 3
  | .direct => 4

def PortClass.code : PortClass → Nat
  | .none => 0
  | .ahead => 1
  | .direct => 2

def RestCause.code : RestCause → Nat
  | .none => 0
  | .shed => 1
  | .hold => 2

def LinkState.code : LinkState → Nat
  | .absent => 0
  | .online => 1
  | .offline => 2

/-- The power state as STATUS sends it; DORMANT has no code, since nothing answers STATUS there. -/
def PowerState.code : PowerState → Nat
  | .active => 0
  | .quiet => 1
  | .entering => 2
  | .saving => 3
  | .restoring => 4
  | .dormant => 0

def WriteOutcome.code : WriteOutcome → Nat
  | .none => 0
  | .done => 1
  | .noAck => 2
  | .timeout => 3

def PortId.code : PortId → Nat
  | .a => 0
  | .b => 1

def DeferState.code : DeferState → Nat
  | .pending => 0
  | .ready => 1
  | .gone => 2

/-- The commands of the link-fault record, numbered from 0 in the order of R155's table. -/
def Cmd.recordCode : Cmd → Nat
  | .probe => 0
  | .position => 1
  | .poll => 2
  | .read => 3
  | .relax => 4

def LinkFaultKind.code : LinkFaultKind → Nat
  | .noAck => 0
  | .replyError => 1
  | .stretchTimeout => 2
  | .positionTimeout => 3
  | .adaptorFault => 4

def Source.code : Source → Nat
  | .builtin => 1
  | .memory => 2

def Reason.code : Reason → Nat
  | .sum => 1
  | .name => 2
  | .kind => 3
  | .cylinders => 4
  | .heads => 5
  | .sectors => 6
  | .firstSector => 7
  | .blocks => 8
  | .unitSize => 9
  | .checkKind => 10
  | .minReads => 11
  | .burst => 12
  | .weakThreshold => 13
  | .repairAfter => 14
  | .repairLimit => 15
  | .flipDepth => 16
  | .shedQuality => 17
  | .shedCount => 18
  | .restBase => 19
  | .positionLimit => 20

/-! ### Profile records (R1, R2, R4; chapter 12, section 12.6) -/

/-- The profile that 48 record bytes spell. -/
def Profile.ofBytes (bs : List Byte) : Profile where
  name := bs.take 8
  kind := if byteAt bs 8 = 0 then .floppy else .cartridge
  cylinders := byteAt bs 9
  heads := byteAt bs 10
  sectors := byteAt bs 11
  firstSector := byteAt bs 12
  blocks := leField bs 2 13
  unitSize := leField bs 2 15
  check := if byteAt bs 17 = 0 then .c16 else .c32
  seed := BitVec.ofNat 16 (leField bs 2 18)
  attemptLimit := byteAt bs 20
  minReads := byteAt bs 21
  burst := byteAt bs 22
  weakThreshold := byteAt bs 23
  repairAfter := byteAt bs 24
  repairLimit := byteAt bs 25
  flipDepth := byteAt bs 26
  shedQuality := byteAt bs 27
  shedCount := byteAt bs 28
  restBase := leField bs 2 29
  positionLimit := leField bs 4 31

/-- The first 47 bytes of a profile's record, bytes 35 to 46 holding 00h. -/
def Profile.body (p : Profile) : List Byte :=
  (p.name ++ List.replicate 8 0x20).take 8
    ++ leBytes 1 p.kind.code ++ leBytes 1 p.cylinders ++ leBytes 1 p.heads ++ leBytes 1 p.sectors
    ++ leBytes 1 p.firstSector ++ leBytes 2 p.blocks ++ leBytes 2 p.unitSize ++ leBytes 1 p.check.code
    ++ leBytes 2 p.seed.toNat ++ leBytes 1 p.attemptLimit ++ leBytes 1 p.minReads ++ leBytes 1 p.burst
    ++ leBytes 1 p.weakThreshold ++ leBytes 1 p.repairAfter ++ leBytes 1 p.repairLimit ++ leBytes 1 p.flipDepth
    ++ leBytes 1 p.shedQuality ++ leBytes 1 p.shedCount ++ leBytes 2 p.restBase ++ leBytes 4 p.positionLimit
    ++ List.replicate 12 0

/-- The sum of bytes modulo 256 (R2). -/
def byteSum (bs : List Byte) : Byte := bs.foldl (· + ·) 0

/-- A profile's 48 record bytes, byte 47 set to balance the sum (chapter 12, section 12.6). -/
def Profile.toBytes (p : Profile) : List Byte := p.body ++ [- byteSum p.body]

/-- The reason of the first failing test of a list. -/
def firstFailure : List (Bool × Reason) → Option Reason
  | [] => none
  | (fails, r) :: rest => if fails then some r else firstFailure rest

/-- `v` lies outside lo..hi. -/
def outside (v lo hi : Nat) : Bool := v < lo || hi < v

/-- R2: the reason of the first failing test, or nothing when the record is valid. -/
def testRecord (bs : List Byte) : Option Reason :=
  let p := Profile.ofBytes bs
  let fl := byteAt bs 8 == 0
  let ca := byteAt bs 8 == 1
  firstFailure [
    (byteSum bs != 0, .sum),
    ((bs.take 8).any fun c => outside c.toNat 0x20 0x7E, .name),
    (!fl && !ca, .kind),
    (fl && outside p.cylinders 1 96, .cylinders),
    (fl && outside p.heads 1 2, .heads),
    (fl && outside p.sectors 1 36, .sectors),
    (fl && outside p.firstSector 0 1, .firstSector),
    (ca && outside p.blocks 1 32768, .blocks),
    (!(if fl then [128, 256, 512, 1024] else [512, 1024, 2048, 4096]).contains p.unitSize, .unitSize),
    (outside (byteAt bs 17) 0 1, .checkKind),
    (outside p.minReads 1 8, .minReads),
    (outside p.burst 1 8, .burst),
    (outside p.weakThreshold 0 63, .weakThreshold),
    (outside p.repairAfter 1 255, .repairAfter),
    (outside p.repairLimit 0 12, .repairLimit),
    (outside p.flipDepth 1 2, .flipDepth),
    (outside p.shedQuality 0 7, .shedQuality),
    (outside p.shedCount 1 15, .shedCount),
    (outside p.restBase 10 60000, .restBase),
    (outside p.positionLimit 100 600000, .positionLimit)]

/-- The slot that a record makes when it is committed (R3, R162). -/
def commitSlot (src : Source) (bs : List Byte) : Slot :=
  match testRecord bs with
  | none => .valid src bs
  | some r => .invalid src r bs

/-- The built-in floppy profiles share their limits (R4). -/
def builtinFloppy (name : List Byte) (cylinders sectors firstSector unitSize : Nat) : Profile :=
  ⟨name, .floppy, cylinders, 2, sectors, firstSector, 0, unitSize, .c16, 0xFFFF, 32, 2, 3, 4, 3, 8, 2, 3, 4, 2000,
   1000⟩

/-- The four built-in profiles of R4: FD80D9, FD80D18, FD40D10 and CT16K1. -/
def builtinProfiles : List Profile :=
  [builtinFloppy [0x46, 0x44, 0x38, 0x30, 0x44, 0x39] 80 9 1 512,
   builtinFloppy [0x46, 0x44, 0x38, 0x30, 0x44, 0x31, 0x38] 80 18 1 512,
   builtinFloppy [0x46, 0x44, 0x34, 0x30, 0x44, 0x31, 0x30] 40 10 0 256,
   ⟨[0x43, 0x54, 0x31, 0x36, 0x4B, 0x31], .cartridge, 0, 0, 0, 0, 16384, 1024, .c32, 0, 16, 1, 2, 6, 2, 10, 2, 2,
    3, 5000, 120000⟩]

/-- R4: the table after the fallback. -/
def builtinTable : List Slot :=
  builtinProfiles.map (fun p => .valid .builtin p.toBytes) ++ List.replicate 12 .empty

/-! ### Figures of a profile (R1, R6, R12, R42) -/

/-- U (R1). -/
def Profile.units (p : Profile) : Nat :=
  match p.kind with
  | .floppy => p.cylinders * p.heads * p.sectors
  | .cartridge => p.blocks

/-- L: 2 for C16, 4 for C32 (R1). -/
def Profile.checkBytes (p : Profile) : Nat :=
  match p.check with
  | .c16 => 2
  | .c32 => 4

/-- B = S + L (R42). -/
def Profile.b (p : Profile) : Nat := p.unitSize + p.checkBytes

/-- Bytes of a unit's store slot: S + S/8 (R12). -/
def Profile.slotBytes (p : Profile) : Nat := p.unitSize + p.unitSize / 8

/-- P = ⌈U·(S + S/8)/4,096⌉ (R12). -/
def Profile.pages (p : Profile) : Nat := (p.units * p.slotBytes + 4095) / Config.pageBytes

/-- The POSITION target of a unit (R6): its cylinder or its block. -/
def Profile.target (p : Profile) (u : Nat) : Nat :=
  match p.kind with
  | .floppy => u / (p.heads * p.sectors)
  | .cartridge => u

/-- The parameters of the READ of a unit (R6, R88): head and sector, or block; then B. -/
def Profile.readParams (p : Profile) (u : Nat) : List Byte :=
  (match p.kind with
   | .floppy => leBytes 1 (u / p.sectors % p.heads) ++ leBytes 1 (u % p.sectors + p.firstSector)
   | .cartridge => leBytes 2 u) ++ leBytes 2 p.b

/-! ### Drive link frames (R88, R89; chapter 12, section 12.5) -/

/-- The command codes. -/
def Cmd.code : Cmd → Byte
  | .probe => 0x01
  | .position => 0x02
  | .poll => 0x03
  | .read => 0x04
  | .relax => 0x05

/-- A command frame: link address, code, parameters, CRC-8 over them (R86). -/
def commandFrame (d : DriveId) (c : Cmd) (params : List Byte) : List Byte :=
  let head := BitVec.ofNat 8 d.toNat :: c.code :: params
  head ++ [crc8 head]

/-- The adaptor states of a POLL reply (R88). -/
inductive AdaptorState where
  | ready | busy | fault
  deriving DecidableEq, Repr

/-- The fields of a good PROBE reply. -/
structure ProbeReport where
  kind : Kind
  medium : Bool
  position : Nat
  deriving DecidableEq, Repr

/-- The fields of a good POLL reply. -/
structure PollReport where
  state : AdaptorState
  medium : Bool
  changed : Bool
  position : Nat
  deriving DecidableEq, Repr

/-- An attempt result (R47). -/
structure Result where
  data : List Byte
  quals : List Nat
  sync : Bool
  deriving DecidableEq, Repr

/-- The good replies to a READ (R88). -/
inductive ReadReport where
  | data (r : Result)
  | fault
  deriving DecidableEq, Repr

/-- A reply frame's last byte is the CRC-8 of those before it (R86, R87). -/
def replyCrcOk (bs : List Byte) : Bool := bs.getLast? == some (crc8 bs.dropLast)

/-- A PROBE reply, where R89 finds it good. -/
def parseProbe (bs : List Byte) : Option ProbeReport :=
  if replyCrcOk bs && bs.length == 6 && byteAt bs 0 == 0x81 && byteAt bs 1 ≤ 1 then
    some ⟨if byteAt bs 1 = 0 then .floppy else .cartridge, byteAt bs 2 != 0, leField bs 2 3⟩
  else none

/-- A POLL reply, where R89 finds it good. -/
def parsePoll (bs : List Byte) : Option PollReport :=
  if replyCrcOk bs && bs.length == 7 && byteAt bs 0 == 0x82 && byteAt bs 1 ≤ 2 then
    some ⟨if byteAt bs 1 = 0 then .ready else if byteAt bs 1 = 1 then .busy else .fault, byteAt bs 2 != 0,
      byteAt bs 3 != 0, leField bs 2 4⟩
  else none

/-- A reply to a READ that named `b` bytes, where R89 finds it good. -/
def parseRead (b : Nat) (bs : List Byte) : Option ReadReport :=
  if replyCrcOk bs then
    if byteAt bs 0 == 0x83 && bs.length == 2 * b + 3 && ((bs.drop (2 + b)).take b).all (fun q => q.toNat ≤ 7) then
      some (.data ⟨(bs.drop 2).take b, ((bs.drop (2 + b)).take b).map BitVec.toNat, byteAt bs 1 != 0⟩)
    else if byteAt bs 0 == 0x84 && bs.length == 2 then some .fault
    else none
  else none

end Sys2Proof.Machine
end

