-- ==== Sys2Proof/Machine/Ops.lean ====
section
/-! DEFINITION. The named operations over the state: sparse memories (the image store and the Recovery Map), one
setter for each field that is held per drive, port or context, and the free runs of R7, R11 and R12. -/
namespace Sys2Proof.Machine

/-! ### Sparse memories in canonical form

A sparse memory lists its addresses strictly rising and lists no entry equal to what an unlisted address reads as. -/

/-- What an address reads as; `dflt` where it is not listed. -/
def Sparse.get {α : Type} (dflt : α) : List (Nat × α) → Nat → α
  | [], _ => dflt
  | (k, v) :: m, i => if i = k then v else Sparse.get dflt m i

/-- The memory less an address. -/
def Sparse.erase {α : Type} : List (Nat × α) → Nat → List (Nat × α)
  | [], _ => []
  | (k, v) :: m, i => if i = k then Sparse.erase m i else (k, v) :: Sparse.erase m i

/-- An entry put before the first address above its own. -/
def Sparse.insert {α : Type} : List (Nat × α) → Nat → α → List (Nat × α)
  | [], i, w => [(i, w)]
  | (k, v) :: m, i, w => if i < k then (i, w) :: (k, v) :: m else (k, v) :: Sparse.insert m i w

/-- A write of one address; writing `dflt` removes the entry. -/
def Sparse.set {α : Type} [DecidableEq α] (dflt : α) (m : List (Nat × α)) (i : Nat) (w : α) : List (Nat × α) :=
  if w = dflt then Sparse.erase m i else Sparse.insert (Sparse.erase m i) i w

/-- Every address of first to first + n − 1 at `dflt`. -/
def Sparse.clear {α : Type} (m : List (Nat × α)) (first n : Nat) : List (Nat × α) :=
  m.filter fun e => e.1 < first || first + n ≤ e.1

/-- Addresses above `lo`, strictly rising, no entry equal to `dflt`. -/
def Sparse.above {α : Type} [DecidableEq α] (dflt : α) (lo : Nat) : List (Nat × α) → Bool
  | [] => true
  | (k, v) :: m => lo < k && v != dflt && Sparse.above dflt k m

/-- The canonical form. -/
def Sparse.wf {α : Type} [DecidableEq α] (dflt : α) : List (Nat × α) → Bool
  | [] => true
  | (k, v) :: m => v != dflt && Sparse.above dflt k m

/-! ### The image store -/

/-- The image store (R12): byte addresses from the first byte of page 0. -/
abbrev Memory := List Host.Cell

/-- The store's canonical form. -/
def Memory.wf (m : Memory) : Bool := Sparse.wf Config.storeFill m

/-- One byte of the store. -/
def Memory.readByte (m : Memory) (a : Nat) : Byte := Sparse.get Config.storeFill m a

/-- A write of one byte of the store. -/
def Memory.writeByte (m : Memory) (a : Nat) (b : Byte) : Memory := Sparse.set Config.storeFill m a b

/-- `n` bytes of the store from an address. -/
def Memory.readBytes (m : Memory) : Nat → Nat → List Byte
  | _, 0 => []
  | a, n + 1 => Memory.readByte m a :: Memory.readBytes m (a + 1) n

/-- A run of bytes written from an address on. -/
def Memory.writeBytes (m : Memory) : Nat → List Byte → Memory
  | _, [] => m
  | a, b :: bs => Memory.writeBytes (Memory.writeByte m a b) (a + 1) bs

/-- Single cells written one after the other. -/
def Memory.writeCells (m : Memory) : List Host.Cell → Memory
  | [] => m
  | c :: cs => Memory.writeCells (Memory.writeByte m c.1 c.2) cs

/-! ### Setters -/

def State.setPort (s : State) (p : PortId) (v : Port) : State := { s with ports := s.ports.set p v }
def State.setOptions (s : State) (p : PortId) (v : PortOptions) : State := { s with options := s.options.set p v }
def State.setView (s : State) (p : PortId) (w : ViewId) (v : Option View) : State :=
  { s with views := s.views.set p ((s.views.get p).set w v) }
def State.setStream (s : State) (p : PortId) (w : ViewId) (v : Stream) : State :=
  { s with streams := s.streams.set p ((s.streams.get p).set w v) }
def State.setDeferred (s : State) (p : PortId) (v : List Deferred) : State :=
  { s with deferred := s.deferred.set p v }
def State.setError (s : State) (p : PortId) (v : Option PortCapture) : State := { s with errors := s.errors.set p v }
def State.setMount (s : State) (d : DriveId) (v : Option MountRec) : State := { s with mounts := s.mounts.set d v }
def State.setDiscard (s : State) (d : DriveId) (v : Bool) : State := { s with discard := s.discard.set d v }
def State.setWork (s : State) (d : DriveId) (v : List Entry) : State := { s with works := s.works.set d v }
def State.setCtx (s : State) (i : Nat) (v : Option OpenCtx) : State := { s with contexts := s.contexts.set i v }
def State.setCtxReq (s : State) (d : DriveId) (v : Option Nat) : State := { s with ctxReq := s.ctxReq.set d v }
def State.setSched (s : State) (d : DriveId) (v : Sched) : State := { s with scheds := s.scheds.set d v }
def State.setAttempt (s : State) (d : DriveId) (v : Option Attempt) : State :=
  { s with attempts := s.attempts.set d v }
def State.setDrive (s : State) (d : DriveId) (v : DriveLink) : State := { s with drives := s.drives.set d v }
def State.setRest (s : State) (d : DriveId) (v : Rest) : State := { s with rests := s.rests.set d v }
def State.setStats (s : State) (d : DriveId) (v : DriveStats) : State := { s with stats := s.stats.set d v }

/-- A port with its map cursor absent (R41). -/
def Port.noCursor (q : Port) : Port := { q with cursor := none }

/-! ### Unit records (R11, R20) -/

/-- The map record of unit `u` of a drive's mount. -/
def State.unitRec (s : State) (d : DriveId) (u : Nat) : UnitRec :=
  match s.mounts.get d with
  | none => .fresh
  | some m => Sparse.get .fresh s.unitMap (m.mapFirst + u)

/-- The record of unit `u` of a drive's mount written; nothing where the drive has no mount. -/
def State.setUnit (s : State) (d : DriveId) (u : Nat) (r : UnitRec) : State :=
  match s.mounts.get d with
  | none => s
  | some m => { s with unitMap := Sparse.set .fresh s.unitMap (m.mapFirst + u) r }

/-- The four terminal states (R21). -/
def UnitState.terminal : UnitState → Bool
  | .recovered | .exhausted | .blank | .abandoned => true
  | .unread | .active | .tried => false

def State.isTerminal (s : State) (d : DriveId) (u : Nat) : Bool := (s.unitRec d u).state.terminal

def State.isActive (s : State) (d : DriveId) (u : Nat) : Bool := (s.unitRec d u).state == .active

/-! ### Mounts -/

/-- The mount that takes requests on a mount: MOUNTED or LOST (chapter 2, section 2.4). -/
def State.openMount (s : State) (d : DriveId) : Option MountRec :=
  match s.mounts.get d with
  | some m => if m.phase == .unmounting then none else some m
  | none => none

/-- The drive's mount is MOUNTED. -/
def State.isMounted (s : State) (d : DriveId) : Bool :=
  match s.mounts.get d with
  | some m => m.phase == .mounted
  | none => false

/-- The map extents of the four mounts, each as its first record and length (R7). -/
def State.mapExtents (s : State) : List (Nat × Nat) :=
  s.mounts.toList.filterMap fun m => m.map fun m => (m.mapFirst, m.u)

/-- The store extents of the four mounts, each as its first page and page count (R7). -/
def State.storeExtents (s : State) : List (Nat × Nat) :=
  s.mounts.toList.filterMap fun m => m.map fun m => (m.storeFirst, m.pages)

/-- The run first to first + n − 1 shares nothing with an extent. -/
def disjointRun (first n : Nat) (e : Nat × Nat) : Bool := first + n ≤ e.1 || e.1 + e.2 ≤ first

/-- The run first to first + n − 1 lies below `limit` and is free. -/
def freeRun (limit : Nat) (ext : List (Nat × Nat)) (first n : Nat) : Bool :=
  first + n ≤ limit && ext.all (disjointRun first n)

/-- The places where a lowest free run can begin: 0, and the place after each extent. -/
def runStarts (ext : List (Nat × Nat)) : List Nat := 0 :: ext.map fun e => e.1 + e.2

/-- The least of a list of numbers. -/
def least : List Nat → Option Nat
  | [] => none
  | a :: l => match least l with
    | none => some a
    | some b => some (min a b)

/-- First fit, lowest first (R11, R12): the least first such that the run of `n` is free. -/
def firstFit (limit n : Nat) (ext : List (Nat × Nat)) : Option Nat :=
  least ((runStarts ext).filter fun r => freeRun limit ext r n)

/-- The length of the free run that begins at a place, 0 where the place is not free. -/
def runLength (limit : Nat) (ext : List (Nat × Nat)) (r : Nat) : Nat :=
  if freeRun limit ext r 1 then
    (least (limit :: (ext.map Prod.fst).filter fun f => r < f)).getD limit - r
  else 0

/-- The length of the longest free run (R7). -/
def largestRun (limit : Nat) (ext : List (Nat × Nat)) : Nat :=
  ((runStarts ext).map (runLength limit ext)).foldl max 0

/-- The first byte of a unit's store slot (R12). -/
def MountRec.slotAddr (m : MountRec) (u : Nat) : Nat := m.storeFirst * Config.pageBytes + u * m.snap.slotBytes

/-! ### Rests -/

/-- R108: the rest timer that reads `n`: stopped where that is 0, for the drive does not rest then. -/
def restTimer (n : Nat) : Timer := if n = 0 then none else some n

/-! ### Contexts -/

/-- The contexts with their numbers, in ascending order. -/
def State.numbered (s : State) : List (Nat × Option OpenCtx) := (List.range 8).zip s.contexts.toList

/-- The context's work is in evaluation: EVALUATING, REPAIRING or STORING (R39). -/
def OpenCtx.inEvaluation (c : OpenCtx) : Bool :=
  match c.phase with
  | .collecting => false
  | .evaluating _ | .repairing _ | .storing _ => true

/-- The context's number and fields, where an open context of a drive holds a unit. -/
def State.ctxOf (s : State) (d : DriveId) (u : Nat) : Option (Nat × OpenCtx) :=
  s.numbered.findSome? fun e =>
    match e.2 with
    | some c => if c.drive == d && c.unit == some u then some (e.1, c) else none
    | none => none

/-- The open contexts whose drive field names a drive (R75). -/
def State.openCount (s : State) (d : DriveId) : Nat :=
  (s.contexts.toList.filter fun c => c.any fun c => c.drive == d).length

/-- The number of FREE contexts (R42). -/
def State.freeCount (s : State) : Nat := (s.contexts.toList.filter Option.isNone).length

/-- The lowest-numbered FREE context. -/
def State.freeCtx (s : State) : Option Nat :=
  s.numbered.findSome? fun e => if e.2.isNone then some e.1 else none

end Sys2Proof.Machine
end

