-- ==== Sys2Proof/Machine/Flags.lean ====
section
/-! DEFINITION. Event flags, masks and attention lines (R151, R152), the capture records (R154, R155) and the
statistics counters (R157). -/
namespace Sys2Proof.Machine

/-- An event's position in a set (chapter 12). -/
def Event.pos : Event → Nat
  | .deferReady => 0
  | .mediumComplete => 1
  | .workIdle => 2
  | .restEntered => 3
  | .driveOffline => 4
  | .mediumChanged => 5
  | .linkFault => 6
  | .portError => 7
  | .loadDone => 8
  | .writeDone => 9
  | .wake => 10
  | .mapLost => 11
  | .resetDone => 12

/-- The set of one event. -/
def Event.bit (e : Event) : BitVec 13 := 1#13 <<< e.pos

/-- The attention line of a port is asserted exactly when a raised flag is enabled (R151). -/
def EventRegs.attention (r : EventRegs) : Bool := r.raw &&& r.mask != 0

def State.attention (s : State) (p : PortId) : Bool := (s.events.get p).attention

/-- A port's raw flag is set (R152). -/
def State.raise (s : State) (p : PortId) (e : Event) : State :=
  { s with events := s.events.set p { s.events.get p with raw := (s.events.get p).raw ||| e.bit } }

/-- The flag of each port is set (R152). -/
def State.raiseBoth (s : State) (e : Event) : State := (s.raise .a e).raise .b e

/-- R154: the five statuses whose refusals are captured. -/
def Status.captured : Status → Bool
  | .badRequest | .badParam | .frameError | .noView | .timeout => true
  | _ => false

/-- The first four parameter bytes, 00h beyond the frame's parameter length (R154). -/
def captureParams (params : List Byte) : List Byte := (params ++ [0, 0, 0, 0]).take 4

/-- R154: a capture arises on a port. -/
def State.captureRefusal (s : State) (p : PortId) (st : Status) (code tag : Byte) (params : List Byte) : State :=
  match s.errors.get p with
  | some c => s.setError p (some { c with multiple := true })
  | none => (s.setError p (some ⟨false, st, code, tag, captureParams params⟩)).raise p .portError

/-- R155: a link fault is offered to the shared record. -/
def State.captureFault (s : State) (d : DriveId) (c : Cmd) (u : Option Nat) (k : LinkFaultKind) : State :=
  match s.linkFault with
  | some r => { s with linkFault := some { r with multiple := true } }
  | none => { s with linkFault := some ⟨false, d, c, u, k⟩ }.raiseBoth .linkFault

/-! ### Statistics -/

/-- The counters of a drive by their numbers, 0 to 14 in the order of R157's table. -/
def DriveStats.toList (t : DriveStats) : List (BitVec 32) :=
  [t.attempts, t.noSync, t.rec1, t.rec2, t.rec4, t.rec8, t.rec16, t.rec17, t.repaired, t.ambiguous, t.exhausted,
   t.blank, t.abandoned, t.rests, t.linkFaults]

/-- The counter of a number written; unchanged where there is no such number. -/
def DriveStats.write (t : DriveStats) (i : Nat) (v : BitVec 32) : DriveStats :=
  match i with
  | 0 => { t with attempts := v }
  | 1 => { t with noSync := v }
  | 2 => { t with rec1 := v }
  | 3 => { t with rec2 := v }
  | 4 => { t with rec4 := v }
  | 5 => { t with rec8 := v }
  | 6 => { t with rec16 := v }
  | 7 => { t with rec17 := v }
  | 8 => { t with repaired := v }
  | 9 => { t with ambiguous := v }
  | 10 => { t with exhausted := v }
  | 11 => { t with blank := v }
  | 12 => { t with abandoned := v }
  | 13 => { t with rests := v }
  | 14 => { t with linkFaults := v }
  | _ => t

/-- The counter of a number rises by 1 and wraps (R157). -/
def State.count (s : State) (d : DriveId) (i : Nat) : State :=
  s.setStats d ((s.stats.get d).write i ((s.stats.get d).toList.getD i 0 + 1))

/-- The recovered bin of a number of attempts (R157). -/
def recoveredBin (attempts : Nat) : Nat :=
  if attempts ≤ 1 then 2 else if attempts ≤ 2 then 3 else if attempts ≤ 4 then 4 else if attempts ≤ 8 then 5
  else if attempts ≤ 16 then 6 else 7

/-- The bytes-served count of a port rises by `n` and wraps (R157). -/
def State.serve (s : State) (p : PortId) (n : Nat) : State :=
  { s with served := s.served.set p (s.served.get p + BitVec.ofNat 40 n) }

end Sys2Proof.Machine
end

