-- ==== Sys2Proof/Machine/WorkList.lean ====
section
/-! DEFINITION. The work lists (R27 to R34): effective classes, demands, displacement and withdrawal. -/
namespace Sys2Proof.Machine

/-- A class demanded or named by a withdrawal, in R28's rank. -/
def PortClass.higher : PortClass → PortClass → PortClass
  | .direct, _ | _, .direct => .direct
  | .ahead, _ | _, .ahead => .ahead
  | .none, .none => .none

/-- Neither port holds a class on the entry and the sweep did not place it. -/
def Entry.bare (e : Entry) : Bool := e.cls.a == .none && e.cls.b == .none && !e.sweep

/-- R28: the effective class of an entry whose unit is ACTIVE or not; none where the entry has to leave. -/
def Entry.eff (e : Entry) (active : Bool) : Option EffClass :=
  if e.cls.a == .direct || e.cls.b == .direct then some .direct
  else if e.cls.a == .ahead || e.cls.b == .ahead then some .ahead
  else if e.sweep then some .sweep
  else if active then some .residual
  else none

/-- The rank of an effective class, the higher the more urgent, and 0 for none (R28, R177). -/
def effRank : Option EffClass → Nat
  | none => 0
  | some c => c.code

/-- The effective class of an entry of a drive's list. -/
def State.effOf (s : State) (d : DriveId) (e : Entry) : Option EffClass := e.eff (s.isActive d e.unit)

/-- The entry of a unit. -/
def State.entryOf (s : State) (d : DriveId) (u : Nat) : Option Entry := (s.works.get d).find? fun e => e.unit == u

/-- R28: a port of priority HIGH holds a class on the entry equal to its effective class. -/
def State.marked (s : State) (d : DriveId) (e : Entry) : Bool :=
  let holds := fun p : PortId =>
    (s.options.get p).high &&
      match s.effOf d e, e.cls.get p with
      | some .direct, .direct => true
      | some .ahead, .ahead => true
      | _, _ => false
  holds .a || holds .b

/-- New work returns a QUIET part to ACTIVE (R116). -/
def State.newWork (s : State) : State :=
  if s.power.state == .quiet then { s with power := { s.power with state := .active } } else s

/-- The sweep of the drive's mount is on. -/
def State.sweepOn (s : State) (d : DriveId) : Bool :=
  match s.mounts.get d with
  | some m => m.sweepOn
  | none => false

/-- R83: the drive's waiting context request is withdrawn where its unit has no entry in the list. -/
def State.dropRequest (s : State) (d : DriveId) : State :=
  match s.ctxReq.get d with
  | some u => if (s.entryOf d u).isSome then s else s.setCtxReq d none
  | none => s

/-- The list takes a new value from which entries have left, and a context request made for the unit of one of them is
withdrawn at that moment (R30, R31, R83). -/
def State.leaveWork (s : State) (d : DriveId) (w : List Entry) : State := (s.setWork d w).dropRequest d

/-- R34, first case: the list takes a new value from which entries may have left; WORK_IDLE is raised when the last
entry leaves while the sweep is off. -/
def State.shrinkWork (s : State) (d : DriveId) (w : List Entry) : State :=
  let s' := s.leaveWork d w
  if !(s.works.get d).isEmpty && w.isEmpty && !s.sweepOn d then s'.raiseBoth .workIdle else s'

/-- The kinds of demand (R29). -/
inductive Demand where
  | direct (p : PortId) | ahead (p : PortId) | sweep
  deriving DecidableEq, Repr

/-- The outcomes of a demand (R29). -/
inductive Outcome29 where
  | satisfied | merged | inserted | refused | dropped
  deriving DecidableEq, Repr

/-- The entry with a demand merged into it (R29, outcome 2). -/
def Entry.merge (e : Entry) : Demand → Entry
  | .direct p => { e with cls := e.cls.set p ((e.cls.get p).higher .direct) }
  | .ahead p => { e with cls := e.cls.set p ((e.cls.get p).higher .ahead) }
  | .sweep => { e with sweep := true }

/-- A new entry for a demand (R29, outcome 3). -/
def Entry.new (u : Nat) (k : Demand) : Entry := Entry.merge ⟨u, ⟨.none, .none⟩, false⟩ k

/-- The newest of the entries that satisfy a test. -/
def newest (test : Entry → Bool) (w : List Entry) : Option Entry := (w.filter test).getLast?

/-- R30, R31: the entry that a demand displaces in a full list. A DIRECT demand takes the newest entry of the lowest
effective class below DIRECT among entries whose units are not ACTIVE: a SWEEP entry, or else an AHEAD entry. An
AHEAD demand takes the newest such SWEEP entry. A SWEEP demand displaces nothing. -/
def State.victim (s : State) (d : DriveId) (k : Demand) : Option Entry :=
  let ofClass := fun c => newest (fun e => !s.isActive d e.unit && s.effOf d e == some c) (s.works.get d)
  match k with
  | .direct _ => (ofClass .sweep).or (ofClass .ahead)
  | .ahead _ => ofClass .sweep
  | .sweep => none

/-- R30, R32: an entry leaves by displacement; one with the sweep flag moves the cursor back and turns the sweep on.
The waiting context request made for its unit is withdrawn. -/
def State.displace (s : State) (d : DriveId) (e : Entry) : State :=
  let s := s.leaveWork d ((s.works.get d).filter fun e' => e'.unit != e.unit)
  if e.sweep then
    match s.mounts.get d with
    | some m => s.setMount d (some { m with cursor := min m.cursor e.unit, sweepOn := true })
    | none => s
  else s

/-- An entry added in the newest place, which is new work on a MOUNTED mount (R29, R116). -/
def State.insertEntry (s : State) (d : DriveId) (e : Entry) : State :=
  let s := s.setWork d (s.works.get d ++ [e])
  if s.isMounted d then s.newWork else s

/-- R69: an entry that a port's demand has inserted or merged changes an input of the drive's scheduler, and a choice
is due, even where the entry held the class already. What a choice itself places, a SWEEP demand, calls for no other
choice (log 6). -/
def State.placed (s : State) (d : DriveId) : Demand → State
  | .direct _ | .ahead _ => s.setSched d { s.scheds.get d with owed := true }
  | .sweep => s

/-- R29: a demand is taken by a drive's work list. -/
def State.demand (s : State) (d : DriveId) (u : Nat) (k : Demand) : State × Outcome29 :=
  if s.isTerminal d u then (s, .satisfied)
  else match s.entryOf d u with
    | some e =>
      let s' := s.setWork d ((s.works.get d).map fun e' => if e'.unit == u then e'.merge k else e')
      let raised := effRank (s.effOf d e) < effRank (s.effOf d (e.merge k))
      ((if raised && s.isMounted d then s'.newWork else s').placed d k, .merged)
    | none =>
      if (s.works.get d).length < Config.workListSize then ((s.insertEntry d (Entry.new u k)).placed d k, .inserted)
      else match s.victim d k with
        | some v => (((s.displace d v).insertEntry d (Entry.new u k)).placed d k, .inserted)
        | none => (s, match k with
          | .direct _ => .refused
          | .ahead _ | .sweep => .dropped)

/-- Demands of one kind on the units u, u + 1, …, each taken as one event, whatever their outcomes (R141, R148);
units already terminal are Satisfied and take no entry. -/
def State.demands (s : State) (d : DriveId) (k : Demand) : Nat → Nat → State
  | _, 0 => s
  | u, n + 1 => State.demands (s.demand d u k).1 d k (u + 1) n

/-- R33: an entry on which the port holds exactly the named class loses it. -/
def Entry.withdraw (e : Entry) (p : PortId) (c : PortClass) : Entry :=
  if e.cls.get p == c then { e with cls := e.cls.set p .none } else e

/-- R33: a class of a port is withdrawn on the units lo to hi. An entry left with no class leaves the list unless its
unit is ACTIVE; WORK_IDLE follows as R34 lays down. -/
def State.withdrawClass (s : State) (d : DriveId) (p : PortId) (c : PortClass) (lo hi : Nat) : State :=
  s.shrinkWork d ((s.works.get d).filterMap fun e =>
    if lo ≤ e.unit ∧ e.unit ≤ hi then
      let e' := e.withdraw p c
      if e'.bare && !s.isActive d e.unit then none else some e'
    else some e)

end Sys2Proof.Machine
end

