-- ==== Sys2Proof/Machine/Transitions.lean ====
section
/-! DEFINITION. The transitions several commands share: the release of a context (R45, R46), the entry of a unit
into a terminal state (R24), the loss of a mount (R17), the end of an attempt (R79), the requests for link
transactions (R94). -/
namespace Sys2Proof.Machine

/-- The context becomes FREE (R45). A grant to a waiting drive follows as CONTEXT_GRANT (R82). -/
def State.release (s : State) (i : Nat) : State := s.setCtx i none

/-- R22, R46: the unit of a released context goes from ACTIVE to TRIED. On LOST an evaluation cut short leaves the
values it had fixed; a unit already ABANDONED (no unit in the context) is left so. -/
def State.releaseUnit (s : State) (lost : Bool) (c : OpenCtx) : State :=
  match c.unit with
  | none => s
  | some u =>
    let r := s.unitRec c.drive u
    let tried := { r with state := .tried }
    let fixed := fun v : EvalVals =>
      { tried with attempts := v.attempts, contributing := v.contributing, best := v.best, weak := v.weak }
    s.setUnit c.drive u <|
      match c.phase with
      | .evaluating v | .repairing v => if lost then fixed v else tried
      | .collecting | .storing _ => tried

/-- One context released because its drive's mount became LOST or UNMOUNTING (R14, R17). -/
def State.releaseOf (s : State) (lost : Bool) (d : DriveId) (i : Nat) : State :=
  match s.contexts.get? i with
  | some (some c) => if c.drive == d then (s.releaseUnit lost c).release i else s
  | _ => s

/-- Every context held for a drive released (R14, R17). -/
def State.releaseDrive (s : State) (lost : Bool) (d : DriveId) : State :=
  (List.range 8).foldl (fun s i => s.releaseOf lost d i) s

/-- A transaction of a drive is requested; one of a kind already pending is merged into it (R94). -/
def State.request (s : State) (d : DriveId) (t : PendTx) : State :=
  let l := s.drives.get d
  if l.pend.contains t then s else s.setDrive d { l with pend := l.pend ++ [t] }

/-- The requests of the given kinds are dropped (R94). -/
def DriveLink.drop (l : DriveLink) (ts : List PendTx) : DriveLink :=
  { l with pend := l.pend.filter fun t => !ts.contains t }

/-- R24, R145: every PENDING entry of a port that names the unit and whose units are all terminal becomes READY. -/
def State.readyOn (s : State) (d : DriveId) (u : Nat) (p : PortId) : State :=
  let hit := fun e : Deferred =>
    e.state == .pending && e.drive == d && e.first ≤ u && u < e.first + e.n &&
      (List.range e.n).all fun i => s.isTerminal d (e.first + i)
  let es := s.deferred.get p
  if es.any hit then
    (s.setDeferred p (es.map fun e => if hit e then { e with state := .ready } else e)).raise p .deferReady
  else s

/-- R25: the terminal count rises by 1, and MEDIUM_COMPLETE is raised when it reaches U. -/
def State.countTerminal (s : State) (d : DriveId) : State :=
  match s.mounts.get d with
  | none => s
  | some m =>
    let s' := s.setMount d (some { m with terminal := m.terminal + 1 })
    if m.terminal + 1 = m.u then s'.raiseBoth .mediumComplete else s'

/-- R24: the unit's record takes a terminal value, its entry leaves, the count rises, and deferred entries become
READY; a waiting context request for the unit is withdrawn (R83). The release of its context and the statistics are the
caller's. -/
def State.enterTerminal (s : State) (d : DriveId) (u : Nat) (r : UnitRec) : State :=
  let s := s.setUnit d u r
  let s := s.shrinkWork d ((s.works.get d).filter fun e => e.unit != u)
  let s := s.countTerminal d
  (s.readyOn d u .a).readyOn d u .b

/-- R38: a unit that is UNREAD, TRIED or held by an idle or linked context becomes ABANDONED, and the abandoned
statistic counts it. The context is the caller's. -/
def State.abandonUnit (s : State) (d : DriveId) (u : Nat) : State :=
  (s.enterTerminal d u { s.unitRec d u with state := .abandoned }).count d 12

/-- R67: the scheduler's values when its mount becomes LOST or UNMOUNTING, or is made anew. -/
def Sched.forget (c : Sched) : Sched := { c with last := none, burst := 0 }

/-- R17: a MOUNTED mount becomes LOST; in the other states nothing happens (R16). A READ that waits for the link is
withdrawn, and the context request with it, by `settle` (R78, R83). -/
def State.loseMount (s : State) (d : DriveId) : State :=
  match s.mounts.get d with
  | none => s
  | some m =>
    if m.phase == .mounted then
      let s1 := s.setMount d (some { m with phase := .lost })
      let s2 := if (s.attempts.get d).isSome then s1.setDiscard d true else s1
      let s3 := s2.setWork d ((s.works.get d).filter fun e => s.effOf d e != some .residual)
      let s4 := (s3.releaseDrive true d).setCtxReq d none
      s4.setSched d (s4.scheds.get d).forget
    else s

/-- The attempt's unit was given up while the attempt was on the link (R39). -/
def State.abandonPending (s : State) (d : DriveId) : Option Nat :=
  s.numbered.findSome? fun e =>
    match e.2 with
    | some c => if c.drive == d && c.abandonPending then some e.1 else none
    | none => none

/-- R79, R18, R45: the attempt of a drive ends: the discard flag is cleared, the poll timer stops, and a context that
is abandon-pending is released. -/
def State.endAttempt (s : State) (d : DriveId) : State :=
  let s := (s.setAttempt d none).setDiscard d false
  let s := s.setDrive d { s.drives.get d with poll := none }
  match s.abandonPending d with
  | some i => s.release i
  | none => s

/-- The scheduler's position becomes a value or unknown (R67, R98). -/
def State.setPosition (s : State) (d : DriveId) (pos : Option Nat) : State :=
  s.setSched d { s.scheds.get d with position := pos }

end Sys2Proof.Machine
end

