-- ==== Sys2Proof/Machine/Scheduler.lean ====
section
/-! DEFINITION. The Attempt Schedulers (chapter 4): when a choice is made, the burst test, the ranking with the
sweep candidate, the context of the chosen unit, the start of an attempt; and `settle`, which every command that
can change a scheduler's inputs ends with. -/
namespace Sys2Proof.Machine

/-- R70: an entry takes part in a choice unless its unit's context is in evaluation. -/
def State.eligible (s : State) (d : DriveId) (e : Entry) : Bool :=
  match s.ctxOf d e.unit with
  | some (_, c) => !c.inEvaluation
  | none => true

/-- The eligible entries of a drive's list, the oldest first. -/
def State.eligibles (s : State) (d : DriveId) : List Entry := (s.works.get d).filter (s.eligible d)

/-- Lexicographic order on keys of one length. -/
def lexLt : List Nat → List Nat → Bool
  | a :: as, b :: bs => a < b || (a == b && lexLt as bs)
  | _, _ => false

/-- The entry of the least key; of equal keys the older entry. -/
def firstBy (key : Entry → List Nat) : List Entry → Option Entry
  | [] => none
  | e :: es =>
    match firstBy key es with
    | none => some e
    | some b => if lexLt (key b) (key e) then some b else some e

/-- The distance between two cylinders. -/
def distance (a b : Nat) : Nat := (a - b) + (b - a)

/-- R72 to R74: the order of two entries is that of their keys, the older first where the keys agree. The effective
class comes first, the highest first, then the priority mark, then the medium: on a floppy the distance of the
cylinder from the position and then the cylinder, on a cartridge the blocks at or above the position before those
below it, each in ascending order. An unknown position is taken as 0. -/
def State.rankKey (s : State) (d : DriveId) (m : MountRec) (e : Entry) : List Nat :=
  let pos := (s.scheds.get d).position.getD 0
  let t := m.snap.target e.unit
  [4 - effRank (s.effOf d e), 1 - flag (s.marked d e)] ++
    match m.snap.kind with
    | .floppy => [distance t pos, t]
    | .cartridge => [flag (t < pos), t]

/-- R36, R72: the lowest-numbered unit from `u` on, among `n`, that is not terminal. -/
def State.nextOpen (s : State) (d : DriveId) : Nat → Nat → Option Nat
  | _, 0 => none
  | u, n + 1 => if s.isTerminal d u then State.nextOpen s d (u + 1) n else some u

/-- R36: the sweep candidate is found and given a SWEEP demand, or the sweep turns off on reaching U. -/
def State.sweepStep (s : State) (d : DriveId) : State :=
  match s.mounts.get d with
  | none => s
  | some m =>
    if m.sweepOn && !(s.eligibles d).any (fun e => effRank (some .sweep) < effRank (s.effOf d e)) then
      match s.nextOpen d m.cursor (m.u - m.cursor) with
      | some u =>
        match s.demand d u .sweep with
        | (s', .merged) | (s', .inserted) =>
          s'.setMount d (some { m with cursor := u + 1, sweepOn := u + 1 < m.u })
        | _ => s
      | none =>
        let s' := s.setMount d (some { m with cursor := m.u, sweepOn := false })
        if (s.works.get d).isEmpty then s'.raiseBoth .workIdle else s'
    else s

/-- R173: a unit is none of those that the scheduler has still to begin with. -/
def Sched.begun (c : Sched) (u : Nat) : Sched := { c with savedUnits := c.savedUnits.filter (· != u) }

/-- R77: an attempt of a unit starts, with a READ when the drive stands at the unit's target and with a POSITION
otherwise. A choice that finds a unit returns a QUIET part to ACTIVE (R68). -/
def State.startAttempt (s : State) (d : DriveId) (m : MountRec) (u burst : Nat) : State :=
  let s := s.newWork
  let c := s.scheds.get d
  let t := m.snap.target u
  let s := s.setSched d { c.begun u with state := .attempting, last := some u, burst := burst }
  s.setAttempt d (some
    { unit := u, phase := if c.position == some t then .needRead else .needPosition, target := t,
      readParams := m.snap.readParams u, b := m.snap.b, abandoned := false })

/-- R44, R22, R81, R82: a FREE context is opened for a unit of a drive, which becomes the last drive granted. The
votes of that unit begin anew, and it is none of those that a restore brought back (R173). -/
def State.openContext (s : State) (i : Nat) (d : DriveId) (m : MountRec) (u : Nat) : State :=
  let s := s.setCtx i (some ⟨.collecting, d, some u, m.snap.b, List.replicate (8 * m.snap.b) 0, false⟩)
  let s := s.setUnit d u { s.unitRec d u with state := .active }
  let s := s.setSched d ((s.scheds.get d).begun u)
  { s.setCtxReq d none with ctxLast := d }

/-- R76: the fallback choice, among eligible entries whose units are ACTIVE. -/
def State.fallback (s : State) (d : DriveId) (m : MountRec) : State :=
  match firstBy (s.rankKey d m) ((s.eligibles d).filter fun e => s.isActive d e.unit) with
  | some e => s.startAttempt d m e.unit 1
  | none => s.setSched d { s.scheds.get d with state := .waiting }

/-- No drive waits for a context. -/
def State.noneWaiting (s : State) : Bool := s.ctxReq.toList.all Option.isNone

/-- R72, R75: the ranking and the context of the chosen unit. -/
def State.rank (s : State) (d : DriveId) (m : MountRec) : State :=
  match firstBy (s.rankKey d m) (s.eligibles d) with
  | none => (s.setCtxReq d none).setSched d { s.scheds.get d with state := .idle }
  | some e =>
    if s.isActive d e.unit then (s.setCtxReq d none).startAttempt d m e.unit 1
    else if s.openCount d < s.settings.quota.get d then
      match s.freeCtx, s.noneWaiting with
      | some i, true => (s.openContext i d m e.unit).startAttempt d m e.unit 1
      | _, _ => (s.setCtxReq d (some e.unit)).fallback d m
    else (s.setCtxReq d none).fallback d m

/-- R71: the unit the burst test repeats. -/
def State.burstUnit (s : State) (d : DriveId) (m : MountRec) : Option Nat :=
  let c := s.scheds.get d
  match c.last with
  | none => none
  | some u =>
    let ownRank := effRank ((s.entryOf d u).bind (s.effOf d))
    let collecting := (s.ctxOf d u).any fun e => !e.2.inEvaluation
    if s.isActive d u && collecting && c.burst < m.snap.burst
      && !(s.eligibles d).any (fun e => ownRank < effRank (s.effOf d e)) then some u
    else none

/-- R70: the last unit's context is in EVALUATING or REPAIRING. -/
def State.lastEvaluating (s : State) (d : DriveId) : Bool :=
  match (s.scheds.get d).last with
  | none => false
  | some u =>
    (s.ctxOf d u).any fun e =>
      match e.2.phase with
      | .evaluating _ | .repairing _ => true
      | .collecting | .storing _ => false

/-- R173: the ACTIVE unit that the scheduler begins with after a restore that matched, the first in the order of R72 to
R74 among those whose votes were saved and that have had no attempt since. DEDUCED: each of them has one such choice
(log 32). -/
def State.savedChoice (s : State) (d : DriveId) (m : MountRec) : Option Entry :=
  firstBy (s.rankKey d m)
    ((s.eligibles d).filter fun e => (s.scheds.get d).savedUnits.contains e.unit && s.isActive d e.unit)

/-- R69 to R76, R173: a drive's scheduler makes its choice. -/
def State.choose (s : State) (d : DriveId) : State :=
  match s.mounts.get d with
  | none => s
  | some m =>
    if s.lastEvaluating d then s.setSched d { s.scheds.get d with state := .waiting }
    else match s.burstUnit d m with
      | some u => s.startAttempt d m u ((s.scheds.get d).burst + 1)
      | none =>
        match s.savedChoice d m with
        | some e => (s.setCtxReq d none).startAttempt d m e.unit 1
        | none => (s.sweepStep d).rank d m

/-- The power states in which schedulers run and idle drives are polled (R68, R101, R102). -/
def PowerState.running : PowerState → Bool
  | .active | .quiet => true
  | .entering | .saving | .dormant | .restoring => false

/-- A transaction of the drive is in its frame exchange. -/
def State.onLink (s : State) (d : DriveId) : Bool := s.link.exchange.any fun x => x.drive == d

/-- R68: the conditions under which a drive's scheduler makes a choice. -/
def State.runnable (s : State) (d : DriveId) : Bool :=
  s.isMounted d && (s.drives.get d).link == .online && (s.rests.get d).timer.isNone
    && (s.attempts.get d).isNone && !s.discard.get d
    && (s.drives.get d).pend.isEmpty && !s.onLink d && s.power.state.running

/-- The inputs of a scheduler (R69), with the judging of the last unit, whose end a WAITING scheduler awaits (R70). -/
structure SchedInputs where
  work : List Entry
  contexts : List (Nat × Option Nat × Bool)
  judging : Bool
  request : Option Nat
  sweep : Bool
  options : Pair PortOptions
  quota : Nat
  deriving DecidableEq, Repr

/-- R69: the inputs of a drive's scheduler as they stand. -/
def State.schedInputs (s : State) (d : DriveId) : SchedInputs where
  work := s.works.get d
  contexts := s.numbered.filterMap fun e =>
    match e.2 with
    | some c => if c.drive == d then some (e.1, c.unit, c.inEvaluation) else none
    | none => none
  judging := s.lastEvaluating d
  request := s.ctxReq.get d
  sweep := s.sweepOn d
  options := s.options
  quota := s.settings.quota.get d

/-- R78, R113: an attempt that has not begun ends when a blocking condition holds: its READ waits for the link, and the
drive rests or its result would be dropped, or its first transaction, a POSITION, waits and the drive rests. -/
def State.blocked (s : State) (d : DriveId) : AttemptPhase → Bool
  | .needRead =>
    s.discard.get d || !s.isMounted d || (s.abandonPending d).isSome || (s.rests.get d).timer.isSome
  | .needPosition => (s.rests.get d).timer.isSome
  | .positionSent | .moving | .needPoll | .pollSent | .readSent => false

/-- R78, R113: a transaction that waits for the link is withdrawn, and its attempt ends, when the attempt is blocked. -/
def State.withdrawRead (s : State) (d : DriveId) : State :=
  match s.attempts.get d with
  | some a => if s.blocked d a.phase then s.endAttempt d else s
  | none => s

/-- R83: the conditions under which a waiting context request stands. -/
def State.requestStands (s : State) (d : DriveId) (u : Nat) : Bool :=
  !s.isTerminal d u && (s.entryOf d u).isSome && s.isMounted d && (s.rests.get d).timer.isNone
    && (s.drives.get d).link == .online && s.power.state.running && s.openCount d < s.settings.quota.get d

/-- R83: a waiting context request is withdrawn when one of its conditions fails. -/
def State.withdrawRequest (s : State) (d : DriveId) : State :=
  match s.ctxReq.get d with
  | some u => if s.requestStands d u then s else s.setCtxReq d none
  | none => s

/-- R82: a context is FREE and a request waits. -/
def State.grantDue (s : State) : Bool := s.freeCtx.isSome && !s.noneWaiting

/-- R39: the evaluation that a port's ABANDON waits for has ended. -/
def State.abandonDue (s : State) (p : PortId) : Bool :=
  match (s.ports.get p).inProgress with
  | some ip => (s.ctxOf ip.drive ip.unit).all fun e => !e.2.inEvaluation
  | none => false

/-- R68, R69: a scheduler's state follows its attempt and its run conditions, and a choice is owed when it becomes
able to run, when its attempt has ended, or when one of its inputs has changed since `before`. An attempt that runs on
over a RESET request leaves its drive's scheduler STOPPED (R107), and so does one that runs on in ENTERING (R170; the
words of R68 that an attempt in flight makes it ATTEMPTING are read of the other power states, log 33). -/
def State.noteChoice (before s : State) (d : DriveId) : State :=
  let c := s.scheds.get d
  if (s.attempts.get d).isSome && (s.mounts.get d).isSome && s.power.state.running then
    s.setSched d { c with state := .attempting, owed := false }
  else if !s.runnable d then s.setSched d { c with state := .stopped, owed := false }
  else if c.state == .stopped || c.state == .attempting || c.owed
      || before.schedInputs d != s.schedInputs d then
    s.setSched d { c with state := .waiting, owed := true }
  else s

/-- A choice that is owed is made. -/
def State.makeChoice (s : State) (d : DriveId) : State :=
  let c := s.scheds.get d
  if c.owed then (s.setSched d { c with owed := false }).choose d else s

/-- The same operation on each of the four drives in ascending order. -/
def State.eachDrive (f : State → DriveId → State) (s : State) : State := f (f (f (f s .d0) .d1) .d2) .d3

/-- R82, R85, R39: the choices wait for a grant that is due and for an ABANDON that is due, which come first. -/
def State.choicesHeld (s : State) : Bool := s.grantDue || s.abandonDue .a || s.abandonDue .b

/-- R114: the part is without work. -/
def State.withoutWork (s : State) : Bool :=
  DriveId.all.all (fun d => !s.isMounted d || ((s.works.get d).isEmpty && !s.sweepOn d))
    && s.contexts.toList.all Option.isNone && s.attempts.toList.all Option.isNone
    && s.loader.stage == .idle && s.loader.write == .idle

/-- R114: the quiet timer runs exactly while the part is ACTIVE and without work, from the full delay. -/
def State.quietTimer (s : State) : State :=
  if s.power.state == .active && s.withoutWork then
    if s.power.quiet.isNone then
      { s with power := { s.power with quiet := some (s.settings.quietDelay * 1000) } }
    else s
  else { s with power := { s.power with quiet := none } }

/-- What follows at the same moment from a command that took `before` to `s`: the quiet timer starts or stops (R114),
READs and context requests whose conditions have failed are withdrawn (R78, R83), the schedulers make the choices that
are owed (R69), and the quiet timer starts or stops by what they have made of the part. Work that a choice at once takes
away again has so stopped the timer, which starts from the full delay. -/
def State.settle (s before : State) : State :=
  let s := s.quietTimer
  let s := s.eachDrive State.withdrawRead
  let s := s.eachDrive State.withdrawRequest
  let s := s.eachDrive (State.noteChoice before)
  let s := if s.choicesHeld then s else s.eachDrive State.makeChoice
  s.quietTimer

end Sys2Proof.Machine
end

