-- ==== Sys2Proof/Machine/Votes.lean ====
section
/-! DEFINITION. The arithmetic of read combining (R49 to R60): votes, consensus, weak bits, the weak-byte mask, the
unit check and the candidates of a repair search. -/
namespace Sys2Proof.Machine

/-- A vote is held within −127..+127 (R49). -/
def clampVote (v : Int) : Int := max (-127) (min 127 v)

/-- What one byte of a quality adds to its eight votes (R49). -/
def byteVotes (d : Byte) (q : Nat) : List Int :=
  (bitsMsb d).map fun bit => if bit then (q : Int) else -(q : Int)

/-- What a result adds to the votes, by bit index (R49). -/
def resultVotes (r : Result) : List Int := (List.zipWith byteVotes r.data r.quals).flatten

/-- The votes after a result with sync (R49). -/
def addVotes (votes : List Int) (r : Result) : List Int :=
  List.zipWith (fun v w => clampVote (v + w)) votes (resultVotes r)

/-- The mean quality of a result (R50). -/
def meanQuality (b : Nat) (r : Result) : Nat := if r.sync then r.quals.sum / b else 0

/-- Bytes from bits, most significant first. -/
def packBits : List Bool → List Byte
  | b7 :: b6 :: b5 :: b4 :: b3 :: b2 :: b1 :: b0 :: rest =>
    BitVec.ofNat 8 (flagSet [b0, b1, b2, b3, b4, b5, b6, b7]) :: packBits rest
  | _ => []

/-- The bits of the consensus (R51). -/
def consensusBits (votes : List Int) : List Bool := votes.map fun v => 0 < v

/-- The bytes of the consensus (R51). -/
def consensus (votes : List Int) : List Byte := packBits (consensusBits votes)

/-- A bit of this vote is weak (R51). -/
def weakVote (threshold : Nat) (v : Int) : Bool := v.natAbs ≤ threshold

/-- The weak bits as index and vote magnitude, in index order, `i` being the index of the first vote. -/
def weakBits (threshold : Nat) : Nat → List Int → List (Nat × Nat)
  | _, [] => []
  | i, v :: vs =>
    if weakVote threshold v then (i, v.natAbs) :: weakBits threshold (i + 1) vs else weakBits threshold (i + 1) vs

/-- W (R51). -/
def weakCount (threshold : Nat) (votes : List Int) : Nat := (weakBits threshold 0 votes).length

/-- For each byte, whether one of its eight bits is weak (R52). -/
def weakBytes (threshold : Nat) : List Int → List Bool
  | a :: b :: c :: d :: e :: f :: g :: h :: rest =>
    [a, b, c, d, e, f, g, h].any (weakVote threshold) :: weakBytes threshold rest
  | _ => []

/-- The weak-byte mask of the first `size` bytes (R52). -/
def weakMask (threshold size : Nat) (votes : List Int) : List Byte :=
  packBits ((weakBytes threshold votes).take size)

/-- R55: the data bytes pass the mount's check against the check field that follows them. -/
def Profile.passes (p : Profile) (bytes : List Byte) : Bool :=
  let data := bytes.take p.unitSize
  let field := bytes.drop p.unitSize
  match p.check with
  | .c16 => (c16 p.seed data).toNat == 256 * byteAt field 0 + byteAt field 1
  | .c32 => (c32 data).toNat == leField field 4 0

/-- A weak bit put among others by ascending magnitude, after those of a lower or equal one. -/
def insertWeak (w : Nat × Nat) : List (Nat × Nat) → List (Nat × Nat)
  | [] => [w]
  | x :: xs => if w.2 < x.2 then w :: x :: xs else x :: insertWeak w xs

/-- The weak bits by ascending magnitude, those of equal magnitude by ascending index (R60, step 1). -/
def orderWeak (ws : List (Nat × Nat)) : List Nat :=
  (ws.foldl (fun acc w => insertWeak w acc) []).map Prod.fst

/-- Every pair (bi, bj) with i < j, by ascending i and then j (R60, step 3). -/
def pairsOf : List Nat → List (List Nat)
  | [] => []
  | b :: bs => bs.map (fun c => [b, c]) ++ pairsOf bs

/-- The candidates of a search as the bit indices each inverts, in order (R60). -/
def candidates (depth : Nat) (order : List Nat) : List (List Nat) :=
  order.map (fun b => [b]) ++ if depth = 2 then pairsOf order else []

/-- Bits with those of the given indices inverted, `i` being the index of the first. -/
def invertBits (flips : List Nat) : Nat → List Bool → List Bool
  | _, [] => []
  | i, b :: bs => (if flips.contains i then !b else b) :: invertBits flips (i + 1) bs

/-- The bytes of a candidate (R60). -/
def candidateBytes (votes : List Int) (flips : List Nat) : List Byte :=
  packBits (invertBits flips 0 (consensusBits votes))

/-- The candidates that pass the check, in order (R60). -/
def passing (p : Profile) (votes : List Int) : List (List Nat) :=
  (candidates p.flipDepth (orderWeak (weakBits p.weakThreshold 0 votes))).filter fun c =>
    p.passes (candidateBytes votes c)

end Sys2Proof.Machine
end

