-- ==== Sys2Proof/Machine/Combiner.lean ====
section
/-! DEFINITION. The Read Combiner's evaluation of an attempt result (R47 to R63), the completion of a store write
(R64) and the Rest Controller's reports (R109, R110). -/
namespace Sys2Proof.Machine

/-- R110: a shed rest begins. The RELAX is requested and REST_ENTERED raised whether or not the timer was running. -/
def State.shed (s : State) (d : DriveId) (m : MountRec) : State :=
  let r := s.rests.get d
  let length := m.snap.restBase * 2 ^ r.level
  let s := s.setRest d
    { timer := restTimer (max r.left length), cause := if r.left < length then .shed else r.cause,
      level := min 3 (r.level + 1), weakRun := 0 }
  ((s.request d .relax).raiseBoth .restEntered).count d 13

/-- R109: the Rest Controller takes a mean quality. -/
def State.reportQuality (s : State) (d : DriveId) (m : MountRec) (mean : Nat) : State :=
  let r := s.rests.get d
  if mean < m.snap.shedQuality then
    let s := s.setRest d { r with weakRun := r.weakRun + 1 }
    if r.weakRun + 1 = m.snap.shedCount then s.shed d m else s
  else s.setRest d { r with weakRun := 0, level := 0 }

/-- A context's phase and votes replaced. -/
def State.setPhase (s : State) (i : Nat) (c : OpenCtx) (ph : CtxPhase) : State :=
  s.setCtx i (some { c with phase := ph })

/-- R58: the record an evaluation writes at its end, the state kept. -/
def UnitRec.evaluated (r : UnitRec) (v : EvalVals) (ambiguous : Bool) : UnitRec :=
  { r with attempts := v.attempts, contributing := v.contributing, best := v.best, weak := v.weak,
           ambiguous := r.ambiguous || ambiguous }

/-- R58, R63: the evaluation ends with a decision to write: the record is written and the context enters STORING. -/
def State.beginStore (s : State) (i : Nat) (c : OpenCtx) (u : Nat) (v : EvalVals) (ambiguous : Bool)
    (w : StoreWork) : State :=
  (s.setUnit c.drive u ((s.unitRec c.drive u).evaluated v ambiguous)).setPhase i c (.storing w)

/-- R62, R58: the attempt-limit test ends the evaluation: EXHAUSTED, BLANK, or no decision. `sync` says whether a
consensus was formed at this evaluation; where none was, the one formed here gives the weak count. -/
def State.limitTest (s : State) (i : Nat) (c : OpenCtx) (u : Nat) (m : MountRec) (v : EvalVals)
    (sync ambiguous : Bool) : State :=
  let p := m.snap
  let r := s.unitRec c.drive u
  if p.attemptLimit ≠ 0 ∧ p.attemptLimit ≤ v.attempts then
    if 0 < v.contributing then
      let v := if sync then v else { v with weak := weakCount p.weakThreshold c.votes }
      s.beginStore i c u v ambiguous
        ⟨.exhausted, .none, 0, (consensus c.votes).take p.unitSize, weakMask p.weakThreshold p.unitSize c.votes⟩
    else
      ((s.enterTerminal c.drive u { r.evaluated v ambiguous with state := .blank }).release i).count c.drive 11
  else (s.setUnit c.drive u (r.evaluated v ambiguous)).setPhase i c .collecting

/-- R57, R59: the consensus of a result with sync is judged: recovered, searched for a repair, or put to the limit
test. -/
def State.judge (s : State) (i : Nat) (c : OpenCtx) (u : Nat) (m : MountRec) (v : EvalVals) : State :=
  let p := m.snap
  let bytes := consensus c.votes
  if p.passes bytes then
    if p.minReads ≤ v.contributing then
      s.beginStore i c u v false
        ⟨.recovered, if v.contributing = 1 then .clean else .voted, 0, bytes.take p.unitSize,
          List.replicate (p.unitSize / 8) 0⟩
    else s.limitTest i c u m v true false
  else if max p.minReads p.repairAfter ≤ v.contributing ∧ 1 ≤ v.weak ∧ v.weak ≤ p.repairLimit then
    s.setPhase i c (.repairing v)
  else s.limitTest i c u m v true false

/-- The counts of an evaluation (R48, R50): a count held at 255. -/
def hold255 (n : Nat) : Nat := min 255 n

/-- R48, R50, R51: the record values the evaluation of a result fixes, the votes being those after the result. DEDUCED:
the new attempts are the record's plus 1 even where a second release has left the record above its limit (log 37). -/
def evalVals (p : Profile) (b : Nat) (rec : UnitRec) (r : Result) (votes : List Int) : EvalVals where
  attempts := hold255 (rec.attempts + 1)
  contributing := if r.sync then hold255 (rec.contributing + 1) else rec.contributing
  best := max rec.best (meanQuality b r)
  weak := if r.sync then weakCount p.weakThreshold votes else rec.weak

/-- R56: a result is taken into context `i`, which holds unit `u`: the hand-overs of R50, then the evaluation. -/
def State.evaluate (s : State) (i : Nat) (c : OpenCtx) (u : Nat) (m : MountRec) (r : Result) : State :=
  let votes := if r.sync then addVotes c.votes r else c.votes
  let v := evalVals m.snap c.b (s.unitRec c.drive u) r votes
  let c := { c with votes := votes }
  let s := s.setPhase i c (.evaluating v)
  let s := s.count c.drive 0
  let s := if r.sync then s else s.count c.drive 1
  let s := s.reportQuality c.drive m (meanQuality c.b r)
  if r.sync then s.judge i c u m v else s.limitTest i c u m v false false

/-- R47, R18, R39: the result of a drive's attempt is handed over: dropped under the discard flag, discarded when the
attempt's context is abandon-pending or gone, and otherwise evaluated. -/
def State.takeResult (s : State) (d : DriveId) (u : Nat) (r : Result) : State :=
  if s.discard.get d then s
  else match s.ctxOf d u, s.mounts.get d with
    | some (i, c), some m => s.evaluate i c u m r
    | _, _ => s

/-- R61: the repair search of context `i` ends. -/
def State.endSearch (s : State) (i : Nat) (c : OpenCtx) (u : Nat) (m : MountRec) (v : EvalVals) : State :=
  let p := m.snap
  match passing p c.votes with
  | [f] =>
    s.beginStore i c u v false
      ⟨.recovered, .repaired, f.length, (candidateBytes c.votes f).take p.unitSize,
        List.replicate (p.unitSize / 8) 0⟩
  | [] => s.limitTest i c u m v true false
  | _ => (s.count c.drive 9).limitTest i c u m v true true

/-- R64, R157: the store write of context `i` completes: the slot holds the bytes, and the unit enters its terminal
state with its method and flips. DESIGN CHOICE: all the bytes of the slot are written at this moment and none before it,
so that a write cut short leaves the slot as it was (log 30). -/
def State.completeStore (s : State) (i : Nat) (c : OpenCtx) (u : Nat) (m : MountRec) (w : StoreWork) : State :=
  let r := s.unitRec c.drive u
  let s := { s with store := Memory.writeBytes s.store (m.slotAddr u) (w.data ++ w.mask) }
  let s := s.enterTerminal c.drive u { r with state := w.state, method := w.method, flips := w.flips }
  let s := s.release i
  if w.state == .recovered then
    let s := s.count c.drive (recoveredBin r.attempts)
    if w.method == .repaired then s.count c.drive 8 else s
  else s.count c.drive 10

end Sys2Proof.Machine
end

