-- ==== Sys2Proof/Machine/Link.lean ====
section
/-! DEFINITION. The drive link (chapter 5): the arbiter, the end of a transaction, link faults, the medium report,
and what each reply does. -/
namespace Sys2Proof.Machine

/-! ### Requests and grants (R94, R105) -/

/-- A transaction that requests the link: of the drive's attempt, or a pending one. -/
inductive LinkTx where
  | attempt (c : Cmd) (a : Attempt)
  | pend (t : PendTx)
  deriving DecidableEq, Repr

/-- The transaction an attempt wants next, if any (R77, R96, R97). -/
def AttemptPhase.wants : AttemptPhase → Option Cmd
  | .needPosition => some .position
  | .needPoll => some .poll
  | .needRead => some .read
  | .positionSent | .moving | .pollSent | .readSent => none

/-- The phase of an attempt whose wanted transaction has been granted. -/
def AttemptPhase.sent : AttemptPhase → AttemptPhase
  | .needPosition => .positionSent
  | .needPoll => .pollSent
  | .needRead => .readSent
  | .positionSent => .positionSent
  | .moving => .moving
  | .pollSent => .pollSent
  | .readSent => .readSent

/-- The command of a transaction outside an attempt. -/
def PendTx.cmd : PendTx → Cmd
  | .relax => .relax
  | .probe => .probe
  | .presencePoll => .poll

def LinkTx.cmd : LinkTx → Cmd
  | .attempt c _ => c
  | .pend t => t.cmd

/-- PROBEs and presence POLLs are held outside ACTIVE and QUIET (R101, R102); a RELAX is sent in ENTERING as well
(R170). -/
def PowerState.allows (w : PowerState) : PendTx → Bool
  | .relax => w.running || w == .entering
  | .probe | .presencePoll => w.running

/-- R94: the transaction with which a drive requests the link. -/
def State.nextTx (s : State) (d : DriveId) : Option LinkTx :=
  match s.attempts.get d with
  | some a => a.phase.wants.map fun c => .attempt c a
  | none => ((s.drives.get d).pend.find? s.power.state.allows).map .pend

/-- R105: the drive the free link is granted to. -/
def State.grantOf (s : State) : Option DriveId :=
  if s.link.exchange.isSome || s.link.clearing then none
  else
    let req := fun d => (s.nextTx d).isSome
    (s.link.last.after.find? fun d => req d && s.settings.driveHigh.get d).or (s.link.last.after.find? req)

/-- The parameters of a transaction's command frame (R88). -/
def LinkTx.params : LinkTx → List Byte
  | .attempt .position a => leBytes 2 a.target
  | .attempt .read a => a.readParams
  | .attempt .probe _ | .attempt .poll _ | .attempt .relax _ | .pend _ => []

/-- The B that a READ names (R88, R97). -/
def LinkTx.b : LinkTx → Nat
  | .attempt _ a => a.b
  | .pend _ => 0

/-- The transaction belongs to the drive's attempt. -/
def LinkTx.ofAttempt : LinkTx → Bool
  | .attempt _ _ => true
  | .pend _ => false

/-- The frame exchange that a grant begins, the wait for the acknowledge running from `ackWait` milliseconds. -/
def LinkTx.exchange (t : LinkTx) (d : DriveId) (ackWait : Nat) : Exchange :=
  ⟨d, t.cmd, t.ofAttempt, commandFrame d t.cmd t.params, t.b, some ackWait, none, false⟩

/-- R86, R92, R105: a drive's transaction begins its frame exchange, the wait for its acknowledge ACK_WAIT long. -/
def State.grantLink (s : State) (d : DriveId) (t : LinkTx) : State :=
  let s := { s with link := ⟨some (t.exchange d s.settings.ackWait), s.link.clearing, d⟩ }
  match t with
  | .attempt _ a => s.setAttempt d (some { a with phase := a.phase.sent })
  | .pend t => s.setDrive d ((s.drives.get d).drop [t])

/-- LINK_GRANT, where it is due: the free link is granted to a drive that requests it (R105). -/
def State.linkStep (s : State) : Option State :=
  match s.grantOf with
  | some d => (s.nextTx d).map (s.grantLink d)
  | none => none

/-! ### The end of a transaction -/

/-- The transaction leaves the link. -/
def State.endExchange (s : State) : State := { s with link := { s.link with exchange := none } }

/-- R100: a transaction that ends well sets the miss counter to 0. -/
def State.endedWell (s : State) (d : DriveId) : State := s.setDrive d { s.drives.get d with miss := 0 }

/-- R101, R102: the timers that start at the end of a PROBE or POLL. -/
def State.pollEnd (s : State) (d : DriveId) (c : Cmd) (good : Bool) : State :=
  let l := s.drives.get d
  match c with
  | .probe | .poll =>
    if l.link == .online then s.setDrive d { l with presence := some s.settings.presencePoll }
    else if c == .probe && !good then s.setDrive d { l with reprobe := some s.settings.reprobeInterval }
    else s
  | .position | .read | .relax => s

/-- R91: an ONLINE drive becomes OFFLINE. -/
def State.goOffline (s : State) (d : DriveId) : State :=
  let l := s.drives.get d
  let s := s.setDrive d
    { l.drop [.relax, .presencePoll] with
      link := .offline, presence := none, reprobe := some s.settings.reprobeInterval }
  (s.raiseBoth .driveOffline).loseMount d

/-- R100: a NO_ACK or REPLY_ERROR is counted. -/
def State.missed (s : State) (d : DriveId) : State :=
  let l := s.drives.get d
  let n := min 15 (l.miss + 1)
  match l.link with
  | .offline => s
  | .online =>
    let s := s.setDrive d { l with miss := n }
    if s.settings.missLimit ≤ n then s.goOffline d else s
  | .absent =>
    let s := s.setDrive d { l with miss := n }
    if s.settings.missLimit ≤ n ∧ s.isMounted d then (s.raiseBoth .driveOffline).loseMount d else s

/-- The faults that count as a miss (R100). -/
def LinkFaultKind.miss : LinkFaultKind → Bool
  | .noAck | .replyError => true
  | .stretchTimeout | .positionTimeout | .adaptorFault => false

/-- R98: the five steps of a link fault; `positioning` says that it ended a POSITION or one of its POLLs. -/
def State.takeFault (s : State) (d : DriveId) (c : Cmd) (u : Option Nat) (k : LinkFaultKind) (positioning : Bool) :
    State :=
  let s := (s.captureFault d c u k).count d 14
  let s := if k.miss then s.missed d else s
  let s := if positioning then s.setPosition d none else s
  match k with
  | .positionTimeout | .adaptorFault => s.request d .relax
  | .noAck | .replyError | .stretchTimeout => s

/-- The end of a transaction that ran on over a RESET request: nothing of it is taken or counted, and the attempt it
belonged to ends (R107). -/
def State.endOrphan (s : State) (x : Exchange) : State :=
  if x.ofAttempt then s.endExchange.endAttempt x.drive else s.endExchange

/-- NO_ACK, REPLY_ERROR or STRETCH_TIMEOUT ends a transaction (R92, R93, R98). -/
def State.faultTx (s : State) (x : Exchange) (k : LinkFaultKind) : State :=
  if x.orphan then (s.endOrphan x).settle s
  else
    let s' := s.endExchange
    let u := if x.ofAttempt then (s.attempts.get x.drive).map Attempt.unit else none
    let s' := s'.takeFault x.drive x.cmd u k (x.ofAttempt && x.cmd != .read)
    let s' := s'.pollEnd x.drive x.cmd false
    let s' := if x.ofAttempt then s'.endAttempt x.drive else s'
    s'.settle s

/-! ### Good replies -/

/-- R103: the medium report of a good PROBE or POLL reply. -/
def State.takeMedium (s : State) (d : DriveId) (present changed : Bool) (kind : Option Kind) : State :=
  let l := s.drives.get d
  let s := s.setDrive d { l with medium := present, known := true, kind := kind.or l.kind }
  let s := if (l.known && present != l.medium) || changed then s.raiseBoth .mediumChanged else s
  match s.mounts.get d with
  | some m => if !present || changed || kind.any (fun k => k != m.snap.kind) then s.loseMount d else s
  | none => s

/-- R89, steps 1 and 2, of a good PROBE or POLL reply. -/
def State.takeReport (s : State) (d : DriveId) (present changed : Bool) (kind : Option Kind) (position : Nat) :
    State :=
  (((s.endedWell d).setPosition d (some position)).takeMedium d present changed kind)

/-- R91: a good PROBE reply makes an ABSENT or OFFLINE drive ONLINE, and a RELAX is requested (R99). -/
def State.goOnline (s : State) (d : DriveId) : State :=
  let l := s.drives.get d
  if l.link == .online then s
  else
    (s.setDrive d
      { l.drop [.probe] with link := .online, reprobe := none, presence := some s.settings.presencePoll }).request d
        .relax

/-- R89: the reply frame of a PROBE. -/
def State.probeReply (s : State) (x : Exchange) (bytes : List Byte) : State :=
  if x.orphan then (s.endOrphan x).settle s
  else match parseProbe bytes with
    | none => s.faultTx x .replyError
    | some r =>
      let s' := s.endExchange.takeReport x.drive r.medium false (some r.kind) r.position
      ((s'.goOnline x.drive).pollEnd x.drive .probe true).settle s

/-- R102: the reply frame of a presence POLL. -/
def State.presenceReply (s : State) (x : Exchange) (bytes : List Byte) : State :=
  if x.orphan then (s.endOrphan x).settle s
  else match parsePoll bytes with
    | none => s.faultTx x .replyError
    | some r =>
      let s' := s.endExchange.takeReport x.drive r.medium r.changed none r.position
      let s' := s'.pollEnd x.drive .poll true
      let s' := match r.state with
        | .fault => s'.takeFault x.drive .poll none .adaptorFault false
        | .ready | .busy => s'
      s'.settle s

/-- The attempt of a drive with its phase replaced. -/
def State.setAttemptPhase (s : State) (d : DriveId) (ph : AttemptPhase) : State :=
  match s.attempts.get d with
  | some a => s.setAttempt d (some { a with phase := ph })
  | none => s

/-- R96: the poll timer of a positioning starts. -/
def State.startPollTimer (s : State) (d : DriveId) : State :=
  (s.setAttemptPhase d .moving).setDrive d { s.drives.get d with poll := some s.settings.pollInterval }

/-- R78: no READ follows the positioning of a drive's attempt. -/
def State.noRead (s : State) (d : DriveId) : Bool :=
  s.discard.get d || !s.isMounted d || (s.abandonPending d).isSome || (s.rests.get d).timer.isSome
    || s.power.state == .entering

/-- R96: the position limit of the drive's mount has passed. -/
def State.limitPassed (s : State) (d : DriveId) : Bool :=
  match s.mounts.get d with
  | some m => m.snap.positionLimit ≤ s.now - (s.drives.get d).posStart
  | none => true

/-- R96, R104: the reply frame of a POLL of a positioning, the attempt being `a`. -/
def State.positionPollReply (s : State) (x : Exchange) (bytes : List Byte) : State :=
  if x.orphan then (s.endOrphan x).settle s
  else match parsePoll bytes with
    | none => s.faultTx x .replyError
    | some r =>
      let d := x.drive
      let s' := s.endExchange.takeReport d r.medium r.changed none r.position
      let s' := s'.pollEnd d .poll true
      let u := (s.attempts.get d).map Attempt.unit
      let s' :=
        if (s.attempts.get d).any Attempt.abandoned then s'.endAttempt d
        else match r.state with
          | .ready => if s'.noRead d then s'.endAttempt d else s'.setAttemptPhase d .needRead
          | .busy =>
            if s'.limitPassed d then (s'.takeFault d .poll u .positionTimeout true).endAttempt d
            else s'.startPollTimer d
          | .fault => (s'.takeFault d .poll u .adaptorFault true).endAttempt d
      s'.settle s

/-- R96: the acknowledge of a POSITION. -/
def State.positionAck (s : State) (x : Exchange) : State :=
  if x.orphan then (s.endOrphan x).settle s
  else
    let d := x.drive
    let s' := s.endExchange.endedWell d
    let s' :=
      if (s.attempts.get d).any Attempt.abandoned then s'.endAttempt d
      else (s'.setDrive d { s'.drives.get d with posStart := s.now }).startPollTimer d
    s'.settle s

/-- R97: the reply frame of a READ. -/
def State.readReply (s : State) (x : Exchange) (bytes : List Byte) : State :=
  if x.orphan then (s.endOrphan x).settle s
  else match parseRead x.b bytes, s.attempts.get x.drive with
    | some (.data r), some a =>
      (((s.endExchange.endedWell x.drive).takeResult x.drive a.unit r).endAttempt x.drive).settle s
    | some .fault, some a =>
      (((s.endExchange.endedWell x.drive).takeFault x.drive .read (some a.unit) .adaptorFault false).endAttempt
        x.drive).settle s
    | none, _ => s.faultTx x .replyError
    | some _, none => s.endExchange.settle s

/-- R99: the acknowledge of a RELAX. -/
def State.relaxAck (s : State) (x : Exchange) : State :=
  if x.orphan then (s.endOrphan x).settle s
  else (s.endExchange.endedWell x.drive).settle s

/-- R93: the fault STRETCH_TIMEOUT, after which the link stays taken until the link-clear pattern has been sent. -/
def State.stretchOut (s : State) (x : Exchange) : State :=
  let s' := s.faultTx x .stretchTimeout
  { s' with link := { s'.link with clearing := true } }

/-! ### The abandonment of a positioning (R104) -/

/-- The phases of a positioning in flight. DEDUCED: an attempt whose POSITION is requested and waits for the link counts
as one (log 31). -/
def AttemptPhase.positioning : AttemptPhase → Bool
  | .needPosition | .positionSent | .moving | .needPoll | .pollSent => true
  | .needRead | .readSent => false

/-- A transaction of the attempt is in its frame exchange. -/
def AttemptPhase.inExchange : AttemptPhase → Bool
  | .positionSent | .pollSent | .readSent => true
  | .needPosition | .moving | .needPoll | .needRead => false

/-- The transaction of a drive in its frame exchange runs on over a RESET request (R107). -/
def State.orphaned (s : State) (d : DriveId) : Bool := s.link.exchange.any fun x => x.drive == d && x.orphan

/-- R104 at the entry into ENTERING: the drive's positioning in flight, if any, is abandoned. DEDUCED: one that a RESET
has abandoned already is not abandoned again, and no RELAX is requested for it (log 35). -/
def State.abandonPositioning (s : State) (d : DriveId) : State :=
  match s.attempts.get d with
  | none => s
  | some a =>
    if a.phase.positioning && !s.orphaned d then
      let s := (s.request d .relax).setPosition d none
      let s := s.setDrive d { s.drives.get d with poll := none }
      if a.phase.inExchange then s.setAttempt d (some { a with abandoned := true }) else s.endAttempt d
    else s

/-! ### Time -/

/-- What a timer has left after `k` milliseconds. -/
def Timer.fall (k : Nat) (t : Timer) : Timer := t.map (· - k)

/-- The power states in which the rest timers and the link timers run (R112, R101, R102). -/
def PowerState.timersRun : PowerState → Bool
  | .active | .quiet | .entering => true
  | .saving | .dormant | .restoring => false

/-- A drive's link timers after `k` milliseconds. -/
def DriveLink.fall (l : DriveLink) (k : Nat) : DriveLink :=
  { l with presence := l.presence.fall k, reprobe := l.reprobe.fall k, poll := l.poll.fall k }

/-- The waits of a transaction after `k` milliseconds. -/
def Exchange.fall (x : Exchange) (k : Nat) : Exchange := { x with ack := x.ack.fall k, hold := x.hold.fall k }

/-- `k` milliseconds pass: every timer that runs in the power state falls. -/
def State.elapse (s : State) (k : Nat) : State :=
  let run := s.power.state.timersRun
  { s with
    now := s.now + k
    rests := if run then s.rests.map (fun r => { r with timer := r.timer.fall k }) else s.rests
    drives := if run then s.drives.map (fun l => l.fall k) else s.drives
    link := { s.link with exchange := s.link.exchange.map fun x => x.fall k }
    power := { s.power with
      quiet := s.power.quiet.fall k
      wakeTimer := if s.power.state == .dormant then s.power.wakeTimer.fall k else s.power.wakeTimer } }

/-- The timers of the part that run out: of a drive, of the transaction on the link, and of the Power Controller. -/
inductive TimerId where
  | rest (d : DriveId) | poll (d : DriveId) | presence (d : DriveId) | reprobe (d : DriveId)
  | ack | hold | quiet | wake
  deriving DecidableEq, Repr

/-- The timers in one fixed order (log 3). -/
def TimerId.all : List TimerId :=
  DriveId.all.flatMap (fun d => [.rest d, .poll d, .presence d, .reprobe d]) ++ [.ack, .hold, .quiet, .wake]

/-- A timer of the part where it runs in the power state of the moment, and otherwise a stopped one. -/
def State.timer (s : State) : TimerId → Timer
  | .rest d => if s.power.state.timersRun then (s.rests.get d).timer else none
  | .poll d => if s.power.state.timersRun then (s.drives.get d).poll else none
  | .presence d => if s.power.state.timersRun then (s.drives.get d).presence else none
  | .reprobe d => if s.power.state.timersRun then (s.drives.get d).reprobe else none
  | .ack => s.link.exchange.bind Exchange.ack
  | .hold => s.link.exchange.bind Exchange.hold
  | .quiet => if s.power.state == .active then s.power.quiet else none
  | .wake => if s.power.state == .dormant then s.power.wakeTimer else none

/-- R112: a drive's rest has run out. -/
def State.rested (s : State) (d : DriveId) : Bool := s.timer (.rest d) == some 0

/-- R112: the rests that have run out expire: their cause is NONE, and the choice of R68 follows. -/
def State.restsOver (s : State) : State :=
  if DriveId.all.any s.rested then
    ({ s with rests := Quad.ofFn fun d =>
        if s.rested d then { s.rests.get d with timer := none, cause := .none } else s.rests.get d }).settle s
  else s

/-- `k` milliseconds pass, and a rest that reaches 0 in them expires at their end (R112). -/
def State.pass (s : State) (k : Nat) : State := (s.elapse k).restsOver

/-- No running timer has less than `k` milliseconds left. -/
def State.noneBefore (s : State) (k : Nat) : Bool := TimerId.all.all fun i => (s.timer i).all (k ≤ ·)

/-- The command that is a timer's expiry. -/
def TimerId.expiry : TimerId → Instr
  | .rest d => .restExpiry d
  | .poll d => .pollTimerExpiry d
  | .presence d => .presenceTimerExpiry d
  | .reprobe d => .reprobeTimerExpiry d
  | .ack => .noAck
  | .hold => .stretchTimeout
  | .quiet => .quietTimerExpiry
  | .wake => .wakeTimerExpiry

/-- The first timer that has run out. -/
def State.runOut (s : State) : Option TimerId := TimerId.all.find? fun i => s.timer i == some 0

end Sys2Proof.Machine
end

