-- ==== Sys2Proof/Machine/MountRequests.lean ====
section
/-! DEFINITION. The requests on a mount record: MOUNT (R10 to R13), UNMOUNT (R14, R15) and RESUME (R19). -/
namespace Sys2Proof.Machine

/-- The answer of an owning block: a status and a payload at once, or, for an ABANDON of a unit in evaluation, none
yet (R121, R39). -/
inductive Answer where
  | reply (st : Status) (payload : List Byte)
  | waits (d : DriveId) (u : Nat)
  deriving DecidableEq, Repr

/-- What a request leaves of the part, with its answer. -/
abbrev Handled := State × Answer

/-- A refusal that changes nothing (R125). -/
def State.refuse (s : State) (st : Status) : Handled := (s, .reply st [])

/-! ### MOUNT -/

/-- R10: the first failing test of a MOUNT with its payload, or what the mount takes: the profile, the first map
record and the first store page. -/
def State.mountTests (s : State) (d : DriveId) (slot : Nat) : Except (Status × List Byte) (Profile × Nat × Nat) :=
  let l := s.drives.get d
  if (s.mounts.get d).isSome then .error (.alreadyMounted, [])
  else if l.link != .online || !l.medium then .error (.noMedium, [])
  else match s.table.getD slot .empty with
    | .empty | .invalid _ _ _ => .error (.profileInvalid, [])
    | .valid _ bytes =>
      let p := Profile.ofBytes bytes
      if l.kind != some p.kind then .error (.kindMismatch, [])
      else match firstFit Config.mapRecords p.units s.mapExtents with
        | none => .error (.noSpace, [0])
        | some r =>
          match firstFit Config.storePages p.pages s.storeExtents with
          | none => .error (.noSpace, [1])
          | some q => .ok (p, r, q)

/-- R13: the mount record of a successful MOUNT. -/
def newMount (slot : Nat) (p : Profile) (r q : Nat) : MountRec :=
  ⟨.mounted, slot, p, p.units, r, q, p.pages, false, 0, 0⟩

/-- R13, R67, R108: a MOUNT whose tests pass. -/
def State.mountOn (s : State) (d : DriveId) (m : MountRec) : State :=
  let s := s.setMount d (some m)
  let s := { s with unitMap := Sparse.clear s.unitMap m.mapFirst m.u }
  let s := s.setWork d []
  let s := s.setSched d (s.scheds.get d).forget
  (s.setRest d { s.rests.get d with level := 0, weakRun := 0 }).newWork

/-- The payload of an OK answer to MOUNT (R13). -/
def MountRec.payload (m : MountRec) : List Byte :=
  leBytes 1 m.slot ++ leBytes 2 m.u ++ leBytes 2 m.mapFirst ++ leBytes 2 m.storeFirst ++ leBytes 2 m.pages

/-- MOUNT (R10). -/
def State.doMount (s : State) (d : DriveId) (slot : Nat) : Handled :=
  match s.mountTests d slot with
  | .error (st, payload) => (s, .reply st payload)
  | .ok (p, r, q) =>
    let m := newMount slot p r q
    ((s.mountOn d m).settle s, .reply .ok m.payload)

/-! ### UNMOUNT -/

/-- R146: every entry of a port that names the drive becomes GONE; DEFER_READY is raised where one was not GONE. -/
def State.goneOn (s : State) (d : DriveId) (p : PortId) : State :=
  let es := s.deferred.get p
  let hit := fun e : Deferred => e.drive == d && e.state != .gone
  if es.any hit then
    (s.setDeferred p (es.map fun e => if hit e then { e with state := .gone } else e)).raise p .deferReady
  else s

/-- R147: the streams of the views of a port that show the drive are emptied. -/
def State.emptyStreams (s : State) (d : DriveId) (p : PortId) : State :=
  { s with streams := s.streams.set p (Quad.ofFn fun w =>
      if ((s.views.get p).get w).any (fun v => v.drive == d) then Stream.empty else (s.streams.get p).get w) }

/-- R41: a port's cursor that names the drive becomes absent. -/
def State.dropCursor (s : State) (d : DriveId) (p : PortId) : State :=
  let q := s.ports.get p
  if q.cursor.any (fun c => c.1 == d) then s.setPort p q.noCursor else s

/-- R14: UNMOUNT is taken of a MOUNTED or LOST mount. -/
def State.unmountOf (s : State) (d : DriveId) (m : MountRec) : State :=
  let s := if (s.attempts.get d).isSome then s.setDiscard d true else s
  let s := (s.releaseDrive false d).setCtxReq d none
  let s := s.setMount d (some { m with phase := .unmounting, sweepOn := false })
  let s := s.setWork d []
  let s := s.setSched d (s.scheds.get d).forget
  let s := (s.goneOn d .a).goneOn d .b
  let s := (s.emptyStreams d .a).emptyStreams d .b
  (s.dropCursor d .a).dropCursor d .b

/-- UNMOUNT (R14). Its completion follows as UNMOUNT_COMPLETE (R15), at once where no attempt is in flight. -/
def State.doUnmount (s : State) (d : DriveId) : Handled :=
  match s.openMount d with
  | none => s.refuse .notMounted
  | some m => ((s.unmountOf d m).settle s, .reply .ok [])

/-- R15: an UNMOUNTING mount of the drive stands and no attempt of it is in flight. -/
def State.unmountDue (s : State) (d : DriveId) : Bool :=
  (s.mounts.get d).any (fun m => m.phase == .unmounting) && (s.attempts.get d).isNone

/-- R15: the mount completes: its extents are freed and its fields absent, and a RELAX is requested. -/
def State.completeUnmount (s : State) (d : DriveId) : State :=
  match s.mounts.get d with
  | none => s
  | some m =>
    let s' := { s.setMount d none with unitMap := Sparse.clear s.unitMap m.mapFirst m.u }
    (if (s'.drives.get d).link == .online then s'.request d .relax else s').settle s

/-! ### RESUME -/

/-- RESUME (R19). -/
def State.doResume (s : State) (d : DriveId) : Handled :=
  match s.mounts.get d with
  | none => s.refuse .notMounted
  | some m =>
    match m.phase with
    | .unmounting => s.refuse .notMounted
    | .mounted => s.refuse .alreadyMounted
    | .lost =>
      let l := s.drives.get d
      if l.link != .online || !l.medium then s.refuse .noMedium
      else
        let s' := s.setMount d (some { m with phase := .mounted })
        let s' := (s'.setSched d (s'.scheds.get d).forget).newWork
        (s'.settle s, .reply .ok [])

end Sys2Proof.Machine
end

