-- ==== Sys2Proof/Machine/MapRequests.lean ====
section
/-! DEFINITION. The requests on the map and the work lists: RECOVER (R37), SWEEP (R35), ABANDON (R38, R39), QUERY MAP
(R40, R177) and QUERY MAP NEXT (R41). -/
namespace Sys2Proof.Machine

/-! ### RECOVER -/

/-- R37: DIRECT demands on the units from `u`, until one is Refused; with the number accepted, `k` of them before. -/
def State.recoverRun (s : State) (d : DriveId) (p : PortId) : Nat → Nat → Nat → State × Nat
  | _, 0, k => (s, k)
  | u, n + 1, k =>
    match s.demand d u (.direct p) with
    | (_, .refused) => (s, k)
    | (s', _) => State.recoverRun s' d p (u + 1) n (k + 1)

/-- RECOVER (R37). The scheduler's choice follows the last demand (log 25). A refusal changes nothing and brings no
choice about (R125). -/
def State.doRecover (s : State) (p : PortId) (d : DriveId) (first count : Nat) : Handled :=
  match s.openMount d with
  | none => s.refuse .notMounted
  | some m =>
    if m.u ≤ first then s.refuse .badParam
    else
      let n := min count (m.u - first)
      let r := s.recoverRun d p first n 0
      let payload := leBytes 2 r.2 ++ leBytes 2 n
      if 1 ≤ r.2 then (r.1.settle s, .reply .ok payload) else (s, .reply .busy payload)

/-! ### SWEEP -/

/-- R33, R35: the entries of a list after the sweep flags are cleared. -/
def State.unswept (s : State) (d : DriveId) : List Entry :=
  (s.works.get d).filterMap fun e =>
    let e' := { e with sweep := false }
    if e'.bare && !s.isActive d e.unit then none else some e'

/-- The payload of an OK answer to SWEEP: the state and the cursor. -/
def sweepPayload (on : Bool) (cursor : Nat) : List Byte := leBytes 1 (flag on) ++ leBytes 2 cursor

/-- SWEEP (R35). DESIGN CHOICE: the answer holds the state and the cursor as the request leaves them, before the choice
of the scheduler that follows at the same moment and can move the cursor (log 29). -/
def State.doSweep (s : State) (d : DriveId) (on : Bool) (start : Nat) : Handled :=
  match s.openMount d with
  | none => s.refuse .notMounted
  | some m =>
    if on then
      if m.u ≤ start then s.refuse .badParam
      else
        let s' := s.setMount d (some { m with sweepOn := true, cursor := start })
        let s' := if m.phase == .mounted then s'.newWork else s'
        (s'.settle s, .reply .ok (sweepPayload true start))
    else
      let w := s.unswept d
      let s' := (s.setMount d (some { m with sweepOn := false })).leaveWork d w
      let s' := if w.isEmpty then s'.raiseBoth .workIdle else s'
      (s'.settle s, .reply .ok (sweepPayload false m.cursor))

/-! ### ABANDON -/

/-- An ABANDON that is carried out, with the unit's state code as its payload. -/
def abandonOk (st : UnitState) : Answer := .reply .ok (leBytes 1 st.code)

/-- ABANDON (R38, R39). -/
def State.doAbandon (s : State) (d : DriveId) (u : Nat) : Handled :=
  match s.openMount d with
  | none => s.refuse .notMounted
  | some m =>
    if m.u ≤ u then s.refuse .badParam
    else if s.isTerminal d u then (s, abandonOk (s.unitRec d u).state)
    else match s.ctxOf d u with
      | none => ((s.abandonUnit d u).settle s, abandonOk .abandoned)
      | some (i, c) =>
        if c.inEvaluation then (s, .waits d u)
        else
          let s' := s.abandonUnit d u
          let s' :=
            if (s.attempts.get d).any (fun a => a.unit == u) then
              s'.setCtx i (some { c with unit := none, abandonPending := true })
            else s'.release i
          (s'.settle s, abandonOk .abandoned)

/-! ### QUERY MAP -/

/-- R177: the 8 bytes of a unit's summary. -/
def State.summary (s : State) (d : DriveId) (u : Nat) : List Byte :=
  let r := s.unitRec d u
  let cls := effRank ((s.entryOf d u).bind (s.effOf d))
  leBytes 2 u ++ leBytes 1 (r.state.code + 8 * cls) ++ leBytes 1 r.attempts ++ leBytes 1 r.contributing
    ++ leBytes 2 r.weak ++ leBytes 1 (r.best + 8 * r.method.code + 32 * r.flips + 128 * flag r.ambiguous)

/-- R40: the payload of a query of `n` units. -/
def State.queryPayload (s : State) (d : DriveId) (first n : Nat) : List Byte :=
  leBytes 1 d.toNat ++ leBytes 2 first ++ leBytes 1 n
    ++ (List.range n).flatMap fun i => s.summary d (first + i)

/-- QUERY MAP (R40). -/
def State.doQueryMap (s : State) (p : PortId) (d : DriveId) (first count : Nat) : Handled :=
  match s.openMount d with
  | none => s.refuse .notMounted
  | some m =>
    if m.u ≤ first then s.refuse .badParam
    else
      let n := min count (m.u - first)
      let next := if first + n = m.u then 0 else first + n
      (s.setPort p { s.ports.get p with cursor := some (d, next) }, .reply .ok (s.queryPayload d first n))

/-- QUERY MAP NEXT (R41). -/
def State.doQueryMapNext (s : State) (p : PortId) (count : Nat) : Handled :=
  match (s.ports.get p).cursor with
  | none => s.refuse .notMounted
  | some (d, u) => s.doQueryMap p d u count

end Sys2Proof.Machine
end

