-- ==== Sys2Proof/Machine/Loader.lean ====
section
/-! DEFINITION. The Profile Loader (chapter 10): the loader run item by item, the settings, and the write of the
profile memory. -/
namespace Sys2Proof.Machine

/-! ### Settings (R165) -/

/-- The range of a known setting id. -/
def settingRange : Nat → Option (Nat × Nat)
  | 0x01 | 0x02 => some (0, 1)
  | 0x03 | 0x04 => some (0, 255)
  | 0x10 | 0x11 | 0x12 | 0x13 => some (1, 8)
  | 0x14 | 0x15 | 0x16 | 0x17 => some (0, 1)
  | 0x20 => some (1, 20)
  | 0x21 => some (1, 255)
  | 0x22 => some (5, 500)
  | 0x23 => some (100, 5000)
  | 0x24 => some (500, 10000)
  | 0x25 => some (1, 15)
  | 0x26 => some (1, 3600)
  | _ => none

/-- The setting of an id takes a value within its range; unchanged for an unknown id. -/
def Settings.put (t : Settings) (id v : Nat) : Settings :=
  match id with
  | 0x01 => { t with portHigh := t.portHigh.set .a (v == 1) }
  | 0x02 => { t with portHigh := t.portHigh.set .b (v == 1) }
  | 0x03 => { t with deferLimit := t.deferLimit.set .a v }
  | 0x04 => { t with deferLimit := t.deferLimit.set .b v }
  | 0x10 => { t with quota := t.quota.set .d0 v }
  | 0x11 => { t with quota := t.quota.set .d1 v }
  | 0x12 => { t with quota := t.quota.set .d2 v }
  | 0x13 => { t with quota := t.quota.set .d3 v }
  | 0x14 => { t with driveHigh := t.driveHigh.set .d0 (v == 1) }
  | 0x15 => { t with driveHigh := t.driveHigh.set .d1 (v == 1) }
  | 0x16 => { t with driveHigh := t.driveHigh.set .d2 (v == 1) }
  | 0x17 => { t with driveHigh := t.driveHigh.set .d3 (v == 1) }
  | 0x20 => { t with ackWait := v }
  | 0x21 => { t with pollInterval := v }
  | 0x22 => { t with stretchLimit := v }
  | 0x23 => { t with presencePoll := v }
  | 0x24 => { t with reprobeInterval := v }
  | 0x25 => { t with missLimit := v }
  | 0x26 => { t with quietDelay := v }
  | _ => t

/-- A value clamped to the nearest end of a range. -/
def clampTo (lo hi v : Nat) : Nat := max lo (min hi v)

/-- R163: a setting record is applied: a known id takes the clamped value, an unknown one is counted. -/
def State.applySetting (s : State) (id v : Nat) : State :=
  match settingRange id with
  | some (lo, hi) =>
    let s := { s with settings := s.settings.put id (clampTo lo hi v) }
    if outside v lo hi then { s with loader := { s.loader with clamped := min 255 (s.loader.clamped + 1) } } else s
  | none => { s with loader := { s.loader with unknown := min 255 (s.loader.unknown + 1) } }

/-! ### The run (R161 to R164) -/

/-- R160, R163: the bus address of a setting record. -/
def Loader.settingAddr (l : Loader) (j : Nat) : Nat := 4 + 48 * l.records + 3 * j

/-- R160: the bus address at which the loader's next read begins, in a run. -/
def Loader.address (l : Loader) : Option Nat :=
  match l.stage with
  | .idle => none
  | .marker => some 0
  | .count => some 1
  | .record i => some (2 + 48 * i)
  | .settingsMarker => some (2 + 48 * l.records)
  | .settingsCount => some (3 + 48 * l.records)
  | .setting j => some (l.settingAddr j)

/-- The loader's next read. -/
def State.setStage (s : State) (g : LoadStage) : State := { s with loader := { s.loader with stage := g } }

/-- R161: a run begins; the fields of the last write stay. -/
def State.startRun (s : State) : State :=
  { s with
    loader := { s.loader with
      stage := .marker, noMemory := false, badMarker := false, busFault := false, noSettings := false,
      overflow := false, records := 0, unknown := 0, clamped := 0, m := 0 }
    table := List.replicate Config.profileSlots .empty
    settings := Settings.defaults }

/-- R126, R164: the ports' options take their settings. -/
def Settings.portOptions (t : Settings) : Pair PortOptions :=
  ⟨⟨t.portHigh.a, t.deferLimit.a⟩, ⟨t.portHigh.b, t.deferLimit.b⟩⟩

/-- R164: the run ends. -/
def State.endRun (s : State) : State :=
  ({ s with options := s.settings.portOptions }.setStage .idle).raiseBoth .loadDone

/-- R161, R4: the built-in profiles are committed and the run ends. -/
def State.fallBack (s : State) : State := { s with table := builtinTable }.endRun

/-- R161: byte 0 has been read. -/
def State.markerRead (s : State) (b : Byte) : State :=
  if b = 0xC3 then s.setStage .count
  else { s with loader := { s.loader with badMarker := true } }.fallBack

/-- R161, R162: byte 1 has been read. -/
def State.countRead (s : State) (b : Byte) : State :=
  let n := min 16 b.toNat
  ({ s with loader := { s.loader with records := n } }).setStage (if n = 0 then .settingsMarker else .record 0)

/-- R162: profile record `i` has been read whole. -/
def State.recordRead (s : State) (i : Nat) (bytes : List Byte) : State :=
  ({ s with table := s.table.set i (commitSlot .memory bytes) }).setStage
    (if i + 1 < s.loader.records then .record (i + 1) else .settingsMarker)

/-- R163: the run goes on to setting record `j`, or ends: after the last one, or with OVERFLOW before one that would
run past address 1,023. -/
def State.toSetting (s : State) (j : Nat) : State :=
  if s.loader.m ≤ j then s.endRun
  else if Config.profileMemoryTop < s.loader.settingAddr j + 2 then
    { s with loader := { s.loader with overflow := true } }.endRun
  else s.setStage (.setting j)

/-- R163: the settings marker has been read. -/
def State.settingsMarkerRead (s : State) (b : Byte) : State :=
  if b = 0x3C then s.setStage .settingsCount
  else { s with loader := { s.loader with noSettings := true } }.endRun

/-- R163: M has been read. -/
def State.settingsCountRead (s : State) (b : Byte) : State :=
  { s with loader := { s.loader with m := b.toNat } }.toSetting 0

/-- R163: setting record `j` has been read whole. -/
def State.settingRead (s : State) (j : Nat) (id lo hi : Byte) : State :=
  (s.applySetting id.toNat (lo.toNat + 256 * hi.toNat)).toSetting (j + 1)

/-- R161: the memory did not acknowledge a read of the run. -/
def State.busNoAck (s : State) : State :=
  if s.loader.stage = .marker then { s with loader := { s.loader with noMemory := true } }.fallBack
  else { s with loader := { s.loader with busFault := true } }.endRun

/-! ### The write (R166, R167) -/

/-- R166: a write begins. -/
def State.startWrite (s : State) (p : PortId) (addr : Nat) (data : List Byte) : State :=
  { s with loader := { s.loader with
      write := .transfer, writePort := p, outcome := .none, writeAddr := addr, writeData := data, writeAcked := 0 } }

/-- R167: the write ends. -/
def State.endWrite (s : State) (o : WriteOutcome) : State :=
  ({ s with loader := { s.loader with write := .idle, outcome := o } }).raise s.loader.writePort .writeDone

/-- R166: the transfer of the address and data bytes ends. -/
def State.transferEnd (s : State) (acked : Bool) : State :=
  if acked then { s with loader := { s.loader with write := .polling, writeAcked := s.now } }
  else s.endWrite .noAck

/-- R167: a poll ends. -/
def State.writePollEnd (s : State) (acked : Bool) : State :=
  if acked then s.endWrite .done
  else if Config.writeLimit ≤ s.now - s.loader.writeAcked then s.endWrite .timeout
  else { s with loader := { s.loader with write := .spacing } }

/-- R167: the next poll is sent. -/
def State.nextWritePoll (s : State) : State := { s with loader := { s.loader with write := .polling } }

end Sys2Proof.Machine
end

