-- ==== Sys2Proof/Machine/Power.lean ====
section
/-! DEFINITION. The values of the blocks after a RESET request (R130), the save image and its bytes (R171), the wake
and the two outcomes of a restore (R172 to R174). -/
namespace Sys2Proof.Machine

/-! ### RESET values -/

/-- R104, R107: the attempts that a RESET request leaves in flight: those with a transaction in its frame exchange. -/
def keptAttempt : Option Attempt → Option Attempt
  | some a => if a.phase.inExchange then some a else none
  | none => none

/-- R130: every block takes its RESET values, the event flags and masks being `ev`. The Profile Table, settings,
statistics, port options, loader and store stay. -/
def State.clearAll (s : State) (ev : EventRegs) : State :=
  { s with
    ports := s.ports.map Port.noCursor
    views := Pair.both (Quad.four none)
    streams := Pair.both (Quad.four Stream.empty)
    deferred := Pair.both []
    events := Pair.both ev
    errors := Pair.both none
    linkFault := none
    mounts := Quad.four none
    discard := s.attempts.map fun a => (keptAttempt a).isSome
    unitMap := []
    works := Quad.four []
    contexts := Oct.all none
    ctxReq := Quad.four none
    ctxLast := .d3
    scheds := Quad.four Sched.start
    attempts := s.attempts.map keptAttempt
    drives := Quad.four DriveLink.start
    link := ⟨s.link.exchange.map fun x => { x with orphan := true }, s.link.clearing, .d3⟩
    rests := Quad.four Rest.start
    power := Power.start }

/-- The event flags and mask after a RESET request (R151). -/
def EventRegs.afterReset : EventRegs := ⟨Event.resetDone.bit, Event.resetDone.bit⟩

/-- The event flags and mask after a failed restore (R151). -/
def EventRegs.afterFailure : EventRegs := ⟨Event.mapLost.bit, Event.resetDone.bit ||| Event.mapLost.bit⟩

/-- R131: a RESET from one port ends the request in progress on the other, which answers NOT_READY unless a waiting
request is present. -/
def Port.resetByOther (q : Port) : Port :=
  match q.inProgress with
  | none => q
  | some ip =>
    { q with inProgress := none
             response := if q.waiting.isSome then q.response else some ⟨.notReady, ip.tag, []⟩ }

/-! ### The bytes of the save image (R171)

The spec gives the order of the image's parts and not their layout, which is the model's (log 12). -/

def boolByte (b : Bool) : List Byte := leBytes 1 (flag b)

/-- A list as its length and its items. -/
def listBytes {α : Type} (f : α → List Byte) (l : List α) : List Byte := leBytes 2 l.length ++ l.flatMap f

/-- An optional item behind a byte that says whether it is present. -/
def optBytes {α : Type} (f : α → List Byte) : Option α → List Byte
  | none => [0]
  | some a => 1 :: f a

def driveByte (d : DriveId) : List Byte := leBytes 1 d.toNat

def MountPhase.code : MountPhase → Nat
  | .mounted => 1
  | .lost => 2
  | .unmounting => 3

def MountRec.bytes (m : MountRec) : List Byte :=
  leBytes 1 m.phase.code ++ leBytes 1 m.slot ++ m.snap.toBytes ++ leBytes 2 m.u ++ leBytes 2 m.mapFirst
    ++ leBytes 2 m.storeFirst ++ leBytes 2 m.pages ++ boolByte m.sweepOn ++ leBytes 2 m.cursor
    ++ leBytes 2 m.terminal

def UnitRec.bytes (r : UnitRec) : List Byte :=
  leBytes 1 r.state.code ++ leBytes 1 r.attempts ++ leBytes 1 r.contributing ++ leBytes 1 r.method.code
    ++ leBytes 1 r.flips ++ leBytes 2 r.weak ++ leBytes 1 r.best ++ boolByte r.ambiguous

/-- The map records of a mount, in unit order. -/
def recordsBytes (unitMap : List (Nat × UnitRec)) : Option MountRec → List Byte
  | none => []
  | some m => (List.range m.u).flatMap fun u => (Sparse.get UnitRec.fresh unitMap (m.mapFirst + u)).bytes

def OpenCtx.bytes (c : OpenCtx) : List Byte :=
  driveByte c.drive ++ optBytes (leBytes 2) c.unit ++ leBytes 2 c.b ++ c.votes.map (BitVec.ofInt 8)
    ++ boolByte c.abandonPending

def Entry.bytes (e : Entry) : List Byte :=
  leBytes 2 e.unit ++ leBytes 1 e.cls.a.code ++ leBytes 1 e.cls.b.code ++ boolByte e.sweep

def View.bytes (v : View) : List Byte :=
  driveByte v.drive ++ leBytes 4 v.base ++ leBytes 1 v.k ++ leBytes 2 v.target ++ leBytes 1 v.ra
    ++ boolByte v.deliverPartial

def Stream.bytes (t : Stream) : List Byte :=
  optBytes (leBytes 5) t.expected ++ optBytes (fun r => leBytes 2 r.1 ++ leBytes 2 r.2) t.range

def Deferred.bytes (e : Deferred) : List Byte :=
  leBytes 4 e.address ++ leBytes 1 e.count ++ driveByte e.drive ++ leBytes 2 e.first ++ leBytes 1 e.n
    ++ leBytes 1 e.retries ++ leBytes 1 e.state.code

def EventRegs.bytes (r : EventRegs) : List Byte := leBytes 2 r.raw.toNat ++ leBytes 2 r.mask.toNat

/-- The 8 bytes of a port's error capture record (chapter 12, section 12.2); 00h where the record is not valid
(R176). -/
def portCaptureBytes : Option PortCapture → List Byte
  | none => List.replicate 8 0
  | some c => leBytes 1 (flagSet [true, c.multiple]) ++ [c.status.byte, c.code, c.tag] ++ c.params

/-- The 6 bytes of the link-fault record. -/
def linkCaptureBytes : Option LinkCapture → List Byte
  | none => List.replicate 6 0
  | some c =>
    leBytes 1 (flagSet [true, c.multiple]) ++ leBytes 1 c.drive.toNat ++ leBytes 1 c.cmd.recordCode
      ++ leBytes 2 (c.unit.getD 0xFFFF) ++ leBytes 1 c.kind.code

/-- The 60 bytes of a drive's counters, in the order of R157's table. -/
def DriveStats.bytes (t : DriveStats) : List Byte := t.toList.flatMap fun v => leBytes 4 v.toNat

/-- The 250 bytes of all counters (chapter 12, section 12.2). -/
def statsBytes (stats : Quad DriveStats) (served : Pair (BitVec 40)) : List Byte :=
  stats.toList.flatMap DriveStats.bytes ++ leBytes 5 served.a.toNat ++ leBytes 5 served.b.toNat

/-- One port's views, streams and deferred read table. -/
def SaveImage.portBytes (im : SaveImage) (p : PortId) : List Byte :=
  (im.views.get p).toList.flatMap (optBytes View.bytes) ++ (im.streams.get p).toList.flatMap Stream.bytes
    ++ listBytes Deferred.bytes (im.deferred.get p)

/-- The image after its length field, in the order R171 lists its parts. -/
def SaveImage.body (im : SaveImage) : List Byte :=
  im.mounts.toList.flatMap (optBytes MountRec.bytes)
    ++ im.mounts.toList.flatMap (recordsBytes im.unitMap)
    ++ im.contexts.toList.flatMap (optBytes OpenCtx.bytes)
    ++ im.works.toList.flatMap (listBytes Entry.bytes)
    ++ im.portBytes .a ++ im.portBytes .b
    ++ im.events.a.bytes ++ im.events.b.bytes
    ++ portCaptureBytes im.errors.a ++ portCaptureBytes im.errors.b ++ linkCaptureBytes im.linkFault
    ++ statsBytes im.stats im.served

/-- What the store write of a body puts into the save area: the length, the body, and the CRC-32 of both, low byte
first (R171). -/
def imageBytes (body : List Byte) : List Byte :=
  let head := leBytes 4 body.length ++ body
  head ++ leBytes 4 (c32 head).toNat

/-- The fields of R171 as they stand. -/
def State.image (s : State) : SaveImage where
  mounts := s.mounts
  unitMap := s.unitMap
  contexts := s.contexts
  works := s.works
  views := s.views
  streams := s.streams
  deferred := s.deferred
  events := s.events
  errors := s.errors
  linkFault := s.linkFault
  stats := s.stats
  served := s.served

/-! ### Entering and saving -/

/-- R170: the part is settled. DEDUCED: while the link-clear pattern that follows a STRETCH_TIMEOUT is still to be sent
the link has not freed (R93), and that holds the part in ENTERING (log 34). -/
def State.settled (s : State) : Bool :=
  s.attempts.toList.all Option.isNone
    && s.contexts.toList.all (fun c => !c.any OpenCtx.inEvaluation)
    && s.link.exchange.isNone && !s.link.clearing
    && s.drives.toList.all (fun l => !l.pend.contains .relax)

/-- R170: ENTERING gives way to SAVING. -/
def State.savingDue (s : State) : Bool := s.power.state == .entering && s.settled

/-- R108, R170, R171: the entry into SAVING. -/
def State.enterSaving (s : State) : State :=
  { s with
    power := { s.power with state := .saving }
    rests := s.rests.map fun r => { r with timer := none, cause := .none }
    drives := s.drives.map fun l => l.drop [.probe, .presencePoll]
    saved := some s.image }

/-- R171: the image stands in the save area, the SDRAM enters self-refresh, and the wake timer starts where TIMER is a
wake source. -/
def State.imageWritten (s : State) (im : SaveImage) : State :=
  { s with
    store := Memory.writeBytes s.store Config.saveBase (imageBytes im.body)
    power := { s.power with
      state := .dormant, wakeTimer := if s.power.wakeOnTimer then some (s.power.wakeTime * 1000) else none } }

/-- R172, R173: the wake: RESTORING, in which the fields that STATUS shows of the image stand at their reset values. -/
def State.wake (s : State) : State :=
  { s with
    power := { s.power with
      state := .restoring, wakePort := Pair.both false, wakeOnTimer := false, wakeTimer := none }
    mounts := Quad.four none
    unitMap := []
    contexts := Oct.all none
    works := Quad.four [] }

/-! ### The restore -/

/-- R173: the check of the save area: the length fits, and the stored CRC-32 is the computed one. -/
def imageMatches (store : Memory) : Bool :=
  let n := leField (Memory.readBytes store Config.saveBase 4) 4 0
  n + 8 ≤ Config.saveBytes &&
    (c32 (Memory.readBytes store Config.saveBase (4 + n))).toNat
      == leField (Memory.readBytes store (Config.saveBase + 4 + n) 4) 4 0

/-- R67, R173: a drive's scheduler after the restore of an image; it begins with the units whose votes were saved. -/
def SaveImage.schedOf (im : SaveImage) (d : DriveId) : Sched :=
  { Sched.start with
    savedUnits := im.contexts.toList.filterMap fun c => c.bind fun c => if c.drive = d then c.unit else none }

/-- R173: the image matches, and the part takes its saved state. -/
def State.restore (s : State) (im : SaveImage) : State :=
  ({ s with
    ports := s.ports.map Port.noCursor
    mounts := im.mounts
    unitMap := im.unitMap
    contexts := im.contexts
    works := im.works
    views := im.views
    streams := im.streams
    deferred := im.deferred
    events := im.events
    errors := im.errors
    linkFault := im.linkFault
    stats := im.stats
    served := im.served
    discard := Quad.four false
    ctxReq := Quad.four none
    ctxLast := .d3
    scheds := Quad.ofFn im.schedOf
    drives := Quad.four DriveLink.start
    link := { s.link with last := .d3 }
    rests := Quad.four Rest.start
    power := { s.power with state := .active } }).raiseBoth .wake

/-- R173, R174: the check of the save image ends. -/
def State.restoreCheck (s : State) : State :=
  match s.saved with
  | some im => if imageMatches s.store then s.restore im else s.clearAll EventRegs.afterFailure
  | none => s.clearAll EventRegs.afterFailure

end Sys2Proof.Machine
end

