-- ==== Sys2Proof/Machine/PartRequests.lean ====
section
/-! DEFINITION. The requests on the part as a whole: IDENTIFY, STATUS, SET PORT OPTIONS and RESET (chapter 7),
PROFILE QUERY (R5), RELOAD and PROFILE WRITE (chapter 10), HOLD (R111), the event, capture and statistics requests
(chapter 9), and SLEEP (R169). -/
namespace Sys2Proof.Machine

/-! ### Chapter 7 -/

/-- A slot that holds a VALID record. -/
def Slot.isValid : Slot → Bool
  | .valid _ _ => true
  | .empty | .invalid _ _ _ => false

/-- R128: the payload of IDENTIFY. -/
def State.identifyPayload (s : State) : List Byte :=
  leBytes 1 Config.vendorCode ++ leBytes 2 Config.partCode ++ leBytes 1 Config.revision
    ++ leBytes 1 (s.table.filter Slot.isValid).length ++ s.drives.toList.flatMap fun l => leBytes 1 l.link.code

/-- IDENTIFY (R128). -/
def State.doIdentify (s : State) : Handled := (s, .reply .ok s.identifyPayload)

/-- The mount state as STATUS sends it. -/
def mountCode : Option MountRec → Nat
  | none => 0
  | some m => m.phase.code

/-- The 15 bytes of a drive in the STATUS payload (chapter 12, section 12.4). -/
def State.driveStatus (s : State) (d : DriveId) : List Byte :=
  let l := s.drives.get d
  let m := s.mounts.get d
  let r := s.rests.get d
  leBytes 1 l.link.code ++ leBytes 1 (flag l.medium) ++ leBytes 1 (mountCode m) ++ leBytes 1 r.cause.code
    ++ leBytes 4 r.left ++ leBytes 1 (s.openCount d) ++ leBytes 1 (s.works.get d).length
    ++ leBytes 2 ((m.map MountRec.terminal).getD 0) ++ leBytes 2 ((m.map MountRec.u).getD 0)
    ++ leBytes 1 ((m.map MountRec.slot).getD 0xFF)

/-- The 14 part-wide bytes of the STATUS payload. -/
def State.partStatus (s : State) : List Byte :=
  let g := s.loader
  leBytes 1 s.power.state.code ++ leBytes 1 (flagSet [g.stage != .idle, g.write != .idle])
    ++ leBytes 1 (PortId.code g.writePort) ++ leBytes 1 g.outcome.code
    ++ leBytes 1 (flagSet [g.noMemory, g.badMarker, g.busFault, g.noSettings, g.overflow])
    ++ leBytes 1 g.records ++ leBytes 1 g.unknown ++ leBytes 1 g.clamped ++ leBytes 1 s.freeCount
    ++ leBytes 2 (largestRun Config.mapRecords s.mapExtents)
    ++ leBytes 2 (largestRun Config.storePages s.storeExtents) ++ leBytes 1 s.power.reject.toNat

/-- The STATUS payload. -/
def State.statusPayload (s : State) : List Byte := s.partStatus ++ DriveId.all.flatMap s.driveStatus

/-- STATUS (R129). -/
def State.doStatus (s : State) : Handled := (s, .reply .ok s.statusPayload)

/-- SET PORT OPTIONS (R127). -/
def State.doSetPortOptions (s : State) (p : PortId) (high : Bool) (limit : Nat) : Handled :=
  ((s.setOptions p ⟨high, limit⟩).settle s, .reply .ok (leBytes 1 (flag high) ++ leBytes 1 limit))

/-- RESET (R130, R131). -/
def State.doReset (s : State) (p : PortId) : Handled :=
  let s' := s.clearAll EventRegs.afterReset
  ((s'.setPort p.other (s'.ports.get p.other).resetByOther).settle s, .reply .ok [])

/-! ### Profiles -/

/-- R5: the payload of PROFILE QUERY. -/
def Slot.payload : Slot → List Byte
  | .empty => [0, 0, 0]
  | .valid src bytes => leBytes 1 1 ++ leBytes 1 src.code ++ leBytes 1 0 ++ bytes
  | .invalid src r bytes => leBytes 1 2 ++ leBytes 1 src.code ++ leBytes 1 r.code ++ bytes

/-- PROFILE QUERY (R5). -/
def State.doProfileQuery (s : State) (slot : Nat) : Handled := (s, .reply .ok (s.table.getD slot .empty).payload)

/-- RELOAD (R164). -/
def State.doReload (s : State) : Handled :=
  if s.loader.write != .idle then s.refuse .busy else (s.newWork.startRun.settle s, .reply .ok [])

/-- PROFILE WRITE (R166). -/
def State.doProfileWrite (s : State) (p : PortId) (addr : Nat) (data : List Byte) : Handled :=
  if s.loader.write != .idle then s.refuse .busy
  else ((s.newWork.startWrite p addr data).settle s, .reply .ok [])

/-! ### HOLD -/

/-- R111: what a HOLD makes of a rest. -/
def Rest.hold (r : Rest) (duration : Nat) : Rest :=
  let t := min Config.restMax duration
  { r with timer := restTimer t, cause := if t = 0 then .none else .hold }

/-- The payload of an OK answer to HOLD (R111). -/
def Rest.payload (r : Rest) : List Byte :=
  leBytes 4 r.left ++ leBytes 1 r.cause.code ++ leBytes 1 r.level ++ leBytes 1 r.weakRun

/-- HOLD (R111). -/
def State.doHold (s : State) (d : DriveId) (duration : Nat) : Handled :=
  let r := (s.rests.get d).hold duration
  ((s.setRest d r).settle s, .reply .ok r.payload)

/-! ### Events, captures and statistics -/

/-- A port's flags and mask replaced. -/
def State.setEvents (s : State) (p : PortId) (r : EventRegs) : State := { s with events := s.events.set p r }

/-- READ EVENTS (R153). -/
def State.doReadEvents (s : State) (p : PortId) : Handled :=
  let r := s.events.get p
  (s, .reply .ok (leBytes 2 r.raw.toNat ++ leBytes 2 (r.raw &&& r.mask).toNat))

/-- CLEAR EVENTS (R153). -/
def State.doClearEvents (s : State) (p : PortId) (set : BitVec 13) : Handled :=
  let r := s.events.get p
  let raw := r.raw &&& ~~~set
  (s.setEvents p { r with raw := raw }, .reply .ok (leBytes 2 raw.toNat))

/-- SET MASK (R153). -/
def State.doSetMask (s : State) (p : PortId) (set : BitVec 13) : Handled :=
  (s.setEvents p { s.events.get p with mask := set }, .reply .ok (leBytes 2 set.toNat))

/-- The selected capture records as a payload, the selection being 1, 2 or 3 (chapter 12, section 12.2). -/
def State.capturePayload (s : State) (p : PortId) (sel : Nat) : List Byte :=
  (if sel.testBit 0 then portCaptureBytes (s.errors.get p) else [])
    ++ if sel.testBit 1 then linkCaptureBytes s.linkFault else []

/-- ERROR READ (R156). -/
def State.doErrorRead (s : State) (p : PortId) (sel : Nat) : Handled := (s, .reply .ok (s.capturePayload p sel))

/-- ERROR RELEASE (R156). -/
def State.doErrorRelease (s : State) (p : PortId) (sel : Nat) : Handled :=
  let s1 := if sel.testBit 0 then s.setError p none else s
  (if sel.testBit 1 then { s1 with linkFault := none } else s1, .reply .ok (s.capturePayload p sel))

/-- STATS READ (R158). -/
def State.doStatsRead (s : State) : Handled := (s, .reply .ok (statsBytes s.stats s.served))

/-- The bytes-served count of a port replaced. -/
def State.setServed (s : State) (p : PortId) (v : Nat) : State :=
  { s with served := s.served.set p (BitVec.ofNat 40 v) }

/-- STATS WRITE (R158): the selection is 0 to 3 for a drive, 4 for Port A and 5 for Port B. -/
def State.doStatsWrite (s : State) (sel counter v : Nat) : Handled :=
  let s' := match DriveId.ofNat? sel with
    | some d => s.setStats d ((s.stats.get d).write counter (BitVec.ofNat 32 v))
    | none => s.setServed (if sel = 4 then .a else .b) v
  (s', .reply .ok (leBytes 5 v))

/-! ### SLEEP (R169) -/

/-- An entry on which either port holds DIRECT. -/
def Entry.direct (e : Entry) : Bool := e.cls.a == .direct || e.cls.b == .direct

/-- The sleep reject causes that are present, position 0 first (chapter 12, section 12.2). -/
def State.sleepCauses (s : State) : BitVec 5 :=
  BitVec.ofNat 5 (flagSet
    [s.contexts.toList.any Option.isSome,
     s.works.toList.any fun w => w.any Entry.direct,
     s.deferred.a.any (fun e => e.state == .pending) || s.deferred.b.any (fun e => e.state == .pending),
     s.loader.write != .idle,
     s.loader.stage != .idle])

/-- The causes that apply under a reject mask: PROFILE_WRITE and LOADER always do. -/
def applyingCauses (mask : Nat) : BitVec 5 := BitVec.ofNat 5 mask ||| 0b11000

/-- R169, R170: the sleep is accepted and ENTERING begins. -/
def State.enter (s : State) (sources wakeTime : Nat) : State :=
  let s := { s with power := { s.power with
    state := .entering, quiet := none, wakePort := ⟨sources.testBit 0, sources.testBit 1⟩,
    wakeOnTimer := sources.testBit 2, wakeTime := wakeTime, wakeTimer := none, reject := 0 } }
  s.eachDrive State.abandonPositioning

/-- SLEEP (R169). -/
def State.doSleep (s : State) (mask sources wakeTime : Nat) : Handled :=
  let causes := s.sleepCauses &&& applyingCauses mask
  if causes ≠ 0 then ({ s with power := { s.power with reject := causes } }, .reply .rejected (leBytes 1 causes.toNat))
  else ((s.enter sources wakeTime).settle s, .reply .ok [])

end Sys2Proof.Machine
end

