-- ==== Sys2Proof/Machine/ViewRequests.lean ====
section
/-! DEFINITION. The View Decoder and the Deferred Read Table (chapter 8): SET VIEW, CLEAR VIEW and READ, with the
read-ahead streams. -/
namespace Sys2Proof.Machine

/-! ### Streams and views -/

/-- R149: the port's AHEAD class is withdrawn on a range of a drive's units. -/
def State.withdrawRange (s : State) (d : DriveId) (p : PortId) : Option (Nat × Nat) → State
  | some (lo, hi) => s.withdrawClass d p .ahead lo hi
  | none => s

/-- R149: a view's stream is torn down. -/
def State.tearDown (s : State) (p : PortId) (w : ViewId) : State :=
  let s' := match (s.views.get p).get w with
    | some v => s.withdrawRange v.drive p ((s.streams.get p).get w).range
    | none => s
  s'.setStream p w Stream.empty

/-- SET VIEW (R135). -/
def State.doSetView (s : State) (p : PortId) (w : ViewId) (v : View) (payload : List Byte) : Handled :=
  (((s.tearDown p w).setView p w (some v)).settle s, .reply .ok payload)

/-- CLEAR VIEW (R136). -/
def State.doClearView (s : State) (p : PortId) (w : ViewId) : Handled :=
  (((s.tearDown p w).setView p w none).settle s, .reply .ok [])

/-! ### Decoding (R137) -/

/-- A view's window holds an address. -/
def View.holds (v : View) (a : Nat) : Bool := v.base ≤ a && a < v.base + 2 ^ v.k

/-- The lowest-numbered enabled view of a port whose window holds an address. -/
def State.decodeView (s : State) (p : PortId) (a : Nat) : Option (ViewId × View) :=
  DriveId.all.findSome? fun w =>
    match (s.views.get p).get w with
    | some v => if v.holds a then some (w, v) else none
    | none => none

/-- What a READ translates to: its view, the mount it reads, its first unit and the clipped count. -/
structure Translation where
  id : ViewId
  view : View
  mount : MountRec
  first : Nat
  n : Nat
  deriving DecidableEq, Repr

/-- R137, R138, steps 2 to 5. -/
def State.translate (s : State) (p : PortId) (a count : Nat) : Except Status Translation :=
  match s.decodeView p a with
  | none => .error .noView
  | some (w, v) =>
    match s.openMount v.drive with
    | none => .error .notMounted
    | some m =>
      let first := v.target + (a - v.base)
      if m.u ≤ first then .error .badParam
      else
        .ok ⟨w, v, m, first,
          min (min count (v.base + 2 ^ v.k - a)) (min (m.u - first) (Config.readBytesMax / m.snap.unitSize))⟩

/-! ### Serving (R139, R140, R148) -/

/-- R139: what a unit delivers after its state code: the data bytes, and the mask bytes. -/
def State.unitData (s : State) (t : Translation) (u : Nat) : List Byte × List Byte :=
  let a := t.mount.slotAddr u
  let size := t.mount.snap.unitSize
  match (s.unitRec t.view.drive u).state with
  | .recovered => (Memory.readBytes s.store a size, [])
  | .exhausted =>
    if t.view.deliverPartial then
      (Memory.readBytes s.store a size, Memory.readBytes s.store (a + size) (size / 8))
    else ([], [])
  | .unread | .active | .tried | .blank | .abandoned => ([], [])

/-- The units of a read, in ascending order. -/
def Translation.units (t : Translation) : List Nat := (List.range t.n).map (t.first + ·)

/-- R139: the unit records of a served read. -/
def State.unitRecords (s : State) (t : Translation) : List Byte :=
  t.units.flatMap fun u =>
    let r := s.unitData t u
    leBytes 1 (s.unitRec t.view.drive u).state.code ++ r.1 ++ r.2

/-- The state of a unit of a read. -/
def State.stateAt (s : State) (t : Translation) (u : Nat) : UnitState := (s.unitRec t.view.drive u).state

/-- R140: the status of a served read. -/
def State.servedStatus (s : State) (t : Translation) : Status :=
  let states := t.units.map (s.stateAt t)
  if t.view.deliverPartial && states.contains .exhausted then .partialData
  else if states.contains .recovered then .ok
  else if states.all (· == .abandoned) then .abandoned
  else .blank

/-- R139: the data bytes that a served read counts as served: S for each unit that delivers its data. -/
def State.servedBytes (s : State) (t : Translation) : Nat :=
  t.mount.snap.unitSize * (t.units.filter fun u =>
    match s.stateAt t u with
    | .recovered => true
    | .exhausted => t.view.deliverPartial
    | .unread | .active | .tried | .blank | .abandoned => false).length

/-- The first four bytes of a served or deferred answer: drive, first unit, n (chapter 12, section 12.3). -/
def Translation.head (t : Translation) : List Byte :=
  leBytes 1 t.view.drive.toNat ++ leBytes 2 t.first ++ leBytes 1 t.n

/-- R148: how many units a stream places AHEAD demands on. -/
def Translation.aheadCount (t : Translation) : Nat :=
  min t.view.ra (min (t.view.target + 2 ^ t.view.k) t.mount.u - (t.first + t.n))

/-- R148: a read served OK or PARTIAL at address `a` moves its view's stream. -/
def State.moveStream (s : State) (p : PortId) (t : Translation) (a : Nat) : State :=
  let st := (s.streams.get p).get t.id
  let s := if st == Stream.empty || st.expected == some a then s else s.withdrawRange t.view.drive p st.range
  let from' := t.first + t.n
  let k := t.aheadCount
  let s := s.demands t.view.drive (.ahead p) from' k
  s.setStream p t.id ⟨some (a + t.n), if k = 0 then none else some (from', from' + k - 1)⟩

/-- R139, R140: a read is served. -/
def State.serveRead (s : State) (p : PortId) (t : Translation) (a : Nat) : Handled :=
  let st := s.servedStatus t
  let s' := s.serve p (s.servedBytes t)
  let s' := match st with
    | .ok | .partialData => s'.moveStream p t a
    | _ => s'
  (s'.settle s, .reply st (t.head ++ s.unitRecords t))

/-! ### READ (R138, R141 to R146) -/

/-- A port's entry of an address and a requested count. -/
def State.entryFor (s : State) (p : PortId) (a count : Nat) : Option Deferred :=
  (s.deferred.get p).find? fun e => e.address == a && e.count == count

/-- The entry of an address and a requested count is freed. -/
def State.freeEntry (s : State) (p : PortId) (a count : Nat) : State :=
  s.setDeferred p ((s.deferred.get p).filter fun e => !(e.address == a && e.count == count))

/-- Every unit of a read is terminal. -/
def State.allTerminal (s : State) (t : Translation) : Bool := t.units.all fun u => s.isTerminal t.view.drive u

/-- R141: DIRECT demands of the port on the units of a read that are not terminal. -/
def State.demandRead (s : State) (p : PortId) (t : Translation) : State :=
  s.demands t.view.drive (.direct p) t.first t.n

/-- R138, step 8, and R141: a read with no matching entry. -/
def State.readNew (s : State) (p : PortId) (t : Translation) (a count : Nat) : Handled :=
  if s.allTerminal t then s.serveRead p t a
  else if t.mount.phase == .lost then s.refuse .noMedium
  else if Config.deferredSize ≤ (s.deferred.get p).length then s.refuse .busy
  else
    let s' := s.demandRead p t
    let s' := s'.setDeferred p (s'.deferred.get p ++ [⟨a, count, t.view.drive, t.first, t.n, 0, .pending⟩])
    (s'.settle s, .reply .defer t.head)

/-- R144: a re-issue whose matching entry is PENDING. -/
def State.readPending (s : State) (p : PortId) (t : Translation) (a count : Nat) (e : Deferred) : Handled :=
  let limit := (s.options.get p).deferLimit
  if t.mount.phase == .lost then s.refuse .noMedium
  else if limit ≠ 0 ∧ limit ≤ e.retries then
    let s' := (s.freeEntry p a count).withdrawClass e.drive p .direct e.first (e.first + e.n - 1)
    (s'.settle s, .reply .timeout [])
  else
    let s' := s.setDeferred p ((s.deferred.get p).map fun e' =>
      if e'.address == a && e'.count == count then { e' with retries := min 255 (e'.retries + 1) } else e')
    ((s'.demandRead p t).settle s, .reply .defer t.head)

/-- READ (R138). A refusal changes nothing but the entry it frees, and brings no choice about (R125). -/
def State.doRead (s : State) (p : PortId) (a count : Nat) : Handled :=
  match s.entryFor p a count with
  | none =>
    match s.translate p a count with
    | .error st => s.refuse st
    | .ok t => s.readNew p t a count
  | some e =>
    if e.state == .gone then (s.freeEntry p a count, .reply .gone [])
    else match s.translate p a count with
      | .error st => (s.freeEntry p a count).refuse st
      | .ok t =>
        if e.drive != t.view.drive || e.first != t.first || e.n != t.n then
          (s.freeEntry p a count).readNew p t a count
        else if e.state == .ready then (s.freeEntry p a count).serveRead p t a
        else s.readPending p t a count e

end Sys2Proof.Machine
end

