-- ==== Sys2Proof/Machine/Requests.lean ====
section
/-! DEFINITION. The path of a request through its port (chapter 7): the validation of R123 and R124, the owning
block, the answer, the capture of a refusal, and what a frame does when it completes. -/
namespace Sys2Proof.Machine

/-! ### Validation -/

/-- The drive a parameter byte names. -/
def driveAt (ps : List Byte) (i : Nat) : Option DriveId := DriveId.ofNat? (byteAt ps i)

/-- The fields of a SET VIEW (chapter 12, section 12.2) for a drive. -/
def viewOf (ps : List Byte) (d : DriveId) : View :=
  ⟨d, leField ps 4 2, byteAt ps 6, leField ps 2 7, byteAt ps 9, byteAt ps 10 == 1⟩

/-- R123, test 5: the ranges that do not depend on the part's state. -/
def ReqCode.rangesOk (c : ReqCode) (ps : List Byte) : Bool :=
  match c with
  | .identify | .status | .reset | .reload | .readEvents | .statsRead => true
  | .setPortOptions => byteAt ps 0 ≤ 1
  | .profileQuery => byteAt ps 0 ≤ 15
  | .profileWrite =>
    leField ps 2 0 ≤ 1023 && 1 ≤ byteAt ps 2 && byteAt ps 2 ≤ 16 && leField ps 2 0 % 16 + byteAt ps 2 ≤ 16
  | .mount => byteAt ps 0 ≤ 3 && byteAt ps 1 ≤ 15
  | .unmount | .resume | .abandon | .hold => byteAt ps 0 ≤ 3
  | .recover => byteAt ps 0 ≤ 3 && 1 ≤ leField ps 2 3
  | .sweep => byteAt ps 0 ≤ 3 && byteAt ps 1 ≤ 1
  | .queryMap => byteAt ps 0 ≤ 3 && 1 ≤ byteAt ps 3 && byteAt ps 3 ≤ 128
  | .queryMapNext => 1 ≤ byteAt ps 0 && byteAt ps 0 ≤ 128
  | .setView =>
    byteAt ps 0 ≤ 3 && byteAt ps 1 ≤ 3 && byteAt ps 6 ≤ 16 && leField ps 4 2 % 2 ^ byteAt ps 6 == 0
      && leField ps 2 7 ≤ 32767 && [0, 1, 2, 4, 8].contains (byteAt ps 9) && byteAt ps 10 ≤ 1
  | .clearView => byteAt ps 0 ≤ 3
  | .read => 1 ≤ byteAt ps 4 && byteAt ps 4 ≤ 16
  | .clearEvents | .setMask => leField ps 2 0 < 8192
  | .errorRead | .errorRelease => 1 ≤ byteAt ps 0 && byteAt ps 0 ≤ 3
  | .statsWrite =>
    byteAt ps 0 ≤ 5 && (4 ≤ byteAt ps 0 || (byteAt ps 1 ≤ 14 && leField ps 5 2 < 4294967296))
  | .sleep =>
    byteAt ps 0 < 8 && 1 ≤ byteAt ps 1 && byteAt ps 1 < 8
      && (!(byteAt ps 1).testBit 2 || (1 ≤ leField ps 4 2 && leField ps 4 2 ≤ Config.wakeTimeMax))

/-- R124: a request is accepted in the power state and loader state of the moment. -/
def State.accepts (s : State) (c : ReqCode) : Bool :=
  match s.power.state with
  | .active | .quiet => s.loader.stage == .idle || c == .identify || c == .status
  | .entering => c == .identify || c == .status || c == .reset
  | .saving | .restoring => c == .identify || c == .status
  | .dormant => false

/-- R123: the refusal of the first failing test, or the request. -/
def State.validate (s : State) (code : Byte) (f : Frame) : Except Status ReqCode :=
  if !Frame.crcOk code f then .error .frameError
  else match ReqCode.ofByte? code with
    | none => .error .badRequest
    | some c =>
      if !c.lengthOk f.params then .error .badRequest
      else if !s.accepts c then .error .notReady
      else if !c.rangesOk f.params then .error .badParam
      else .ok c

/-! ### The owning blocks -/

/-- A request that names a drive, handed on with that drive. -/
def State.withDrive (s : State) (ps : List Byte) (i : Nat) (f : DriveId → Handled) : Handled :=
  match driveAt ps i with
  | some d => f d
  | none => s.refuse .badParam

/-- A request that has passed validation is carried out by its owning block. -/
def State.carry (s : State) (p : PortId) (c : ReqCode) (ps : List Byte) : Handled :=
  match c with
  | .identify => s.doIdentify
  | .status => s.doStatus
  | .setPortOptions => s.doSetPortOptions p (byteAt ps 0 == 1) (byteAt ps 1)
  | .reset => s.doReset p
  | .profileQuery => s.doProfileQuery (byteAt ps 0)
  | .reload => s.doReload
  | .profileWrite => s.doProfileWrite p (leField ps 2 0) (ps.drop 3)
  | .mount => s.withDrive ps 0 fun d => s.doMount d (byteAt ps 1)
  | .unmount => s.withDrive ps 0 s.doUnmount
  | .resume => s.withDrive ps 0 s.doResume
  | .recover => s.withDrive ps 0 fun d => s.doRecover p d (leField ps 2 1) (leField ps 2 3)
  | .sweep => s.withDrive ps 0 fun d => s.doSweep d (byteAt ps 1 == 1) (leField ps 2 2)
  | .abandon => s.withDrive ps 0 fun d => s.doAbandon d (leField ps 2 1)
  | .queryMap => s.withDrive ps 0 fun d => s.doQueryMap p d (leField ps 2 1) (byteAt ps 3)
  | .queryMapNext => s.doQueryMapNext p (byteAt ps 0)
  | .hold => s.withDrive ps 0 fun d => s.doHold d (leField ps 4 1)
  | .setView => s.withDrive ps 0 fun w => s.withDrive ps 1 fun d => s.doSetView p w (viewOf ps d) ps
  | .clearView => s.withDrive ps 0 (s.doClearView p)
  | .read => s.doRead p (leField ps 4 0) (byteAt ps 4)
  | .readEvents => s.doReadEvents p
  | .clearEvents => s.doClearEvents p (BitVec.ofNat 13 (leField ps 2 0))
  | .setMask => s.doSetMask p (BitVec.ofNat 13 (leField ps 2 0))
  | .errorRead => s.doErrorRead p (byteAt ps 0)
  | .errorRelease => s.doErrorRelease p (byteAt ps 0)
  | .statsRead => s.doStatsRead
  | .statsWrite => s.doStatsWrite (byteAt ps 0) (byteAt ps 1) (leField ps 5 2)
  | .sleep => s.doSleep (byteAt ps 0) (byteAt ps 1) (leField ps 4 2)

/-! ### The answer -/

/-- R121: a response becomes the port's pending response. -/
def State.respond (s : State) (p : PortId) (st : Status) (tag : Byte) (payload : List Byte) : State :=
  s.setPort p { s.ports.get p with response := some ⟨st, tag, payload⟩ }

/-- R121, R154: a request is answered; a refusal with one of the five statuses is captured. -/
def State.answer (s : State) (p : PortId) (code : Byte) (f : Frame) (st : Status) (payload : List Byte) : State :=
  (if st.captured then s.captureRefusal p st code f.tag f.params else s).respond p st f.tag payload

/-- An owning block's answer is delivered; a request without one is in progress. -/
def Handled.deliver (h : Handled) (p : PortId) (code : Byte) (f : Frame) : State :=
  match h.2 with
  | .reply st payload => h.1.answer p code f st payload
  | .waits d u => h.1.setPort p { h.1.ports.get p with inProgress := some ⟨f.tag, d, u⟩ }

/-- R121, R123: a request is taken by its Port Unit. -/
def State.takeRequest (s : State) (p : PortId) (code : Byte) (f : Frame) : State :=
  match s.validate code f with
  | .error st => s.answer p code f st []
  | .ok c => (s.carry p c f.params).deliver p code f

/-! ### The frame -/

/-- What data out carries in the frame that has just ended; between frames the receiver is at its starting point
(R118, R119, R176). -/
def State.sends (s : State) (p : PortId) (bytes : List Byte) : State :=
  s.setPort p { s.ports.get p with receiver := [], dataOut := bytes }

/-- R172: a request frame that completes in DORMANT. -/
def State.dormantFrame (s : State) (p : PortId) (f : Frame) : State :=
  let s' := s.respond p .notReady f.tag []
  if s.power.wakePort.get p then s'.wake else s'

/-- R121: the port has a request in progress or a waiting request. -/
def Port.busy (q : Port) : Bool := q.inProgress.isSome || q.waiting.isSome

/-- R119, R121, R172: a request frame completes on a port. -/
def State.frameArrives (s : State) (p : PortId) (code : Byte) (f : Frame) : State :=
  let s := s.sends p (List.replicate (6 + f.params.length) padding)
  if s.power.state == .dormant then s.dormantFrame p f
  else if (s.ports.get p).busy then s.setPort p { s.ports.get p with waiting := some (code, f) }
  else s.takeRequest p code f

/-- R122: the bytes that a response read sends from its second byte on, before the padding. -/
def Port.readBytes (q : Port) : List Byte :=
  if q.busy then [working]
  else match q.response with
    | some r => r.bytes
    | none => [noResponse]

/-- R122: a response read frame of `n` bytes. -/
def State.responseRead (s : State) (p : PortId) (n : Nat) : State :=
  s.sends p ((padding :: (s.ports.get p).readBytes ++ List.replicate n padding).take n)

/-- R119: a frame cut short is discarded. -/
def State.partialFrame (s : State) (p : PortId) (n : Nat) : State := s.sends p (List.replicate n padding)

end Sys2Proof.Machine
end

