-- ==== Sys2Proof/Machine/Micro.lean ====
section
/-! DEFINITION. The steps that come about at once, as soon as their condition holds, and are rows of the table all the
same: CONTEXT_GRANT, LINK_GRANT, UNMOUNT_COMPLETE, ABANDON_DEFERRED_ANSWER, WAITING_REQUEST_TAKEN and ENTER_SAVING; and
`catchUp`, which carries out those that are due before a command from outside is taken (log 5). -/
namespace Sys2Proof.Machine

/-- The outcome of a command. -/
abbrev Out := Host.Outcome State Fault Refusal

/-! ### ABANDON_DEFERRED_ANSWER and WAITING_REQUEST_TAKEN (R39, R121) -/

/-- R121: a request in progress is answered late; the answer is dropped where a waiting request is present. -/
def Port.lateAnswer (q : Port) (tag : Byte) (st : Status) (payload : List Byte) : Port :=
  { q with inProgress := none
           response := if q.waiting.isSome then q.response else some ⟨st, tag, payload⟩ }

/-- R39, R121: the ABANDON in progress on a port acts and is answered, and the schedulers make the choices that waited
for it (R85). -/
def State.answerAbandon (s : State) (p : PortId) (ip : InProgress) : State :=
  let h := (s.setPort p { s.ports.get p with inProgress := none }).doAbandon ip.drive ip.unit
  match h.2 with
  | .waits _ _ => s
  | .reply st payload =>
    let s' := h.1.settle h.1
    s'.setPort p ((s'.ports.get p).lateAnswer ip.tag st payload)

/-- R121: a port holds a waiting request and none in progress. -/
def Port.waitingDue (q : Port) : Option (Byte × Frame) := if q.inProgress.isSome then none else q.waiting

/-- R121: the waiting request is taken. -/
def State.takeWaiting (s : State) (p : PortId) (w : Byte × Frame) : State :=
  (s.setPort p { s.ports.get p with waiting := none }).takeRequest p w.1 w.2

/-! ### CONTEXT_GRANT (R82) -/

/-- The rank of the class that a drive's waiting request has at this moment. -/
def State.requestRank (s : State) (d : DriveId) : Nat :=
  match s.ctxReq.get d with
  | some u => effRank ((s.entryOf d u).bind (s.effOf d))
  | none => 0

/-- R82: the drive granted among those that wait: of the highest class, the first in round-robin order. -/
def State.grantee (s : State) : Option DriveId :=
  s.ctxLast.after.find? fun d =>
    (s.ctxReq.get d).isSome &&
      DriveId.all.all fun e => (s.ctxReq.get e).isNone || s.requestRank e ≤ s.requestRank d

/-- R82: a FREE context is granted and opened. -/
def State.grantContext (s : State) : State :=
  match s.grantee, s.freeCtx with
  | some d, some i =>
    match s.ctxReq.get d, s.mounts.get d with
    | some u, some m => (s.openContext i d m u).settle s
    | _, _ => (s.setCtxReq d none).settle s
  | _, _ => s

/-! ### What is due -/

/-- The step that comes about at once, if one does, as its row of the table. The grants come first, since R82 makes one
at the moment of the release and R105 as the link is free, then the mounts that complete (R15), then what the ports hold
(R39, R121), and the entry into SAVING last (R170, log 5). -/
def State.due (s : State) : Option Instr :=
  if s.grantDue then some .contextGrant
  else if s.grantOf.isSome then some .linkGrant
  else match DriveId.all.find? s.unmountDue with
    | some d => some (.unmountComplete d)
    | none =>
      if s.abandonDue .a then some (.abandonDeferredAnswer .a)
      else if s.abandonDue .b then some (.abandonDeferredAnswer .b)
      else if (s.ports.a.waitingDue).isSome then some (.waitingRequestTaken .a)
      else if (s.ports.b.waitingDue).isSome then some (.waitingRequestTaken .b)
      else if s.savingDue then some .enterSaving else none

/-- ABANDON_DEFERRED_ANSWER, where it is due. -/
def State.abandonStep (s : State) (p : PortId) : Option State :=
  match (s.ports.get p).inProgress with
  | some ip => if s.abandonDue p then some (s.answerAbandon p ip) else none
  | none => none

/-- WAITING_REQUEST_TAKEN, where it is due. -/
def State.waitingStep (s : State) (p : PortId) : Option State :=
  match (s.ports.get p).waitingDue with
  | some w => some (s.takeWaiting p w)
  | none => none

/-- UNMOUNT_COMPLETE, where it is due. -/
def State.unmountStep (s : State) (d : DriveId) : Option State :=
  if s.unmountDue d then some (s.completeUnmount d) else none

/-- CONTEXT_GRANT, where it is due. -/
def State.grantStep (s : State) : Option State := if s.grantDue then some s.grantContext else none

/-- ENTER_SAVING, where it is due. -/
def State.savingStep (s : State) : Option State := if s.savingDue then some s.enterSaving else none

/-- One step that is due. -/
def State.runDue (s : State) : Option State :=
  match s.due with
  | some (.abandonDeferredAnswer p) => s.abandonStep p
  | some (.waitingRequestTaken p) => s.waitingStep p
  | some (.unmountComplete d) => s.unmountStep d
  | some .contextGrant => s.grantStep
  | some .linkGrant => s.linkStep
  | some .enterSaving => s.savingStep
  | _ => none

/-- The steps that are due, one after the other, at most `n` of them. -/
def State.catchUpN : Nat → State → State
  | 0, s => s
  | n + 1, s =>
    match s.runDue with
    | some s' => State.catchUpN n s'
    | none => s

/-- The steps that are due. No state of a run has more than 64 of them due in a row: each answers or takes a request,
frees a mount, opens a context, takes the free link or leaves ENTERING. -/
def State.catchUp (s : State) : State := State.catchUpN 64 s

/-- The steps that are due before a row of their own kind comes, at most `n` of them. -/
def State.upToN (c : Instr) : Nat → State → State
  | 0, s => s
  | n + 1, s =>
    if s.due = some c then s
    else match s.runDue with
      | some s' => State.upToN c n s'
      | none => s

/-- The steps that are due before the row `c`, which is one of them, comes (log 5). -/
def State.upTo (c : Instr) (s : State) : State := State.upToN c 64 s

/-- A step's outcome: the next state, or a refusal of an event that cannot occur. -/
def stepOut : Option State → Out
  | some s => .next s
  | none => .refused .cannotOccur

end Sys2Proof.Machine
end

