-- ==== Sys2Proof/Machine/Clock.lean ====
section
/-! DEFINITION. What the part does while no command waits (log 3): the steps that are due, the expiries of the timers
that have run out are put on the queue, and otherwise one millisecond passes. -/
namespace Sys2Proof.Machine

/-- A step with an empty queue: what is due is put on the queue, then the expiry of a timer that has run out; where
there is neither, one millisecond passes. -/
def State.idle (s : State) : State :=
  match s.due, s.runOut with
  | some c, _ => { s with pending := [c] }
  | none, some i => { s with pending := [i.expiry] }
  | none, none => s.pass 1

end Sys2Proof.Machine
end

