-- ==== Sys2Proof/Machine/LinkCommands.lean ====
section
/-! DEFINITION. The commands of the drive link (chapter 5): the grant, the replies and acknowledges, the faults, and
the expiry of the link timers. The steps that are due come first (log 5). -/
namespace Sys2Proof.Machine

/-- An event of the transaction in its frame exchange, where that transaction can have it. -/
def State.onExchange (s : State) (ok : Exchange → Bool) (f : Exchange → State) : Out :=
  match s.link.exchange with
  | some x => if ok x then .next (f x) else .refused .cannotOccur
  | none => .refused .cannotOccur

/-- R92: the acknowledge can be taken: the wait for it is under way. -/
def Exchange.ackOpen (x : Exchange) : Bool := x.ack.any (0 < ·)

/-- R86, R93: the reply frame is being clocked out: the acknowledge has been taken and DLCK is not held. -/
def Exchange.replyOpen (x : Exchange) : Bool := x.ack.isNone && x.hold.isNone

/-- R93: a hold of DLCK is under way. -/
def Exchange.holdOpen (x : Exchange) : Bool := x.hold.any (0 < ·)

/-- The transaction in its frame exchange replaced. -/
def State.setExchange (s : State) (x : Exchange) : State := { s with link := { s.link with exchange := some x } }

/-- What the adaptor does in a transaction with a reply frame (R86, R92, R93): the acknowledge opens the reply frame, a
hold starts the wait of STRETCH_LIMIT at the setting of that moment and its end stops it, and the whole frame is taken
by `take`. -/
def State.onReply (s : State) (ok : Exchange → Bool) (g : LinkSignal) (take : Exchange → List Byte → State) : Out :=
  match g with
  | .ack => s.onExchange (fun x => ok x && x.ackOpen) fun x => s.setExchange { x with ack := none }
  | .hold =>
    s.onExchange (fun x => ok x && x.replyOpen) fun x => s.setExchange { x with hold := some s.settings.stretchLimit }
  | .resume => s.onExchange (fun x => ok x && x.holdOpen) fun x => s.setExchange { x with hold := none }
  | .frame bytes => s.onExchange (fun x => ok x && x.replyOpen) fun x => take x bytes

/-- The expiry of a timer. A stopped timer does not run out, and no timer runs out before one with less left; the time
the timer still has passes first (log 3). -/
def State.onTimer (s : State) (i : TimerId) (f : State → State) : Out :=
  match s.timer i with
  | some left => if s.noneBefore left then .next (f (s.pass left)) else .refused .cannotOccur
  | none => .refused .cannotOccur

/-- LINK_GRANT (R105). -/
def execLinkGrant (s : State) : Out := stepOut (s.upTo .linkGrant).linkStep

/-- PROBE_REPLY (R89). -/
def execProbeReply (g : LinkSignal) (s : State) : Out :=
  s.catchUp.onReply (fun x => x.cmd == .probe) g s.catchUp.probeReply

/-- POSITION_ACK (R92, R96). -/
def execPositionAck (s : State) : Out :=
  s.catchUp.onExchange (fun x => x.cmd == .position && x.ackOpen) s.catchUp.positionAck

/-- R96: a drive's poll timer has run out, and a POLL of the drive is requested. -/
def State.pollDue (s : State) (d : DriveId) : State :=
  (s.setDrive d { s.drives.get d with poll := none }).setAttemptPhase d .needPoll

/-- POLL_TIMER_EXPIRY (R96). -/
def execPollTimerExpiry (d : DriveId) (s : State) : Out :=
  s.catchUp.onTimer (.poll d) fun s => s.pollDue d

/-- POSITION_POLL_REPLY (R96). -/
def execPositionPollReply (g : LinkSignal) (s : State) : Out :=
  s.catchUp.onReply (fun x => x.cmd == .poll && x.ofAttempt) g s.catchUp.positionPollReply

/-- READ_REPLY (R97). -/
def execReadReply (g : LinkSignal) (s : State) : Out :=
  s.catchUp.onReply (fun x => x.cmd == .read) g s.catchUp.readReply

/-- RELAX_ACK (R92, R99). -/
def execRelaxAck (s : State) : Out :=
  s.catchUp.onExchange (fun x => x.cmd == .relax && x.ackOpen) s.catchUp.relaxAck

/-- R102: a drive's presence timer has run out, and a presence POLL is requested. -/
def State.presenceDue (s : State) (d : DriveId) : State :=
  ((s.setDrive d { s.drives.get d with presence := none }).request d .presencePoll).settle s

/-- PRESENCE_TIMER_EXPIRY (R102). -/
def execPresenceTimerExpiry (d : DriveId) (s : State) : Out :=
  s.catchUp.onTimer (.presence d) fun s => s.presenceDue d

/-- PRESENCE_POLL_REPLY (R102). -/
def execPresencePollReply (g : LinkSignal) (s : State) : Out :=
  s.catchUp.onReply (fun x => x.cmd == .poll && !x.ofAttempt) g s.catchUp.presenceReply

/-- R101: a drive's reprobe timer has run out, and a PROBE is requested. -/
def State.reprobeDue (s : State) (d : DriveId) : State :=
  ((s.setDrive d { s.drives.get d with reprobe := none }).request d .probe).settle s

/-- REPROBE_TIMER_EXPIRY (R101). -/
def execReprobeTimerExpiry (d : DriveId) (s : State) : Out :=
  s.catchUp.onTimer (.reprobe d) fun s => s.reprobeDue d

/-- R92: the wait for the acknowledge has run out, and the transaction ends with the fault NO_ACK. -/
def State.ackOut (s : State) : State :=
  match s.link.exchange with
  | some x => s.faultTx x .noAck
  | none => s

/-- NO_ACK (R92). -/
def execNoAck (s : State) : Out := s.catchUp.onTimer .ack State.ackOut

/-- R93: a hold of DLCK has lasted STRETCH_LIMIT. -/
def State.holdOut (s : State) : State :=
  match s.link.exchange with
  | some x => s.stretchOut x
  | none => s

/-- STRETCH_TIMEOUT (R93). -/
def execStretchTimeout (s : State) : Out := s.catchUp.onTimer .hold State.holdOut

/-- LINK_CLEAR_PATTERN_SENT (R93): the link becomes free. -/
def execLinkClearPatternSent (s : State) : Out :=
  let s := s.catchUp
  if s.link.clearing then .next { s with link := { s.link with clearing := false } } else .refused .cannotOccur

end Sys2Proof.Machine
end

