-- ==== Sys2Proof/Machine/LoaderCommands.lean ====
section
/-! DEFINITION. The commands of the profile bus (chapter 10): the reads of a loader run and the write of the profile
memory. The steps that are due come first (log 5). -/
namespace Sys2Proof.Machine

/-- A read of the loader that the stage calls for. -/
def State.onStage (s : State) (f : LoadStage → Option State) : Out :=
  match f s.loader.stage with
  | some s' => .next (s'.settle s)
  | none => .refused .cannotOccur

/-- LOADER_MARKER_READ (R161). -/
def execLoaderMarkerRead (b : Byte) (s : State) : Out :=
  s.catchUp.onStage fun g => match g with
    | .marker => some (s.catchUp.markerRead b)
    | _ => none

/-- LOADER_COUNT_READ (R161). -/
def execLoaderCountRead (b : Byte) (s : State) : Out :=
  s.catchUp.onStage fun g => match g with
    | .count => some (s.catchUp.countRead b)
    | _ => none

/-- PROFILE_RECORD_READ (R162). -/
def execProfileRecordRead (bytes : List Byte) (s : State) : Out :=
  s.catchUp.onStage fun g => match g with
    | .record i => some (s.catchUp.recordRead i bytes)
    | _ => none

/-- SETTINGS_MARKER_READ (R163). -/
def execSettingsMarkerRead (b : Byte) (s : State) : Out :=
  s.catchUp.onStage fun g => match g with
    | .settingsMarker => some (s.catchUp.settingsMarkerRead b)
    | _ => none

/-- SETTINGS_COUNT_READ (R163). -/
def execSettingsCountRead (b : Byte) (s : State) : Out :=
  s.catchUp.onStage fun g => match g with
    | .settingsCount => some (s.catchUp.settingsCountRead b)
    | _ => none

/-- SETTING_RECORD_READ (R163). -/
def execSettingRecordRead (id lo hi : Byte) (s : State) : Out :=
  s.catchUp.onStage fun g => match g with
    | .setting j => some (s.catchUp.settingRead j id lo hi)
    | _ => none

/-- PROFILE_BUS_NO_ACK (R161). -/
def execProfileBusNoAck (s : State) : Out :=
  s.catchUp.onStage fun g => match g with
    | .idle => none
    | .marker | .count | .record _ | .settingsMarker | .settingsCount | .setting _ => some s.catchUp.busNoAck

/-- A step of the write that the write stage calls for. -/
def State.onWrite (s : State) (g : WriteStage) (s' : State) : Out :=
  if s.loader.write = g then .next (s'.settle s) else .refused .cannotOccur

/-- PROFILE_WRITE_TRANSFER_END (R166). -/
def execProfileWriteTransferEnd (acked : Bool) (s : State) : Out :=
  s.catchUp.onWrite .transfer (s.catchUp.transferEnd acked)

/-- WRITE_POLL_END (R167). -/
def execWritePollEnd (acked : Bool) (s : State) : Out :=
  s.catchUp.onWrite .polling (s.catchUp.writePollEnd acked)

/-- WRITE_POLL_SPACING_EXPIRY (R167). -/
def execWritePollSpacingExpiry (s : State) : Out := s.catchUp.onWrite .spacing s.catchUp.nextWritePoll

end Sys2Proof.Machine
end

