-- ==== Sys2Proof/Machine/PortCommands.lean ====
section
/-! DEFINITION. The commands of the ports: the request rows, each a frame of its request code as it completes on a
port, and the rows of frames that are refused, wait, are cut short or read a response (chapters 7 and 11). The steps
that are due come first (log 5). -/
namespace Sys2Proof.Machine

/-- IDENTIFY (R128), request code 01h. -/
def execIdentify (p : PortId) (f : Frame) (s : State) : Out := .next (s.catchUp.frameArrives p 0x01 f)

/-- STATUS (R129), request code 02h. -/
def execStatus (p : PortId) (f : Frame) (s : State) : Out := .next (s.catchUp.frameArrives p 0x02 f)

/-- SET_PORT_OPTIONS (R127), request code 03h. -/
def execSetPortOptions (p : PortId) (f : Frame) (s : State) : Out := .next (s.catchUp.frameArrives p 0x03 f)

/-- RESET (R130), request code 04h. -/
def execReset (p : PortId) (f : Frame) (s : State) : Out := .next (s.catchUp.frameArrives p 0x04 f)

/-- PROFILE_QUERY (R5), request code 08h. -/
def execProfileQuery (p : PortId) (f : Frame) (s : State) : Out := .next (s.catchUp.frameArrives p 0x08 f)

/-- RELOAD (R164), request code 09h. -/
def execReload (p : PortId) (f : Frame) (s : State) : Out := .next (s.catchUp.frameArrives p 0x09 f)

/-- PROFILE_WRITE (R166), request code 0Ah. -/
def execProfileWrite (p : PortId) (f : Frame) (s : State) : Out := .next (s.catchUp.frameArrives p 0x0A f)

/-- MOUNT (R10), request code 10h. -/
def execMount (p : PortId) (f : Frame) (s : State) : Out := .next (s.catchUp.frameArrives p 0x10 f)

/-- UNMOUNT (R14), request code 11h. -/
def execUnmount (p : PortId) (f : Frame) (s : State) : Out := .next (s.catchUp.frameArrives p 0x11 f)

/-- RESUME (R19), request code 12h. -/
def execResume (p : PortId) (f : Frame) (s : State) : Out := .next (s.catchUp.frameArrives p 0x12 f)

/-- RECOVER (R37), request code 18h. -/
def execRecover (p : PortId) (f : Frame) (s : State) : Out := .next (s.catchUp.frameArrives p 0x18 f)

/-- SWEEP (R35), request code 19h. -/
def execSweep (p : PortId) (f : Frame) (s : State) : Out := .next (s.catchUp.frameArrives p 0x19 f)

/-- ABANDON (R38), request code 1Ah. -/
def execAbandon (p : PortId) (f : Frame) (s : State) : Out := .next (s.catchUp.frameArrives p 0x1A f)

/-- QUERY_MAP (R40), request code 1Bh. -/
def execQueryMap (p : PortId) (f : Frame) (s : State) : Out := .next (s.catchUp.frameArrives p 0x1B f)

/-- QUERY_MAP_NEXT (R41), request code 1Ch. -/
def execQueryMapNext (p : PortId) (f : Frame) (s : State) : Out := .next (s.catchUp.frameArrives p 0x1C f)

/-- HOLD (R111), request code 20h. -/
def execHold (p : PortId) (f : Frame) (s : State) : Out := .next (s.catchUp.frameArrives p 0x20 f)

/-- SET_VIEW (R135), request code 28h. -/
def execSetView (p : PortId) (f : Frame) (s : State) : Out := .next (s.catchUp.frameArrives p 0x28 f)

/-- CLEAR_VIEW (R136), request code 29h. -/
def execClearView (p : PortId) (f : Frame) (s : State) : Out := .next (s.catchUp.frameArrives p 0x29 f)

/-- READ (R138), request code 2Ah. -/
def execRead (p : PortId) (f : Frame) (s : State) : Out := .next (s.catchUp.frameArrives p 0x2A f)

/-- READ_EVENTS (R153), request code 30h. -/
def execReadEvents (p : PortId) (f : Frame) (s : State) : Out := .next (s.catchUp.frameArrives p 0x30 f)

/-- CLEAR_EVENTS (R153), request code 31h. -/
def execClearEvents (p : PortId) (f : Frame) (s : State) : Out := .next (s.catchUp.frameArrives p 0x31 f)

/-- SET_MASK (R153), request code 32h. -/
def execSetMask (p : PortId) (f : Frame) (s : State) : Out := .next (s.catchUp.frameArrives p 0x32 f)

/-- ERROR_READ (R156), request code 34h. -/
def execErrorRead (p : PortId) (f : Frame) (s : State) : Out := .next (s.catchUp.frameArrives p 0x34 f)

/-- ERROR_RELEASE (R156), request code 35h. -/
def execErrorRelease (p : PortId) (f : Frame) (s : State) : Out := .next (s.catchUp.frameArrives p 0x35 f)

/-- STATS_READ (R158), request code 38h. -/
def execStatsRead (p : PortId) (f : Frame) (s : State) : Out := .next (s.catchUp.frameArrives p 0x38 f)

/-- STATS_WRITE (R158), request code 39h. -/
def execStatsWrite (p : PortId) (f : Frame) (s : State) : Out := .next (s.catchUp.frameArrives p 0x39 f)

/-- SLEEP (R169), request code 40h. -/
def execSleep (p : PortId) (f : Frame) (s : State) : Out := .next (s.catchUp.frameArrives p 0x40 f)

/-- UNKNOWN_REQUEST (R123): a frame whose code chapter 12 does not list. -/
def execUnknownRequest (p : PortId) (code : Byte) (f : Frame) (s : State) : Out :=
  .next (s.catchUp.frameArrives p code f)

/-- WAITING_REQUEST (R121): a frame that completes while a request of its port is in progress. -/
def execWaitingRequest (p : PortId) (code : Byte) (f : Frame) (s : State) : Out :=
  .next (s.catchUp.frameArrives p code f)

/-- WAITING_REQUEST_TAKEN (R121). -/
def execWaitingRequestTaken (p : PortId) (s : State) : Out := stepOut ((s.upTo (.waitingRequestTaken p)).waitingStep p)

/-- RESPONSE_READ (R122). -/
def execResponseRead (p : PortId) (n : Nat) (s : State) : Out := .next (s.catchUp.responseRead p n)

/-- PARTIAL_FRAME (R119). -/
def execPartialFrame (p : PortId) (bytes : List Byte) (s : State) : Out :=
  .next (s.catchUp.partialFrame p bytes.length)

/-- DORMANT_REQUEST_FRAME (R172): a frame that completes in DORMANT. -/
def execDormantRequestFrame (p : PortId) (code : Byte) (f : Frame) (s : State) : Out :=
  .next (s.catchUp.frameArrives p code f)

/-- ABANDON_DEFERRED_ANSWER (R39). -/
def execAbandonDeferredAnswer (p : PortId) (s : State) : Out := 
  stepOut ((s.upTo (.abandonDeferredAnswer p)).abandonStep p)

/-- UNMOUNT_COMPLETE (R15). -/
def execUnmountComplete (d : DriveId) (s : State) : Out := stepOut ((s.upTo (.unmountComplete d)).unmountStep d)

end Sys2Proof.Machine
end

