-- ==== Sys2Proof/Machine/RecoveryCommands.lean ====
section
/-! DEFINITION. The commands of the Read Combiner, the Context Arbiter and the Rest Controllers (chapters 3, 4 and 6).
The steps that are due come first (log 5). -/
namespace Sys2Proof.Machine

/-- The open context of a number with its unit and its mount. -/
def State.ctxWork (s : State) (i : Nat) : Option (OpenCtx × Nat × MountRec) :=
  match s.contexts.get? i with
  | some (some c) =>
    match c.unit, s.mounts.get c.drive with
    | some u, some m => some (c, u, m)
    | _, _ => none
  | _ => none

/-- REPAIR_SEARCH_END (R61). -/
def execRepairSearchEnd (i : Nat) (s : State) : Out :=
  let s := s.catchUp
  match s.ctxWork i with
  | some (c, u, m) =>
    match c.phase with
    | .repairing v => .next ((s.endSearch i c u m v).settle s)
    | .collecting | .evaluating _ | .storing _ => .refused .cannotOccur
  | none => .refused .cannotOccur

/-- A run of bytes lies within the image store. -/
def inStore (a n : Nat) : Bool := a + n ≤ Config.storeBytes

/-- STORE_WRITE_COMPLETE (R64). -/
def execStoreWriteComplete (i : Nat) (s : State) : Out :=
  let s := s.catchUp
  match s.ctxWork i with
  | some (c, u, m) =>
    match c.phase with
    | .storing w =>
      if inStore (m.slotAddr u) (w.data ++ w.mask).length then .next ((s.completeStore i c u m w).settle s)
      else .fault .storeAddress
    | .collecting | .evaluating _ | .repairing _ => .refused .cannotOccur
  | none => .refused .cannotOccur

/-- CONTEXT_GRANT (R82). -/
def execContextGrant (s : State) : Out := stepOut s.grantStep

/-- REST_EXPIRY (R112). The rest expires as its timer reaches 0 (`State.pass`), so that no command finds a rest of 0
milliseconds with a cause (R108, R129). -/
def execRestExpiry (d : DriveId) (s : State) : Out := s.catchUp.onTimer (.rest d) fun s => s

end Sys2Proof.Machine
end

