-- ==== Sys2Proof/Machine/PowerCommands.lean ====
section
/-! DEFINITION. The commands of the Power Controller (chapters 6 and 11): power-on and RST, the quiet timer, the entry
into SAVING, the save, the wake timer and the restore. -/
namespace Sys2Proof.Machine

/-- POWER_ON (R168): every block takes its power-on values; the store holds nothing that is trusted (log 22). The
commands that wait stay. -/
def execPowerOn (s : State) : Out := .next { State.reset with pending := s.pending }

/-- RST_PIN (R132, R168): as power-on, the store's contents left as they were (log 22). -/
def execRstPin (s : State) : Out := .next { State.reset with pending := s.pending, store := s.store }

/-- R115: the part enters QUIET. -/
def State.enterQuiet (s : State) : State :=
  let relax := fun (s : State) (d : DriveId) =>
    if (s.openMount d).isSome && (s.drives.get d).link == .online then s.request d .relax else s
  (({ s with power := { s.power with state := .quiet, quiet := none } }).eachDrive relax).settle s

/-- QUIET_TIMER_EXPIRY (R115). -/
def execQuietTimerExpiry (s : State) : Out :=
  s.catchUp.onTimer .quiet State.enterQuiet

/-- ENTER_SAVING (R170). -/
def execEnterSaving (s : State) : Out := stepOut (s.upTo .enterSaving).savingStep

/-- SAVE_IMAGE_WRITE_COMPLETE (R171). -/
def execSaveImageWriteComplete (s : State) : Out :=
  let s := s.catchUp
  match s.power.state, s.saved with
  | .saving, some im =>
    if inStore Config.saveBase (imageBytes im.body).length then .next (s.imageWritten im) else .fault .storeAddress
  | _, _ => .refused .cannotOccur

/-- WAKE_TIMER_EXPIRY (R172). -/
def execWakeTimerExpiry (s : State) : Out :=
  s.onTimer .wake State.wake

/-- RESTORE_CHECK_END (R173, R174). The bytes that the store lost in self-refresh are read as they now stand. -/
def execRestoreCheckEnd (lost : List Host.Cell) (s : State) : Out :=
  if s.power.state = .restoring then
    if lost.all fun c => inStore c.1 1 then
      let s := { s with store := Memory.writeCells s.store lost }
      .next (s.restoreCheck.settle s)
    else .fault .storeAddress
  else .refused .cannotOccur

end Sys2Proof.Machine
end

