-- ==== Sys2Proof/Machine/Dispatch.lean ====
section
/-! DEFINITION. One arm for each command, in the order of spec/opcode_table.json. -/
namespace Sys2Proof.Machine

def exec (i : Instr) (s : State) : Host.Outcome State Fault Refusal :=
  match i with
  | .powerOn => Sys2Proof.Machine.execPowerOn s
  | .rstPin => Sys2Proof.Machine.execRstPin s
  | .identify p f => Sys2Proof.Machine.execIdentify p f s
  | .status p f => Sys2Proof.Machine.execStatus p f s
  | .setPortOptions p f => Sys2Proof.Machine.execSetPortOptions p f s
  | .reset p f => Sys2Proof.Machine.execReset p f s
  | .profileQuery p f => Sys2Proof.Machine.execProfileQuery p f s
  | .reload p f => Sys2Proof.Machine.execReload p f s
  | .profileWrite p f => Sys2Proof.Machine.execProfileWrite p f s
  | .mount p f => Sys2Proof.Machine.execMount p f s
  | .unmount p f => Sys2Proof.Machine.execUnmount p f s
  | .resume p f => Sys2Proof.Machine.execResume p f s
  | .recover p f => Sys2Proof.Machine.execRecover p f s
  | .sweep p f => Sys2Proof.Machine.execSweep p f s
  | .abandon p f => Sys2Proof.Machine.execAbandon p f s
  | .queryMap p f => Sys2Proof.Machine.execQueryMap p f s
  | .queryMapNext p f => Sys2Proof.Machine.execQueryMapNext p f s
  | .hold p f => Sys2Proof.Machine.execHold p f s
  | .setView p f => Sys2Proof.Machine.execSetView p f s
  | .clearView p f => Sys2Proof.Machine.execClearView p f s
  | .read p f => Sys2Proof.Machine.execRead p f s
  | .readEvents p f => Sys2Proof.Machine.execReadEvents p f s
  | .clearEvents p f => Sys2Proof.Machine.execClearEvents p f s
  | .setMask p f => Sys2Proof.Machine.execSetMask p f s
  | .errorRead p f => Sys2Proof.Machine.execErrorRead p f s
  | .errorRelease p f => Sys2Proof.Machine.execErrorRelease p f s
  | .statsRead p f => Sys2Proof.Machine.execStatsRead p f s
  | .statsWrite p f => Sys2Proof.Machine.execStatsWrite p f s
  | .sleep p f => Sys2Proof.Machine.execSleep p f s
  | .unknownRequest p code f => Sys2Proof.Machine.execUnknownRequest p code f s
  | .waitingRequest p code f => Sys2Proof.Machine.execWaitingRequest p code f s
  | .waitingRequestTaken p => Sys2Proof.Machine.execWaitingRequestTaken p s
  | .responseRead p n => Sys2Proof.Machine.execResponseRead p n s
  | .partialFrame p bytes => Sys2Proof.Machine.execPartialFrame p bytes s
  | .dormantRequestFrame p code f => Sys2Proof.Machine.execDormantRequestFrame p code f s
  | .linkGrant => Sys2Proof.Machine.execLinkGrant s
  | .probeReply g => Sys2Proof.Machine.execProbeReply g s
  | .positionAck => Sys2Proof.Machine.execPositionAck s
  | .pollTimerExpiry d => Sys2Proof.Machine.execPollTimerExpiry d s
  | .positionPollReply g => Sys2Proof.Machine.execPositionPollReply g s
  | .readReply g => Sys2Proof.Machine.execReadReply g s
  | .relaxAck => Sys2Proof.Machine.execRelaxAck s
  | .presenceTimerExpiry d => Sys2Proof.Machine.execPresenceTimerExpiry d s
  | .presencePollReply g => Sys2Proof.Machine.execPresencePollReply g s
  | .reprobeTimerExpiry d => Sys2Proof.Machine.execReprobeTimerExpiry d s
  | .noAck => Sys2Proof.Machine.execNoAck s
  | .stretchTimeout => Sys2Proof.Machine.execStretchTimeout s
  | .linkClearPatternSent => Sys2Proof.Machine.execLinkClearPatternSent s
  | .repairSearchEnd k => Sys2Proof.Machine.execRepairSearchEnd k s
  | .storeWriteComplete k => Sys2Proof.Machine.execStoreWriteComplete k s
  | .contextGrant => Sys2Proof.Machine.execContextGrant s
  | .abandonDeferredAnswer p => Sys2Proof.Machine.execAbandonDeferredAnswer p s
  | .unmountComplete d => Sys2Proof.Machine.execUnmountComplete d s
  | .restExpiry d => Sys2Proof.Machine.execRestExpiry d s
  | .quietTimerExpiry => Sys2Proof.Machine.execQuietTimerExpiry s
  | .enterSaving => Sys2Proof.Machine.execEnterSaving s
  | .saveImageWriteComplete => Sys2Proof.Machine.execSaveImageWriteComplete s
  | .wakeTimerExpiry => Sys2Proof.Machine.execWakeTimerExpiry s
  | .restoreCheckEnd lost => Sys2Proof.Machine.execRestoreCheckEnd lost s
  | .loaderMarkerRead b => Sys2Proof.Machine.execLoaderMarkerRead b s
  | .loaderCountRead b => Sys2Proof.Machine.execLoaderCountRead b s
  | .profileRecordRead bytes => Sys2Proof.Machine.execProfileRecordRead bytes s
  | .settingsMarkerRead b => Sys2Proof.Machine.execSettingsMarkerRead b s
  | .settingsCountRead b => Sys2Proof.Machine.execSettingsCountRead b s
  | .settingRecordRead id lo hi => Sys2Proof.Machine.execSettingRecordRead id lo hi s
  | .profileBusNoAck => Sys2Proof.Machine.execProfileBusNoAck s
  | .profileWriteTransferEnd acked => Sys2Proof.Machine.execProfileWriteTransferEnd acked s
  | .writePollEnd acked => Sys2Proof.Machine.execWritePollEnd acked s
  | .writePollSpacingExpiry => Sys2Proof.Machine.execWritePollSpacingExpiry s

end Sys2Proof.Machine
end

