-- ==== Sys2Proof/Safety.lean ====
section
/-! DEFINITION. The terms that statements about the part use: when a port's request is taken at once and normally, the
response it then leaves, what a scheduler's choice leaves alone, and the invariants of the state. -/
namespace Sys2Proof

/-- A drive's number as a parameter byte. -/
def DriveId.param (d : DriveId) : Byte := BitVec.ofNat 8 d.toNat

end Sys2Proof

namespace Sys2Proof.Machine

/-- The command that the frame of a request with a listed code is. -/
def ReqCode.command (c : ReqCode) (p : PortId) (f : Frame) : Instr :=
  match c with
  | .identify => .identify p f
  | .status => .status p f
  | .setPortOptions => .setPortOptions p f
  | .reset => .reset p f
  | .profileQuery => .profileQuery p f
  | .reload => .reload p f
  | .profileWrite => .profileWrite p f
  | .mount => .mount p f
  | .unmount => .unmount p f
  | .resume => .resume p f
  | .recover => .recover p f
  | .sweep => .sweep p f
  | .abandon => .abandon p f
  | .queryMap => .queryMap p f
  | .queryMapNext => .queryMapNext p f
  | .hold => .hold p f
  | .setView => .setView p f
  | .clearView => .clearView p f
  | .read => .read p f
  | .readEvents => .readEvents p f
  | .clearEvents => .clearEvents p f
  | .setMask => .setMask p f
  | .errorRead => .errorRead p f
  | .errorRelease => .errorRelease p f
  | .statsRead => .statsRead p f
  | .statsWrite => .statsWrite p f
  | .sleep => .sleep p f

/-! ### When a command is taken normally -/

/-- Nothing is due at once, the part is ACTIVE or QUIET with its loader idle, and no request of the port is in
progress: R124 accepts every request, and a frame that completes on the port is taken at once (R121). -/
def State.ready (s : State) (p : PortId) : Prop :=
  s.due = none ∧ (s.power.state = .active ∨ s.power.state = .quiet) ∧ s.loader.stage = .idle
    ∧ (s.ports.get p).inProgress = none

/-- A request frame that completes on the port is taken at once (R121): nothing is due, the part is not DORMANT, and no
request of the port is in progress. -/
def State.takes (s : State) (p : PortId) : Prop :=
  s.due = none ∧ s.power.state ≠ .dormant ∧ (s.ports.get p).inProgress = none

/-- The part as the frame of a request with `n` parameter bytes ends and before the request is taken: data out carried
FFh throughout the frame (R176), and the receiver is at its starting point (R119). -/
def State.framed (s : State) (p : PortId) (n : Nat) : State := s.sends p (List.replicate (6 + n) padding)

/-- The port after the frame of a request with `n` parameter bytes that was answered at once: data out carried FFh
throughout the frame (R176), the receiver is at its starting point, and the answer is the pending response (R121). -/
def Port.answered (q : Port) (n : Nat) (st : Status) (tag : Byte) (payload : List Byte) : Port :=
  { q with receiver := [], dataOut := List.replicate (6 + n) 0xFF, response := some ⟨st, tag, payload⟩ }

/-- The part with a port answered and nothing else changed. -/
def State.answered (s : State) (p : PortId) (n : Nat) (st : Status) (tag : Byte) (payload : List Byte) : State :=
  { s with ports := s.ports.set p ((s.ports.get p).answered n st tag payload) }

/-! ### The drive link -/

/-- A drive's pending transactions with one requested: it is added as the latest unless it is among them (R94). -/
def withTx (pend : List PendTx) (t : PendTx) : List PendTx := if t ∈ pend then pend else pend ++ [t]

/-- The link-fault record after a fault of the drive is offered to it (R155). -/
def LinkCapture.offered (old : Option LinkCapture) (d : DriveId) (c : Cmd) (u : Option Nat) (k : LinkFaultKind) :
    Option LinkCapture :=
  match old with
  | some r => some { r with multiple := true }
  | none => some ⟨false, d, c, u, k⟩

/-! ### After power-on -/

/-- The values that every block takes at power-on and on RST, the store apart. -/
structure State.AtPowerOn (t : State) : Prop where
  power : t.power.state = .active ∧ t.power.wakePort = ⟨false, false⟩ ∧ t.power.wakeOnTimer = false
    ∧ t.power.wakeTimer = none ∧ t.power.quiet = none ∧ t.power.reject = 0
  ports : ∀ p, (t.ports.get p).receiver = [] ∧ (t.ports.get p).inProgress = none ∧ (t.ports.get p).waiting = none
    ∧ (t.ports.get p).response = none ∧ (t.ports.get p).cursor = none
  options : ∀ p, t.options.get p = ⟨false, 32⟩
  views : ∀ p w, (t.views.get p).get w = none ∧ (t.streams.get p).get w = ⟨none, none⟩
  tables : ∀ p, t.deferred.get p = []
  events : ∀ p, (t.events.get p).raw = 0
    ∧ ∀ e : Event, (t.events.get p).mask.getLsbD e.pos = (e == .resetDone || e == .loadDone)
  captures : (∀ p, t.errors.get p = none) ∧ t.linkFault = none
  mounts : ∀ d, t.mounts.get d = none ∧ t.discard.get d = false ∧ t.works.get d = []
  contexts : t.contexts.toList = List.replicate 8 none ∧ (∀ d, t.ctxReq.get d = none) ∧ t.ctxLast = .d3
  scheds : ∀ d, (t.scheds.get d).state = .stopped ∧ (t.scheds.get d).last = none ∧ (t.scheds.get d).burst = 0
    ∧ (t.scheds.get d).position = none ∧ t.attempts.get d = none
  drives : ∀ d, (t.drives.get d).link = .absent ∧ (t.drives.get d).kind = none ∧ (t.drives.get d).medium = false
    ∧ (t.drives.get d).known = false ∧ (t.drives.get d).miss = 0 ∧ (t.drives.get d).pend = [.probe]
    ∧ (t.drives.get d).presence = none ∧ (t.drives.get d).reprobe = none ∧ (t.drives.get d).poll = none
    ∧ (t.drives.get d).posStart = 0
  link : t.link.exchange = none ∧ t.link.clearing = false ∧ t.link.last = .d3
  rests : ∀ d, t.rests.get d = ⟨none, .none, 0, 0⟩
  stats : (∀ d, (t.stats.get d).toList = List.replicate 15 0) ∧ ∀ p, t.served.get p = 0
  table : t.table = List.replicate 16 .empty
  loader : t.loader.stage = .marker ∧ t.loader.write = .idle ∧ t.loader.writePort = .a ∧ t.loader.outcome = .none
    ∧ t.loader.noMemory = false ∧ t.loader.badMarker = false ∧ t.loader.busFault = false
    ∧ t.loader.noSettings = false ∧ t.loader.overflow = false ∧ t.loader.records = 0 ∧ t.loader.unknown = 0
    ∧ t.loader.clamped = 0
  settings : (∀ d, t.settings.quota.get d = 4 ∧ t.settings.driveHigh.get d = false) ∧ t.settings.ackWait = 2
    ∧ t.settings.pollInterval = 5 ∧ t.settings.stretchLimit = 50 ∧ t.settings.presencePoll = 500
    ∧ t.settings.reprobeInterval = 2000 ∧ t.settings.missLimit = 3 ∧ t.settings.quietDelay = 60
    ∧ ∀ p, t.settings.portHigh.get p = false ∧ t.settings.deferLimit.get p = 32

/-! ### What the schedulers leave alone -/

/-- The fields that no scheduler's choice, withdrawal or quiet timer changes. -/
structure HostView where
  pending : List Instr
  now : Nat
  ports : Pair Port
  options : Pair PortOptions
  views : Pair (Quad (Option View))
  streams : Pair (Quad Stream)
  deferred : Pair (List Deferred)
  masks : Pair (BitVec 13)
  errors : Pair (Option PortCapture)
  linkFault : Option LinkCapture
  link : Link
  rests : Quad Rest
  stats : Quad DriveStats
  served : Pair (BitVec 40)
  table : List Slot
  loader : Loader
  settings : Settings
  store : List Host.Cell
  saved : Option SaveImage
  deriving DecidableEq, Repr

/-- Those fields of a state. -/
def State.host (s : State) : HostView where
  pending := s.pending
  now := s.now
  ports := s.ports
  options := s.options
  views := s.views
  streams := s.streams
  deferred := s.deferred
  masks := s.events.map EventRegs.mask
  errors := s.errors
  linkFault := s.linkFault
  link := s.link
  rests := s.rests
  stats := s.stats
  served := s.served
  table := s.table
  loader := s.loader
  settings := s.settings
  store := s.store
  saved := s.saved

/-! ### Invariants -/

/-- The image store and the Recovery Map, in the part and in the saved image, keep their canonical form. -/
def State.canonical (s : State) : Bool :=
  Memory.wf s.store && Sparse.wf UnitRec.fresh s.unitMap
    && s.saved.all fun im => Sparse.wf UnitRec.fresh im.unitMap

/-- R108, R112: the cause is NONE while the rest timer reads 0, a timer that runs reads more than 0, and the level is
0 to 3. -/
def Rest.sound (r : Rest) : Bool := r.timer != some 0 && (r.timer.isSome || r.cause == .none) && r.level ≤ 3

/-- Every Rest Controller is as R108 lays down. -/
def State.restsSound (s : State) : Bool := s.rests.toList.all Rest.sound

/-- R27: every work list, in the part and in the saved image, holds at most 64 entries. -/
def State.listsBounded (s : State) : Bool :=
  s.works.toList.all (fun w => w.length ≤ 64) && s.saved.all fun im => im.works.toList.all fun w => w.length ≤ 64

/-- R142: both deferred read tables, in the part and in the saved image, hold at most 8 entries. -/
def State.tablesBounded (s : State) : Bool :=
  s.deferred.a.length ≤ 8 && s.deferred.b.length ≤ 8
    && s.saved.all fun im => im.deferred.a.length ≤ 8 && im.deferred.b.length ≤ 8

/-- The shared link: at most one transaction is in its frame exchange (R105), which the state's shape says; while the
link-clear pattern is still to be sent there is none (R93). -/
def State.linkSound (s : State) : Bool := !s.link.clearing || s.link.exchange.isNone

/-- A step that goes on. -/
def Goes (s t : State) : Prop := step s = .next t

/-- A run in which every step goes on: no fault and no refusal. -/
inductive Run : State → State → Prop where
  | refl (s : State) : Run s s
  | tail {s t u : State} (h : Run s t) (g : Goes t u) : Run s u

end Sys2Proof.Machine
end

