-- ==== Sys2Proof/Certificates/Slice0/Obligations.lean ====
section
/-! DEFINITION. The statements for the provers. In those of a request, `s.framed p n` is the part as the frame of a
request with `n` parameter bytes ends, `s.answered p n st tag payload` is the part with that frame ended and its answer
pending and nothing else changed, and `v.settle b` is `v` with what the schedulers and the quiet timer then do at the
same moment, which the statement `SettleFrame` bounds. -/
open Sys2Proof Sys2Proof.Machine

/-! ### The queue, the clock and power-on -/

/-- The command at the front of the queue is the next step (log 1). -/
def Obligations.StepTakesFront : Prop :=
  ∀ (c : Instr) (rest : List Instr) (s : State),
    s.pending = c :: rest → step s = exec c { s with pending := rest }

/-- The model's clock (log 3): an empty queue takes what is due, then the expiry of a timer that has run out, and
otherwise one millisecond passes, in which every timer that runs falls by one. A rest that reaches 0 in it expires, as
`RestsAndQuiet` states. What is due comes about one step after the other, each as its own row, before a command from
outside and before a row that is due later (log 5). -/
def Obligations.IdleStep : Prop :=
  (∀ (s : State) (c : Instr),
    (s.due = some c → exec c s = stepOut s.runDue) ∧
    (s.due = none → s.catchUp = s) ∧
    (∀ n t, s.runDue = some t → State.catchUpN (n + 1) s = State.catchUpN n t) ∧
    (s.due = some c ∨ s.due = none → s.upTo c = s) ∧
    (∀ n t, s.due ≠ some c → s.runDue = some t → State.upToN c (n + 1) s = State.upToN c n t) ∧
    (s.catchUp.due = none → (match c with
      | .powerOn | .rstPin | .contextGrant | .linkGrant | .unmountComplete _ | .abandonDeferredAnswer _
      | .waitingRequestTaken _ | .enterSaving | .wakeTimerExpiry | .restoreCheckEnd _ => False
      | _ => True) → exec c s = exec c s.catchUp)) ∧
  ∀ s : State, s.pending = [] →
    (∀ c, s.due = some c → step s = .next { s with pending := [c] }) ∧
    (∀ i, s.due = none → s.runOut = some i → step s = .next { s with pending := [i.expiry] }) ∧
    (s.due = none → s.runOut = none → step s = .next (s.pass 1)) ∧
    (∀ k, (∀ d, (s.elapse k).timer (.rest d) ≠ some 0) → s.pass k = s.elapse k) ∧
    (∀ i, s.runOut = some i → s.timer i = some 0) ∧
    (s.runOut = none ↔ ∀ i, s.timer i ≠ some 0) ∧
    ∀ k, (s.elapse k).now = s.now + k ∧ (∀ i, (s.elapse k).timer i = (s.timer i).map (· - k)) ∧
      (s.power.state.timersRun = false → (s.elapse k).rests = s.rests ∧ (s.elapse k).drives = s.drives) ∧
      s.elapse k = { s with
        now := s.now + k, rests := (s.elapse k).rests, drives := (s.elapse k).drives, link := (s.elapse k).link
        power := (s.elapse k).power }

/-- POWER_ON and RST (R168, R132 and the power-on rows of the other chapters). The store after each is the model's
choice (log 22), and so are the commands that wait (log 1) and the positioning start 0 (log 36). -/
def Obligations.PowerOnAndRst : Prop :=
  ∀ s : State,
    (∃ t : State, exec .powerOn s = .next t ∧ t.AtPowerOn ∧ t.pending = s.pending ∧ t.store = [] ∧
      ∀ p, t.attention p = false) ∧
    (∃ t : State, exec .rstPin s = .next t ∧ t.AtPowerOn ∧ t.pending = s.pending ∧ t.store = s.store ∧
      ∀ p, t.attention p = false)

/-- The state after power-on meets every invariant stated below. -/
def Obligations.ResetMeetsInvariants : Prop :=
  State.reset.canonical = true ∧ State.reset.restsSound = true ∧ State.reset.listsBounded = true ∧
    State.reset.tablesBounded = true ∧ State.reset.linkSound = true

/-- R68, R69, R78, R79, R83, R113, R114: what follows a command at the same moment. The host view stays, and so do the
mounts but for their sweep, the drives but for the poll timer, and the power state but for the return from QUIET to
ACTIVE. An attempt whose READ waits while its result would be dropped or its drive rests ends, and so does one whose
POSITION waits while its drive rests; the end releases the context that is abandon-pending. A drive's scheduler is
STOPPED exactly where a run condition fails and no attempt is in flight, or where the attempt runs on over a RESET and
the drive has no mount (R107), or in ENTERING; that the last is so beside R68's words on an attempt in flight is the
model's reading (log 33). A context request is withdrawn where one of its conditions fails. The state so reached, `w`,
differs from what the command left in nothing else. The schedulers that became able to run, whose attempt ended or an
input of which changed then choose, drive 0 to 3 (the order and the moment are the model's, log 6), unless a grant of a
context or a deferred ABANDON is due first; that what a choice itself changes calls for no further choice is the
model's reading (log 23). The quiet timer runs exactly while the part is ACTIVE and without work, and from the full
delay where the command had left work that a choice took away. -/
def Obligations.SettleFrame : Prop :=
  ∀ (s b t : State) (runs ends : DriveId → Prop), t = s.settle b →
    (∀ d, runs d ↔ s.isMounted d = true ∧ (s.drives.get d).link = .online ∧ (s.rests.get d).timer = none ∧
      (s.drives.get d).pend = [] ∧ (∀ x, s.link.exchange = some x → x.drive ≠ d) ∧
      (s.power.state = .active ∨ s.power.state = .quiet)) →
    (∀ d, ends d ↔ ∃ a, s.attempts.get d = some a ∧
      ((a.phase = .needRead ∧ (s.discard.get d = true ∨ s.isMounted d = false ∨ s.abandonPending d ≠ none ∨
          (s.rests.get d).timer ≠ none)) ∨
        (a.phase = .needPosition ∧ (s.rests.get d).timer ≠ none))) →
    t.host = s.host ∧
    (∀ d, (t.mounts.get d).map (fun m => { m with sweepOn := false, cursor := 0 }) =
      (s.mounts.get d).map fun m => { m with sweepOn := false, cursor := 0 }) ∧
    (∀ d, { t.drives.get d with poll := none } = { s.drives.get d with poll := none }) ∧
    ({ t.power with state := .active, quiet := none } = { s.power with state := .active, quiet := none }) ∧
    (t.power.state = s.power.state ∨ (s.power.state = .quiet ∧ t.power.state = .active)) ∧
    (∀ d, (∀ a, s.attempts.get d = some a → ¬ ends d → t.attempts.get d = some a ∧
        (t.scheds.get d).state =
          if (s.mounts.get d).isSome ∧ (s.power.state = .active ∨ s.power.state = .quiet) then .attempting
          else .stopped) ∧
      (ends d ∨ (s.attempts.get d = none ∧ s.discard.get d = false) → runs d →
        (t.scheds.get d).state ≠ .stopped ∧
          ((t.scheds.get d).state = .attempting ↔ t.attempts.get d ≠ none) ∧ t.discard.get d = false) ∧
      (ends d ∨ s.attempts.get d = none → ¬ (runs d ∧ (ends d ∨ s.discard.get d = false)) →
        (t.scheds.get d).state = .stopped ∧ t.attempts.get d = none) ∧
      (s.isMounted d = false ∨ (s.rests.get d).timer ≠ none ∨ (s.drives.get d).link ≠ .online ∨
        (s.power.state ≠ .active ∧ s.power.state ≠ .quiet) → t.ctxReq.get d = none)) ∧
    (∀ idle : State → Prop, (∀ q, idle q ↔ q.power.state = .active ∧
        (∀ d, q.isMounted d = true → q.works.get d = [] ∧ q.sweepOn d = false) ∧
        (∀ c ∈ q.contexts.toList, c = none) ∧ (∀ d, q.attempts.get d = none) ∧ q.loader.stage = .idle ∧
        q.loader.write = .idle) →
      (idle s → idle t → t.power.quiet = some (s.power.quiet.getD (s.settings.quietDelay * 1000))) ∧
      (idle t → ¬ idle s → t.power.quiet = some (s.settings.quietDelay * 1000)) ∧
      (¬ idle t → t.power.quiet = none)) ∧
    ∃ w : State, w = { s with
        attempts := w.attempts, discard := w.discard, drives := w.drives, contexts := w.contexts, ctxReq := w.ctxReq
        scheds := w.scheds, power := w.power } ∧
      { w.power with quiet := none } = { s.power with quiet := none } ∧
      (∀ i, i < 8 → w.contexts.get? i = s.contexts.get? i ∨
        (w.contexts.get? i = some none ∧ ∃ d, ends d ∧ s.abandonPending d = some i)) ∧
      (∀ d, (ends d → w.attempts.get d = none ∧ w.discard.get d = false ∧
          w.drives.get d = { s.drives.get d with poll := none } ∧
          ∀ i, s.abandonPending d = some i → w.contexts.get? i = some none) ∧
        (¬ ends d → w.attempts.get d = s.attempts.get d ∧ w.discard.get d = s.discard.get d ∧
          w.drives.get d = s.drives.get d) ∧
        w.ctxReq.get d = (s.ctxReq.get d).filter (fun u => decide (s.isTerminal d u = false ∧ s.entryOf d u ≠ none ∧
          s.isMounted d = true ∧ (s.rests.get d).timer = none ∧ (s.drives.get d).link = .online ∧
          (s.power.state = .active ∨ s.power.state = .quiet) ∧ w.openCount d < s.settings.quota.get d))) ∧
      (∀ (d : DriveId) (changed : Prop) (choice : SchedState → Bool → Sched),
        (changed ↔ b.works.get d ≠ s.works.get d ∨ b.ctxReq.get d ≠ w.ctxReq.get d ∨ b.sweepOn d ≠ s.sweepOn d ∨
          b.options ≠ s.options ∨ b.settings.quota.get d ≠ s.settings.quota.get d ∨
          b.lastEvaluating d ≠ w.lastEvaluating d ∨
          ∃ i, i < 8 ∧ ((b.contexts.get? i).join.bind fun c =>
              if c.drive = d then some (c.unit, c.inEvaluation) else none) ≠
            (w.contexts.get? i).join.bind fun c => if c.drive = d then some (c.unit, c.inEvaluation) else none) →
        (∀ st o, choice st o = { s.scheds.get d with state := st, owed := o }) →
        (w.attempts.get d ≠ none → s.mounts.get d ≠ none → (s.power.state = .active ∨ s.power.state = .quiet) →
          w.scheds.get d = choice .attempting false) ∧
        ((w.attempts.get d = none ∨ s.mounts.get d = none ∨ (s.power.state ≠ .active ∧ s.power.state ≠ .quiet)) →
          ¬ (runs d ∧ w.attempts.get d = none ∧ w.discard.get d = false) → w.scheds.get d = choice .stopped false) ∧
        (runs d → w.attempts.get d = none → w.discard.get d = false →
          ((s.scheds.get d).state = .stopped ∨ (s.scheds.get d).state = .attempting ∨ (s.scheds.get d).owed = true ∨
            changed → w.scheds.get d = choice .waiting true) ∧
          (¬ ((s.scheds.get d).state = .stopped ∨ (s.scheds.get d).state = .attempting ∨
            (s.scheds.get d).owed = true ∨ changed) → w.scheds.get d = s.scheds.get d))) ∧
      ∀ (held : Prop) (turn : DriveId → State → State),
        (held ↔ (w.freeCtx ≠ none ∧ ∃ d, w.ctxReq.get d ≠ none) ∨ ∃ p ip, (s.ports.get p).inProgress = some ip ∧
          ∀ i c, w.ctxOf ip.drive ip.unit = some (i, c) → c.phase = .collecting) →
        (∀ d q, turn d q = if (q.scheds.get d).owed = true then
          (q.setSched d { q.scheds.get d with owed := false }).choose d else q) →
        ∃ q : State, (held → q = w) ∧ (¬ held → q = turn .d3 (turn .d2 (turn .d1 (turn .d0 w)))) ∧
          t = { q with power := { q.power with quiet := t.power.quiet } }

/-! ### Requests on the part -/

/-- R128: IDENTIFY in every power state but DORMANT. -/
def Obligations.IdentifyAnswer : Prop :=
  ∀ (p : PortId) (tag : Byte) (s : State), s.takes p →
    exec (.identify p (Frame.good 0x01 tag [])) s =
      .next (s.answered p 0 .ok tag
        [0x2E, 0x30, 0x00, 1, BitVec.ofNat 8 (s.table.filter Slot.isValid).length,
          BitVec.ofNat 8 (s.drives.get .d0).link.code, BitVec.ofNat 8 (s.drives.get .d1).link.code,
          BitVec.ofNat 8 (s.drives.get .d2).link.code, BitVec.ofNat 8 (s.drives.get .d3).link.code])

/-- R129 with the layout of section 12.4: STATUS in every power state but DORMANT. -/
def Obligations.StatusAnswer : Prop :=
  ∀ (p : PortId) (tag : Byte) (s : State), s.takes p →
    ∃ bs : List Byte, exec (.status p (Frame.good 0x02 tag [])) s = .next (s.answered p 0 .ok tag bs) ∧
      bs.length = 74 ∧
      byteAt bs 0 = s.power.state.code ∧
      byteAt bs 1 = flag (s.loader.stage != .idle) + 2 * flag (s.loader.write != .idle) ∧
      byteAt bs 2 = PortId.code s.loader.writePort ∧ byteAt bs 3 = s.loader.outcome.code ∧
      byteAt bs 4 = flag s.loader.noMemory + 2 * flag s.loader.badMarker + 4 * flag s.loader.busFault
        + 8 * flag s.loader.noSettings + 16 * flag s.loader.overflow ∧
      byteAt bs 5 = s.loader.records % 256 ∧ byteAt bs 6 = s.loader.unknown % 256 ∧
      byteAt bs 7 = s.loader.clamped % 256 ∧ byteAt bs 8 = s.freeCount ∧
      leField bs 2 9 = largestRun 32768 s.mapExtents % 65536 ∧
      leField bs 2 11 = largestRun 16128 s.storeExtents % 65536 ∧
      byteAt bs 13 = s.power.reject.toNat ∧
      ∀ d : DriveId,
        byteAt bs (14 + 15 * d.toNat) = (s.drives.get d).link.code ∧
        byteAt bs (15 + 15 * d.toNat) = flag (s.drives.get d).medium ∧
        byteAt bs (16 + 15 * d.toNat) = mountCode (s.mounts.get d) ∧
        byteAt bs (17 + 15 * d.toNat) = (s.rests.get d).cause.code ∧
        leField bs 4 (18 + 15 * d.toNat) = (s.rests.get d).left % 4294967296 ∧
        byteAt bs (22 + 15 * d.toNat) = s.openCount d ∧
        byteAt bs (23 + 15 * d.toNat) = (s.works.get d).length % 256 ∧
        leField bs 2 (24 + 15 * d.toNat) = ((s.mounts.get d).map MountRec.terminal).getD 0 % 65536 ∧
        leField bs 2 (26 + 15 * d.toNat) = ((s.mounts.get d).map MountRec.u).getD 0 % 65536 ∧
        byteAt bs (28 + 15 * d.toNat) = ((s.mounts.get d).map MountRec.slot).getD 255 % 256

/-- R127: SET PORT OPTIONS sets both options of the requesting port and answers with them; another priority is
refused BAD_PARAM, which changes no option; while a loader run goes on it is answered NOT_READY. -/
def Obligations.SetPortOptions : Prop :=
  ∀ (p : PortId) (tag prio limit : Byte) (s : State),
    (s.ready p → prio.toNat ≤ 1 → ∃ t : State,
      exec (.setPortOptions p (Frame.good 0x03 tag [prio, limit])) s = .next t ∧
      t.host = { (s.answered p 2 .ok tag [prio, limit]).host with
        options := s.options.set p ⟨decide (prio = 1), limit.toNat⟩ } ∧
      t = ((({ s.framed p 2 with options := s.options.set p ⟨decide (prio = 1), limit.toNat⟩ } : State).settle
        (s.framed p 2)).respond p .ok tag [prio, limit])) ∧
    (s.ready p → 1 < prio.toNat → ∃ t : State,
      exec (.setPortOptions p (Frame.good 0x03 tag [prio, limit])) s = .next t ∧
      t.ports = s.ports.set p ((s.ports.get p).answered 2 .badParam tag []) ∧ t.options = s.options) ∧
    (s.takes p → (s.power.state = .active ∨ s.power.state = .quiet) → s.loader.stage ≠ .idle →
      exec (.setPortOptions p (Frame.good 0x03 tag [prio, limit])) s = .next (s.answered p 2 .notReady tag []))

/-- R130, R131, R107: RESET of the part, in ACTIVE, QUIET or ENTERING, by one of its ports. That the positioning start
of a drive is then 0 is the model's choice (log 36). -/
def Obligations.ResetRequest : Prop :=
  ∀ (p : PortId) (tag : Byte) (s : State), s.takes p → s.loader.stage = .idle →
    (s.power.state = .active ∨ s.power.state = .quiet ∨ s.power.state = .entering) →
    ∃ t : State, exec (.reset p (Frame.good 0x04 tag [])) s = .next t ∧
      (t.ports.get p).response = some ⟨.ok, tag, []⟩ ∧ (t.ports.get p).cursor = none ∧
      (t.ports.get p.other).cursor = none ∧ (t.ports.get p.other).inProgress = none ∧
      (t.ports.get p.other).waiting = (s.ports.get p.other).waiting ∧
      (t.ports.get p.other).response =
        (match (s.ports.get p.other).inProgress, (s.ports.get p.other).waiting with
          | some ip, none => some ⟨.notReady, ip.tag, []⟩
          | _, _ => (s.ports.get p.other).response) ∧
      t.power.state = .active ∧ t.power.reject = 0 ∧
      (∀ d, t.mounts.get d = none ∧ t.works.get d = [] ∧ t.ctxReq.get d = none ∧
        t.drives.get d = ⟨.absent, none, false, false, 0, none, none, none, 0, [.probe]⟩ ∧
        t.rests.get d = ⟨none, .none, 0, 0⟩ ∧ t.scheds.get d = ⟨.stopped, none, 0, none, false, []⟩ ∧
        t.attempts.get d = keptAttempt (s.attempts.get d) ∧
        t.discard.get d = (keptAttempt (s.attempts.get d)).isSome) ∧
      t.contexts.toList = List.replicate 8 none ∧ t.unitMap = [] ∧ t.ctxLast = .d3 ∧ t.link.last = .d3 ∧
      t.link.exchange = s.link.exchange.map (fun x => { x with orphan := true }) ∧
      (∀ q w, (t.views.get q).get w = none ∧ (t.streams.get q).get w = ⟨none, none⟩) ∧
      (∀ q, t.deferred.get q = [] ∧ t.errors.get q = none ∧
        t.events.get q = ⟨Event.resetDone.bit, Event.resetDone.bit⟩ ∧ t.attention q = true) ∧
      t.linkFault = none ∧ t.options = s.options ∧ t.table = s.table ∧ t.settings = s.settings ∧
      t.stats = s.stats ∧ t.served = s.served ∧ t.loader = s.loader ∧ t.store = s.store

/-! ### Profiles -/

/-- R5: PROFILE QUERY answers with the slot in each of its states, is refused BAD_PARAM above slot 15, and is answered
NOT_READY while a loader run goes on; the table stays. -/
def Obligations.ProfileQuery : Prop :=
  ∀ (p : PortId) (tag b : Byte) (s : State),
    (s.ready p → b.toNat ≤ 15 →
      exec (.profileQuery p (Frame.good 0x08 tag [b])) s =
        .next (s.answered p 1 .ok tag
          (match s.table.getD b.toNat .empty with
            | .empty => [0, 0, 0]
            | .valid src bytes => 1 :: BitVec.ofNat 8 src.code :: 0 :: bytes
            | .invalid src r bytes => 2 :: BitVec.ofNat 8 src.code :: BitVec.ofNat 8 r.code :: bytes))) ∧
    (s.ready p → 15 < b.toNat → ∃ t : State, exec (.profileQuery p (Frame.good 0x08 tag [b])) s = .next t ∧
      t.ports = s.ports.set p ((s.ports.get p).answered 1 .badParam tag []) ∧ t.table = s.table) ∧
    (s.takes p → (s.power.state = .active ∨ s.power.state = .quiet) → s.loader.stage ≠ .idle →
      exec (.profileQuery p (Frame.good 0x08 tag [b])) s = .next (s.answered p 1 .notReady tag []))

/-- R164, R166: RELOAD and PROFILE WRITE start a run and a write, or are refused BUSY while a write is in progress. -/
def Obligations.ReloadAndProfileWrite : Prop :=
  ∀ (p : PortId) (tag : Byte) (s : State), s.ready p →
    (s.loader.write = .idle → ∃ v : State,
      exec (.reload p (Frame.good 0x09 tag [])) s = .next ((v.settle (s.framed p 0)).respond p .ok tag []) ∧
      v = { s.framed p 0 with
        power := { s.power with state := .active }
        table := List.replicate 16 .empty
        settings := Settings.defaults
        loader := { s.loader with
          stage := .marker, noMemory := false, badMarker := false, busFault := false, noSettings := false,
          overflow := false, records := 0, unknown := 0, clamped := 0, m := 0 } }) ∧
    (s.loader.write ≠ .idle →
      exec (.reload p (Frame.good 0x09 tag [])) s = .next (s.answered p 0 .busy tag [])) ∧
    ∀ (addr : Nat) (data : List Byte), addr ≤ 1023 → 1 ≤ data.length → addr % 16 + data.length ≤ 16 →
      (s.loader.write = .idle → ∃ v : State,
        exec (.profileWrite p (Frame.good 0x0A tag (leBytes 2 addr ++ BitVec.ofNat 8 data.length :: data))) s =
          .next ((v.settle (s.framed p (3 + data.length))).respond p .ok tag []) ∧
        v = { s.framed p (3 + data.length) with
          power := { s.power with state := .active }
          loader := { s.loader with
            write := .transfer, writePort := p, outcome := .none, writeAddr := addr, writeData := data,
            writeAcked := 0 } }) ∧
      (s.loader.write ≠ .idle →
        exec (.profileWrite p (Frame.good 0x0A tag (leBytes 2 addr ++ BitVec.ofNat 8 data.length :: data))) s =
          .next (s.answered p (3 + data.length) .busy tag []))

/-! ### Mounts -/

/-- R10: MOUNT is refused with the status of the first test that fails, and changes nothing. -/
def Obligations.MountRefusals : Prop :=
  ∀ (p : PortId) (tag slot : Byte) (d : DriveId) (s : State), s.ready p → slot.toNat ≤ 15 →
    (s.mounts.get d ≠ none →
      exec (.mount p (Frame.good 0x10 tag [d.param, slot])) s = .next (s.answered p 2 .alreadyMounted tag [])) ∧
    (s.mounts.get d = none → ((s.drives.get d).link ≠ .online ∨ (s.drives.get d).medium = false) →
      exec (.mount p (Frame.good 0x10 tag [d.param, slot])) s = .next (s.answered p 2 .noMedium tag [])) ∧
    (s.mounts.get d = none → (s.drives.get d).link = .online → (s.drives.get d).medium = true →
      ((∀ src bytes, s.table.getD slot.toNat .empty ≠ .valid src bytes) →
        exec (.mount p (Frame.good 0x10 tag [d.param, slot])) s = .next (s.answered p 2 .profileInvalid tag [])) ∧
      ∀ src bytes, s.table.getD slot.toNat .empty = .valid src bytes →
        ((s.drives.get d).kind ≠ some (Profile.ofBytes bytes).kind →
          exec (.mount p (Frame.good 0x10 tag [d.param, slot])) s =
            .next (s.answered p 2 .kindMismatch tag [])) ∧
        ((s.drives.get d).kind = some (Profile.ofBytes bytes).kind →
          (∀ r, freeRun 32768 s.mapExtents r (Profile.ofBytes bytes).units = false) →
          exec (.mount p (Frame.good 0x10 tag [d.param, slot])) s = .next (s.answered p 2 .noSpace tag [0])) ∧
        ((s.drives.get d).kind = some (Profile.ofBytes bytes).kind →
          (∃ r, freeRun 32768 s.mapExtents r (Profile.ofBytes bytes).units = true) →
          (∀ q, freeRun 16128 s.storeExtents q (Profile.ofBytes bytes).pages = false) →
          exec (.mount p (Frame.good 0x10 tag [d.param, slot])) s = .next (s.answered p 2 .noSpace tag [1])))

/-- R10 to R13: a MOUNT that passes its tests takes the lowest free runs and answers OK with what it took; every unit
is UNREAD afterwards and no other record changes. -/
def Obligations.MountSucceeds : Prop :=
  ∀ (p : PortId) (tag slot : Byte) (d : DriveId) (s : State) (src : Source) (bytes : List Byte) (r q : Nat),
    s.ready p → slot.toNat ≤ 15 → s.mounts.get d = none → (s.drives.get d).link = .online →
    (s.drives.get d).medium = true → s.table.getD slot.toNat .empty = .valid src bytes →
    (s.drives.get d).kind = some (Profile.ofBytes bytes).kind →
    freeRun 32768 s.mapExtents r (Profile.ofBytes bytes).units = true →
    (∀ r', r' < r → freeRun 32768 s.mapExtents r' (Profile.ofBytes bytes).units = false) →
    freeRun 16128 s.storeExtents q (Profile.ofBytes bytes).pages = true →
    (∀ q', q' < q → freeRun 16128 s.storeExtents q' (Profile.ofBytes bytes).pages = false) →
    ∃ v : State, exec (.mount p (Frame.good 0x10 tag [d.param, slot])) s =
        .next ((v.settle (s.framed p 2)).respond p .ok tag
          (slot :: (leBytes 2 (Profile.ofBytes bytes).units ++ leBytes 2 r ++ leBytes 2 q
            ++ leBytes 2 (Profile.ofBytes bytes).pages))) ∧
      v = { s.framed p 2 with
        mounts := s.mounts.set d (some ⟨.mounted, slot.toNat, Profile.ofBytes bytes, (Profile.ofBytes bytes).units, r,
          q, (Profile.ofBytes bytes).pages, false, 0, 0⟩)
        unitMap := v.unitMap
        works := s.works.set d []
        scheds := s.scheds.set d { s.scheds.get d with last := none, burst := 0 }
        rests := s.rests.set d { s.rests.get d with level := 0, weakRun := 0 }
        power := { s.power with state := .active } } ∧
      (∀ u, u < (Profile.ofBytes bytes).units → v.unitRec d u = UnitRec.fresh) ∧
      ∀ k, k < r ∨ r + (Profile.ofBytes bytes).units ≤ k →
        Sparse.get UnitRec.fresh v.unitMap k = Sparse.get UnitRec.fresh s.unitMap k

/-- R14, R22, R41, R146, R147: UNMOUNT of a MOUNTED or LOST mount, and its refusal otherwise. -/
def Obligations.UnmountRequest : Prop :=
  ∀ (p : PortId) (tag : Byte) (d : DriveId) (s : State), s.ready p →
    (s.openMount d = none →
      exec (.unmount p (Frame.good 0x11 tag [d.param])) s = .next (s.answered p 1 .notMounted tag [])) ∧
    ∀ m, s.openMount d = some m → ∃ v : State,
      exec (.unmount p (Frame.good 0x11 tag [d.param])) s =
        .next ((v.settle (s.framed p 1)).respond p .ok tag []) ∧
      v = { s.framed p 1 with
        ports := v.ports, streams := v.streams, deferred := v.deferred, events := v.events, unitMap := v.unitMap
        mounts := s.mounts.set d (some { m with phase := .unmounting, sweepOn := false })
        discard := s.discard.set d ((s.attempts.get d).isSome || s.discard.get d)
        works := s.works.set d []
        contexts := s.contexts.map fun c => if c.any (fun c => c.drive == d) then none else c
        ctxReq := s.ctxReq.set d none
        scheds := s.scheds.set d { s.scheds.get d with last := none, burst := 0 } } ∧
      (∀ q, v.ports.get q = { (s.framed p 1).ports.get q with
        cursor := if (s.ports.get q).cursor.any (fun c => c.1 == d) then none else (s.ports.get q).cursor }) ∧
      (∀ q w, (v.streams.get q).get w =
        if ((s.views.get q).get w).any (fun x => x.drive == d) then ⟨none, none⟩ else (s.streams.get q).get w) ∧
      (∀ q, v.deferred.get q =
        (s.deferred.get q).map fun e => if e.drive == d then { e with state := .gone } else e) ∧
      (∀ q, v.events.get q = { s.events.get q with
        raw := if (s.deferred.get q).any (fun e => e.drive == d && e.state != .gone)
          then (s.events.get q).raw ||| Event.deferReady.bit else (s.events.get q).raw }) ∧
      (∀ u, v.unitRec d u =
        if s.contexts.toList.any (fun c => c.any fun c => c.drive == d && c.unit == some u)
        then { s.unitRec d u with state := .tried } else s.unitRec d u) ∧
      ∀ k, (∀ c ∈ s.contexts.toList, ∀ c' u, c = some c' → c'.drive = d → c'.unit = some u → k ≠ m.mapFirst + u) →
        Sparse.get UnitRec.fresh v.unitMap k = Sparse.get UnitRec.fresh s.unitMap k

/-- R15: an UNMOUNTING mount of a drive with no attempt in flight completes: its records and pages are free, and an
ONLINE drive is to be relaxed. It is due before anything that a port holds; the grants of contexts and of the link come
first (log 5). At any other time the event cannot occur (log 7). -/
def Obligations.UnmountCompletes : Prop :=
  ∀ (d : DriveId) (s g : State), g = s.upTo (.unmountComplete d) →
    ((s.freeCtx = none ∨ ∀ e, s.ctxReq.get e = none) →
      (s.link.exchange ≠ none ∨ s.link.clearing = true ∨ ∀ e, s.nextTx e = none) →
      (∀ m, s.mounts.get d = some m → m.phase = .unmounting → s.attempts.get d = none →
        ∃ e, s.due = some (.unmountComplete e) ∧ e.toNat ≤ d.toNat)) ∧
    (∀ m, g.mounts.get d = some m → m.phase = .unmounting → g.attempts.get d = none → ∃ v : State,
      exec (.unmountComplete d) s = .next (v.settle g) ∧
      v = { g with
        mounts := g.mounts.set d none
        unitMap := Sparse.clear g.unitMap m.mapFirst m.u
        drives := g.drives.set d { g.drives.get d with
          pend := if (g.drives.get d).link = .online ∧ PendTx.relax ∉ (g.drives.get d).pend
            then (g.drives.get d).pend ++ [.relax] else (g.drives.get d).pend } }) ∧
    ((∀ m, g.mounts.get d = some m → m.phase ≠ .unmounting ∨ g.attempts.get d ≠ none) →
      exec (.unmountComplete d) s = .refused .cannotOccur)

/-- R19: RESUME returns a LOST mount with a medium present to MOUNTED; otherwise it is refused. -/
def Obligations.ResumeRequest : Prop :=
  ∀ (p : PortId) (tag : Byte) (d : DriveId) (s : State), s.ready p →
    (s.openMount d = none →
      exec (.resume p (Frame.good 0x12 tag [d.param])) s = .next (s.answered p 1 .notMounted tag [])) ∧
    ∀ m, s.mounts.get d = some m →
      (m.phase = .mounted →
        exec (.resume p (Frame.good 0x12 tag [d.param])) s = .next (s.answered p 1 .alreadyMounted tag [])) ∧
      (m.phase = .lost → ((s.drives.get d).link ≠ .online ∨ (s.drives.get d).medium = false) →
        exec (.resume p (Frame.good 0x12 tag [d.param])) s = .next (s.answered p 1 .noMedium tag [])) ∧
      (m.phase = .lost → (s.drives.get d).link = .online → (s.drives.get d).medium = true → ∃ v : State,
        exec (.resume p (Frame.good 0x12 tag [d.param])) s =
          .next ((v.settle (s.framed p 1)).respond p .ok tag []) ∧
        v = { s.framed p 1 with
          mounts := s.mounts.set d (some { m with phase := .mounted })
          scheds := s.scheds.set d { s.scheds.get d with last := none, burst := 0 }
          power := { s.power with state := .active } })

/-! ### The map and the work lists -/

/-- R37: RECOVER places DIRECT demands until one is Refused; it answers how many were accepted and the clipped count,
BUSY where none was, in which case it has changed nothing. -/
def Obligations.RecoverRequest : Prop :=
  ∀ (p : PortId) (tag : Byte) (d : DriveId) (first count : Nat) (s : State), s.ready p →
    first < 65536 → 1 ≤ count → count < 65536 →
    (s.openMount d = none →
      exec (.recover p (Frame.good 0x18 tag (d.param :: (leBytes 2 first ++ leBytes 2 count)))) s =
        .next (s.answered p 5 .notMounted tag [])) ∧
    ∀ m, s.openMount d = some m →
      (m.u ≤ first → ∃ t : State,
        exec (.recover p (Frame.good 0x18 tag (d.param :: (leBytes 2 first ++ leBytes 2 count)))) s = .next t ∧
        t.ports = s.ports.set p ((s.ports.get p).answered 5 .badParam tag []) ∧ t.works = s.works) ∧
      (first < m.u → ∃ (v : State) (k : Nat),
        exec (.recover p (Frame.good 0x18 tag (d.param :: (leBytes 2 first ++ leBytes 2 count)))) s =
          (if 1 ≤ k then
            .next ((v.settle (s.framed p 5)).respond p .ok tag (leBytes 2 k ++ leBytes 2 (min count (m.u - first))))
          else .next (s.answered p 5 .busy tag (leBytes 2 0 ++ leBytes 2 (min count (m.u - first))))) ∧
        k ≤ min count (m.u - first) ∧
        v = (s.framed p 5).demands d (.direct p) first k ∧
        (∀ j, j < k →
          (((s.framed p 5).demands d (.direct p) first j).demand d (first + j) (.direct p)).2 ≠ .refused) ∧
        (k < min count (m.u - first) → (v.demand d (first + k) (.direct p)).2 = .refused))

/-- R29 to R32, R69, R116: what one demand does to a list and which outcome it has. In a full list the victim is the
newest entry of the lowest class among the candidates, there is one exactly where there is a candidate, and a waiting
context request made for its unit is withdrawn. An entry that is added, or whose effective class rises, returns a QUIET
part to ACTIVE where the mount is MOUNTED, and a port's demand that is Merged or Inserted leaves a choice
due; that a SWEEP demand, which a choice places, leaves none due is the model's reading (log 23). -/
def Obligations.DemandOutcomes : Prop :=
  ∀ (s : State) (d : DriveId) (u : Nat) (k : Demand) (woken : Power), woken =
      (if s.isMounted d = true ∧ s.power.state = .quiet then { s.power with state := .active } else s.power) →
    (s.isTerminal d u = true → s.demand d u k = (s, .satisfied)) ∧
    ((s.demand d u k).2 = .merged ∨ (s.demand d u k).2 = .inserted →
      (s.demand d u k).1.scheds = (match k with
        | .direct _ | .ahead _ => s.scheds.set d { s.scheds.get d with owed := true }
        | .sweep => s.scheds)) ∧
    (s.isTerminal d u = false → ∀ e, s.entryOf d u = some e →
      (s.demand d u k).2 = .merged ∧
      (s.demand d u k).1.power =
        (if effRank (s.effOf d e) < effRank (s.effOf d (e.merge k)) then woken else s.power) ∧
      (s.demand d u k).1.works = s.works.set d
        ((s.works.get d).map fun e' => if e'.unit == u then e'.merge k else e')) ∧
    (s.isTerminal d u = false → s.entryOf d u = none → (s.works.get d).length < 64 →
      (s.demand d u k).2 = .inserted ∧ (s.demand d u k).1.power = woken ∧
      (s.demand d u k).1.works = s.works.set d (s.works.get d ++ [Entry.new u k]) ∧
      (s.demand d u k).1.mounts = s.mounts) ∧
    (s.isTerminal d u = false → s.entryOf d u = none → 64 ≤ (s.works.get d).length → s.victim d k = none →
      (s.demand d u k).1 = s ∧
      (s.demand d u k).2 = (match k with | .direct _ => .refused | .ahead _ | .sweep => .dropped)) ∧
    (∀ cand : Entry → Prop, (∀ e, cand e ↔ s.isActive d e.unit = false ∧
        ((s.effOf d e = some .sweep ∧ k ≠ .sweep) ∨ (s.effOf d e = some .ahead ∧ ∃ q, k = .direct q))) →
      (s.victim d k = none ↔ ∀ e ∈ s.works.get d, ¬ cand e) ∧
      ∀ e, s.victim d k = some e → cand e ∧ ∃ before after, s.works.get d = before ++ e :: after ∧
        (∀ x ∈ before, cand x → effRank (s.effOf d e) ≤ effRank (s.effOf d x)) ∧
        ∀ x ∈ after, cand x → effRank (s.effOf d e) < effRank (s.effOf d x)) ∧
    (s.isTerminal d u = false → s.entryOf d u = none → 64 ≤ (s.works.get d).length →
      ∀ e, s.victim d k = some e →
        (s.demand d u k).2 = .inserted ∧ (s.demand d u k).1.power = woken ∧
        (s.demand d u k).1.works = s.works.set d
          ((s.works.get d).filter (fun e' => e'.unit != e.unit) ++ [Entry.new u k]) ∧
        (s.ctxReq.get d = some e.unit → (s.demand d u k).1.ctxReq = s.ctxReq.set d none) ∧
        (∀ x, s.ctxReq.get d = some x → x ≠ e.unit → s.entryOf d x ≠ none →
          (s.demand d u k).1.ctxReq = s.ctxReq) ∧
        (e.sweep = true → ∀ m, s.mounts.get d = some m →
          (s.demand d u k).1.mounts =
            s.mounts.set d (some { m with cursor := min m.cursor e.unit, sweepOn := true })))

/-- R35: SWEEP on and off. The answer's state and cursor are those before the scheduler's choice that follows, which is
the model's choice (log 29). -/
def Obligations.SweepRequest : Prop :=
  ∀ (p : PortId) (tag : Byte) (d : DriveId) (start : Nat) (s : State), s.ready p → start < 65536 →
    (s.openMount d = none → ∀ on : Bool,
      exec (.sweep p (Frame.good 0x19 tag (d.param :: BitVec.ofNat 8 (flag on) :: leBytes 2 start))) s =
        .next (s.answered p 4 .notMounted tag [])) ∧
    ∀ m, s.openMount d = some m →
      (m.u ≤ start → ∃ t : State, exec (.sweep p (Frame.good 0x19 tag (d.param :: 1 :: leBytes 2 start))) s = .next t ∧
        t.ports = s.ports.set p ((s.ports.get p).answered 4 .badParam tag []) ∧ t.mounts = s.mounts) ∧
      (start < m.u → ∃ v : State, exec (.sweep p (Frame.good 0x19 tag (d.param :: 1 :: leBytes 2 start))) s =
          .next ((v.settle (s.framed p 4)).respond p .ok tag (1 :: leBytes 2 start)) ∧
        v = { s.framed p 4 with
          mounts := s.mounts.set d (some { m with sweepOn := true, cursor := start })
          power := if m.phase = .mounted then { s.power with state := .active } else s.power }) ∧
      ∃ v : State, exec (.sweep p (Frame.good 0x19 tag (d.param :: 0 :: leBytes 2 start))) s =
          .next ((v.settle (s.framed p 4)).respond p .ok tag (0 :: leBytes 2 m.cursor)) ∧
        v = { s.framed p 4 with
          mounts := s.mounts.set d (some { m with sweepOn := false }), works := v.works, events := v.events
          ctxReq := s.ctxReq.set d ((s.ctxReq.get d).filter fun u => (v.entryOf d u).isSome) } ∧
        v.works = s.works.set d ((s.works.get d).filterMap fun e =>
          if e.cls = ⟨.none, .none⟩ ∧ s.isActive d e.unit = false then none else some { e with sweep := false }) ∧
        ∀ q, v.events.get q = { s.events.get q with
          raw := if v.works.get d = [] then (s.events.get q).raw ||| Event.workIdle.bit else (s.events.get q).raw }

/-- R24, R25, R38, R39: ABANDON of a terminal unit, of one without a context, of one whose context is idle or whose
attempt is on the link, and of one in evaluation, whose answer waits; and what abandoning a unit does. -/
def Obligations.AbandonRequest : Prop :=
  (∀ (p : PortId) (tag : Byte) (d : DriveId) (u : Nat) (s : State), s.ready p → u < 65536 →
      (s.openMount d = none →
        exec (.abandon p (Frame.good 0x1A tag (d.param :: leBytes 2 u))) s =
          .next (s.answered p 3 .notMounted tag [])) ∧
      ∀ m, s.openMount d = some m →
        (m.u ≤ u → ∃ t : State, exec (.abandon p (Frame.good 0x1A tag (d.param :: leBytes 2 u))) s = .next t ∧
          t.ports = s.ports.set p ((s.ports.get p).answered 3 .badParam tag []) ∧ t.unitMap = s.unitMap) ∧
        (u < m.u → s.isTerminal d u = true →
          exec (.abandon p (Frame.good 0x1A tag (d.param :: leBytes 2 u))) s =
            .next (s.answered p 3 .ok tag [BitVec.ofNat 8 (s.unitRec d u).state.code])) ∧
        (u < m.u → s.isTerminal d u = false → s.ctxOf d u = none →
          exec (.abandon p (Frame.good 0x1A tag (d.param :: leBytes 2 u))) s =
            .next ((((s.framed p 3).abandonUnit d u).settle (s.framed p 3)).respond p .ok tag [6])) ∧
        ∀ i c, u < m.u → s.isTerminal d u = false → s.ctxOf d u = some (i, c) →
          (c.phase = .collecting → (∀ a, s.attempts.get d = some a → a.unit ≠ u) →
            exec (.abandon p (Frame.good 0x1A tag (d.param :: leBytes 2 u))) s =
              .next (((((s.framed p 3).abandonUnit d u).release i).settle (s.framed p 3)).respond p .ok tag [6])) ∧
          (c.phase = .collecting → (∃ a, s.attempts.get d = some a ∧ a.unit = u) →
            exec (.abandon p (Frame.good 0x1A tag (d.param :: leBytes 2 u))) s =
              .next (((((s.framed p 3).abandonUnit d u).setCtx i
                (some { c with unit := none, abandonPending := true })).settle (s.framed p 3)).respond p .ok tag [6])) ∧
          (c.phase ≠ .collecting →
            exec (.abandon p (Frame.good 0x1A tag (d.param :: leBytes 2 u))) s =
              .next ((s.framed p 3).setPort p
                { (s.framed p 3).ports.get p with inProgress := some ⟨tag, d, u⟩ }))) ∧
  ∀ (s : State) (d : DriveId) (u : Nat) (m : MountRec), s.mounts.get d = some m →
    (s.abandonUnit d u).unitRec d u = { s.unitRec d u with state := .abandoned } ∧
    (∀ u', u' ≠ u → (s.abandonUnit d u).unitRec d u' = s.unitRec d u') ∧
    (∀ k, k ≠ m.mapFirst + u →
      Sparse.get UnitRec.fresh (s.abandonUnit d u).unitMap k = Sparse.get UnitRec.fresh s.unitMap k) ∧
    (s.abandonUnit d u).works = s.works.set d ((s.works.get d).filter fun e => e.unit != u) ∧
    (s.abandonUnit d u).mounts = s.mounts.set d (some { m with terminal := m.terminal + 1 }) ∧
    (m.terminal + 1 = m.u → ∀ p, ((s.abandonUnit d u).events.get p).raw.getLsbD Event.mediumComplete.pos = true) ∧
    ((s.abandonUnit d u).stats.get d).abandoned = (s.stats.get d).abandoned + 1 ∧
    (∀ p, (s.abandonUnit d u).deferred.get p = (s.deferred.get p).map fun e =>
      if e.state = .pending ∧ e.drive = d ∧ e.first ≤ u ∧ u < e.first + e.n ∧
          (∀ i, i < e.n → (s.abandonUnit d u).isTerminal d (e.first + i) = true)
      then { e with state := .ready } else e) ∧
    (s.abandonUnit d u).store = s.store ∧ (s.abandonUnit d u).contexts = s.contexts

/-- R40, R41, R177: QUERY MAP answers the summaries of the clipped run and sets the port's cursor past it; QUERY MAP
NEXT goes on from the cursor. -/
def Obligations.QueryMap : Prop :=
  (∀ (p : PortId) (tag count : Byte) (d : DriveId) (first : Nat) (s : State), s.ready p → first < 65536 →
      1 ≤ count.toNat → count.toNat ≤ 128 →
      (s.openMount d = none →
        exec (.queryMap p (Frame.good 0x1B tag (d.param :: (leBytes 2 first ++ [count])))) s =
          .next (s.answered p 4 .notMounted tag [])) ∧
      ∀ m, s.openMount d = some m →
        (m.u ≤ first → ∃ t : State,
          exec (.queryMap p (Frame.good 0x1B tag (d.param :: (leBytes 2 first ++ [count])))) s = .next t ∧
          t.ports = s.ports.set p ((s.ports.get p).answered 4 .badParam tag [])) ∧
        (first < m.u → ∀ n, n = min count.toNat (m.u - first) →
          exec (.queryMap p (Frame.good 0x1B tag (d.param :: (leBytes 2 first ++ [count])))) s =
            .next (s.setPort p
              { (s.ports.get p).answered 4 .ok tag
                  (d.param :: (leBytes 2 first ++ [BitVec.ofNat 8 n]
                    ++ (List.range n).flatMap fun i => s.summary d (first + i))) with
                cursor := some (d, if first + n = m.u then 0 else first + n) })) ∧
        ∀ u, s.summary d u =
          leBytes 2 u ++
            [BitVec.ofNat 8 ((s.unitRec d u).state.code + 8 * effRank ((s.entryOf d u).bind (s.effOf d))),
              BitVec.ofNat 8 (s.unitRec d u).attempts, BitVec.ofNat 8 (s.unitRec d u).contributing] ++
            leBytes 2 (s.unitRec d u).weak ++
            [BitVec.ofNat 8 ((s.unitRec d u).best + 8 * (s.unitRec d u).method.code + 32 * (s.unitRec d u).flips
              + 128 * flag (s.unitRec d u).ambiguous)]) ∧
    ∀ (p : PortId) (tag count : Byte) (s : State), s.ready p → 1 ≤ count.toNat → count.toNat ≤ 128 →
      ((s.ports.get p).cursor = none →
        exec (.queryMapNext p (Frame.good 0x1C tag [count])) s = .next (s.answered p 1 .notMounted tag [])) ∧
      ∀ d u, (s.ports.get p).cursor = some (d, u) →
        (s.openMount d = none →
          exec (.queryMapNext p (Frame.good 0x1C tag [count])) s = .next (s.answered p 1 .notMounted tag [])) ∧
        ∀ m n, s.openMount d = some m → u < m.u → n = min count.toNat (m.u - u) →
          exec (.queryMapNext p (Frame.good 0x1C tag [count])) s =
            .next (s.setPort p
              { (s.ports.get p).answered 1 .ok tag
                  (d.param :: (leBytes 2 u ++ [BitVec.ofNat 8 n]
                    ++ (List.range n).flatMap fun i => s.summary d (u + i))) with
                cursor := some (d, if u + n = m.u then 0 else u + n) })

/-! ### Rests and views -/

/-- R111: HOLD sets the rest timer to the clamped duration, or ends the rest, and keeps the level and the counter. -/
def Obligations.HoldRequest : Prop :=
  ∀ (p : PortId) (tag : Byte) (d : DriveId) (duration : Nat) (s : State), s.ready p → duration < 4294967296 →
    ∀ r : Rest, r = { s.rests.get d with
        timer := if duration = 0 then none else some (min 600000 duration)
        cause := if duration = 0 then .none else .hold } →
      exec (.hold p (Frame.good 0x20 tag (d.param :: leBytes 4 duration))) s =
        .next (((({ s.framed p 5 with rests := s.rests.set d r } : State).settle (s.framed p 5)).respond p .ok tag
          (leBytes 4 (min 600000 duration) ++
            [BitVec.ofNat 8 (if duration = 0 then 0 else 2), BitVec.ofNat 8 r.level, BitVec.ofNat 8 r.weakRun])))

/-- R34, R135, R136, R149: SET VIEW and CLEAR VIEW tear the view's stream down, which takes the port's AHEAD class off
its range and raises WORK_IDLE where that empties a list whose sweep is off, and then replace or disable the view; a
base that is not a multiple of 2^k is refused. -/
def Obligations.SetAndClearView : Prop :=
  ∀ (p : PortId) (tag k ra dp : Byte) (w : ViewId) (d : DriveId) (base target : Nat) (s : State), s.ready p →
    base < 4294967296 → k.toNat ≤ 16 → target ≤ 32767 → ra.toNat ∈ [0, 1, 2, 4, 8] → dp.toNat ≤ 1 →
    ∀ ps, ps = w.param :: d.param :: (leBytes 4 base ++ k :: (leBytes 2 target ++ [ra, dp])) →
      (base % 2 ^ k.toNat = 0 →
        exec (.setView p (Frame.good 0x28 tag ps)) s =
          .next (((((s.framed p 11).tearDown p w).setView p w
            (some ⟨d, base, k.toNat, target, ra.toNat, dp.toNat == 1⟩)).settle (s.framed p 11)).respond p .ok tag ps)) ∧
      (base % 2 ^ k.toNat ≠ 0 → ∃ t : State, exec (.setView p (Frame.good 0x28 tag ps)) s = .next t ∧
        t.ports = s.ports.set p ((s.ports.get p).answered 11 .badParam tag []) ∧ t.views = s.views) ∧
      (exec (.clearView p (Frame.good 0x29 tag [w.param])) s =
        .next (((((s.framed p 1).tearDown p w).setView p w none).settle (s.framed p 1)).respond p .ok tag [])) ∧
      (((s.views.get p).get w = none ∨ ((s.streams.get p).get w).range = none) →
        s.tearDown p w = s.setStream p w ⟨none, none⟩) ∧
      ∀ v lo hi, (s.views.get p).get w = some v → ((s.streams.get p).get w).range = some (lo, hi) →
        ((s.tearDown p w).streams.get p).get w = ⟨none, none⟩ ∧
        (s.tearDown p w).works = s.works.set v.drive ((s.works.get v.drive).filterMap fun e =>
          if lo ≤ e.unit ∧ e.unit ≤ hi ∧ e.cls.get p = .ahead then
            if e.cls.get p.other = .none ∧ e.sweep = false ∧ s.isActive v.drive e.unit = false then none
            else some { e with cls := e.cls.set p .none }
          else if lo ≤ e.unit ∧ e.unit ≤ hi ∧ e.cls = ⟨.none, .none⟩ ∧ e.sweep = false ∧
            s.isActive v.drive e.unit = false then none
          else some e) ∧
        (s.works.get v.drive ≠ [] → (s.tearDown p w).works.get v.drive = [] → s.sweepOn v.drive = false →
          ∀ q, ((s.tearDown p w).events.get q).raw.getLsbD Event.workIdle.pos = true)

/-! ### Reads -/

/-- R137, R138 (steps 2 to 5): what a READ of address `a` translates to, and the refusal NO_VIEW, NOT_MOUNTED or
BAD_PARAM of one that does not translate, which changes nothing but what its capture changes. -/
def Obligations.ReadTranslation : Prop :=
  (∀ (s : State) (p : PortId) (a count : Nat) (t : Translation), s.translate p a count = .ok t ↔
      ((s.views.get p).get t.id = some t.view ∧ t.view.base ≤ a ∧ a < t.view.base + 2 ^ t.view.k ∧
        (∀ w v, w.toNat < t.id.toNat → (s.views.get p).get w = some v → ¬ (v.base ≤ a ∧ a < v.base + 2 ^ v.k)) ∧
        s.openMount t.view.drive = some t.mount ∧ t.first = t.view.target + (a - t.view.base) ∧ t.first < t.mount.u ∧
        t.n = min (min count (t.view.base + 2 ^ t.view.k - a))
          (min (t.mount.u - t.first) (16384 / t.mount.snap.unitSize)))) ∧
  ∀ (p : PortId) (tag count : Byte) (a : Nat) (s : State), s.ready p → a < 4294967296 → 1 ≤ count.toNat →
    count.toNat ≤ 16 → s.entryFor p a count.toNat = none →
    ((∀ w v, (s.views.get p).get w = some v → ¬ (v.base ≤ a ∧ a < v.base + 2 ^ v.k)) → ∃ t : State,
      exec (.read p (Frame.good 0x2A tag (leBytes 4 a ++ [count]))) s = .next t ∧
      t = { s.answered p 5 .noView tag [] with errors := t.errors, events := t.events }) ∧
    ∀ w v, s.decodeView p a = some (w, v) →
      (s.openMount v.drive = none →
        exec (.read p (Frame.good 0x2A tag (leBytes 4 a ++ [count]))) s = .next (s.answered p 5 .notMounted tag [])) ∧
      ∀ m, s.openMount v.drive = some m → m.u ≤ v.target + (a - v.base) → ∃ t : State,
        exec (.read p (Frame.good 0x2A tag (leBytes 4 a ++ [count]))) s = .next t ∧
        t = { s.answered p 5 .badParam tag [] with errors := t.errors, events := t.events }

/-- R139, R140, R148, R157: a READ whose units are all terminal is served: its status, its unit records, the bytes it
counts, and its view's stream. A stream that is broken has the port's AHEAD class withdrawn on its range first, and the
AHEAD demands of the new range are then placed in ascending order, with one choice after the last (log 25). -/
def Obligations.ReadServed : Prop :=
  ∀ (p : PortId) (tag count : Byte) (a : Nat) (s : State) (t : Translation), s.ready p → a < 4294967296 →
    1 ≤ count.toNat → count.toNat ≤ 16 → s.entryFor p a count.toNat = none →
    s.translate p a count.toNat = .ok t →
    (∀ i, i < t.n → s.isTerminal t.view.drive (t.first + i) = true) →
    ∀ (states : List UnitState), states = (List.range t.n).map (fun i => (s.unitRec t.view.drive (t.first + i)).state) →
    ∃ v : State, exec (.read p (Frame.good 0x2A tag (leBytes 4 a ++ [count]))) s =
        .next ((v.settle (s.framed p 5)).respond p
          (if t.view.deliverPartial = true ∧ .exhausted ∈ states then .partialData
            else if .recovered ∈ states then .ok
            else if ∀ x ∈ states, x = .abandoned then .abandoned else .blank) tag
          (t.view.drive.param :: (leBytes 2 t.first ++ BitVec.ofNat 8 t.n ::
            (List.range t.n).flatMap fun i =>
              BitVec.ofNat 8 (s.unitRec t.view.drive (t.first + i)).state.code ::
              (match (s.unitRec t.view.drive (t.first + i)).state with
                | .recovered =>
                  Memory.readBytes s.store (t.mount.slotAddr (t.first + i)) t.mount.snap.unitSize
                | .exhausted =>
                  if t.view.deliverPartial then
                    Memory.readBytes s.store (t.mount.slotAddr (t.first + i)) t.mount.snap.unitSize ++
                      Memory.readBytes s.store (t.mount.slotAddr (t.first + i) + t.mount.snap.unitSize)
                        (t.mount.snap.unitSize / 8)
                  else []
                | .unread | .active | .tried | .blank | .abandoned => [])))) ∧
      v.unitMap = s.unitMap ∧ v.store = s.store ∧ v.deferred = s.deferred ∧
      ∀ (base after : State) (stream : Stream), stream = (s.streams.get p).get t.id →
        base = { s.framed p 5 with
          served := s.served.set p (s.served.get p + BitVec.ofNat 40 (t.mount.snap.unitSize *
            states.countP fun x => x == .recovered || (x == .exhausted && t.view.deliverPartial))) } →
        after = (if stream = ⟨none, none⟩ ∨ stream.expected = some a then base
          else match stream.range with
            | some (lo, hi) => base.withdrawClass t.view.drive p .ahead lo hi
            | none => base) →
        ((.recovered ∉ states ∧ (.exhausted ∉ states ∨ t.view.deliverPartial = false)) → v = base) ∧
        ((.recovered ∈ states ∨ (.exhausted ∈ states ∧ t.view.deliverPartial = true)) → ∀ k,
          k = min t.view.ra (min (t.view.target + 2 ^ t.view.k) t.mount.u - (t.first + t.n)) →
          v = (after.demands t.view.drive (.ahead p) (t.first + t.n) k).setStream p t.id
            ⟨some (a + t.n), if k = 0 then none else some (t.first + t.n, t.first + t.n + k - 1)⟩)

/-- R141: a first READ with a unit not terminal is NO_MEDIUM on a LOST mount, BUSY where the port's table is full, and
otherwise deferred with DIRECT demands on its units and a new PENDING entry. -/
def Obligations.ReadDeferred : Prop :=
  ∀ (p : PortId) (tag count : Byte) (a : Nat) (s : State) (t : Translation), s.ready p → a < 4294967296 →
    1 ≤ count.toNat → count.toNat ≤ 16 → s.entryFor p a count.toNat = none →
    s.translate p a count.toNat = .ok t →
    (∃ i, i < t.n ∧ s.isTerminal t.view.drive (t.first + i) = false) →
    (t.mount.phase = .lost →
      exec (.read p (Frame.good 0x2A tag (leBytes 4 a ++ [count]))) s =
        .next (s.answered p 5 .noMedium tag [])) ∧
    (t.mount.phase ≠ .lost → 8 ≤ (s.deferred.get p).length →
      exec (.read p (Frame.good 0x2A tag (leBytes 4 a ++ [count]))) s =
        .next (s.answered p 5 .busy tag [])) ∧
    (t.mount.phase ≠ .lost → (s.deferred.get p).length < 8 → ∃ v : State,
      exec (.read p (Frame.good 0x2A tag (leBytes 4 a ++ [count]))) s =
        .next ((v.settle (s.framed p 5)).respond p .defer tag
          (t.view.drive.param :: (leBytes 2 t.first ++ [BitVec.ofNat 8 t.n]))) ∧
      v = { (s.framed p 5).demands t.view.drive (.direct p) t.first t.n with
        deferred := s.deferred.set p
          (s.deferred.get p ++ [⟨a, count.toNat, t.view.drive, t.first, t.n, 0, .pending⟩]) } ∧
      v.unitMap = s.unitMap ∧ v.store = s.store)

/-- R138, step 1, R143, R144, R146: a READ issued again. A GONE entry answers GONE and is freed. An entry whose address
no longer translates is freed and the READ refused, and one whose translation differs is freed and the READ taken as a
new one. A PENDING entry whose translation agrees counts a retry, or finds the mount LOST, or times out at the defer
limit, which withdraws the port's DIRECT class on its units. A READY one is freed and its READ served as a new one. One
choice follows the last demand of a retry (log 25). -/
def Obligations.ReadReissued : Prop :=
  ∀ (p : PortId) (tag count : Byte) (a : Nat) (s : State) (e : Deferred) (i : Instr), s.ready p → a < 4294967296 →
    1 ≤ count.toNat → count.toNat ≤ 16 → s.entryFor p a count.toNat = some e →
    i = .read p (Frame.good 0x2A tag (leBytes 4 a ++ [count])) →
    ∀ rest : List Deferred, rest =
      ((s.deferred.get p).filter fun x => !(x.address == a && x.count == count.toNat)) →
    ∀ freed : State, freed = { s with deferred := s.deferred.set p rest } →
    (e.state = .gone → exec i s = .next (freed.answered p 5 .gone tag [])) ∧
    (∀ st, e.state ≠ .gone → s.translate p a count.toNat = .error st → ∃ t : State, exec i s = .next t ∧
      t = { freed.answered p 5 st tag [] with errors := t.errors, events := t.events }) ∧
    ∀ t, e.state ≠ .gone → s.translate p a count.toNat = .ok t →
      ((e.drive ≠ t.view.drive ∨ e.first ≠ t.first ∨ e.n ≠ t.n) → exec i s = exec i freed) ∧
      (e.drive = t.view.drive → e.first = t.first → e.n = t.n →
        (e.state = .ready → (∀ j, j < t.n → s.isTerminal t.view.drive (t.first + j) = true) →
          exec i s = exec i freed) ∧
        (e.state = .ready → ∃ (v : State) (st : Status) (payload : List Byte),
          exec i s = .next (v.respond p st tag payload) ∧
          v.deferred = s.deferred.set p rest ∧ st = s.servedStatus t ∧ payload = t.head ++ s.unitRecords t ∧
          v.served = s.served.set p (s.served.get p + BitVec.ofNat 40 (s.servedBytes t))) ∧
        (e.state = .pending → t.mount.phase = .lost → exec i s = .next (s.answered p 5 .noMedium tag [])) ∧
        (e.state = .pending → t.mount.phase ≠ .lost → (s.options.get p).deferLimit ≠ 0 →
          (s.options.get p).deferLimit ≤ e.retries → ∃ u v : State, exec i s = .next u ∧
          u = { v.settle (s.framed p 5) with
            ports := s.ports.set p ((s.ports.get p).answered 5 .timeout tag [])
            errors := u.errors, events := u.events } ∧
          (u.errors.get p).isSome = true ∧ (u.errors.get p.other) = s.errors.get p.other ∧
          v = { s.framed p 5 with
            deferred := s.deferred.set p rest, works := v.works, events := v.events, ctxReq := v.ctxReq } ∧
          v.works = s.works.set e.drive ((s.works.get e.drive).filterMap fun x =>
            if e.first ≤ x.unit ∧ x.unit ≤ e.first + e.n - 1 ∧ x.cls.get p = .direct then
              if x.cls.get p.other = .none ∧ x.sweep = false ∧ s.isActive e.drive x.unit = false then none
              else some { x with cls := x.cls.set p .none }
            else if e.first ≤ x.unit ∧ x.unit ≤ e.first + e.n - 1 ∧ x.cls = ⟨.none, .none⟩ ∧ x.sweep = false ∧
              s.isActive e.drive x.unit = false then none
            else some x) ∧
          (s.works.get e.drive ≠ [] → v.works.get e.drive = [] → s.sweepOn e.drive = false →
            ∀ q, (v.events.get q).raw.getLsbD Event.workIdle.pos = true) ∧
          v.ctxReq = s.ctxReq.set e.drive ((s.ctxReq.get e.drive).filter fun x => (v.entryOf e.drive x).isSome)) ∧
        (e.state = .pending → t.mount.phase ≠ .lost →
          ((s.options.get p).deferLimit = 0 ∨ e.retries < (s.options.get p).deferLimit) → ∃ v : State,
          exec i s = .next ((v.settle (s.framed p 5)).respond p .defer tag
            (t.view.drive.param :: (leBytes 2 t.first ++ [BitVec.ofNat 8 t.n]))) ∧
          v = ({ s.framed p 5 with
            deferred := s.deferred.set p ((s.deferred.get p).map fun x =>
              if x.address = a ∧ x.count = count.toNat then { x with retries := min 255 (x.retries + 1) } else x) }
            : State).demands t.view.drive (.direct p) t.first t.n))

/-! ### Events, captures, statistics -/

/-- R153: READ EVENTS, CLEAR EVENTS and SET MASK act on the requesting port's flags and mask alone; a set that names a
position above 12 is refused BAD_PARAM and leaves the flags and the mask as they were, but for the PORT_ERROR that the
capture of the refusal raises. -/
def Obligations.EventRequests : Prop :=
  ∀ (p : PortId) (tag : Byte) (set : Nat) (s : State), s.ready p → set < 65536 →
    exec (.readEvents p (Frame.good 0x30 tag [])) s =
      .next (s.answered p 0 .ok tag (leBytes 2 (s.events.get p).raw.toNat ++
        leBytes 2 ((s.events.get p).raw &&& (s.events.get p).mask).toNat)) ∧
    (set < 8192 →
      exec (.clearEvents p (Frame.good 0x31 tag (leBytes 2 set))) s =
        .next ((s.setEvents p
          { s.events.get p with raw := (s.events.get p).raw &&& ~~~(BitVec.ofNat 13 set) }).answered p 2 .ok tag
            (leBytes 2 ((s.events.get p).raw &&& ~~~(BitVec.ofNat 13 set)).toNat)) ∧
      exec (.setMask p (Frame.good 0x32 tag (leBytes 2 set))) s =
        .next ((s.setEvents p { s.events.get p with mask := BitVec.ofNat 13 set }).answered p 2 .ok tag
          (leBytes 2 set))) ∧
    (8192 ≤ set → ∀ t : State,
      (exec (.clearEvents p (Frame.good 0x31 tag (leBytes 2 set))) s = .next t ∨
        exec (.setMask p (Frame.good 0x32 tag (leBytes 2 set))) s = .next t) →
      t.ports = s.ports.set p ((s.ports.get p).answered 2 .badParam tag []) ∧
        (t.events.get p).mask = (s.events.get p).mask ∧ t.events.get p.other = s.events.get p.other ∧
        (t.events.get p).raw = (s.events.get p).raw ||| (if s.errors.get p = none then Event.portError.bit else 0))

/-- R151: a port's attention line is asserted exactly when a flag of it is raised and enabled; raising an event sets
its flag on the port and no other. -/
def Obligations.AttentionAndRaise : Prop :=
  ∀ (s : State) (p : PortId) (e : Event),
    (s.attention p = true ↔
      ∃ x : Event, (s.events.get p).raw.getLsbD x.pos = true ∧ (s.events.get p).mask.getLsbD x.pos = true) ∧
    (∀ x : Event, ((s.raise p e).events.get p).raw.getLsbD x.pos =
      (decide (x = e) || (s.events.get p).raw.getLsbD x.pos)) ∧
    ((s.raise p e).events.get p).mask = (s.events.get p).mask ∧
    (s.raise p e).events.get p.other = s.events.get p.other

/-- R156: ERROR READ and ERROR RELEASE answer with the selected records; a release then clears them. -/
def Obligations.CaptureRequests : Prop :=
  ∀ (p : PortId) (tag sel : Byte) (s : State), s.ready p →
    (1 ≤ sel.toNat → sel.toNat ≤ 3 → ∀ payload : List Byte,
      payload = (if sel = 1 ∨ sel = 3 then portCaptureBytes (s.errors.get p) else []) ++
        (if sel = 2 ∨ sel = 3 then linkCaptureBytes s.linkFault else []) →
      exec (.errorRead p (Frame.good 0x34 tag [sel])) s = .next (s.answered p 1 .ok tag payload) ∧
      exec (.errorRelease p (Frame.good 0x35 tag [sel])) s =
        .next (({ s with
          errors := if sel = 1 ∨ sel = 3 then s.errors.set p none else s.errors
          linkFault := if sel = 2 ∨ sel = 3 then none else s.linkFault } : State).answered p 1 .ok tag payload)) ∧
    ((sel.toNat = 0 ∨ 3 < sel.toNat) → ∀ t : State,
      (exec (.errorRead p (Frame.good 0x34 tag [sel])) s = .next t ∨
        exec (.errorRelease p (Frame.good 0x35 tag [sel])) s = .next t) →
      t.ports = s.ports.set p ((s.ports.get p).answered 1 .badParam tag []) ∧ t.linkFault = s.linkFault) ∧
    (∀ c : PortCapture, portCaptureBytes (some c) =
      BitVec.ofNat 8 (1 + 2 * flag c.multiple) :: c.status.byte :: c.code :: c.tag :: c.params) ∧
    portCaptureBytes none = [0, 0, 0, 0, 0, 0, 0, 0] ∧ linkCaptureBytes none = [0, 0, 0, 0, 0, 0]

/-- R158: STATS READ answers with all the counters and changes none; STATS WRITE sets the one it names, and is refused
BAD_PARAM where it names none or its value does not fit. -/
def Obligations.StatsRequests : Prop :=
  ∀ (p : PortId) (tag counter : Byte) (value : Nat) (s : State), s.ready p → value < 1099511627776 →
    (∃ bs : List Byte, exec (.statsRead p (Frame.good 0x38 tag [])) s = .next (s.answered p 0 .ok tag bs) ∧
      bs.length = 250 ∧
      (∀ (d : DriveId) (i : Nat), i < 15 →
        leField bs 4 (60 * d.toNat + 4 * i) = ((s.stats.get d).toList.getD i 0).toNat) ∧
      leField bs 5 240 = (s.served.get .a).toNat ∧ leField bs 5 245 = (s.served.get .b).toNat) ∧
    (∀ d : DriveId, counter.toNat ≤ 14 → value < 4294967296 → ∃ x : DriveStats,
      exec (.statsWrite p (Frame.good 0x39 tag (d.param :: counter :: leBytes 5 value))) s =
        .next (({ s with stats := s.stats.set d x } : State).answered p 7 .ok tag (leBytes 5 value)) ∧
      ∀ i, x.toList.getD i 0 =
        if i = counter.toNat then BitVec.ofNat 32 value else (s.stats.get d).toList.getD i 0) ∧
    (∀ q : PortId, exec (.statsWrite p (Frame.good 0x39 tag
        ((if q = .a then 4 else 5) :: counter :: leBytes 5 value))) s =
      .next (({ s with served := s.served.set q (BitVec.ofNat 40 value) } : State).answered p 7 .ok tag
        (leBytes 5 value))) ∧
    (∀ d : DriveId, (14 < counter.toNat ∨ 4294967296 ≤ value) → ∃ t : State,
      exec (.statsWrite p (Frame.good 0x39 tag (d.param :: counter :: leBytes 5 value))) s = .next t ∧
      t.ports = s.ports.set p ((s.ports.get p).answered 7 .badParam tag []) ∧ t.stats = s.stats) ∧
    (∀ sel : Byte, 5 < sel.toNat → ∃ t : State,
      exec (.statsWrite p (Frame.good 0x39 tag (sel :: counter :: leBytes 5 value))) s = .next t ∧
      t.ports = s.ports.set p ((s.ports.get p).answered 7 .badParam tag []) ∧ t.stats = s.stats ∧
      t.served = s.served)

/-! ### Sleep -/

/-- R104, R169, R170: SLEEP is refused BAD_PARAM out of its ranges, rejected with the causes that are present and
apply, and otherwise takes the part to ENTERING with the wake sources and time it was given; the positionings in flight
are abandoned: one with a transaction in its frame exchange is marked so and the others end. That a wake time above
86,400 without TIMER is accepted is the model's reading (log 26), and so are that a POSITION in its frame exchange runs
to its end (log 16), that one which waits for the link counts as in flight (log 31), and that one which a RESET has
abandoned, whose transaction runs on, is left as it is (log 35). -/
def Obligations.SleepRequest : Prop :=
  ∀ (p : PortId) (tag mask sources : Byte) (time : Nat) (s : State), s.ready p → time < 4294967296 →
    ((8 ≤ mask.toNat ∨ sources.toNat = 0 ∨ 8 ≤ sources.toNat ∨
        (sources.getLsbD 2 = true ∧ (time = 0 ∨ 86400 < time))) → ∃ t : State,
      exec (.sleep p (Frame.good 0x40 tag (mask :: sources :: leBytes 4 time))) s = .next t ∧
      t.ports = s.ports.set p ((s.ports.get p).answered 6 .badParam tag []) ∧ t.power = s.power) ∧
    (mask.toNat < 8 → 1 ≤ sources.toNat → sources.toNat < 8 →
      (sources.getLsbD 2 = true → 1 ≤ time ∧ time ≤ 86400) →
      ∀ causes : BitVec 5, causes = s.sleepCauses &&& (BitVec.ofNat 5 mask.toNat ||| 0b11000) →
      (causes ≠ 0 →
        exec (.sleep p (Frame.good 0x40 tag (mask :: sources :: leBytes 4 time))) s =
          .next (({ s with power := { s.power with reject := causes } } : State).answered p 6 .rejected tag
            [BitVec.ofNat 8 causes.toNat])) ∧
      (causes = 0 → ∃ v : State,
        exec (.sleep p (Frame.good 0x40 tag (mask :: sources :: leBytes 4 time))) s =
          .next ((v.settle (s.framed p 6)).respond p .ok tag []) ∧
        v.power = ⟨.entering, none, ⟨sources.getLsbD 0, sources.getLsbD 1⟩, sources.getLsbD 2, time, none, 0⟩ ∧
        (∀ d a, s.attempts.get d = some a → a.phase ≠ .needRead → a.phase ≠ .readSent →
          (∀ x, s.link.exchange = some x → x.drive = d → x.orphan = false) →
          PendTx.relax ∈ (v.drives.get d).pend ∧ (v.drives.get d).poll = none ∧ (v.scheds.get d).position = none ∧
          ((a.phase = .positionSent ∨ a.phase = .pollSent) →
            v.attempts.get d = some { a with abandoned := true }) ∧
          ((a.phase = .needPosition ∨ a.phase = .moving ∨ a.phase = .needPoll) →
            v.attempts.get d = none ∧ v.discard.get d = false)) ∧
        (∀ d, ((∀ a, s.attempts.get d = some a → a.phase = .needRead ∨ a.phase = .readSent) ∨
            ∃ x, s.link.exchange = some x ∧ x.drive = d ∧ x.orphan = true) →
          v.attempts.get d = s.attempts.get d ∧ v.drives.get d = s.drives.get d ∧
          v.scheds.get d = s.scheds.get d) ∧
        v.unitMap = s.unitMap ∧ v.works = s.works ∧ v.mounts = s.mounts) ∧
      (s.sleepCauses.getLsbD 0 = true ↔ ∃ c ∈ s.contexts.toList, c ≠ none) ∧
      (s.sleepCauses.getLsbD 1 = true ↔
        ∃ d, ∃ e ∈ s.works.get d, e.cls.a = .direct ∨ e.cls.b = .direct) ∧
      (s.sleepCauses.getLsbD 2 = true ↔ ∃ q, ∃ e ∈ s.deferred.get q, e.state = .pending) ∧
      (s.sleepCauses.getLsbD 3 = true ↔ s.loader.write ≠ .idle) ∧
      (s.sleepCauses.getLsbD 4 = true ↔ s.loader.stage ≠ .idle))

/-! ### Frames -/

/-- R123, R124, R154: the first failing test of a frame refuses it: a wrong CRC-16, a code or length that chapter 12
does not give, a request not accepted in the state of the moment, a parameter out of range. FRAME_ERROR, BAD_REQUEST
and BAD_PARAM are captured with the first four parameter bytes; NOT_READY is not. -/
def Obligations.FrameRefusals : Prop :=
  ∀ (p : PortId) (f : Frame) (s : State), s.takes p →
    (∀ (i : Instr) (code : Byte) (st : Status),
      ((∃ c : ReqCode, i = c.command p f ∧ code = c.byte ∧
          ((crc16 (code :: f.tag :: (leBytes 2 f.params.length ++ f.params)) ≠ f.crc ∧ st = .frameError) ∨
            (crc16 (code :: f.tag :: (leBytes 2 f.params.length ++ f.params)) = f.crc ∧
              c.lengthOk f.params = false ∧ st = .badRequest) ∨
            (crc16 (code :: f.tag :: (leBytes 2 f.params.length ++ f.params)) = f.crc ∧ c.lengthOk f.params = true ∧
              s.accepts c = true ∧ c.rangesOk f.params = false ∧ st = .badParam))) ∨
        (i = .unknownRequest p code f ∧ (∀ c : ReqCode, c.byte ≠ code) ∧
          st = if crc16 (code :: f.tag :: (leBytes 2 f.params.length ++ f.params)) = f.crc then .badRequest
            else .frameError)) →
      ∃ t : State, exec i s = .next t ∧
        t = { s with
          ports := s.ports.set p ((s.ports.get p).answered f.params.length st f.tag [])
          errors := t.errors, events := t.events } ∧
        t.errors = s.errors.set p (some (match s.errors.get p with
          | some r => { r with multiple := true }
          | none => ⟨false, st, code, f.tag,
            [f.params.getD 0 0, f.params.getD 1 0, f.params.getD 2 0, f.params.getD 3 0]⟩)) ∧
        t.events.get p.other = s.events.get p.other ∧ (t.events.get p).mask = (s.events.get p).mask ∧
        (t.events.get p).raw = (s.events.get p).raw |||
          (if s.errors.get p = none then Event.portError.bit else 0)) ∧
    (∀ c : ReqCode, crc16 (c.byte :: f.tag :: (leBytes 2 f.params.length ++ f.params)) = f.crc →
      c.lengthOk f.params = true → s.accepts c = false →
      exec (c.command p f) s = .next (s.answered p f.params.length .notReady f.tag [])) ∧
    ∀ c : ReqCode, s.accepts c = true ↔
      ((s.power.state = .active ∨ s.power.state = .quiet) ∧
        (s.loader.stage = .idle ∨ c = .identify ∨ c = .status)) ∨
      (s.power.state = .entering ∧ (c = .identify ∨ c = .status ∨ c = .reset)) ∨
      ((s.power.state = .saving ∨ s.power.state = .restoring) ∧ (c = .identify ∨ c = .status))

/-- R121: a frame that completes while a request of its port is in progress becomes the waiting request, in place of
one that already waits; a frame that finds none in progress is taken as the request of its code. The waiting request
is taken once none is in progress, with its own answer, after the steps that are due before it (log 5). Where none
is to be taken the event cannot occur (log 7). -/
def Obligations.WaitingRequests : Prop :=
  ∀ (p : PortId) (code : Byte) (f : Frame) (s g : State), g = s.upTo (.waitingRequestTaken p) →
    (s.due = none → s.power.state ≠ .dormant → (s.ports.get p).inProgress ≠ none →
      exec (.waitingRequest p code f) s = .next (s.setPort p
        { s.ports.get p with
          receiver := [], dataOut := List.replicate (6 + f.params.length) 0xFF, waiting := some (code, f) })) ∧
    (∀ c : ReqCode, code = c.byte → exec (.waitingRequest p code f) s = exec (c.command p f) s) ∧
    ((g.ports.get p).inProgress = none → (g.ports.get p).waiting = some (code, f) →
      exec (.waitingRequestTaken p) s =
        .next ((g.setPort p { g.ports.get p with waiting := none }).takeRequest p code f) ∧
      (∀ tag, code = 0x01 → f = Frame.good 0x01 tag [] → g.power.state ≠ .dormant →
        exec (.waitingRequestTaken p) s = .next (g.setPort p
          { g.ports.get p with waiting := none, response := some ⟨.ok, tag, g.identifyPayload⟩ }))) ∧
    (((g.ports.get p).inProgress ≠ none ∨ (g.ports.get p).waiting = none) →
      exec (.waitingRequestTaken p) s = .refused .cannotOccur)

/-- R39, R69, R85, R121: an ABANDON that waited acts once its unit's context is no longer in evaluation, and is
answered unless a waiting request is present, which drops the answer; the choices that were held for it are then made.
The steps that are due before it come first (log 5), and an answer that came late is not captured (log 24). Where
no ABANDON is to act the event cannot occur (log 7). -/
def Obligations.AbandonDeferredAnswer : Prop :=
  ∀ (p : PortId) (s g : State), g = s.upTo (.abandonDeferredAnswer p) →
    ((g.ports.get p).inProgress = none → exec (.abandonDeferredAnswer p) s = .refused .cannotOccur) ∧
    ∀ ip, (g.ports.get p).inProgress = some ip →
      ((∃ i c, g.ctxOf ip.drive ip.unit = some (i, c) ∧ c.phase ≠ .collecting) →
        exec (.abandonDeferredAnswer p) s = .refused .cannotOccur) ∧
      ∀ late : State → Status → List Byte → State,
        (∀ v st payload, late v st payload = (v.settle v).setPort p
          { (v.settle v).ports.get p with
            inProgress := none
            response := if (v.ports.get p).waiting.isSome then (v.ports.get p).response
              else some ⟨st, ip.tag, payload⟩ }) →
        ∀ q : State, q = g.setPort p { g.ports.get p with inProgress := none } →
        (g.openMount ip.drive = none → g.ctxOf ip.drive ip.unit = none →
          exec (.abandonDeferredAnswer p) s = .next (late q .notMounted [])) ∧
        ∀ m, g.openMount ip.drive = some m → ip.unit < m.u →
          (g.isTerminal ip.drive ip.unit = true → g.ctxOf ip.drive ip.unit = none →
            exec (.abandonDeferredAnswer p) s =
              .next (late q .ok [BitVec.ofNat 8 (g.unitRec ip.drive ip.unit).state.code])) ∧
          (g.isTerminal ip.drive ip.unit = false → g.ctxOf ip.drive ip.unit = none →
            exec (.abandonDeferredAnswer p) s =
              .next (late ((q.abandonUnit ip.drive ip.unit).settle q) .ok [6])) ∧
          ∀ i c, g.isTerminal ip.drive ip.unit = false → g.ctxOf ip.drive ip.unit = some (i, c) →
            c.phase = .collecting →
            ((∀ a, g.attempts.get ip.drive = some a → a.unit ≠ ip.unit) →
              exec (.abandonDeferredAnswer p) s =
                .next (late (((q.abandonUnit ip.drive ip.unit).release i).settle q) .ok [6])) ∧
            ((∃ a, g.attempts.get ip.drive = some a ∧ a.unit = ip.unit) →
              exec (.abandonDeferredAnswer p) s =
                .next (late (((q.abandonUnit ip.drive ip.unit).setCtx i
                  (some { c with unit := none, abandonPending := true })).settle q) .ok [6]))

/-- R119, R122, R176: a response read sends padding and then WORKING, the pending response or NO_RESPONSE, and a frame
cut short is discarded; each leaves the receiver at its starting point and changes nothing but its port. -/
def Obligations.ResponseReadAndPartialFrame : Prop :=
  ∀ (p : PortId) (n : Nat) (bytes : List Byte) (s : State), s.due = none →
    (∀ sent : List Byte,
      sent = (if (s.ports.get p).inProgress ≠ none ∨ (s.ports.get p).waiting ≠ none then [0x01]
        else match (s.ports.get p).response with
          | none => [0x02]
          | some r => r.status.byte :: r.tag :: (leBytes 2 r.payload.length ++ r.payload ++
              leBytes 2 (crc16 (r.status.byte :: r.tag :: (leBytes 2 r.payload.length ++ r.payload))).toNat)) →
      exec (.responseRead p n) s = .next (s.setPort p
        { s.ports.get p with receiver := [], dataOut := (0xFF :: (sent ++ List.replicate n 0xFF)).take n })) ∧
    exec (.partialFrame p bytes) s = .next (s.setPort p
      { s.ports.get p with receiver := [], dataOut := List.replicate bytes.length 0xFF })

/-- R172: a request frame that completes in DORMANT is answered NOT_READY and, on a port that is a wake source, wakes
the part; outside DORMANT the frame is the request of its code. -/
def Obligations.DormantFrame : Prop :=
  ∀ (p : PortId) (code : Byte) (f : Frame) (s : State), s.due = none →
    (s.power.state = .dormant → s.power.wakePort.get p = false →
      exec (.dormantRequestFrame p code f) s = .next (s.answered p f.params.length .notReady f.tag [])) ∧
    (s.power.state = .dormant → s.power.wakePort.get p = true →
      exec (.dormantRequestFrame p code f) s = .next (s.answered p f.params.length .notReady f.tag []).wake ∧
      (s.answered p f.params.length .notReady f.tag []).wake.power.state = .restoring) ∧
    (s.power.state ≠ .dormant → ∀ c : ReqCode, code = c.byte →
      exec (.dormantRequestFrame p code f) s = exec (c.command p f) s)

/-! ### The drive link -/

/-- R86, R88, R94, R105: the free link is granted to a drive that requests it, a drive of priority HIGH before the
others and then the first in round-robin order after the last one granted; the exchange that begins carries the command
frame with its CRC-8 and waits ACK_WAIT for its acknowledge. The grant is made at once: it is due as soon as the link
is free and requested, after the grants of contexts (logs 5 and 8), and where nothing is due no requested link is free.
Without a free link or a request it cannot occur (log 7). -/
def Obligations.LinkGrant : Prop :=
  ∀ r s : State, s = r.upTo .linkGrant →
    ((r.freeCtx = none ∨ ∀ d, r.ctxReq.get d = none) → r.link.exchange = none → r.link.clearing = false →
      (∃ d, r.nextTx d ≠ none) → r.due = some .linkGrant) ∧
    (r.due = none → r.link.exchange ≠ none ∨ r.link.clearing = true ∨ ∀ d, r.nextTx d = none) ∧
    ((s.link.exchange ≠ none ∨ s.link.clearing = true ∨ ∀ d, s.nextTx d = none) →
      exec .linkGrant r = .refused .cannotOccur) ∧
    (∀ d a, s.attempts.get d = some a → s.nextTx d =
      (match a.phase with
        | .needPosition => some (.attempt .position a)
        | .needPoll => some (.attempt .poll a)
        | .needRead => some (.attempt .read a)
        | .positionSent | .moving | .pollSent | .readSent => none)) ∧
    (∀ d, s.attempts.get d = none → s.nextTx d = ((s.drives.get d).pend.find? fun t =>
      decide (s.power.state = .active ∨ s.power.state = .quiet ∨
        (s.power.state = .entering ∧ t = .relax))).map .pend) ∧
    (s.link.exchange = none → s.link.clearing = false → ∀ (d : DriveId) (t : LinkTx), s.nextTx d = some t →
      (∀ e, s.nextTx e ≠ none →
        (s.settings.driveHigh.get e = true → s.settings.driveHigh.get d = true) ∧
        (s.settings.driveHigh.get e = s.settings.driveHigh.get d →
          (d.toNat + 3 - s.link.last.toNat) % 4 ≤ (e.toNat + 3 - s.link.last.toNat) % 4)) →
      ∃ v : State, exec .linkGrant r = .next v ∧
        v = { s with link := v.link, attempts := v.attempts, drives := v.drives } ∧
        v.link.clearing = false ∧ v.link.last = d ∧
        (∀ c a, t = .attempt c a → ∀ params, params =
            (match c with | .position => leBytes 2 a.target | .read => a.readParams | .probe | .poll | .relax => []) →
          v.link.exchange = some ⟨d, c, true,
            d.param :: c.code :: (params ++ [crc8 (d.param :: c.code :: params)]), a.b,
            some s.settings.ackWait, none, false⟩ ∧
          v.attempts = s.attempts.set d (some { a with phase :=
            (match a.phase with
              | .needPosition => .positionSent
              | .needPoll => .pollSent
              | .needRead => .readSent
              | .positionSent | .moving | .pollSent | .readSent => a.phase) }) ∧
          v.drives = s.drives) ∧
        (∀ x : PendTx, t = .pend x → v.link.exchange = some ⟨d, x.cmd, false,
            [d.param, x.cmd.code, crc8 [d.param, x.cmd.code]], 0, some s.settings.ackWait, none, false⟩ ∧
          v.attempts = s.attempts ∧
          v.drives = s.drives.set d
            { s.drives.get d with pend := (s.drives.get d).pend.filter fun y => decide (y ≠ x) }))

/-- R87, R88, R89: the replies that are good, by their bytes. -/
def Obligations.ReplyForms : Prop :=
  (∀ bytes r, parseProbe bytes = some r ↔
    ∃ kind medium lo hi : Byte, kind.toNat ≤ 1 ∧
      bytes = [0x81, kind, medium, lo, hi, crc8 [0x81, kind, medium, lo, hi]] ∧
      r = ⟨if kind = 0 then .floppy else .cartridge, decide (medium ≠ 0), lo.toNat + 256 * hi.toNat⟩) ∧
  (∀ bytes r, parsePoll bytes = some r ↔
    ∃ st medium changed lo hi : Byte, st.toNat ≤ 2 ∧
      bytes = [0x82, st, medium, changed, lo, hi, crc8 [0x82, st, medium, changed, lo, hi]] ∧
      r = ⟨if st = 0 then .ready else if st = 1 then .busy else .fault, decide (medium ≠ 0), decide (changed ≠ 0),
        lo.toNat + 256 * hi.toNat⟩) ∧
  (∀ b bytes r, parseRead b bytes = some (.data r) ↔
    ∃ (sync : Byte) (data quals : List Byte), data.length = b ∧ quals.length = b ∧ (∀ q ∈ quals, q.toNat ≤ 7) ∧
      bytes = 0x83 :: sync :: (data ++ quals ++ [crc8 (0x83 :: sync :: (data ++ quals))]) ∧
      r = ⟨data, quals.map BitVec.toNat, decide (sync ≠ 0)⟩) ∧
  (∀ b bytes, parseRead b bytes = some .fault ↔ bytes = [0x84, crc8 [0x84]])

/-- R89, R91, R99, R102, R103: a good PROBE reply is taken whole: the drive is ONLINE with a RELAX requested where it
was not, its miss counter is 0, its medium and kind are those reported, its presence timer starts, and a medium that is
gone or a kind that differs makes the mount LOST. The frame is an operand of the row (log 28); without a PROBE on the
link nothing of it can occur (log 7). -/
def Obligations.ProbeReply : Prop :=
  ∀ (bytes : List Byte) (x : Exchange) (s : State), s.due = none → s.link.exchange = some x →
    (∀ g, x.cmd ≠ .probe → exec (.probeReply g) s = .refused .cannotOccur) ∧
    ∀ (r : ProbeReport) (d : DriveId), d = x.drive → x.cmd = .probe → x.ack = none → x.hold = none →
      x.orphan = false → parseProbe bytes = some r →
      ∃ v : State, exec (.probeReply (.frame bytes)) s = .next (v.settle s) ∧
        v.host = { s.host with link := { s.link with exchange := none } } ∧
        v.drives = s.drives.set d { s.drives.get d with
          link := .online, kind := some r.kind, medium := r.medium, known := true, miss := 0
          presence := some s.settings.presencePoll
          reprobe := if (s.drives.get d).link = .online then (s.drives.get d).reprobe else none
          pend := if (s.drives.get d).link = .online then (s.drives.get d).pend
            else withTx ((s.drives.get d).pend.filter fun y => decide (y ≠ .probe)) .relax } ∧
        (v.scheds.get d).position = some r.position ∧
        (∀ p, (v.events.get p).raw = (s.events.get p).raw |||
          (if (s.drives.get d).known = true ∧ r.medium ≠ (s.drives.get d).medium then Event.mediumChanged.bit
            else 0)) ∧
        (∀ m, s.mounts.get d = some m → m.phase = .mounted → (r.medium = false ∨ r.kind ≠ m.snap.kind) →
          v.mounts = s.mounts.set d (some { m with phase := .lost })) ∧
        ((∀ m, s.mounts.get d = some m → m.phase ≠ .mounted ∨ (r.medium = true ∧ r.kind = m.snap.kind)) →
          v.mounts = s.mounts ∧ v.unitMap = s.unitMap ∧ v.works = s.works ∧ v.contexts = s.contexts)

/-- R17, R22, R46: a MOUNTED mount that is lost keeps its store slots and its entries that hold a class, gives up its
contexts and its context request, and discards an attempt in flight; the units of the contexts become TRIED, with the
values an evaluation under way had fixed. A mount in another state is left alone. -/
def Obligations.LostMount : Prop :=
  ∀ (s : State) (d : DriveId) (m : MountRec), s.mounts.get d = some m →
    (m.phase ≠ .mounted → s.loseMount d = s) ∧
    (m.phase = .mounted → ∃ v : State, s.loseMount d = v ∧
      v = { s with
        mounts := s.mounts.set d (some { m with phase := .lost })
        discard := s.discard.set d ((s.attempts.get d).isSome || s.discard.get d)
        works := s.works.set d ((s.works.get d).filter fun e => decide (s.effOf d e ≠ some .residual))
        contexts := s.contexts.map fun c => if c.any (fun c => c.drive == d) then none else c
        unitMap := v.unitMap
        ctxReq := s.ctxReq.set d none
        scheds := s.scheds.set d { s.scheds.get d with last := none, burst := 0 } } ∧
      (∀ u, (∀ c ∈ s.contexts.toList, ∀ c', c = some c' → c'.drive = d → c'.unit ≠ some u) →
        v.unitRec d u = s.unitRec d u) ∧
      (∀ k, (∀ c ∈ s.contexts.toList, ∀ c' u, c = some c' → c'.drive = d → c'.unit = some u → k ≠ m.mapFirst + u) →
        Sparse.get UnitRec.fresh v.unitMap k = Sparse.get UnitRec.fresh s.unitMap k) ∧
      ∀ i c u, s.contexts.get? i = some (some c) → c.drive = d → c.unit = some u →
        (∀ j c', j ≠ i → s.contexts.get? j = some (some c') → c'.drive = d → c'.unit ≠ some u) →
        ((c.phase = .collecting ∨ ∃ w, c.phase = .storing w) →
          v.unitRec d u = { s.unitRec d u with state := .tried }) ∧
        (∀ w, (c.phase = .evaluating w ∨ c.phase = .repairing w) →
          v.unitRec d u = { s.unitRec d u with
            state := .tried, attempts := w.attempts, contributing := w.contributing, best := w.best,
            weak := w.weak }))

/-- R92, R96, R98, R103, R104: the acknowledge of a POSITION starts the positioning and its poll timer; a POLL's reply
ends it with a READ, with nothing where a READ is barred, or with a fault, or starts the poll timer again. That the
acknowledge of an abandoned POSITION ends the attempt is the model's reading (log 16). The frame is an operand of its
row (log 28), and without its transaction on the link an event cannot occur (log 7). -/
def Obligations.PositioningEvents : Prop :=
  ∀ (x : Exchange) (d : DriveId) (a : Attempt) (s : State), s.due = none → s.link.exchange = some x → d = x.drive →
    s.attempts.get d = some a → x.orphan = false →
    ((x.cmd ≠ .position ∨ x.ack = none ∨ x.ack = some 0) → exec .positionAck s = .refused .cannotOccur) ∧
    (∀ g, ¬ (x.cmd = .poll ∧ x.ofAttempt = true) →
      exec (.positionPollReply g) s = .refused .cannotOccur) ∧
    (∀ n, x.cmd = .position → x.ack = some n → 0 < n →
      (a.abandoned = false → ∃ v : State, exec .positionAck s = .next (v.settle s) ∧
        v = { s with
          link := { s.link with exchange := none }
          attempts := s.attempts.set d (some { a with phase := .moving })
          drives := s.drives.set d { s.drives.get d with
            miss := 0, posStart := s.now, poll := some s.settings.pollInterval } }) ∧
      (a.abandoned = true → ∃ v : State, exec .positionAck s = .next (v.settle s) ∧
        v = { s with
          link := { s.link with exchange := none }
          attempts := s.attempts.set d none
          discard := s.discard.set d false
          drives := s.drives.set d { s.drives.get d with miss := 0, poll := none }
          contexts := match s.abandonPending d with | some i => s.contexts.set i none | none => s.contexts })) ∧
    (x.cmd = .poll → x.ofAttempt = true → x.ack = none → x.hold = none →
      ∀ bytes r, parsePoll bytes = some r → ∃ v : State,
      exec (.positionPollReply (.frame bytes)) s = .next (v.settle s) ∧ v.link = { s.link with exchange := none } ∧
      v.store = s.store ∧
      (v.drives.get d).medium = r.medium ∧ (v.drives.get d).known = true ∧ (v.drives.get d).miss = 0 ∧
      (v.drives.get d).presence =
        (if (s.drives.get d).link = .online then some s.settings.presencePoll else (s.drives.get d).presence) ∧
      (∀ p, (v.events.get p).raw.getLsbD Event.mediumChanged.pos =
        ((s.events.get p).raw.getLsbD Event.mediumChanged.pos ||
          ((s.drives.get d).known && r.medium != (s.drives.get d).medium) || r.changed)) ∧
      (∀ m, s.mounts.get d = some m → m.phase = .mounted →
        v.mounts = s.mounts.set d
          (some { m with phase := if r.medium = true ∧ r.changed = false then .mounted else .lost })) ∧
      (a.abandoned = true → v.attempts = s.attempts.set d none ∧ (v.scheds.get d).position = some r.position) ∧
      (a.abandoned = false → r.state = .ready →
        (v.scheds.get d).position = some r.position ∧
        ((s.discard.get d = false ∧ s.isMounted d = true ∧ r.medium = true ∧ r.changed = false ∧
            s.abandonPending d = none ∧ (s.rests.get d).timer = none ∧ s.power.state ≠ .entering) →
          v.attempts = s.attempts.set d (some { a with phase := .needRead })) ∧
        ((s.discard.get d = true ∨ s.isMounted d = false ∨ r.medium = false ∨ r.changed = true ∨
            s.abandonPending d ≠ none ∨ (s.rests.get d).timer ≠ none ∨ s.power.state = .entering) →
          v.attempts = s.attempts.set d none)) ∧
      (∀ m, a.abandoned = false → r.state = .busy → s.mounts.get d = some m →
        s.now - (s.drives.get d).posStart < m.snap.positionLimit →
        v.attempts = s.attempts.set d (some { a with phase := .moving }) ∧
        (v.drives.get d).poll = some s.settings.pollInterval ∧ (v.scheds.get d).position = some r.position) ∧
      (∀ k, a.abandoned = false →
        ((r.state = .fault ∧ k = .adaptorFault) ∨
          (r.state = .busy ∧ k = .positionTimeout ∧ ∃ m, s.mounts.get d = some m ∧
            m.snap.positionLimit ≤ s.now - (s.drives.get d).posStart)) →
        v.attempts = s.attempts.set d none ∧ (v.scheds.get d).position = none ∧
        v.linkFault = LinkCapture.offered s.linkFault d .poll (some a.unit) k ∧
        (v.stats.get d).linkFaults = (s.stats.get d).linkFaults + 1 ∧ PendTx.relax ∈ (v.drives.get d).pend))

/-- R97, R98: a READ's DATA reply is a result, handed to the Read Combiner before the attempt ends; its FAULT reply is
an ADAPTOR_FAULT, which ends the attempt with no result. The frame is an operand of the row (log 28), and without a
READ on the link nothing of it can occur (log 7). -/
def Obligations.ReadReply : Prop :=
  ∀ (x : Exchange) (d : DriveId) (a : Attempt) (bytes : List Byte) (s : State), s.due = none →
    s.link.exchange = some x → d = x.drive → s.attempts.get d = some a → x.orphan = false →
    (∀ g, x.cmd ≠ .read → exec (.readReply g) s = .refused .cannotOccur) ∧
    (∀ (r : Result) (b : State), x.cmd = .read → x.ack = none → x.hold = none → parseRead x.b bytes = some (.data r) →
      b = { s with
        link := { s.link with exchange := none }
        drives := s.drives.set d { s.drives.get d with miss := 0 } } →
      exec (.readReply (.frame bytes)) s = .next (((b.takeResult d a.unit r).endAttempt d).settle s)) ∧
    (x.cmd = .read → x.ack = none → x.hold = none → parseRead x.b bytes = some .fault → ∃ v : State,
      exec (.readReply (.frame bytes)) s = .next (v.settle s) ∧ v.link = { s.link with exchange := none } ∧
      v.attempts = s.attempts.set d none ∧ v.discard = s.discard.set d false ∧
      v.linkFault = LinkCapture.offered s.linkFault d .read (some a.unit) .adaptorFault ∧
      (v.stats.get d).linkFaults = (s.stats.get d).linkFaults + 1 ∧
      (v.stats.get d).attempts = (s.stats.get d).attempts ∧
      v.drives = s.drives.set d { s.drives.get d with
        miss := 0, poll := none, pend := withTx (s.drives.get d).pend .relax } ∧
      v.scheds = s.scheds ∧ v.unitMap = s.unitMap ∧ v.store = s.store ∧ v.rests = s.rests)

/-- R99, R102, R103: the acknowledge of a RELAX ends it; the reply of a presence POLL is taken as a medium report, and
its FAULT state is an ADAPTOR_FAULT. The frame is an operand of its row (log 28), and without its transaction on the
link an event cannot occur (log 7). -/
def Obligations.PresenceAndRelax : Prop :=
  ∀ (x : Exchange) (d : DriveId) (bytes : List Byte) (s : State), s.due = none → s.link.exchange = some x →
    d = x.drive →
    ((x.cmd ≠ .relax ∨ x.ack = none ∨ x.ack = some 0) → exec .relaxAck s = .refused .cannotOccur) ∧
    (∀ g, ¬ (x.cmd = .poll ∧ x.ofAttempt = false) → exec (.presencePollReply g) s = .refused .cannotOccur) ∧
    (∀ (b : State) (n : Nat), x.cmd = .relax → x.ack = some n → 0 < n → x.orphan = false →
      b = { s with
        link := { s.link with exchange := none }
        drives := s.drives.set d { s.drives.get d with miss := 0 } } →
      exec .relaxAck s = .next (b.settle s)) ∧
    ∀ r, x.cmd = .poll → x.ofAttempt = false → x.ack = none → x.hold = none → x.orphan = false →
      parsePoll bytes = some r → ∃ v : State,
      exec (.presencePollReply (.frame bytes)) s = .next (v.settle s) ∧ v.link = { s.link with exchange := none } ∧
      v.store = s.store ∧ v.attempts = s.attempts ∧ v.rests = s.rests ∧
      (v.scheds.get d).position = some r.position ∧
      v.drives = s.drives.set d { s.drives.get d with
        medium := r.medium, known := true, miss := 0
        presence := if (s.drives.get d).link = .online then some s.settings.presencePoll else (s.drives.get d).presence
        pend := if r.state = .fault then withTx (s.drives.get d).pend .relax else (s.drives.get d).pend } ∧
      (∀ p, (v.events.get p).raw.getLsbD Event.mediumChanged.pos =
        ((s.events.get p).raw.getLsbD Event.mediumChanged.pos ||
          ((s.drives.get d).known && r.medium != (s.drives.get d).medium) || r.changed)) ∧
      (∀ m, s.mounts.get d = some m → m.phase = .mounted →
        v.mounts = s.mounts.set d
          (some { m with phase := if r.medium = true ∧ r.changed = false then .mounted else .lost })) ∧
      (r.state = .fault → v.linkFault = LinkCapture.offered s.linkFault d .poll none .adaptorFault ∧
        (v.stats.get d).linkFaults = (s.stats.get d).linkFaults + 1) ∧
      (r.state ≠ .fault → v.linkFault = s.linkFault ∧ v.stats = s.stats)

/-- R92, R93, R96, R101, R102, R105, R106: the timers of the link. A drive's timer that runs out is stopped, the time
it still had passing first (log 3), and its transaction is requested; a stopped timer does not run out, and none runs
out before one with less left (log 7). The acknowledge of a transaction with a reply frame opens that frame, and each
hold of the clock waits STRETCH_LIMIT from its own start (log 28). -/
def Obligations.LinkTimers : Prop :=
  (∀ (d : DriveId) (s : State) (k : TimerId) (i : Instr) (t : Timer), s.due = none →
    ((k = .poll d ∧ i = .pollTimerExpiry d ∧ t = (s.drives.get d).poll) ∨
      (k = .presence d ∧ i = .presenceTimerExpiry d ∧ t = (s.drives.get d).presence) ∨
      (k = .reprobe d ∧ i = .reprobeTimerExpiry d ∧ t = (s.drives.get d).reprobe)) →
    (s.timer k = if s.power.state = .active ∨ s.power.state = .quiet ∨ s.power.state = .entering then t else none) ∧
    (s.timer k = none → exec i s = .refused .cannotOccur) ∧
    (∀ n j m, s.timer k = some n → s.timer j = some m → m < n → exec i s = .refused .cannotOccur) ∧
    ∀ n b, s.timer k = some n → (∀ j m, s.timer j = some m → n ≤ m) → b = s.pass n →
      b.now = s.now + n ∧
      (k = .poll d → exec i s = .next { b with
        drives := b.drives.set d { b.drives.get d with poll := none }
        attempts := b.attempts.set d ((b.attempts.get d).map fun a => { a with phase := .needPoll }) }) ∧
      (k = .presence d → exec i s = .next ((b.setDrive d
        { b.drives.get d with presence := none, pend := withTx (b.drives.get d).pend .presencePoll }).settle b)) ∧
      (k = .reprobe d → exec i s = .next ((b.setDrive d
        { b.drives.get d with reprobe := none, pend := withTx (b.drives.get d).pend .probe }).settle b))) ∧
  ∀ (s : State) (x : Exchange) (i : LinkSignal → Instr), s.due = none → s.link.exchange = some x →
    ((i = .probeReply ∧ x.cmd = .probe) ∨ (i = .positionPollReply ∧ x.cmd = .poll ∧ x.ofAttempt = true) ∨
      (i = .presencePollReply ∧ x.cmd = .poll ∧ x.ofAttempt = false) ∨ (i = .readReply ∧ x.cmd = .read)) →
    ∀ on : Exchange → State, (∀ y, on y = { s with link := { s.link with exchange := some y } }) →
      (∀ n, x.ack = some n → 0 < n → exec (i .ack) s = .next (on { x with ack := none })) ∧
      ((x.ack = none ∨ x.ack = some 0) → exec (i .ack) s = .refused .cannotOccur) ∧
      (x.ack = none → x.hold = none →
        exec (i .hold) s = .next (on { x with hold := some s.settings.stretchLimit })) ∧
      (∀ n, x.hold = some n → 0 < n → exec (i .resume) s = .next (on { x with hold := none })) ∧
      ((x.hold = none ∨ x.hold = some 0) → exec (i .resume) s = .refused .cannotOccur) ∧
      ((x.ack ≠ none ∨ x.hold ≠ none) → exec (i .hold) s = .refused .cannotOccur ∧
        ∀ bytes, exec (i (.frame bytes)) s = .refused .cannotOccur)

/-- R91 to R93, R95, R98, R100 to R102, R107, R152, R155: NO_ACK, REPLY_ERROR and STRETCH_TIMEOUT end their
transaction. The fault is captured and counted, the miss counter rises, a drive that reaches MISS_LIMIT goes OFFLINE
and its mount LOST, the attempt ends, a positioning leaves the position unknown, and the presence or reprobe timer
starts; a STRETCH_TIMEOUT keeps the link until the link-clear pattern has been sent. The two waits run out by the
model's clock (log 3), an end of a transaction that ran on over a RESET changes nothing else (log 15), and an event
with nothing to end cannot occur (log 7). -/
def Obligations.LinkFaults : Prop :=
  (∀ (x : Exchange) (d : DriveId) (i : Instr) (k : LinkFaultKind) (s b : State), s.due = none →
    s.link.exchange = some x → d = x.drive → x.orphan = false →
    ((∃ n, x.ack = some n ∧ s.noneBefore n = true ∧ i = .noAck ∧ k = .noAck ∧ b = s.pass n) ∨
      (∃ n, x.hold = some n ∧ s.noneBefore n = true ∧ i = .stretchTimeout ∧ k = .stretchTimeout ∧ b = s.pass n) ∨
      (b = s ∧ k = .replyError ∧ x.ack = none ∧ x.hold = none ∧ ∃ bytes,
        (i = .probeReply (.frame bytes) ∧ x.cmd = .probe ∧ parseProbe bytes = none) ∨
        (i = .positionPollReply (.frame bytes) ∧ x.cmd = .poll ∧ x.ofAttempt = true ∧ parsePoll bytes = none) ∨
        (i = .presencePollReply (.frame bytes) ∧ x.cmd = .poll ∧ x.ofAttempt = false ∧ parsePoll bytes = none) ∨
        (i = .readReply (.frame bytes) ∧ x.cmd = .read ∧ parseRead x.b bytes = none))) →
    ∀ (n : Nat) (off lost : Prop) (c : LinkState), n = min 15 ((b.drives.get d).miss + 1) →
      (off ↔ k ≠ .stretchTimeout ∧ (b.drives.get d).link = .online ∧ b.settings.missLimit ≤ n) →
      (lost ↔ k ≠ .stretchTimeout ∧ (b.drives.get d).link ≠ .offline ∧ b.settings.missLimit ≤ n) →
      ((off → c = .offline) ∧ (¬ off → c = (b.drives.get d).link)) →
    ∃ v t : State, exec i s = .next t ∧
      t = { v.settle b with
        link := ⟨none, b.link.clearing || decide (k = .stretchTimeout), b.link.last⟩ } ∧
      v.linkFault = LinkCapture.offered b.linkFault d x.cmd
        (if x.ofAttempt then (b.attempts.get d).map Attempt.unit else none) k ∧
      (v.stats.get d).linkFaults = (b.stats.get d).linkFaults + 1 ∧
      v.attempts = (if x.ofAttempt then b.attempts.set d none else b.attempts) ∧
      (v.scheds.get d).position =
        (if x.ofAttempt = true ∧ x.cmd ≠ .read then none else (b.scheds.get d).position) ∧
      v.store = b.store ∧ v.rests = b.rests ∧
      (v.drives.get d).miss =
        (if k = .stretchTimeout ∨ (b.drives.get d).link = .offline then (b.drives.get d).miss else n) ∧
      (v.drives.get d).link = c ∧
      (off → (v.drives.get d).presence = none ∧
        (v.drives.get d).reprobe = some b.settings.reprobeInterval ∧
        (v.drives.get d).pend = (b.drives.get d).pend.filter fun t => decide (t = .probe)) ∧
      (¬ off → (v.drives.get d).presence =
          (if (x.cmd = .probe ∨ x.cmd = .poll) ∧ c = .online then some b.settings.presencePoll
            else (b.drives.get d).presence) ∧
        (v.drives.get d).reprobe =
          (if x.cmd = .probe ∧ c ≠ .online then some b.settings.reprobeInterval else (b.drives.get d).reprobe) ∧
        (v.drives.get d).pend = (b.drives.get d).pend) ∧
      (∀ p, ((v.events.get p).raw.getLsbD Event.driveOffline.pos = true ↔
          (b.events.get p).raw.getLsbD Event.driveOffline.pos = true ∨ off ∨
            (lost ∧ (b.drives.get d).link = .absent ∧ b.isMounted d = true)) ∧
        ((v.events.get p).raw.getLsbD Event.linkFault.pos = true ↔
          (b.events.get p).raw.getLsbD Event.linkFault.pos = true ∨ b.linkFault = none)) ∧
      ∀ m, b.mounts.get d = some m → m.phase = .mounted →
        (lost → v.mounts = b.mounts.set d (some { m with phase := .lost })) ∧ (¬ lost → v.mounts = b.mounts)) ∧
  ∀ s : State, s.due = none →
    (s.timer .ack = none → exec .noAck s = .refused .cannotOccur) ∧
    (s.timer .hold = none → exec .stretchTimeout s = .refused .cannotOccur) ∧
    (∀ n j m, s.timer .ack = some n → s.timer j = some m → m < n → exec .noAck s = .refused .cannotOccur) ∧
    (∀ n j m, s.timer .hold = some n → s.timer j = some m → m < n → exec .stretchTimeout s = .refused .cannotOccur) ∧
    (∀ x, s.link.exchange = some x → s.timer .ack = x.ack ∧ s.timer .hold = x.hold) ∧
    (s.link.exchange = none → s.timer .ack = none ∧ s.timer .hold = none) ∧
    (s.link.clearing = true →
      exec .linkClearPatternSent s = .next { s with link := { s.link with clearing := false } }) ∧
    (s.link.clearing = false → exec .linkClearPatternSent s = .refused .cannotOccur) ∧
    ∀ (x : Exchange) (ended : State → State), s.link.exchange = some x → x.orphan = true →
      (∀ b : State, ended b = { b with
        link := { b.link with exchange := none }
        attempts := if x.ofAttempt then b.attempts.set x.drive none else b.attempts
        discard := if x.ofAttempt then b.discard.set x.drive false else b.discard
        drives := if x.ofAttempt then b.drives.set x.drive { b.drives.get x.drive with poll := none }
          else b.drives
        contexts := match x.ofAttempt, b.abandonPending x.drive with
          | true, some i => b.contexts.set i none
          | _, _ => b.contexts }) →
      (∀ n, x.ack = some n → s.noneBefore n = true →
        exec .noAck s = .next ((ended (s.pass n)).settle (s.pass n))) ∧
      (∀ n t, x.hold = some n → s.noneBefore n = true → t = (ended (s.pass n)).settle (s.pass n) →
        exec .stretchTimeout s = .next { t with link := { t.link with clearing := true } }) ∧
      (∀ n, x.ack = some n → 0 < n →
        (x.cmd = .position → exec .positionAck s = .next ((ended s).settle s)) ∧
        (x.cmd = .relax → exec .relaxAck s = .next ((ended s).settle s))) ∧
      ∀ bytes, x.ack = none → x.hold = none →
        (x.cmd = .probe → exec (.probeReply (.frame bytes)) s = .next ((ended s).settle s)) ∧
        (x.cmd = .poll → x.ofAttempt = false →
          exec (.presencePollReply (.frame bytes)) s = .next ((ended s).settle s)) ∧
        (x.cmd = .poll → x.ofAttempt = true →
          exec (.positionPollReply (.frame bytes)) s = .next ((ended s).settle s)) ∧
        (x.cmd = .read → exec (.readReply (.frame bytes)) s = .next ((ended s).settle s))

/-! ### Read combining -/

/-- R49, R51, R52, R60: the votes after a result, the consensus, the weak count, the weak-byte mask, the order of the
weak bits, and the candidates of a repair search: their order, their number and the bits each inverts. -/
def Obligations.VotesAndCandidates : Prop :=
  (∀ (votes : List Int) (r : Result) (i : Nat), i < votes.length → i < 8 * r.data.length → i < 8 * r.quals.length →
    (addVotes votes r).getD i 0 = max (-127) (min 127 (votes.getD i 0 +
      (if (r.data.getD (i / 8) 0).getLsbD (7 - i % 8) then (r.quals.getD (i / 8) 0 : Int)
        else -(r.quals.getD (i / 8) 0 : Int))))) ∧
  (∀ (votes : List Int) (i : Nat), votes.length % 8 = 0 → i < votes.length →
    ((consensus votes).getD (i / 8) 0).getLsbD (7 - i % 8) = decide (0 < votes.getD i 0)) ∧
  (∀ (t : Nat) (votes : List Int), weakCount t votes = votes.countP fun v => decide (v.natAbs ≤ t)) ∧
  (∀ (t : Nat) (votes : List Int), (orderWeak (weakBits t 0 votes)).Perm
      ((List.range votes.length).filter fun i => decide ((votes.getD i 0).natAbs ≤ t)) ∧
    (orderWeak (weakBits t 0 votes)).Pairwise fun i j =>
      (votes.getD i 0).natAbs < (votes.getD j 0).natAbs ∨
        ((votes.getD i 0).natAbs = (votes.getD j 0).natAbs ∧ i < j)) ∧
  (∀ (t size : Nat) (votes : List Int), votes.length % 8 = 0 → size % 8 = 0 → size ≤ votes.length / 8 →
    (weakMask t size votes).length = size / 8 ∧
    ∀ i, i < size → (((weakMask t size votes).getD (i / 8) 0).getLsbD (7 - i % 8) = true ↔
      ∃ j, 8 * i ≤ j ∧ j < 8 * i + 8 ∧ (votes.getD j 0).natAbs ≤ t)) ∧
  (∀ order : List Nat, candidates 1 order = order.map (fun b => [b]) ∧
    candidates 2 order = order.map (fun b => [b]) ++ ((List.range order.length).flatMap fun i =>
      (List.range (order.length - (i + 1))).map fun j => [order.getD i 0, order.getD (i + 1 + j) 0]) ∧
    (candidates 2 order).length = order.length + order.length * (order.length - 1) / 2 ∧
    ∀ c ∈ candidates 2 order, (∃ i, i < order.length ∧ c = [order.getD i 0]) ∨
      ∃ i j, i < j ∧ j < order.length ∧ c = [order.getD i 0, order.getD j 0]) ∧
  ∀ (votes : List Int) (c : List Nat) (i : Nat), votes.length % 8 = 0 → i < votes.length →
    ((candidateBytes votes c).getD (i / 8) 0).getLsbD (7 - i % 8) =
      (if i ∈ c then !decide (0 < votes.getD i 0) else decide (0 < votes.getD i 0))

/-- R47, R48, R50, R57 to R59, R62, R63: what a result taken into a context makes of it: a decision to store the unit
RECOVERED or EXHAUSTED, a repair search, the state BLANK, or another attempt to come. The Rest Controller takes its
mean quality (R109, which `RestsAndQuiet` states). A result that is dropped or discarded changes nothing. -/
def Obligations.EvaluateResult : Prop :=
  ∀ (s : State) (d : DriveId) (u : Nat) (r : Result),
    ((s.discard.get d = true ∨ s.ctxOf d u = none ∨ s.mounts.get d = none) → s.takeResult d u r = s) ∧
    ∀ i c m, s.discard.get d = false → s.ctxOf d u = some (i, c) → s.mounts.get d = some m →
      ∀ (votes : List Int) (v : EvalVals),
        votes = (if r.sync then addVotes c.votes r else c.votes) →
        v = ⟨min 255 ((s.unitRec d u).attempts + 1),
          if r.sync then min 255 ((s.unitRec d u).contributing + 1) else (s.unitRec d u).contributing,
          max (s.unitRec d u).best (if r.sync then r.quals.sum / c.b else 0),
          if r.sync then weakCount m.snap.weakThreshold votes else (s.unitRec d u).weak⟩ →
      ∃ t : State, s.takeResult d u r = t ∧ t.store = s.store ∧ t.works.get d.succ = s.works.get d.succ ∧
        (t.stats.get d).attempts = (s.stats.get d).attempts + 1 ∧
        (t.stats.get d).noSync = (s.stats.get d).noSync + (if r.sync then 0 else 1) ∧
        (∀ report : State, report = s.reportQuality d m (if r.sync then r.quals.sum / c.b else 0) →
          t.rests = report.rests ∧ t.drives = report.drives ∧
          (t.stats.get d).rests = (report.stats.get d).rests ∧
          ∀ p, (t.events.get p).raw.getLsbD Event.restEntered.pos =
            (report.events.get p).raw.getLsbD Event.restEntered.pos) ∧
        (r.sync = true → m.snap.passes (consensus votes) = true → m.snap.minReads ≤ v.contributing →
          t.contexts = s.contexts.set i (some { c with
            votes := votes
            phase := .storing ⟨.recovered, if v.contributing = 1 then .clean else .voted, 0,
              (consensus votes).take m.snap.unitSize, List.replicate (m.snap.unitSize / 8) 0⟩ }) ∧
          t.unitRec d u = { s.unitRec d u with
            attempts := v.attempts, contributing := v.contributing, best := v.best, weak := v.weak }) ∧
        (r.sync = true → m.snap.passes (consensus votes) = false →
          m.snap.minReads ≤ v.contributing → m.snap.repairAfter ≤ v.contributing → 1 ≤ v.weak →
          v.weak ≤ m.snap.repairLimit →
          t.contexts = s.contexts.set i (some { c with votes := votes, phase := .repairing v }) ∧
          t.unitRec d u = s.unitRec d u) ∧
        ((r.sync = false ∨ (m.snap.passes (consensus votes) = true ∧ v.contributing < m.snap.minReads) ∨
            (m.snap.passes (consensus votes) = false ∧ (v.contributing < m.snap.minReads ∨
              v.contributing < m.snap.repairAfter ∨ v.weak = 0 ∨ m.snap.repairLimit < v.weak))) →
          ((m.snap.attemptLimit = 0 ∨ v.attempts < m.snap.attemptLimit) →
            t.contexts = s.contexts.set i (some { c with votes := votes, phase := .collecting }) ∧
            t.unitRec d u = { s.unitRec d u with
              attempts := v.attempts, contributing := v.contributing, best := v.best, weak := v.weak }) ∧
          (m.snap.attemptLimit ≠ 0 → m.snap.attemptLimit ≤ v.attempts → 0 < v.contributing →
            t.contexts = s.contexts.set i (some { c with
              votes := votes
              phase := .storing ⟨.exhausted, .none, 0, (consensus votes).take m.snap.unitSize,
                weakMask m.snap.weakThreshold m.snap.unitSize votes⟩ }) ∧
            t.unitRec d u = { s.unitRec d u with
              attempts := v.attempts, contributing := v.contributing, best := v.best
              weak := weakCount m.snap.weakThreshold votes }) ∧
          (m.snap.attemptLimit ≠ 0 → m.snap.attemptLimit ≤ v.attempts → v.contributing = 0 →
            t.contexts = s.contexts.set i none ∧
            (t.stats.get d).blank = (s.stats.get d).blank + 1 ∧
            t.unitRec d u = { s.unitRec d u with
              state := .blank, attempts := v.attempts, contributing := 0, best := v.best, weak := v.weak }))

/-- R57, R58, R61, R62, R157: a repair search with exactly one passing candidate recovers the unit as REPAIRED; with
none or several it goes to the attempt-limit test, several making the unit ambiguous. With no search under way the
event cannot occur (log 7). -/
def Obligations.RepairSearchEnd : Prop :=
  ∀ (i : Nat) (s : State), s.due = none →
    ((∀ c v, s.contexts.get? i = some (some c) → c.phase ≠ .repairing v) →
      exec (.repairSearchEnd i) s = .refused .cannotOccur) ∧
    ∀ c u m v, s.contexts.get? i = some (some c) → c.unit = some u → s.mounts.get c.drive = some m →
      c.phase = .repairing v → ∃ t : State, exec (.repairSearchEnd i) s = .next (t.settle s) ∧ t.store = s.store ∧
        (∀ f, passing m.snap c.votes = [f] →
          t.contexts = s.contexts.set i (some { c with phase := .storing ⟨.recovered, .repaired, f.length,
            (candidateBytes c.votes f).take m.snap.unitSize, List.replicate (m.snap.unitSize / 8) 0⟩ }) ∧
          t.unitRec c.drive u = { s.unitRec c.drive u with
            attempts := v.attempts, contributing := v.contributing, best := v.best, weak := v.weak } ∧
          t.stats = s.stats) ∧
        ((passing m.snap c.votes).length ≠ 1 → ∀ amb : Bool, amb = decide (2 ≤ (passing m.snap c.votes).length) →
          (t.stats.get c.drive).ambiguous = (s.stats.get c.drive).ambiguous + (if amb then 1 else 0) ∧
          ((m.snap.attemptLimit = 0 ∨ v.attempts < m.snap.attemptLimit) →
            t.contexts = s.contexts.set i (some { c with phase := .collecting }) ∧
            t.unitRec c.drive u = { s.unitRec c.drive u with
              attempts := v.attempts, contributing := v.contributing, best := v.best, weak := v.weak
              ambiguous := (s.unitRec c.drive u).ambiguous || amb }) ∧
          (m.snap.attemptLimit ≠ 0 → m.snap.attemptLimit ≤ v.attempts → 0 < v.contributing →
            t.contexts = s.contexts.set i (some { c with phase := .storing ⟨.exhausted, .none, 0,
              (consensus c.votes).take m.snap.unitSize,
              weakMask m.snap.weakThreshold m.snap.unitSize c.votes⟩ }) ∧
            t.unitRec c.drive u = { s.unitRec c.drive u with
              attempts := v.attempts, contributing := v.contributing, best := v.best, weak := v.weak
              ambiguous := (s.unitRec c.drive u).ambiguous || amb }))

/-- R12, R24, R25, R34, R45, R63, R64, R145, R157: a store write that completes puts the bytes into the unit's slot
and no others, makes the unit terminal with its method and flips, takes its entry off the list, which raises WORK_IDLE
where it was the last and the sweep is off, counts it, and frees its context; the deferred entries that named it and
have no unit left to wait for become READY, with DEFER_READY on their port. That no byte of the slot is written before
this moment is the model's choice (log 30); a write that is not under way cannot complete (log 7). -/
def Obligations.StoreWriteComplete : Prop :=
  ∀ (i : Nat) (s : State), s.due = none →
    ((∀ c w, s.contexts.get? i = some (some c) → c.phase ≠ .storing w) →
      exec (.storeWriteComplete i) s = .refused .cannotOccur) ∧
    ∀ c u m w, s.contexts.get? i = some (some c) → c.unit = some u → s.mounts.get c.drive = some m →
      c.phase = .storing w → ∀ slot n, slot = m.storeFirst * 4096 + u * (m.snap.unitSize + m.snap.unitSize / 8) →
        n = w.data.length + w.mask.length →
        (67108864 < slot + n → exec (.storeWriteComplete i) s = .fault .storeAddress) ∧
        (slot + n ≤ 67108864 → ∃ t : State, exec (.storeWriteComplete i) s = .next (t.settle s) ∧
          (∀ a, a < slot ∨ slot + n ≤ a → Memory.readByte t.store a = Memory.readByte s.store a) ∧
          Memory.readBytes t.store slot n = w.data ++ w.mask ∧
          t.unitRec c.drive u = { s.unitRec c.drive u with state := w.state, method := w.method, flips := w.flips } ∧
          (∀ u', u' ≠ u → t.unitRec c.drive u' = s.unitRec c.drive u') ∧
          (∀ k, k ≠ m.mapFirst + u →
            Sparse.get UnitRec.fresh t.unitMap k = Sparse.get UnitRec.fresh s.unitMap k) ∧
          t.contexts = s.contexts.set i none ∧
          t.works = s.works.set c.drive ((s.works.get c.drive).filter fun e => e.unit != u) ∧
          t.mounts = s.mounts.set c.drive (some { m with terminal := m.terminal + 1 }) ∧
          (s.works.get c.drive ≠ [] → (∀ e ∈ s.works.get c.drive, e.unit = u) → s.sweepOn c.drive = false →
            ∀ p, (t.events.get p).raw.getLsbD Event.workIdle.pos = true) ∧
          (∀ p, t.deferred.get p = (s.deferred.get p).map fun e =>
            if e.state = .pending ∧ e.drive = c.drive ∧ e.first ≤ u ∧ u < e.first + e.n ∧
              (∀ j, j < e.n → t.isTerminal c.drive (e.first + j) = true) then { e with state := .ready } else e) ∧
          (∀ p e, e ∈ s.deferred.get p → e.state = .pending → e.drive = c.drive → e.first ≤ u → u < e.first + e.n →
            (∀ j, j < e.n → t.isTerminal c.drive (e.first + j) = true) →
            (t.events.get p).raw.getLsbD Event.deferReady.pos = true) ∧
          (m.terminal + 1 = m.u → ∀ p, (t.events.get p).raw.getLsbD Event.mediumComplete.pos = true) ∧
          (∀ j, (t.stats.get c.drive).toList.getD j 0 = (s.stats.get c.drive).toList.getD j 0 +
            (if (w.state = .recovered ∧ (j = recoveredBin (s.unitRec c.drive u).attempts ∨
                (j = 8 ∧ w.method = .repaired))) ∨ (w.state ≠ .recovered ∧ j = 10) then 1 else 0)) ∧
          (∀ a, recoveredBin a = if a ≤ 1 then 2 else if a ≤ 2 then 3 else if a ≤ 4 then 4 else if a ≤ 8 then 5
            else if a ≤ 16 then 6 else 7))

/-! ### Contexts and choices -/

/-- R42, R44, R81, R82: a FREE context is granted to the waiting drive whose unit has the highest class, and of those
of one class to the first in round-robin order; it opens with all votes 0 and its unit ACTIVE. Of several FREE
contexts the lowest-numbered is granted (log 19). A grant is the first of the steps that are due (log 5); with none
FREE or no request there is none (log 7). Its unit's votes begin anew, so the scheduler has not to begin with it
(R173, log 32). -/
def Obligations.ContextGrant : Prop :=
  ∀ s : State,
    ((s.freeCtx = none ∨ ∀ d, s.ctxReq.get d = none) → exec .contextGrant s = .refused .cannotOccur) ∧
    (s.freeCtx ≠ none → (∃ d, s.ctxReq.get d ≠ none) → s.due = some .contextGrant) ∧
    ∀ (d : DriveId) (i u : Nat) (m : MountRec), s.freeCtx = some i → s.ctxReq.get d = some u →
      s.mounts.get d = some m →
      (∀ rank : DriveId → Nat, (∀ e x, s.ctxReq.get e = some x →
          rank e = effRank ((s.entryOf e x).bind (s.effOf e))) →
        ∀ e x, s.ctxReq.get e = some x → rank e ≤ rank d ∧
          (rank e = rank d → (d.toNat + 3 - s.ctxLast.toNat) % 4 ≤ (e.toNat + 3 - s.ctxLast.toNat) % 4)) →
      ∃ v : State, exec .contextGrant s = .next (v.settle s) ∧
        v = { s with
          contexts := s.contexts.set i
            (some ⟨.collecting, d, some u, m.snap.b, List.replicate (8 * m.snap.b) 0, false⟩)
          unitMap := v.unitMap
          ctxReq := s.ctxReq.set d none
          ctxLast := d
          scheds := s.scheds.set d
            { s.scheds.get d with savedUnits := (s.scheds.get d).savedUnits.filter fun x => x != u } } ∧
        i < 8 ∧ s.contexts.get? i = some none ∧
        v.unitRec d u = { s.unitRec d u with state := .active } ∧
        (∀ u', u' ≠ u → v.unitRec d u' = s.unitRec d u') ∧
        ∀ k, k ≠ m.mapFirst + u → Sparse.get UnitRec.fresh v.unitMap k = Sparse.get UnitRec.fresh s.unitMap k

/-- R36, R69 to R77, R173: a choice waits for an evaluation of the last unit, repeats a burst, or takes the first entry
of the ranking: the highest class, then the priority mark, then the distance to go, then the oldest. The sweep candidate
is placed first where the sweep is on and no eligible entry is above SWEEP. A chosen unit that cannot have a context
gives way to the first eligible entry whose unit is ACTIVE. A burst leaves a waiting request as it was (log 17). A
scheduler begins after a restore with the ACTIVE units whose votes were saved, in the order of the ranking, each having
one choice before the ranking is made (log 32). When a choice is made, `SettleFrame` states. -/
def Obligations.SchedulerChoice : Prop :=
  ∀ (s : State) (d : DriveId) (m : MountRec), s.mounts.get d = some m →
    (s.lastEvaluating d = true →
      s.choose d = s.setSched d { s.scheds.get d with state := .waiting }) ∧
    (∀ (u : Nat) (start : State → Nat → Nat → State), s.lastEvaluating d = false →
      (∀ (t : State) (w n : Nat), start t w n = (({ t.newWork with
        scheds := t.scheds.set d { t.scheds.get d with
          state := .attempting, last := some w, burst := n
          savedUnits := (t.scheds.get d).savedUnits.filter fun x => x != w }
        attempts := t.attempts.set d (some
          ⟨w, if (t.scheds.get d).position = some (m.snap.target w) then .needRead else .needPosition,
            m.snap.target w, m.snap.readParams w, m.snap.b, false⟩) }) : State)) →
      ((s.scheds.get d).last = some u → s.isActive d u = true →
        (∃ i c, s.ctxOf d u = some (i, c) ∧ c.phase = .collecting) → (s.scheds.get d).burst < m.snap.burst →
        (∀ e ∈ s.eligibles d, effRank (s.effOf d e) ≤ effRank ((s.entryOf d u).bind (s.effOf d))) →
        s.choose d = start s u ((s.scheds.get d).burst + 1)) ∧
      (∀ saved : List Entry, saved = (s.eligibles d).filter (fun e =>
          (s.scheds.get d).savedUnits.contains e.unit && s.isActive d e.unit) → s.burstUnit d m = none →
        ∀ e before after, saved = before ++ e :: after →
          (∀ x ∈ before, lexLt (s.rankKey d m e) (s.rankKey d m x) = true) →
          (∀ x ∈ after, lexLt (s.rankKey d m x) (s.rankKey d m e) = false) →
          s.choose d = start (s.setCtxReq d none) e.unit 1) ∧
      (s.burstUnit d m = none → (∀ e ∈ s.eligibles d, e.unit ∈ (s.scheds.get d).savedUnits →
          s.isActive d e.unit = false) → ∀ q : State, q = s.sweepStep d →
        (q.eligibles d = [] →
          s.choose d = (q.setCtxReq d none).setSched d { q.scheds.get d with state := .idle }) ∧
        ∀ e before after, q.eligibles d = before ++ e :: after →
          (∀ x ∈ before, lexLt (q.rankKey d m e) (q.rankKey d m x) = true) →
          (∀ x ∈ after, lexLt (q.rankKey d m x) (q.rankKey d m e) = false) →
          (q.isActive d e.unit = true → s.choose d = start (q.setCtxReq d none) e.unit 1) ∧
          (∀ i, q.isActive d e.unit = false → q.openCount d < q.settings.quota.get d → q.freeCtx = some i →
            (∀ x, q.ctxReq.get x = none) → s.choose d = start (q.openContext i d m e.unit) e.unit 1) ∧
          ∀ r : State, q.isActive d e.unit = false →
            ((q.openCount d < q.settings.quota.get d ∧ (q.freeCtx = none ∨ ∃ x, q.ctxReq.get x ≠ none) ∧
                r = q.setCtxReq d (some e.unit)) ∨
              (q.settings.quota.get d ≤ q.openCount d ∧ r = q.setCtxReq d none)) →
            ((∀ x ∈ q.eligibles d, q.isActive d x.unit = false) →
              s.choose d = r.setSched d { r.scheds.get d with state := .waiting }) ∧
            ∀ e' before' after', (q.eligibles d).filter (fun x => q.isActive d x.unit) = before' ++ e' :: after' →
              (∀ x ∈ before', lexLt (q.rankKey d m e') (q.rankKey d m x) = true) →
              (∀ x ∈ after', lexLt (q.rankKey d m x) (q.rankKey d m e') = false) →
              s.choose d = start r e'.unit 1)) ∧
    ((m.sweepOn = false ∨ ∃ e ∈ s.eligibles d, 2 < effRank (s.effOf d e)) → s.sweepStep d = s) ∧
    (m.sweepOn = true → (∀ e ∈ s.eligibles d, effRank (s.effOf d e) ≤ 2) →
      (∀ u, m.cursor ≤ u → u < m.u → s.isTerminal d u = false →
        (∀ w, m.cursor ≤ w → w < u → s.isTerminal d w = true) →
        ((s.demand d u .sweep).2 = .dropped → s.sweepStep d = s) ∧
        ((s.demand d u .sweep).2 = .merged ∨ (s.demand d u .sweep).2 = .inserted →
          s.sweepStep d = (s.demand d u .sweep).1.setMount d
            (some { m with cursor := u + 1, sweepOn := decide (u + 1 < m.u) }))) ∧
      ((∀ w, m.cursor ≤ w → w < m.u → s.isTerminal d w = true) → ∀ off : State,
        off = s.setMount d (some { m with cursor := m.u, sweepOn := false }) →
        s.sweepStep d = if s.works.get d = [] then off.raiseBoth .workIdle else off)) ∧
    ∀ (t : State) (e : Entry) (pos : Nat), pos = (t.scheds.get d).position.getD 0 →
      t.rankKey d m e = [4 - effRank (t.effOf d e), if t.marked d e then 0 else 1] ++
        (match m.snap.kind with
          | .floppy => [(m.snap.target e.unit - pos) + (pos - m.snap.target e.unit), m.snap.target e.unit]
          | .cartridge => [if m.snap.target e.unit < pos then 1 else 0, m.snap.target e.unit])

/-! ### Rests, the quiet timer and power -/

/-- R108 to R112, R114, R115: a mean quality below the shed quality counts towards a shed rest and a better one ends
the run; a rest expires with its level kept at the very end of the time in which its timer reaches 0, and the choices
of its drive follow; and the quiet timer takes the part to QUIET with its drives relaxed. The time is the model's
(log 3), and a stopped timer does not run out, nor one before another with less left (log 7). -/
def Obligations.RestsAndQuiet : Prop :=
  (∀ (s : State) (d : DriveId) (m : MountRec) (mean : Nat) (r : Rest), r = s.rests.get d →
    (m.snap.shedQuality ≤ mean →
      s.reportQuality d m mean = s.setRest d { r with weakRun := 0, level := 0 }) ∧
    (mean < m.snap.shedQuality → r.weakRun + 1 ≠ m.snap.shedCount →
      s.reportQuality d m mean = s.setRest d { r with weakRun := r.weakRun + 1 }) ∧
    (mean < m.snap.shedQuality → r.weakRun + 1 = m.snap.shedCount → ∃ t : State,
      s.reportQuality d m mean = t ∧
      t.rests = s.rests.set d ⟨if max r.left (m.snap.restBase * 2 ^ r.level) = 0 then none
          else some (max r.left (m.snap.restBase * 2 ^ r.level)),
        if r.left < m.snap.restBase * 2 ^ r.level then .shed else r.cause, min 3 (r.level + 1), 0⟩ ∧
      t.drives = s.drives.set d { s.drives.get d with pend := withTx (s.drives.get d).pend .relax } ∧
      (∀ p, (t.events.get p).raw = (s.events.get p).raw ||| Event.restEntered.bit) ∧
      (t.stats.get d).rests = (s.stats.get d).rests + 1 ∧ t.contexts = s.contexts ∧ t.unitMap = s.unitMap ∧
      t.store = s.store ∧ t.mounts = s.mounts)) ∧
  ∀ s : State, s.due = none →
    (∀ d, s.timer (.rest d) =
      if s.power.state = .active ∨ s.power.state = .quiet ∨ s.power.state = .entering then (s.rests.get d).timer
      else none) ∧
    (s.timer .quiet = if s.power.state = .active then s.power.quiet else none) ∧
    (∀ d, s.timer (.rest d) = none → exec (.restExpiry d) s = .refused .cannotOccur) ∧
    (∀ d n j k, s.timer (.rest d) = some n → s.timer j = some k → k < n →
      exec (.restExpiry d) s = .refused .cannotOccur) ∧
    (∀ d n, s.timer (.rest d) = some n → (∀ j k, s.timer j = some k → n ≤ k) →
      exec (.restExpiry d) s = .next (s.pass n) ∧ (s.elapse n).timer (.rest d) = some 0) ∧
    (∀ (g b : State) (n : Nat), b = g.elapse n →
      ((∀ d, b.timer (.rest d) ≠ some 0) → g.pass n = b) ∧
      ((∃ d, b.timer (.rest d) = some 0) → ∃ r : Quad Rest,
        g.pass n = ({ b with rests := r } : State).settle b ∧
        ∀ d, r.get d = if b.timer (.rest d) = some 0 then { b.rests.get d with timer := none, cause := .none }
          else b.rests.get d)) ∧
    (s.timer .quiet = none → exec .quietTimerExpiry s = .refused .cannotOccur) ∧
    (∀ n j k, s.timer .quiet = some n → s.timer j = some k → k < n →
      exec .quietTimerExpiry s = .refused .cannotOccur) ∧
    (∀ n, s.timer .quiet = some n → (∀ j k, s.timer j = some k → n ≤ k) →
      ∀ b : State, b = s.pass n → ∃ v : State,
      exec .quietTimerExpiry s = .next (v.settle b) ∧
      v = { b with power := { b.power with state := .quiet, quiet := none }, drives := v.drives } ∧
      ∀ d, v.drives.get d =
        if b.openMount d ≠ none ∧ (b.drives.get d).link = .online then
          { b.drives.get d with pend := withTx (b.drives.get d).pend .relax }
        else b.drives.get d)

/-- R108, R170 to R172: a settled part goes from ENTERING to SAVING, the save image is written into the save area and
nowhere else, the part is DORMANT with its wake timer running where TIMER is a wake source, and the wake timer wakes
it to RESTORING. The image holds the mounts, the map, the contexts, the work lists, the views with their streams and
deferred reads, the event flags, the captures and the counters as they stand. That a link-clear pattern still to be
sent keeps the part from settling is the model's reading (log 34). The image's bytes are the model's (log 12),
and so are the moment at which its fields are taken (log 14) and the time that passes before the wake timer runs out
(log 3); every other step that is due comes before the entry into SAVING (log 5), so that no mount is UNMOUNTING there
with none of its attempts in flight, and an event with nothing to end cannot occur (log 7). -/
def Obligations.SavingAndWaking : Prop :=
  ∀ s : State,
    (∀ g, g = s.upTo .enterSaving → (g.power.state ≠ .entering ∨ g.settled = false) →
      exec .enterSaving s = .refused .cannotOccur) ∧
    (s.settled = true ↔ (∀ d, s.attempts.get d = none) ∧
      (∀ c ∈ s.contexts.toList, ∀ x, c = some x → x.phase = .collecting) ∧ s.link.exchange = none ∧
      s.link.clearing = false ∧ ∀ d, PendTx.relax ∉ (s.drives.get d).pend) ∧
    (s.due = some .enterSaving → (s.power.state = .entering ∧ s.settled = true) ∧
      (∀ d m, s.mounts.get d = some m → m.phase ≠ .unmounting) ∧
      (s.freeCtx = none ∨ ∀ d, s.ctxReq.get d = none) ∧
      ∀ p, (s.ports.get p).waiting = none ∨ (s.ports.get p).inProgress ≠ none) ∧
    (∀ g, g = s.upTo .enterSaving → g.power.state = .entering → g.settled = true → ∃ v : State,
      exec .enterSaving s = .next v ∧
      g.image = ⟨g.mounts, g.unitMap, g.contexts, g.works, g.views, g.streams, g.deferred, g.events, g.errors,
        g.linkFault, g.stats, g.served⟩ ∧
      v = { g with
        power := { g.power with state := .saving }, rests := v.rests, drives := v.drives, saved := some g.image } ∧
      (∀ d, v.rests.get d = { g.rests.get d with timer := none, cause := .none }) ∧
      ∀ d, v.drives.get d = { g.drives.get d with pend := (g.drives.get d).pend.filter fun t => decide (t = .relax) }) ∧
    (s.due = none → (s.power.state ≠ .saving ∨ s.saved = none) →
      exec .saveImageWriteComplete s = .refused .cannotOccur) ∧
    (∀ im, s.due = none → s.power.state = .saving → s.saved = some im → ∀ n, n = im.body.length →
      (67108864 < 66060288 + n + 8 → exec .saveImageWriteComplete s = .fault .storeAddress) ∧
      (66060288 + n + 8 ≤ 67108864 → ∃ v : State, exec .saveImageWriteComplete s = .next v ∧
        v = { s with
          power := { s.power with
            state := .dormant, wakeTimer := if s.power.wakeOnTimer then some (s.power.wakeTime * 1000) else none }
          store := v.store } ∧
        (∀ a, a < 66060288 ∨ 66060288 + n + 8 ≤ a → Memory.readByte v.store a = Memory.readByte s.store a) ∧
        Memory.readBytes v.store 66060288 4 = leBytes 4 n ∧ Memory.readBytes v.store 66060292 n = im.body ∧
        Memory.readBytes v.store (66060292 + n) 4 = leBytes 4 (c32 (leBytes 4 n ++ im.body)).toNat)) ∧
    ((s.power.state ≠ .dormant ∨ s.power.wakeTimer = none) → exec .wakeTimerExpiry s = .refused .cannotOccur) ∧
    (∀ n, s.power.state = .dormant → s.power.wakeTimer = some n →
      (∀ j k, s.timer j = some k → n ≤ k) → ∃ v : State,
      exec .wakeTimerExpiry s = .next v ∧
      v.power.state = .restoring ∧ v.power.wakePort = ⟨false, false⟩ ∧ v.power.wakeOnTimer = false ∧
      v.power.wakeTimer = none ∧ v.now = s.now + n ∧ v.store = s.store ∧ v.saved = s.saved ∧
      v.ports = s.ports ∧ v.events = s.events ∧ (∀ d, v.mounts.get d = none ∧ v.works.get d = []) ∧
      v.freeCount = 8)

/-- R130, R151, R173, R174: the check of the save image restores the saved fields and raises WAKE when its length fits
and its CRC-32 is right, and otherwise resets the part with MAP_LOST raised. The length field counts neither itself nor
the CRC-32 (log 12), the fields come from beside the bytes (log 13), and outside RESTORING the event cannot occur
(log 7). That the positioning start of a drive is then 0 is the model's choice (log 36), and that a scheduler keeps the
units whose votes were saved, to begin with them, is its reading (log 32). -/
def Obligations.RestoreCheck : Prop :=
  ∀ (lost : List Host.Cell) (s : State),
    (s.power.state ≠ .restoring → exec (.restoreCheckEnd lost) s = .refused .cannotOccur) ∧
    (s.power.state = .restoring → (∃ c ∈ lost, 67108864 ≤ c.1) →
      exec (.restoreCheckEnd lost) s = .fault .storeAddress) ∧
    (s.power.state = .restoring → (∀ c ∈ lost, c.1 < 67108864) →
      ∀ (b : State) (n : Nat) (good : Prop), b = { s with store := Memory.writeCells s.store lost } →
      n = leField (Memory.readBytes b.store 66060288 4) 4 0 →
      (good ↔ n + 8 ≤ 1048576 ∧ (c32 (Memory.readBytes b.store 66060288 (4 + n))).toNat =
        leField (Memory.readBytes b.store (66060292 + n) 4) 4 0) →
      (∀ im, good → s.saved = some im → ∃ v : State, exec (.restoreCheckEnd lost) s = .next (v.settle b) ∧
        v.mounts = im.mounts ∧ v.unitMap = im.unitMap ∧ v.contexts = im.contexts ∧ v.works = im.works ∧
        v.views = im.views ∧ v.streams = im.streams ∧ v.deferred = im.deferred ∧ v.errors = im.errors ∧
        v.linkFault = im.linkFault ∧ v.stats = im.stats ∧ v.served = im.served ∧
        (∀ p, v.events.get p = { im.events.get p with raw := (im.events.get p).raw ||| Event.wake.bit }) ∧
        v.power.state = .active ∧ (∀ p, (v.ports.get p).cursor = none) ∧
        (∀ d, v.drives.get d = ⟨.absent, none, false, false, 0, none, none, none, 0, [.probe]⟩ ∧
          v.rests.get d = ⟨none, .none, 0, 0⟩ ∧ (∃ units, v.scheds.get d = ⟨.stopped, none, 0, none, false, units⟩ ∧
            ∀ u, u ∈ units ↔ ∃ c ∈ im.contexts.toList, ∃ x, c = some x ∧ x.drive = d ∧ x.unit = some u) ∧
          v.ctxReq.get d = none ∧ v.discard.get d = false) ∧
        v.ctxLast = .d3 ∧ v.link.last = .d3 ∧ v.store = b.store ∧ v.table = s.table ∧ v.settings = s.settings ∧
        v.options = s.options) ∧
      ((¬ good ∨ s.saved = none) → ∃ v : State, exec (.restoreCheckEnd lost) s = .next (v.settle b) ∧
        v.power.state = .active ∧ v.power.reject = 0 ∧ v.unitMap = [] ∧ v.contexts.toList = List.replicate 8 none ∧
        (∀ d, v.mounts.get d = none ∧ v.works.get d = [] ∧ v.rests.get d = ⟨none, .none, 0, 0⟩ ∧
          v.drives.get d = ⟨.absent, none, false, false, 0, none, none, none, 0, [.probe]⟩) ∧
        (∀ p, v.events.get p = ⟨Event.mapLost.bit, Event.resetDone.bit ||| Event.mapLost.bit⟩ ∧
          v.deferred.get p = [] ∧ v.errors.get p = none ∧ (v.ports.get p).cursor = none ∧ v.attention p = true) ∧
        v.linkFault = none ∧ v.store = b.store ∧ v.table = s.table ∧ v.settings = s.settings ∧
        v.options = s.options ∧ v.stats = s.stats ∧ v.served = s.served))

/-! ### The profile bus -/

/-- R126, R160 to R165: each read of a loader run does its part and names the next; the run ends with the port options
taken from the settings and LOAD_DONE raised, after a fallback to the built-in profiles where the memory is absent or
its marker is wrong. The reads begin at the addresses of the image. A read that the stage does not call for cannot
occur (log 7). -/
def Obligations.LoaderReads : Prop :=
  ∀ (s : State), s.due = none → ∀ ended : State → State,
    (∀ q : State, ended q = { q with
      options := ⟨⟨q.settings.portHigh.a, q.settings.deferLimit.a⟩, ⟨q.settings.portHigh.b, q.settings.deferLimit.b⟩⟩
      loader := { q.loader with stage := .idle }
      events := q.events.map fun r => { r with raw := r.raw ||| Event.loadDone.bit } }) →
    ∀ next : State → LoadStage → State,
    (∀ (q : State) (g : LoadStage), next q g = { q with loader := { q.loader with stage := g } }) →
    s.loader.address = (match s.loader.stage with
      | .idle => none
      | .marker => some 0
      | .count => some 1
      | .record i => some (2 + 48 * i)
      | .settingsMarker => some (2 + 48 * s.loader.records)
      | .settingsCount => some (3 + 48 * s.loader.records)
      | .setting j => some (4 + 48 * s.loader.records + 3 * j)) ∧
    ∀ b lo hi : Byte,
      (s.loader.stage = .marker →
        (b = 0xC3 → exec (.loaderMarkerRead b) s = .next ((next s .count).settle s)) ∧
        (b ≠ 0xC3 → exec (.loaderMarkerRead b) s = .next ((ended { s with
          loader := { s.loader with badMarker := true }, table := builtinTable }).settle s)) ∧
        exec .profileBusNoAck s = .next ((ended { s with
          loader := { s.loader with noMemory := true }, table := builtinTable }).settle s)) ∧
      (s.loader.stage ≠ .marker → exec (.loaderMarkerRead b) s = .refused .cannotOccur ∧
        (s.loader.stage ≠ .idle → exec .profileBusNoAck s =
          .next ((ended { s with loader := { s.loader with busFault := true } }).settle s))) ∧
      (s.loader.stage = .idle → exec .profileBusNoAck s = .refused .cannotOccur) ∧
      (s.loader.stage = .count → exec (.loaderCountRead b) s =
        .next ((next { s with loader := { s.loader with records := min 16 b.toNat } }
          (if b = 0 then .settingsMarker else .record 0)).settle s)) ∧
      (s.loader.stage ≠ .count → exec (.loaderCountRead b) s = .refused .cannotOccur) ∧
      (∀ i bytes, s.loader.stage = .record i → exec (.profileRecordRead bytes) s =
        .next ((next { s with table := s.table.set i (match testRecord bytes with
          | none => .valid .memory bytes
          | some r => .invalid .memory r bytes) }
          (if i + 1 < s.loader.records then .record (i + 1) else .settingsMarker)).settle s)) ∧
      (∀ bytes, (∀ i, s.loader.stage ≠ .record i) → exec (.profileRecordRead bytes) s = .refused .cannotOccur) ∧
      (s.loader.stage = .settingsMarker →
        (b = 0x3C → exec (.settingsMarkerRead b) s = .next ((next s .settingsCount).settle s)) ∧
        (b ≠ 0x3C → exec (.settingsMarkerRead b) s =
          .next ((ended { s with loader := { s.loader with noSettings := true } }).settle s))) ∧
      (s.loader.stage ≠ .settingsMarker → exec (.settingsMarkerRead b) s = .refused .cannotOccur) ∧
      (s.loader.stage = .settingsCount → exec (.settingsCountRead b) s =
        .next ((if b = 0 then ended { s with loader := { s.loader with m := 0 } }
          else if 1023 < 4 + 48 * s.loader.records + 2 then
            ended { s with loader := { s.loader with m := b.toNat, overflow := true } }
          else next { s with loader := { s.loader with m := b.toNat } } (.setting 0)).settle s)) ∧
      (s.loader.stage ≠ .settingsCount → exec (.settingsCountRead b) s = .refused .cannotOccur) ∧
      (∀ j q, s.loader.stage = .setting j → q = s.applySetting b.toNat (lo.toNat + 256 * hi.toNat) →
        exec (.settingRecordRead b lo hi) s =
          .next ((if s.loader.m ≤ j + 1 then ended q
            else if 1023 < 4 + 48 * s.loader.records + 3 * (j + 1) + 2 then
              ended { q with loader := { q.loader with overflow := true } }
            else next q (.setting (j + 1))).settle s)) ∧
      ((∀ j, s.loader.stage ≠ .setting j) → exec (.settingRecordRead b lo hi) s = .refused .cannotOccur) ∧
      (∀ id v, (∀ x y, settingRange id = some (x, y) → ∃ q : State, s.applySetting id v = q ∧
          q.settings = s.settings.put id (max x (min y v)) ∧
          q = { s with settings := q.settings, loader := { s.loader with
            clamped := if v < x ∨ y < v then min 255 (s.loader.clamped + 1) else s.loader.clamped } }) ∧
        (settingRange id = none → s.applySetting id v =
          { s with loader := { s.loader with unknown := min 255 (s.loader.unknown + 1) } }))

/-- R159, R166, R167: the transfer of a profile write, its polls and their spacing: DONE, NO_ACK or TIMEOUT ends the
write and raises WRITE_DONE on the port that asked for it. The time of its 25 ms is the model's (log 11), and
one with no write at its stage cannot occur (log 7). -/
def Obligations.ProfileWriteRows : Prop :=
  ∀ (s : State) (acked : Bool), s.due = none →
    ∀ done : WriteOutcome → State, (∀ o, done o = { s with
      loader := { s.loader with write := .idle, outcome := o }
      events := s.events.set s.loader.writePort { s.events.get s.loader.writePort with
        raw := (s.events.get s.loader.writePort).raw ||| Event.writeDone.bit } }) →
    (s.loader.write = .transfer →
      exec (.profileWriteTransferEnd true) s =
        .next (({ s with loader := { s.loader with write := .polling, writeAcked := s.now } } : State).settle s) ∧
      exec (.profileWriteTransferEnd false) s = .next ((done .noAck).settle s)) ∧
    (s.loader.write ≠ .transfer → exec (.profileWriteTransferEnd acked) s = .refused .cannotOccur) ∧
    (s.loader.write = .polling →
      exec (.writePollEnd true) s = .next ((done .done).settle s) ∧
      (25 ≤ s.now - s.loader.writeAcked → exec (.writePollEnd false) s = .next ((done .timeout).settle s)) ∧
      (s.now - s.loader.writeAcked < 25 → exec (.writePollEnd false) s =
        .next (({ s with loader := { s.loader with write := .spacing } } : State).settle s))) ∧
    (s.loader.write ≠ .polling → exec (.writePollEnd acked) s = .refused .cannotOccur) ∧
    (s.loader.write = .spacing → exec .writePollSpacingExpiry s =
      .next (({ s with loader := { s.loader with write := .polling } } : State).settle s)) ∧
    (s.loader.write ≠ .spacing → exec .writePollSpacingExpiry s = .refused .cannotOccur)

/-! ### Every step -/

/-- The canonical form of the store and of the Recovery Map is kept by every step. -/
def Obligations.CanonicalStep : Prop :=
  ∀ s t : State, s.canonical = true → step s = .next t → t.canonical = true

/-- R27, R93, R105, R108, R112, R142: every step keeps the work lists within 64 entries and the deferred read tables
within 8, the link free while its clear pattern is due, and each rest's cause NONE where its timer reads 0 and its
level within 3; no rest timer stands at 0 with its expiry still to come. -/
def Obligations.SoundStep : Prop :=
  ∀ s t : State, s.restsSound = true → s.listsBounded = true → s.tablesBounded = true → s.linkSound = true →
    step s = .next t →
    t.restsSound = true ∧ t.listsBounded = true ∧ t.tablesBounded = true ∧ t.linkSound = true

/-- R64, R171, R173: no command changes the image store but POWER_ON, a completed store write, a completed save-image
write, and the check after self-refresh, in which the store may have lost bytes. That RST leaves the store as it was is
the model's choice (log 22). -/
def Obligations.StoreKept : Prop :=
  ∀ (i : Instr) (s t : State), exec i s = .next t → i ≠ .powerOn → (∀ k, i ≠ .storeWriteComplete k) →
    i ≠ .saveImageWriteComplete → (∀ lost, i ≠ .restoreCheckEnd lost) → t.store = s.store
end

