-- ==== Sys2Proof/Laws/Containers.lean ====
section
/-! SUPPORT. What one reads from a pair, a quad or an oct after a write. -/
namespace Sys2Proof

variable {α β : Type}

@[simp] theorem Pair.get_set (x : Pair α) (p : PortId) (v : α) : (x.set p v).get p = v := by cases p <;> rfl
@[simp] theorem Pair.get_set_other (x : Pair α) (p : PortId) (v : α) : (x.set p v).get p.other = x.get p.other := by
  cases p <;> rfl
@[simp] theorem Pair.set_get (x : Pair α) (p : PortId) : x.set p (x.get p) = x := by cases p <;> rfl
@[simp] theorem Pair.set_set (x : Pair α) (p : PortId) (v w : α) : (x.set p v).set p w = x.set p w := by
  cases p <;> rfl
@[simp] theorem Pair.get_map (f : α → β) (x : Pair α) (p : PortId) : (x.map f).get p = f (x.get p) := by
  cases p <;> rfl
theorem Pair.map_set (f : α → β) (x : Pair α) (p : PortId) (v : α) : (x.set p v).map f = (x.map f).set p (f v) := by
  cases p <;> rfl
theorem Pair.get_set_ne (x : Pair α) {p q : PortId} (h : q ≠ p) (v : α) : (x.set p v).get q = x.get q := by
  cases p <;> cases q <;> first | rfl | exact absurd rfl h

@[simp] theorem Quad.get_set (x : Quad α) (d : DriveId) (v : α) : (x.set d v).get d = v := by cases d <;> rfl
theorem Quad.get_set_ne (x : Quad α) {d e : DriveId} (h : e ≠ d) (v : α) : (x.set d v).get e = x.get e := by
  cases d <;> cases e <;> first | rfl | exact absurd rfl h
@[simp] theorem Quad.set_get (x : Quad α) (d : DriveId) : x.set d (x.get d) = x := by cases d <;> rfl
@[simp] theorem Quad.set_set (x : Quad α) (d : DriveId) (v w : α) : (x.set d v).set d w = x.set d w := by
  cases d <;> rfl
@[simp] theorem Quad.get_map (f : α → β) (x : Quad α) (d : DriveId) : (x.map f).get d = f (x.get d) := by
  cases d <;> rfl
@[simp] theorem Quad.get_ofFn (f : DriveId → α) (d : DriveId) : (Quad.ofFn f).get d = f d := by cases d <;> rfl
@[simp] theorem Quad.get_four (v : α) (d : DriveId) : (Quad.four v).get d = v := by cases d <;> rfl
theorem Quad.all_iff (x : Quad α) (f : α → Bool) : x.toList.all f = true ↔ ∀ d, f (x.get d) = true := by
  constructor
  · intro h d
    simp only [Quad.toList, List.all_cons, List.all_nil, Bool.and_true, Bool.and_eq_true] at h
    obtain ⟨h0, h1, h2, h3⟩ := h
    cases d <;> assumption
  · intro h
    simp only [Quad.toList, List.all_cons, List.all_nil, Bool.and_true, Bool.and_eq_true]
    exact ⟨h .d0, h .d1, h .d2, h .d3⟩
/-- A test that a write's value passes still holds of all four. -/
theorem Quad.all_set {x : Quad α} {f : α → Bool} (d : DriveId) {v : α} (h : x.toList.all f = true) (hv : f v = true) :
    (x.set d v).toList.all f = true := by
  rw [Quad.all_iff] at h ⊢
  intro e
  by_cases he : e = d
  · subst he; simpa using hv
  · simpa [Quad.get_set_ne x he] using h e

theorem Oct.get?_set (x : Oct α) {i : Nat} (h : i < 8) (v : α) : (x.set i v).get? i = some v := by
  rcases i with _ | _ | _ | _ | _ | _ | _ | _ | i <;> first | rfl | omega
theorem Oct.get?_set_ne (x : Oct α) {i j : Nat} (h : j ≠ i) (v : α) : (x.set i v).get? j = x.get? j := by
  rcases i with _ | _ | _ | _ | _ | _ | _ | _ | i <;> rcases j with _ | _ | _ | _ | _ | _ | _ | _ | j <;>
    first | rfl | omega

theorem Oct.set_set (x : Oct α) (i : Nat) (v w : α) : (x.set i v).set i w = x.set i w := by
  rcases i with _ | _ | _ | _ | _ | _ | _ | _ | i <;> rfl
theorem Pair.set_self (x : Pair α) (p : PortId) (v : α) (h : v = x.get p) : x.set p v = x := by
  subst h; exact Pair.set_get x p
theorem Quad.set_self (x : Quad α) (d : DriveId) (v : α) (h : v = x.get d) : x.set d v = x := by
  subst h; exact Quad.set_get x d

theorem DriveId.ofNat?_toNat (d : DriveId) : DriveId.ofNat? d.toNat = some d := by cases d <;> rfl

end Sys2Proof
end

