-- ==== Sys2Proof/Laws/State.lean ====
section
/-! SUPPORT. One lemma for each field and each setter of the state: what the setter leaves alone, and what it writes. -/
namespace Sys2Proof.Machine

variable (s : State)

@[simp] theorem State.setPort_pending (p : PortId) (v : Port) : (s.setPort p v).pending = s.pending := rfl
@[simp] theorem State.setPort_now (p : PortId) (v : Port) : (s.setPort p v).now = s.now := rfl
@[simp] theorem State.setPort_ports (p : PortId) (v : Port) : (s.setPort p v).ports = s.ports.set p v := rfl
@[simp] theorem State.setPort_options (p : PortId) (v : Port) : (s.setPort p v).options = s.options := rfl
@[simp] theorem State.setPort_views (p : PortId) (v : Port) : (s.setPort p v).views = s.views := rfl
@[simp] theorem State.setPort_streams (p : PortId) (v : Port) : (s.setPort p v).streams = s.streams := rfl
@[simp] theorem State.setPort_deferred (p : PortId) (v : Port) : (s.setPort p v).deferred = s.deferred := rfl
@[simp] theorem State.setPort_events (p : PortId) (v : Port) : (s.setPort p v).events = s.events := rfl
@[simp] theorem State.setPort_errors (p : PortId) (v : Port) : (s.setPort p v).errors = s.errors := rfl
@[simp] theorem State.setPort_linkFault (p : PortId) (v : Port) : (s.setPort p v).linkFault = s.linkFault := rfl
@[simp] theorem State.setPort_mounts (p : PortId) (v : Port) : (s.setPort p v).mounts = s.mounts := rfl
@[simp] theorem State.setPort_discard (p : PortId) (v : Port) : (s.setPort p v).discard = s.discard := rfl
@[simp] theorem State.setPort_unitMap (p : PortId) (v : Port) : (s.setPort p v).unitMap = s.unitMap := rfl
@[simp] theorem State.setPort_works (p : PortId) (v : Port) : (s.setPort p v).works = s.works := rfl
@[simp] theorem State.setPort_contexts (p : PortId) (v : Port) : (s.setPort p v).contexts = s.contexts := rfl
@[simp] theorem State.setPort_ctxReq (p : PortId) (v : Port) : (s.setPort p v).ctxReq = s.ctxReq := rfl
@[simp] theorem State.setPort_ctxLast (p : PortId) (v : Port) : (s.setPort p v).ctxLast = s.ctxLast := rfl
@[simp] theorem State.setPort_scheds (p : PortId) (v : Port) : (s.setPort p v).scheds = s.scheds := rfl
@[simp] theorem State.setPort_attempts (p : PortId) (v : Port) : (s.setPort p v).attempts = s.attempts := rfl
@[simp] theorem State.setPort_drives (p : PortId) (v : Port) : (s.setPort p v).drives = s.drives := rfl
@[simp] theorem State.setPort_link (p : PortId) (v : Port) : (s.setPort p v).link = s.link := rfl
@[simp] theorem State.setPort_rests (p : PortId) (v : Port) : (s.setPort p v).rests = s.rests := rfl
@[simp] theorem State.setPort_power (p : PortId) (v : Port) : (s.setPort p v).power = s.power := rfl
@[simp] theorem State.setPort_stats (p : PortId) (v : Port) : (s.setPort p v).stats = s.stats := rfl
@[simp] theorem State.setPort_served (p : PortId) (v : Port) : (s.setPort p v).served = s.served := rfl
@[simp] theorem State.setPort_table (p : PortId) (v : Port) : (s.setPort p v).table = s.table := rfl
@[simp] theorem State.setPort_loader (p : PortId) (v : Port) : (s.setPort p v).loader = s.loader := rfl
@[simp] theorem State.setPort_settings (p : PortId) (v : Port) : (s.setPort p v).settings = s.settings := rfl
@[simp] theorem State.setPort_store (p : PortId) (v : Port) : (s.setPort p v).store = s.store := rfl
@[simp] theorem State.setPort_saved (p : PortId) (v : Port) : (s.setPort p v).saved = s.saved := rfl

@[simp] theorem State.setOptions_pending (p : PortId) (v : PortOptions) :
    (s.setOptions p v).pending = s.pending := rfl
@[simp] theorem State.setOptions_now (p : PortId) (v : PortOptions) : (s.setOptions p v).now = s.now := rfl
@[simp] theorem State.setOptions_ports (p : PortId) (v : PortOptions) : (s.setOptions p v).ports = s.ports := rfl
@[simp] theorem State.setOptions_options (p : PortId) (v : PortOptions) :
    (s.setOptions p v).options = s.options.set p v := rfl
@[simp] theorem State.setOptions_views (p : PortId) (v : PortOptions) : (s.setOptions p v).views = s.views := rfl
@[simp] theorem State.setOptions_streams (p : PortId) (v : PortOptions) :
    (s.setOptions p v).streams = s.streams := rfl
@[simp] theorem State.setOptions_deferred (p : PortId) (v : PortOptions) :
    (s.setOptions p v).deferred = s.deferred := rfl
@[simp] theorem State.setOptions_events (p : PortId) (v : PortOptions) : (s.setOptions p v).events = s.events := rfl
@[simp] theorem State.setOptions_errors (p : PortId) (v : PortOptions) : (s.setOptions p v).errors = s.errors := rfl
@[simp] theorem State.setOptions_linkFault (p : PortId) (v : PortOptions) :
    (s.setOptions p v).linkFault = s.linkFault := rfl
@[simp] theorem State.setOptions_mounts (p : PortId) (v : PortOptions) : (s.setOptions p v).mounts = s.mounts := rfl
@[simp] theorem State.setOptions_discard (p : PortId) (v : PortOptions) :
    (s.setOptions p v).discard = s.discard := rfl
@[simp] theorem State.setOptions_unitMap (p : PortId) (v : PortOptions) :
    (s.setOptions p v).unitMap = s.unitMap := rfl
@[simp] theorem State.setOptions_works (p : PortId) (v : PortOptions) : (s.setOptions p v).works = s.works := rfl
@[simp] theorem State.setOptions_contexts (p : PortId) (v : PortOptions) :
    (s.setOptions p v).contexts = s.contexts := rfl
@[simp] theorem State.setOptions_ctxReq (p : PortId) (v : PortOptions) : (s.setOptions p v).ctxReq = s.ctxReq := rfl
@[simp] theorem State.setOptions_ctxLast (p : PortId) (v : PortOptions) :
    (s.setOptions p v).ctxLast = s.ctxLast := rfl
@[simp] theorem State.setOptions_scheds (p : PortId) (v : PortOptions) : (s.setOptions p v).scheds = s.scheds := rfl
@[simp] theorem State.setOptions_attempts (p : PortId) (v : PortOptions) :
    (s.setOptions p v).attempts = s.attempts := rfl
@[simp] theorem State.setOptions_drives (p : PortId) (v : PortOptions) : (s.setOptions p v).drives = s.drives := rfl
@[simp] theorem State.setOptions_link (p : PortId) (v : PortOptions) : (s.setOptions p v).link = s.link := rfl
@[simp] theorem State.setOptions_rests (p : PortId) (v : PortOptions) : (s.setOptions p v).rests = s.rests := rfl
@[simp] theorem State.setOptions_power (p : PortId) (v : PortOptions) : (s.setOptions p v).power = s.power := rfl
@[simp] theorem State.setOptions_stats (p : PortId) (v : PortOptions) : (s.setOptions p v).stats = s.stats := rfl
@[simp] theorem State.setOptions_served (p : PortId) (v : PortOptions) : (s.setOptions p v).served = s.served := rfl
@[simp] theorem State.setOptions_table (p : PortId) (v : PortOptions) : (s.setOptions p v).table = s.table := rfl
@[simp] theorem State.setOptions_loader (p : PortId) (v : PortOptions) : (s.setOptions p v).loader = s.loader := rfl
@[simp] theorem State.setOptions_settings (p : PortId) (v : PortOptions) :
    (s.setOptions p v).settings = s.settings := rfl
@[simp] theorem State.setOptions_store (p : PortId) (v : PortOptions) : (s.setOptions p v).store = s.store := rfl
@[simp] theorem State.setOptions_saved (p : PortId) (v : PortOptions) : (s.setOptions p v).saved = s.saved := rfl

@[simp] theorem State.setView_pending (p : PortId) (w : ViewId) (v : Option View) :
    (s.setView p w v).pending = s.pending := rfl
@[simp] theorem State.setView_now (p : PortId) (w : ViewId) (v : Option View) : (s.setView p w v).now = s.now := rfl
@[simp] theorem State.setView_ports (p : PortId) (w : ViewId) (v : Option View) :
    (s.setView p w v).ports = s.ports := rfl
@[simp] theorem State.setView_options (p : PortId) (w : ViewId) (v : Option View) :
    (s.setView p w v).options = s.options := rfl
@[simp] theorem State.setView_views (p : PortId) (w : ViewId) (v : Option View) :
    (s.setView p w v).views = s.views.set p ((s.views.get p).set w v) := rfl
@[simp] theorem State.setView_streams (p : PortId) (w : ViewId) (v : Option View) :
    (s.setView p w v).streams = s.streams := rfl
@[simp] theorem State.setView_deferred (p : PortId) (w : ViewId) (v : Option View) :
    (s.setView p w v).deferred = s.deferred := rfl
@[simp] theorem State.setView_events (p : PortId) (w : ViewId) (v : Option View) :
    (s.setView p w v).events = s.events := rfl
@[simp] theorem State.setView_errors (p : PortId) (w : ViewId) (v : Option View) :
    (s.setView p w v).errors = s.errors := rfl
@[simp] theorem State.setView_linkFault (p : PortId) (w : ViewId) (v : Option View) :
    (s.setView p w v).linkFault = s.linkFault := rfl
@[simp] theorem State.setView_mounts (p : PortId) (w : ViewId) (v : Option View) :
    (s.setView p w v).mounts = s.mounts := rfl
@[simp] theorem State.setView_discard (p : PortId) (w : ViewId) (v : Option View) :
    (s.setView p w v).discard = s.discard := rfl
@[simp] theorem State.setView_unitMap (p : PortId) (w : ViewId) (v : Option View) :
    (s.setView p w v).unitMap = s.unitMap := rfl
@[simp] theorem State.setView_works (p : PortId) (w : ViewId) (v : Option View) :
    (s.setView p w v).works = s.works := rfl
@[simp] theorem State.setView_contexts (p : PortId) (w : ViewId) (v : Option View) :
    (s.setView p w v).contexts = s.contexts := rfl
@[simp] theorem State.setView_ctxReq (p : PortId) (w : ViewId) (v : Option View) :
    (s.setView p w v).ctxReq = s.ctxReq := rfl
@[simp] theorem State.setView_ctxLast (p : PortId) (w : ViewId) (v : Option View) :
    (s.setView p w v).ctxLast = s.ctxLast := rfl
@[simp] theorem State.setView_scheds (p : PortId) (w : ViewId) (v : Option View) :
    (s.setView p w v).scheds = s.scheds := rfl
@[simp] theorem State.setView_attempts (p : PortId) (w : ViewId) (v : Option View) :
    (s.setView p w v).attempts = s.attempts := rfl
@[simp] theorem State.setView_drives (p : PortId) (w : ViewId) (v : Option View) :
    (s.setView p w v).drives = s.drives := rfl
@[simp] theorem State.setView_link (p : PortId) (w : ViewId) (v : Option View) :
    (s.setView p w v).link = s.link := rfl
@[simp] theorem State.setView_rests (p : PortId) (w : ViewId) (v : Option View) :
    (s.setView p w v).rests = s.rests := rfl
@[simp] theorem State.setView_power (p : PortId) (w : ViewId) (v : Option View) :
    (s.setView p w v).power = s.power := rfl
@[simp] theorem State.setView_stats (p : PortId) (w : ViewId) (v : Option View) :
    (s.setView p w v).stats = s.stats := rfl
@[simp] theorem State.setView_served (p : PortId) (w : ViewId) (v : Option View) :
    (s.setView p w v).served = s.served := rfl
@[simp] theorem State.setView_table (p : PortId) (w : ViewId) (v : Option View) :
    (s.setView p w v).table = s.table := rfl
@[simp] theorem State.setView_loader (p : PortId) (w : ViewId) (v : Option View) :
    (s.setView p w v).loader = s.loader := rfl
@[simp] theorem State.setView_settings (p : PortId) (w : ViewId) (v : Option View) :
    (s.setView p w v).settings = s.settings := rfl
@[simp] theorem State.setView_store (p : PortId) (w : ViewId) (v : Option View) :
    (s.setView p w v).store = s.store := rfl
@[simp] theorem State.setView_saved (p : PortId) (w : ViewId) (v : Option View) :
    (s.setView p w v).saved = s.saved := rfl

@[simp] theorem State.setStream_pending (p : PortId) (w : ViewId) (v : Stream) :
    (s.setStream p w v).pending = s.pending := rfl
@[simp] theorem State.setStream_now (p : PortId) (w : ViewId) (v : Stream) : (s.setStream p w v).now = s.now := rfl
@[simp] theorem State.setStream_ports (p : PortId) (w : ViewId) (v : Stream) :
    (s.setStream p w v).ports = s.ports := rfl
@[simp] theorem State.setStream_options (p : PortId) (w : ViewId) (v : Stream) :
    (s.setStream p w v).options = s.options := rfl
@[simp] theorem State.setStream_views (p : PortId) (w : ViewId) (v : Stream) :
    (s.setStream p w v).views = s.views := rfl
@[simp] theorem State.setStream_streams (p : PortId) (w : ViewId) (v : Stream) :
    (s.setStream p w v).streams = s.streams.set p ((s.streams.get p).set w v) := rfl
@[simp] theorem State.setStream_deferred (p : PortId) (w : ViewId) (v : Stream) :
    (s.setStream p w v).deferred = s.deferred := rfl
@[simp] theorem State.setStream_events (p : PortId) (w : ViewId) (v : Stream) :
    (s.setStream p w v).events = s.events := rfl
@[simp] theorem State.setStream_errors (p : PortId) (w : ViewId) (v : Stream) :
    (s.setStream p w v).errors = s.errors := rfl
@[simp] theorem State.setStream_linkFault (p : PortId) (w : ViewId) (v : Stream) :
    (s.setStream p w v).linkFault = s.linkFault := rfl
@[simp] theorem State.setStream_mounts (p : PortId) (w : ViewId) (v : Stream) :
    (s.setStream p w v).mounts = s.mounts := rfl
@[simp] theorem State.setStream_discard (p : PortId) (w : ViewId) (v : Stream) :
    (s.setStream p w v).discard = s.discard := rfl
@[simp] theorem State.setStream_unitMap (p : PortId) (w : ViewId) (v : Stream) :
    (s.setStream p w v).unitMap = s.unitMap := rfl
@[simp] theorem State.setStream_works (p : PortId) (w : ViewId) (v : Stream) :
    (s.setStream p w v).works = s.works := rfl
@[simp] theorem State.setStream_contexts (p : PortId) (w : ViewId) (v : Stream) :
    (s.setStream p w v).contexts = s.contexts := rfl
@[simp] theorem State.setStream_ctxReq (p : PortId) (w : ViewId) (v : Stream) :
    (s.setStream p w v).ctxReq = s.ctxReq := rfl
@[simp] theorem State.setStream_ctxLast (p : PortId) (w : ViewId) (v : Stream) :
    (s.setStream p w v).ctxLast = s.ctxLast := rfl
@[simp] theorem State.setStream_scheds (p : PortId) (w : ViewId) (v : Stream) :
    (s.setStream p w v).scheds = s.scheds := rfl
@[simp] theorem State.setStream_attempts (p : PortId) (w : ViewId) (v : Stream) :
    (s.setStream p w v).attempts = s.attempts := rfl
@[simp] theorem State.setStream_drives (p : PortId) (w : ViewId) (v : Stream) :
    (s.setStream p w v).drives = s.drives := rfl
@[simp] theorem State.setStream_link (p : PortId) (w : ViewId) (v : Stream) : (s.setStream p w v).link = s.link := rfl
@[simp] theorem State.setStream_rests (p : PortId) (w : ViewId) (v : Stream) :
    (s.setStream p w v).rests = s.rests := rfl
@[simp] theorem State.setStream_power (p : PortId) (w : ViewId) (v : Stream) :
    (s.setStream p w v).power = s.power := rfl
@[simp] theorem State.setStream_stats (p : PortId) (w : ViewId) (v : Stream) :
    (s.setStream p w v).stats = s.stats := rfl
@[simp] theorem State.setStream_served (p : PortId) (w : ViewId) (v : Stream) :
    (s.setStream p w v).served = s.served := rfl
@[simp] theorem State.setStream_table (p : PortId) (w : ViewId) (v : Stream) :
    (s.setStream p w v).table = s.table := rfl
@[simp] theorem State.setStream_loader (p : PortId) (w : ViewId) (v : Stream) :
    (s.setStream p w v).loader = s.loader := rfl
@[simp] theorem State.setStream_settings (p : PortId) (w : ViewId) (v : Stream) :
    (s.setStream p w v).settings = s.settings := rfl
@[simp] theorem State.setStream_store (p : PortId) (w : ViewId) (v : Stream) :
    (s.setStream p w v).store = s.store := rfl
@[simp] theorem State.setStream_saved (p : PortId) (w : ViewId) (v : Stream) :
    (s.setStream p w v).saved = s.saved := rfl

@[simp] theorem State.setDeferred_pending (p : PortId) (v : List Deferred) :
    (s.setDeferred p v).pending = s.pending := rfl
@[simp] theorem State.setDeferred_now (p : PortId) (v : List Deferred) : (s.setDeferred p v).now = s.now := rfl
@[simp] theorem State.setDeferred_ports (p : PortId) (v : List Deferred) : (s.setDeferred p v).ports = s.ports := rfl
@[simp] theorem State.setDeferred_options (p : PortId) (v : List Deferred) :
    (s.setDeferred p v).options = s.options := rfl
@[simp] theorem State.setDeferred_views (p : PortId) (v : List Deferred) : (s.setDeferred p v).views = s.views := rfl
@[simp] theorem State.setDeferred_streams (p : PortId) (v : List Deferred) :
    (s.setDeferred p v).streams = s.streams := rfl
@[simp] theorem State.setDeferred_deferred (p : PortId) (v : List Deferred) :
    (s.setDeferred p v).deferred = s.deferred.set p v := rfl
@[simp] theorem State.setDeferred_events (p : PortId) (v : List Deferred) :
    (s.setDeferred p v).events = s.events := rfl
@[simp] theorem State.setDeferred_errors (p : PortId) (v : List Deferred) :
    (s.setDeferred p v).errors = s.errors := rfl
@[simp] theorem State.setDeferred_linkFault (p : PortId) (v : List Deferred) :
    (s.setDeferred p v).linkFault = s.linkFault := rfl
@[simp] theorem State.setDeferred_mounts (p : PortId) (v : List Deferred) :
    (s.setDeferred p v).mounts = s.mounts := rfl
@[simp] theorem State.setDeferred_discard (p : PortId) (v : List Deferred) :
    (s.setDeferred p v).discard = s.discard := rfl
@[simp] theorem State.setDeferred_unitMap (p : PortId) (v : List Deferred) :
    (s.setDeferred p v).unitMap = s.unitMap := rfl
@[simp] theorem State.setDeferred_works (p : PortId) (v : List Deferred) : (s.setDeferred p v).works = s.works := rfl
@[simp] theorem State.setDeferred_contexts (p : PortId) (v : List Deferred) :
    (s.setDeferred p v).contexts = s.contexts := rfl
@[simp] theorem State.setDeferred_ctxReq (p : PortId) (v : List Deferred) :
    (s.setDeferred p v).ctxReq = s.ctxReq := rfl
@[simp] theorem State.setDeferred_ctxLast (p : PortId) (v : List Deferred) :
    (s.setDeferred p v).ctxLast = s.ctxLast := rfl
@[simp] theorem State.setDeferred_scheds (p : PortId) (v : List Deferred) :
    (s.setDeferred p v).scheds = s.scheds := rfl
@[simp] theorem State.setDeferred_attempts (p : PortId) (v : List Deferred) :
    (s.setDeferred p v).attempts = s.attempts := rfl
@[simp] theorem State.setDeferred_drives (p : PortId) (v : List Deferred) :
    (s.setDeferred p v).drives = s.drives := rfl
@[simp] theorem State.setDeferred_link (p : PortId) (v : List Deferred) : (s.setDeferred p v).link = s.link := rfl
@[simp] theorem State.setDeferred_rests (p : PortId) (v : List Deferred) : (s.setDeferred p v).rests = s.rests := rfl
@[simp] theorem State.setDeferred_power (p : PortId) (v : List Deferred) : (s.setDeferred p v).power = s.power := rfl
@[simp] theorem State.setDeferred_stats (p : PortId) (v : List Deferred) : (s.setDeferred p v).stats = s.stats := rfl
@[simp] theorem State.setDeferred_served (p : PortId) (v : List Deferred) :
    (s.setDeferred p v).served = s.served := rfl
@[simp] theorem State.setDeferred_table (p : PortId) (v : List Deferred) : (s.setDeferred p v).table = s.table := rfl
@[simp] theorem State.setDeferred_loader (p : PortId) (v : List Deferred) :
    (s.setDeferred p v).loader = s.loader := rfl
@[simp] theorem State.setDeferred_settings (p : PortId) (v : List Deferred) :
    (s.setDeferred p v).settings = s.settings := rfl
@[simp] theorem State.setDeferred_store (p : PortId) (v : List Deferred) : (s.setDeferred p v).store = s.store := rfl
@[simp] theorem State.setDeferred_saved (p : PortId) (v : List Deferred) : (s.setDeferred p v).saved = s.saved := rfl

@[simp] theorem State.setError_pending (p : PortId) (v : Option PortCapture) :
    (s.setError p v).pending = s.pending := rfl
@[simp] theorem State.setError_now (p : PortId) (v : Option PortCapture) : (s.setError p v).now = s.now := rfl
@[simp] theorem State.setError_ports (p : PortId) (v : Option PortCapture) : (s.setError p v).ports = s.ports := rfl
@[simp] theorem State.setError_options (p : PortId) (v : Option PortCapture) :
    (s.setError p v).options = s.options := rfl
@[simp] theorem State.setError_views (p : PortId) (v : Option PortCapture) : (s.setError p v).views = s.views := rfl
@[simp] theorem State.setError_streams (p : PortId) (v : Option PortCapture) :
    (s.setError p v).streams = s.streams := rfl
@[simp] theorem State.setError_deferred (p : PortId) (v : Option PortCapture) :
    (s.setError p v).deferred = s.deferred := rfl
@[simp] theorem State.setError_events (p : PortId) (v : Option PortCapture) :
    (s.setError p v).events = s.events := rfl
@[simp] theorem State.setError_errors (p : PortId) (v : Option PortCapture) :
    (s.setError p v).errors = s.errors.set p v := rfl
@[simp] theorem State.setError_linkFault (p : PortId) (v : Option PortCapture) :
    (s.setError p v).linkFault = s.linkFault := rfl
@[simp] theorem State.setError_mounts (p : PortId) (v : Option PortCapture) :
    (s.setError p v).mounts = s.mounts := rfl
@[simp] theorem State.setError_discard (p : PortId) (v : Option PortCapture) :
    (s.setError p v).discard = s.discard := rfl
@[simp] theorem State.setError_unitMap (p : PortId) (v : Option PortCapture) :
    (s.setError p v).unitMap = s.unitMap := rfl
@[simp] theorem State.setError_works (p : PortId) (v : Option PortCapture) : (s.setError p v).works = s.works := rfl
@[simp] theorem State.setError_contexts (p : PortId) (v : Option PortCapture) :
    (s.setError p v).contexts = s.contexts := rfl
@[simp] theorem State.setError_ctxReq (p : PortId) (v : Option PortCapture) :
    (s.setError p v).ctxReq = s.ctxReq := rfl
@[simp] theorem State.setError_ctxLast (p : PortId) (v : Option PortCapture) :
    (s.setError p v).ctxLast = s.ctxLast := rfl
@[simp] theorem State.setError_scheds (p : PortId) (v : Option PortCapture) :
    (s.setError p v).scheds = s.scheds := rfl
@[simp] theorem State.setError_attempts (p : PortId) (v : Option PortCapture) :
    (s.setError p v).attempts = s.attempts := rfl
@[simp] theorem State.setError_drives (p : PortId) (v : Option PortCapture) :
    (s.setError p v).drives = s.drives := rfl
@[simp] theorem State.setError_link (p : PortId) (v : Option PortCapture) : (s.setError p v).link = s.link := rfl
@[simp] theorem State.setError_rests (p : PortId) (v : Option PortCapture) : (s.setError p v).rests = s.rests := rfl
@[simp] theorem State.setError_power (p : PortId) (v : Option PortCapture) : (s.setError p v).power = s.power := rfl
@[simp] theorem State.setError_stats (p : PortId) (v : Option PortCapture) : (s.setError p v).stats = s.stats := rfl
@[simp] theorem State.setError_served (p : PortId) (v : Option PortCapture) :
    (s.setError p v).served = s.served := rfl
@[simp] theorem State.setError_table (p : PortId) (v : Option PortCapture) : (s.setError p v).table = s.table := rfl
@[simp] theorem State.setError_loader (p : PortId) (v : Option PortCapture) :
    (s.setError p v).loader = s.loader := rfl
@[simp] theorem State.setError_settings (p : PortId) (v : Option PortCapture) :
    (s.setError p v).settings = s.settings := rfl
@[simp] theorem State.setError_store (p : PortId) (v : Option PortCapture) : (s.setError p v).store = s.store := rfl
@[simp] theorem State.setError_saved (p : PortId) (v : Option PortCapture) : (s.setError p v).saved = s.saved := rfl

@[simp] theorem State.setMount_pending (d : DriveId) (v : Option MountRec) :
    (s.setMount d v).pending = s.pending := rfl
@[simp] theorem State.setMount_now (d : DriveId) (v : Option MountRec) : (s.setMount d v).now = s.now := rfl
@[simp] theorem State.setMount_ports (d : DriveId) (v : Option MountRec) : (s.setMount d v).ports = s.ports := rfl
@[simp] theorem State.setMount_options (d : DriveId) (v : Option MountRec) :
    (s.setMount d v).options = s.options := rfl
@[simp] theorem State.setMount_views (d : DriveId) (v : Option MountRec) : (s.setMount d v).views = s.views := rfl
@[simp] theorem State.setMount_streams (d : DriveId) (v : Option MountRec) :
    (s.setMount d v).streams = s.streams := rfl
@[simp] theorem State.setMount_deferred (d : DriveId) (v : Option MountRec) :
    (s.setMount d v).deferred = s.deferred := rfl
@[simp] theorem State.setMount_events (d : DriveId) (v : Option MountRec) : (s.setMount d v).events = s.events := rfl
@[simp] theorem State.setMount_errors (d : DriveId) (v : Option MountRec) : (s.setMount d v).errors = s.errors := rfl
@[simp] theorem State.setMount_linkFault (d : DriveId) (v : Option MountRec) :
    (s.setMount d v).linkFault = s.linkFault := rfl
@[simp] theorem State.setMount_mounts (d : DriveId) (v : Option MountRec) :
    (s.setMount d v).mounts = s.mounts.set d v := rfl
@[simp] theorem State.setMount_discard (d : DriveId) (v : Option MountRec) :
    (s.setMount d v).discard = s.discard := rfl
@[simp] theorem State.setMount_unitMap (d : DriveId) (v : Option MountRec) :
    (s.setMount d v).unitMap = s.unitMap := rfl
@[simp] theorem State.setMount_works (d : DriveId) (v : Option MountRec) : (s.setMount d v).works = s.works := rfl
@[simp] theorem State.setMount_contexts (d : DriveId) (v : Option MountRec) :
    (s.setMount d v).contexts = s.contexts := rfl
@[simp] theorem State.setMount_ctxReq (d : DriveId) (v : Option MountRec) : (s.setMount d v).ctxReq = s.ctxReq := rfl
@[simp] theorem State.setMount_ctxLast (d : DriveId) (v : Option MountRec) :
    (s.setMount d v).ctxLast = s.ctxLast := rfl
@[simp] theorem State.setMount_scheds (d : DriveId) (v : Option MountRec) : (s.setMount d v).scheds = s.scheds := rfl
@[simp] theorem State.setMount_attempts (d : DriveId) (v : Option MountRec) :
    (s.setMount d v).attempts = s.attempts := rfl
@[simp] theorem State.setMount_drives (d : DriveId) (v : Option MountRec) : (s.setMount d v).drives = s.drives := rfl
@[simp] theorem State.setMount_link (d : DriveId) (v : Option MountRec) : (s.setMount d v).link = s.link := rfl
@[simp] theorem State.setMount_rests (d : DriveId) (v : Option MountRec) : (s.setMount d v).rests = s.rests := rfl
@[simp] theorem State.setMount_power (d : DriveId) (v : Option MountRec) : (s.setMount d v).power = s.power := rfl
@[simp] theorem State.setMount_stats (d : DriveId) (v : Option MountRec) : (s.setMount d v).stats = s.stats := rfl
@[simp] theorem State.setMount_served (d : DriveId) (v : Option MountRec) : (s.setMount d v).served = s.served := rfl
@[simp] theorem State.setMount_table (d : DriveId) (v : Option MountRec) : (s.setMount d v).table = s.table := rfl
@[simp] theorem State.setMount_loader (d : DriveId) (v : Option MountRec) : (s.setMount d v).loader = s.loader := rfl
@[simp] theorem State.setMount_settings (d : DriveId) (v : Option MountRec) :
    (s.setMount d v).settings = s.settings := rfl
@[simp] theorem State.setMount_store (d : DriveId) (v : Option MountRec) : (s.setMount d v).store = s.store := rfl
@[simp] theorem State.setMount_saved (d : DriveId) (v : Option MountRec) : (s.setMount d v).saved = s.saved := rfl

@[simp] theorem State.setDiscard_pending (d : DriveId) (v : Bool) : (s.setDiscard d v).pending = s.pending := rfl
@[simp] theorem State.setDiscard_now (d : DriveId) (v : Bool) : (s.setDiscard d v).now = s.now := rfl
@[simp] theorem State.setDiscard_ports (d : DriveId) (v : Bool) : (s.setDiscard d v).ports = s.ports := rfl
@[simp] theorem State.setDiscard_options (d : DriveId) (v : Bool) : (s.setDiscard d v).options = s.options := rfl
@[simp] theorem State.setDiscard_views (d : DriveId) (v : Bool) : (s.setDiscard d v).views = s.views := rfl
@[simp] theorem State.setDiscard_streams (d : DriveId) (v : Bool) : (s.setDiscard d v).streams = s.streams := rfl
@[simp] theorem State.setDiscard_deferred (d : DriveId) (v : Bool) : (s.setDiscard d v).deferred = s.deferred := rfl
@[simp] theorem State.setDiscard_events (d : DriveId) (v : Bool) : (s.setDiscard d v).events = s.events := rfl
@[simp] theorem State.setDiscard_errors (d : DriveId) (v : Bool) : (s.setDiscard d v).errors = s.errors := rfl
@[simp] theorem State.setDiscard_linkFault (d : DriveId) (v : Bool) :
    (s.setDiscard d v).linkFault = s.linkFault := rfl
@[simp] theorem State.setDiscard_mounts (d : DriveId) (v : Bool) : (s.setDiscard d v).mounts = s.mounts := rfl
@[simp] theorem State.setDiscard_discard (d : DriveId) (v : Bool) :
    (s.setDiscard d v).discard = s.discard.set d v := rfl
@[simp] theorem State.setDiscard_unitMap (d : DriveId) (v : Bool) : (s.setDiscard d v).unitMap = s.unitMap := rfl
@[simp] theorem State.setDiscard_works (d : DriveId) (v : Bool) : (s.setDiscard d v).works = s.works := rfl
@[simp] theorem State.setDiscard_contexts (d : DriveId) (v : Bool) : (s.setDiscard d v).contexts = s.contexts := rfl
@[simp] theorem State.setDiscard_ctxReq (d : DriveId) (v : Bool) : (s.setDiscard d v).ctxReq = s.ctxReq := rfl
@[simp] theorem State.setDiscard_ctxLast (d : DriveId) (v : Bool) : (s.setDiscard d v).ctxLast = s.ctxLast := rfl
@[simp] theorem State.setDiscard_scheds (d : DriveId) (v : Bool) : (s.setDiscard d v).scheds = s.scheds := rfl
@[simp] theorem State.setDiscard_attempts (d : DriveId) (v : Bool) : (s.setDiscard d v).attempts = s.attempts := rfl
@[simp] theorem State.setDiscard_drives (d : DriveId) (v : Bool) : (s.setDiscard d v).drives = s.drives := rfl
@[simp] theorem State.setDiscard_link (d : DriveId) (v : Bool) : (s.setDiscard d v).link = s.link := rfl
@[simp] theorem State.setDiscard_rests (d : DriveId) (v : Bool) : (s.setDiscard d v).rests = s.rests := rfl
@[simp] theorem State.setDiscard_power (d : DriveId) (v : Bool) : (s.setDiscard d v).power = s.power := rfl
@[simp] theorem State.setDiscard_stats (d : DriveId) (v : Bool) : (s.setDiscard d v).stats = s.stats := rfl
@[simp] theorem State.setDiscard_served (d : DriveId) (v : Bool) : (s.setDiscard d v).served = s.served := rfl
@[simp] theorem State.setDiscard_table (d : DriveId) (v : Bool) : (s.setDiscard d v).table = s.table := rfl
@[simp] theorem State.setDiscard_loader (d : DriveId) (v : Bool) : (s.setDiscard d v).loader = s.loader := rfl
@[simp] theorem State.setDiscard_settings (d : DriveId) (v : Bool) : (s.setDiscard d v).settings = s.settings := rfl
@[simp] theorem State.setDiscard_store (d : DriveId) (v : Bool) : (s.setDiscard d v).store = s.store := rfl
@[simp] theorem State.setDiscard_saved (d : DriveId) (v : Bool) : (s.setDiscard d v).saved = s.saved := rfl

@[simp] theorem State.setWork_pending (d : DriveId) (v : List Entry) : (s.setWork d v).pending = s.pending := rfl
@[simp] theorem State.setWork_now (d : DriveId) (v : List Entry) : (s.setWork d v).now = s.now := rfl
@[simp] theorem State.setWork_ports (d : DriveId) (v : List Entry) : (s.setWork d v).ports = s.ports := rfl
@[simp] theorem State.setWork_options (d : DriveId) (v : List Entry) : (s.setWork d v).options = s.options := rfl
@[simp] theorem State.setWork_views (d : DriveId) (v : List Entry) : (s.setWork d v).views = s.views := rfl
@[simp] theorem State.setWork_streams (d : DriveId) (v : List Entry) : (s.setWork d v).streams = s.streams := rfl
@[simp] theorem State.setWork_deferred (d : DriveId) (v : List Entry) : (s.setWork d v).deferred = s.deferred := rfl
@[simp] theorem State.setWork_events (d : DriveId) (v : List Entry) : (s.setWork d v).events = s.events := rfl
@[simp] theorem State.setWork_errors (d : DriveId) (v : List Entry) : (s.setWork d v).errors = s.errors := rfl
@[simp] theorem State.setWork_linkFault (d : DriveId) (v : List Entry) :
    (s.setWork d v).linkFault = s.linkFault := rfl
@[simp] theorem State.setWork_mounts (d : DriveId) (v : List Entry) : (s.setWork d v).mounts = s.mounts := rfl
@[simp] theorem State.setWork_discard (d : DriveId) (v : List Entry) : (s.setWork d v).discard = s.discard := rfl
@[simp] theorem State.setWork_unitMap (d : DriveId) (v : List Entry) : (s.setWork d v).unitMap = s.unitMap := rfl
@[simp] theorem State.setWork_works (d : DriveId) (v : List Entry) : (s.setWork d v).works = s.works.set d v := rfl
@[simp] theorem State.setWork_contexts (d : DriveId) (v : List Entry) : (s.setWork d v).contexts = s.contexts := rfl
@[simp] theorem State.setWork_ctxReq (d : DriveId) (v : List Entry) : (s.setWork d v).ctxReq = s.ctxReq := rfl
@[simp] theorem State.setWork_ctxLast (d : DriveId) (v : List Entry) : (s.setWork d v).ctxLast = s.ctxLast := rfl
@[simp] theorem State.setWork_scheds (d : DriveId) (v : List Entry) : (s.setWork d v).scheds = s.scheds := rfl
@[simp] theorem State.setWork_attempts (d : DriveId) (v : List Entry) : (s.setWork d v).attempts = s.attempts := rfl
@[simp] theorem State.setWork_drives (d : DriveId) (v : List Entry) : (s.setWork d v).drives = s.drives := rfl
@[simp] theorem State.setWork_link (d : DriveId) (v : List Entry) : (s.setWork d v).link = s.link := rfl
@[simp] theorem State.setWork_rests (d : DriveId) (v : List Entry) : (s.setWork d v).rests = s.rests := rfl
@[simp] theorem State.setWork_power (d : DriveId) (v : List Entry) : (s.setWork d v).power = s.power := rfl
@[simp] theorem State.setWork_stats (d : DriveId) (v : List Entry) : (s.setWork d v).stats = s.stats := rfl
@[simp] theorem State.setWork_served (d : DriveId) (v : List Entry) : (s.setWork d v).served = s.served := rfl
@[simp] theorem State.setWork_table (d : DriveId) (v : List Entry) : (s.setWork d v).table = s.table := rfl
@[simp] theorem State.setWork_loader (d : DriveId) (v : List Entry) : (s.setWork d v).loader = s.loader := rfl
@[simp] theorem State.setWork_settings (d : DriveId) (v : List Entry) : (s.setWork d v).settings = s.settings := rfl
@[simp] theorem State.setWork_store (d : DriveId) (v : List Entry) : (s.setWork d v).store = s.store := rfl
@[simp] theorem State.setWork_saved (d : DriveId) (v : List Entry) : (s.setWork d v).saved = s.saved := rfl

@[simp] theorem State.setCtx_pending (i : Nat) (v : Option OpenCtx) : (s.setCtx i v).pending = s.pending := rfl
@[simp] theorem State.setCtx_now (i : Nat) (v : Option OpenCtx) : (s.setCtx i v).now = s.now := rfl
@[simp] theorem State.setCtx_ports (i : Nat) (v : Option OpenCtx) : (s.setCtx i v).ports = s.ports := rfl
@[simp] theorem State.setCtx_options (i : Nat) (v : Option OpenCtx) : (s.setCtx i v).options = s.options := rfl
@[simp] theorem State.setCtx_views (i : Nat) (v : Option OpenCtx) : (s.setCtx i v).views = s.views := rfl
@[simp] theorem State.setCtx_streams (i : Nat) (v : Option OpenCtx) : (s.setCtx i v).streams = s.streams := rfl
@[simp] theorem State.setCtx_deferred (i : Nat) (v : Option OpenCtx) : (s.setCtx i v).deferred = s.deferred := rfl
@[simp] theorem State.setCtx_events (i : Nat) (v : Option OpenCtx) : (s.setCtx i v).events = s.events := rfl
@[simp] theorem State.setCtx_errors (i : Nat) (v : Option OpenCtx) : (s.setCtx i v).errors = s.errors := rfl
@[simp] theorem State.setCtx_linkFault (i : Nat) (v : Option OpenCtx) : (s.setCtx i v).linkFault = s.linkFault := rfl
@[simp] theorem State.setCtx_mounts (i : Nat) (v : Option OpenCtx) : (s.setCtx i v).mounts = s.mounts := rfl
@[simp] theorem State.setCtx_discard (i : Nat) (v : Option OpenCtx) : (s.setCtx i v).discard = s.discard := rfl
@[simp] theorem State.setCtx_unitMap (i : Nat) (v : Option OpenCtx) : (s.setCtx i v).unitMap = s.unitMap := rfl
@[simp] theorem State.setCtx_works (i : Nat) (v : Option OpenCtx) : (s.setCtx i v).works = s.works := rfl
@[simp] theorem State.setCtx_contexts (i : Nat) (v : Option OpenCtx) :
    (s.setCtx i v).contexts = s.contexts.set i v := rfl
@[simp] theorem State.setCtx_ctxReq (i : Nat) (v : Option OpenCtx) : (s.setCtx i v).ctxReq = s.ctxReq := rfl
@[simp] theorem State.setCtx_ctxLast (i : Nat) (v : Option OpenCtx) : (s.setCtx i v).ctxLast = s.ctxLast := rfl
@[simp] theorem State.setCtx_scheds (i : Nat) (v : Option OpenCtx) : (s.setCtx i v).scheds = s.scheds := rfl
@[simp] theorem State.setCtx_attempts (i : Nat) (v : Option OpenCtx) : (s.setCtx i v).attempts = s.attempts := rfl
@[simp] theorem State.setCtx_drives (i : Nat) (v : Option OpenCtx) : (s.setCtx i v).drives = s.drives := rfl
@[simp] theorem State.setCtx_link (i : Nat) (v : Option OpenCtx) : (s.setCtx i v).link = s.link := rfl
@[simp] theorem State.setCtx_rests (i : Nat) (v : Option OpenCtx) : (s.setCtx i v).rests = s.rests := rfl
@[simp] theorem State.setCtx_power (i : Nat) (v : Option OpenCtx) : (s.setCtx i v).power = s.power := rfl
@[simp] theorem State.setCtx_stats (i : Nat) (v : Option OpenCtx) : (s.setCtx i v).stats = s.stats := rfl
@[simp] theorem State.setCtx_served (i : Nat) (v : Option OpenCtx) : (s.setCtx i v).served = s.served := rfl
@[simp] theorem State.setCtx_table (i : Nat) (v : Option OpenCtx) : (s.setCtx i v).table = s.table := rfl
@[simp] theorem State.setCtx_loader (i : Nat) (v : Option OpenCtx) : (s.setCtx i v).loader = s.loader := rfl
@[simp] theorem State.setCtx_settings (i : Nat) (v : Option OpenCtx) : (s.setCtx i v).settings = s.settings := rfl
@[simp] theorem State.setCtx_store (i : Nat) (v : Option OpenCtx) : (s.setCtx i v).store = s.store := rfl
@[simp] theorem State.setCtx_saved (i : Nat) (v : Option OpenCtx) : (s.setCtx i v).saved = s.saved := rfl

@[simp] theorem State.setCtxReq_pending (d : DriveId) (v : Option Nat) : (s.setCtxReq d v).pending = s.pending := rfl
@[simp] theorem State.setCtxReq_now (d : DriveId) (v : Option Nat) : (s.setCtxReq d v).now = s.now := rfl
@[simp] theorem State.setCtxReq_ports (d : DriveId) (v : Option Nat) : (s.setCtxReq d v).ports = s.ports := rfl
@[simp] theorem State.setCtxReq_options (d : DriveId) (v : Option Nat) : (s.setCtxReq d v).options = s.options := rfl
@[simp] theorem State.setCtxReq_views (d : DriveId) (v : Option Nat) : (s.setCtxReq d v).views = s.views := rfl
@[simp] theorem State.setCtxReq_streams (d : DriveId) (v : Option Nat) : (s.setCtxReq d v).streams = s.streams := rfl
@[simp] theorem State.setCtxReq_deferred (d : DriveId) (v : Option Nat) :
    (s.setCtxReq d v).deferred = s.deferred := rfl
@[simp] theorem State.setCtxReq_events (d : DriveId) (v : Option Nat) : (s.setCtxReq d v).events = s.events := rfl
@[simp] theorem State.setCtxReq_errors (d : DriveId) (v : Option Nat) : (s.setCtxReq d v).errors = s.errors := rfl
@[simp] theorem State.setCtxReq_linkFault (d : DriveId) (v : Option Nat) :
    (s.setCtxReq d v).linkFault = s.linkFault := rfl
@[simp] theorem State.setCtxReq_mounts (d : DriveId) (v : Option Nat) : (s.setCtxReq d v).mounts = s.mounts := rfl
@[simp] theorem State.setCtxReq_discard (d : DriveId) (v : Option Nat) : (s.setCtxReq d v).discard = s.discard := rfl
@[simp] theorem State.setCtxReq_unitMap (d : DriveId) (v : Option Nat) : (s.setCtxReq d v).unitMap = s.unitMap := rfl
@[simp] theorem State.setCtxReq_works (d : DriveId) (v : Option Nat) : (s.setCtxReq d v).works = s.works := rfl
@[simp] theorem State.setCtxReq_contexts (d : DriveId) (v : Option Nat) :
    (s.setCtxReq d v).contexts = s.contexts := rfl
@[simp] theorem State.setCtxReq_ctxReq (d : DriveId) (v : Option Nat) :
    (s.setCtxReq d v).ctxReq = s.ctxReq.set d v := rfl
@[simp] theorem State.setCtxReq_ctxLast (d : DriveId) (v : Option Nat) : (s.setCtxReq d v).ctxLast = s.ctxLast := rfl
@[simp] theorem State.setCtxReq_scheds (d : DriveId) (v : Option Nat) : (s.setCtxReq d v).scheds = s.scheds := rfl
@[simp] theorem State.setCtxReq_attempts (d : DriveId) (v : Option Nat) :
    (s.setCtxReq d v).attempts = s.attempts := rfl
@[simp] theorem State.setCtxReq_drives (d : DriveId) (v : Option Nat) : (s.setCtxReq d v).drives = s.drives := rfl
@[simp] theorem State.setCtxReq_link (d : DriveId) (v : Option Nat) : (s.setCtxReq d v).link = s.link := rfl
@[simp] theorem State.setCtxReq_rests (d : DriveId) (v : Option Nat) : (s.setCtxReq d v).rests = s.rests := rfl
@[simp] theorem State.setCtxReq_power (d : DriveId) (v : Option Nat) : (s.setCtxReq d v).power = s.power := rfl
@[simp] theorem State.setCtxReq_stats (d : DriveId) (v : Option Nat) : (s.setCtxReq d v).stats = s.stats := rfl
@[simp] theorem State.setCtxReq_served (d : DriveId) (v : Option Nat) : (s.setCtxReq d v).served = s.served := rfl
@[simp] theorem State.setCtxReq_table (d : DriveId) (v : Option Nat) : (s.setCtxReq d v).table = s.table := rfl
@[simp] theorem State.setCtxReq_loader (d : DriveId) (v : Option Nat) : (s.setCtxReq d v).loader = s.loader := rfl
@[simp] theorem State.setCtxReq_settings (d : DriveId) (v : Option Nat) :
    (s.setCtxReq d v).settings = s.settings := rfl
@[simp] theorem State.setCtxReq_store (d : DriveId) (v : Option Nat) : (s.setCtxReq d v).store = s.store := rfl
@[simp] theorem State.setCtxReq_saved (d : DriveId) (v : Option Nat) : (s.setCtxReq d v).saved = s.saved := rfl

@[simp] theorem State.setSched_pending (d : DriveId) (v : Sched) : (s.setSched d v).pending = s.pending := rfl
@[simp] theorem State.setSched_now (d : DriveId) (v : Sched) : (s.setSched d v).now = s.now := rfl
@[simp] theorem State.setSched_ports (d : DriveId) (v : Sched) : (s.setSched d v).ports = s.ports := rfl
@[simp] theorem State.setSched_options (d : DriveId) (v : Sched) : (s.setSched d v).options = s.options := rfl
@[simp] theorem State.setSched_views (d : DriveId) (v : Sched) : (s.setSched d v).views = s.views := rfl
@[simp] theorem State.setSched_streams (d : DriveId) (v : Sched) : (s.setSched d v).streams = s.streams := rfl
@[simp] theorem State.setSched_deferred (d : DriveId) (v : Sched) : (s.setSched d v).deferred = s.deferred := rfl
@[simp] theorem State.setSched_events (d : DriveId) (v : Sched) : (s.setSched d v).events = s.events := rfl
@[simp] theorem State.setSched_errors (d : DriveId) (v : Sched) : (s.setSched d v).errors = s.errors := rfl
@[simp] theorem State.setSched_linkFault (d : DriveId) (v : Sched) : (s.setSched d v).linkFault = s.linkFault := rfl
@[simp] theorem State.setSched_mounts (d : DriveId) (v : Sched) : (s.setSched d v).mounts = s.mounts := rfl
@[simp] theorem State.setSched_discard (d : DriveId) (v : Sched) : (s.setSched d v).discard = s.discard := rfl
@[simp] theorem State.setSched_unitMap (d : DriveId) (v : Sched) : (s.setSched d v).unitMap = s.unitMap := rfl
@[simp] theorem State.setSched_works (d : DriveId) (v : Sched) : (s.setSched d v).works = s.works := rfl
@[simp] theorem State.setSched_contexts (d : DriveId) (v : Sched) : (s.setSched d v).contexts = s.contexts := rfl
@[simp] theorem State.setSched_ctxReq (d : DriveId) (v : Sched) : (s.setSched d v).ctxReq = s.ctxReq := rfl
@[simp] theorem State.setSched_ctxLast (d : DriveId) (v : Sched) : (s.setSched d v).ctxLast = s.ctxLast := rfl
@[simp] theorem State.setSched_scheds (d : DriveId) (v : Sched) : (s.setSched d v).scheds = s.scheds.set d v := rfl
@[simp] theorem State.setSched_attempts (d : DriveId) (v : Sched) : (s.setSched d v).attempts = s.attempts := rfl
@[simp] theorem State.setSched_drives (d : DriveId) (v : Sched) : (s.setSched d v).drives = s.drives := rfl
@[simp] theorem State.setSched_link (d : DriveId) (v : Sched) : (s.setSched d v).link = s.link := rfl
@[simp] theorem State.setSched_rests (d : DriveId) (v : Sched) : (s.setSched d v).rests = s.rests := rfl
@[simp] theorem State.setSched_power (d : DriveId) (v : Sched) : (s.setSched d v).power = s.power := rfl
@[simp] theorem State.setSched_stats (d : DriveId) (v : Sched) : (s.setSched d v).stats = s.stats := rfl
@[simp] theorem State.setSched_served (d : DriveId) (v : Sched) : (s.setSched d v).served = s.served := rfl
@[simp] theorem State.setSched_table (d : DriveId) (v : Sched) : (s.setSched d v).table = s.table := rfl
@[simp] theorem State.setSched_loader (d : DriveId) (v : Sched) : (s.setSched d v).loader = s.loader := rfl
@[simp] theorem State.setSched_settings (d : DriveId) (v : Sched) : (s.setSched d v).settings = s.settings := rfl
@[simp] theorem State.setSched_store (d : DriveId) (v : Sched) : (s.setSched d v).store = s.store := rfl
@[simp] theorem State.setSched_saved (d : DriveId) (v : Sched) : (s.setSched d v).saved = s.saved := rfl

@[simp] theorem State.setAttempt_pending (d : DriveId) (v : Option Attempt) :
    (s.setAttempt d v).pending = s.pending := rfl
@[simp] theorem State.setAttempt_now (d : DriveId) (v : Option Attempt) : (s.setAttempt d v).now = s.now := rfl
@[simp] theorem State.setAttempt_ports (d : DriveId) (v : Option Attempt) : (s.setAttempt d v).ports = s.ports := rfl
@[simp] theorem State.setAttempt_options (d : DriveId) (v : Option Attempt) :
    (s.setAttempt d v).options = s.options := rfl
@[simp] theorem State.setAttempt_views (d : DriveId) (v : Option Attempt) : (s.setAttempt d v).views = s.views := rfl
@[simp] theorem State.setAttempt_streams (d : DriveId) (v : Option Attempt) :
    (s.setAttempt d v).streams = s.streams := rfl
@[simp] theorem State.setAttempt_deferred (d : DriveId) (v : Option Attempt) :
    (s.setAttempt d v).deferred = s.deferred := rfl
@[simp] theorem State.setAttempt_events (d : DriveId) (v : Option Attempt) :
    (s.setAttempt d v).events = s.events := rfl
@[simp] theorem State.setAttempt_errors (d : DriveId) (v : Option Attempt) :
    (s.setAttempt d v).errors = s.errors := rfl
@[simp] theorem State.setAttempt_linkFault (d : DriveId) (v : Option Attempt) :
    (s.setAttempt d v).linkFault = s.linkFault := rfl
@[simp] theorem State.setAttempt_mounts (d : DriveId) (v : Option Attempt) :
    (s.setAttempt d v).mounts = s.mounts := rfl
@[simp] theorem State.setAttempt_discard (d : DriveId) (v : Option Attempt) :
    (s.setAttempt d v).discard = s.discard := rfl
@[simp] theorem State.setAttempt_unitMap (d : DriveId) (v : Option Attempt) :
    (s.setAttempt d v).unitMap = s.unitMap := rfl
@[simp] theorem State.setAttempt_works (d : DriveId) (v : Option Attempt) : (s.setAttempt d v).works = s.works := rfl
@[simp] theorem State.setAttempt_contexts (d : DriveId) (v : Option Attempt) :
    (s.setAttempt d v).contexts = s.contexts := rfl
@[simp] theorem State.setAttempt_ctxReq (d : DriveId) (v : Option Attempt) :
    (s.setAttempt d v).ctxReq = s.ctxReq := rfl
@[simp] theorem State.setAttempt_ctxLast (d : DriveId) (v : Option Attempt) :
    (s.setAttempt d v).ctxLast = s.ctxLast := rfl
@[simp] theorem State.setAttempt_scheds (d : DriveId) (v : Option Attempt) :
    (s.setAttempt d v).scheds = s.scheds := rfl
@[simp] theorem State.setAttempt_attempts (d : DriveId) (v : Option Attempt) :
    (s.setAttempt d v).attempts = s.attempts.set d v := rfl
@[simp] theorem State.setAttempt_drives (d : DriveId) (v : Option Attempt) :
    (s.setAttempt d v).drives = s.drives := rfl
@[simp] theorem State.setAttempt_link (d : DriveId) (v : Option Attempt) : (s.setAttempt d v).link = s.link := rfl
@[simp] theorem State.setAttempt_rests (d : DriveId) (v : Option Attempt) : (s.setAttempt d v).rests = s.rests := rfl
@[simp] theorem State.setAttempt_power (d : DriveId) (v : Option Attempt) : (s.setAttempt d v).power = s.power := rfl
@[simp] theorem State.setAttempt_stats (d : DriveId) (v : Option Attempt) : (s.setAttempt d v).stats = s.stats := rfl
@[simp] theorem State.setAttempt_served (d : DriveId) (v : Option Attempt) :
    (s.setAttempt d v).served = s.served := rfl
@[simp] theorem State.setAttempt_table (d : DriveId) (v : Option Attempt) : (s.setAttempt d v).table = s.table := rfl
@[simp] theorem State.setAttempt_loader (d : DriveId) (v : Option Attempt) :
    (s.setAttempt d v).loader = s.loader := rfl
@[simp] theorem State.setAttempt_settings (d : DriveId) (v : Option Attempt) :
    (s.setAttempt d v).settings = s.settings := rfl
@[simp] theorem State.setAttempt_store (d : DriveId) (v : Option Attempt) : (s.setAttempt d v).store = s.store := rfl
@[simp] theorem State.setAttempt_saved (d : DriveId) (v : Option Attempt) : (s.setAttempt d v).saved = s.saved := rfl

@[simp] theorem State.setDrive_pending (d : DriveId) (v : DriveLink) : (s.setDrive d v).pending = s.pending := rfl
@[simp] theorem State.setDrive_now (d : DriveId) (v : DriveLink) : (s.setDrive d v).now = s.now := rfl
@[simp] theorem State.setDrive_ports (d : DriveId) (v : DriveLink) : (s.setDrive d v).ports = s.ports := rfl
@[simp] theorem State.setDrive_options (d : DriveId) (v : DriveLink) : (s.setDrive d v).options = s.options := rfl
@[simp] theorem State.setDrive_views (d : DriveId) (v : DriveLink) : (s.setDrive d v).views = s.views := rfl
@[simp] theorem State.setDrive_streams (d : DriveId) (v : DriveLink) : (s.setDrive d v).streams = s.streams := rfl
@[simp] theorem State.setDrive_deferred (d : DriveId) (v : DriveLink) : (s.setDrive d v).deferred = s.deferred := rfl
@[simp] theorem State.setDrive_events (d : DriveId) (v : DriveLink) : (s.setDrive d v).events = s.events := rfl
@[simp] theorem State.setDrive_errors (d : DriveId) (v : DriveLink) : (s.setDrive d v).errors = s.errors := rfl
@[simp] theorem State.setDrive_linkFault (d : DriveId) (v : DriveLink) :
    (s.setDrive d v).linkFault = s.linkFault := rfl
@[simp] theorem State.setDrive_mounts (d : DriveId) (v : DriveLink) : (s.setDrive d v).mounts = s.mounts := rfl
@[simp] theorem State.setDrive_discard (d : DriveId) (v : DriveLink) : (s.setDrive d v).discard = s.discard := rfl
@[simp] theorem State.setDrive_unitMap (d : DriveId) (v : DriveLink) : (s.setDrive d v).unitMap = s.unitMap := rfl
@[simp] theorem State.setDrive_works (d : DriveId) (v : DriveLink) : (s.setDrive d v).works = s.works := rfl
@[simp] theorem State.setDrive_contexts (d : DriveId) (v : DriveLink) : (s.setDrive d v).contexts = s.contexts := rfl
@[simp] theorem State.setDrive_ctxReq (d : DriveId) (v : DriveLink) : (s.setDrive d v).ctxReq = s.ctxReq := rfl
@[simp] theorem State.setDrive_ctxLast (d : DriveId) (v : DriveLink) : (s.setDrive d v).ctxLast = s.ctxLast := rfl
@[simp] theorem State.setDrive_scheds (d : DriveId) (v : DriveLink) : (s.setDrive d v).scheds = s.scheds := rfl
@[simp] theorem State.setDrive_attempts (d : DriveId) (v : DriveLink) : (s.setDrive d v).attempts = s.attempts := rfl
@[simp] theorem State.setDrive_drives (d : DriveId) (v : DriveLink) :
    (s.setDrive d v).drives = s.drives.set d v := rfl
@[simp] theorem State.setDrive_link (d : DriveId) (v : DriveLink) : (s.setDrive d v).link = s.link := rfl
@[simp] theorem State.setDrive_rests (d : DriveId) (v : DriveLink) : (s.setDrive d v).rests = s.rests := rfl
@[simp] theorem State.setDrive_power (d : DriveId) (v : DriveLink) : (s.setDrive d v).power = s.power := rfl
@[simp] theorem State.setDrive_stats (d : DriveId) (v : DriveLink) : (s.setDrive d v).stats = s.stats := rfl
@[simp] theorem State.setDrive_served (d : DriveId) (v : DriveLink) : (s.setDrive d v).served = s.served := rfl
@[simp] theorem State.setDrive_table (d : DriveId) (v : DriveLink) : (s.setDrive d v).table = s.table := rfl
@[simp] theorem State.setDrive_loader (d : DriveId) (v : DriveLink) : (s.setDrive d v).loader = s.loader := rfl
@[simp] theorem State.setDrive_settings (d : DriveId) (v : DriveLink) : (s.setDrive d v).settings = s.settings := rfl
@[simp] theorem State.setDrive_store (d : DriveId) (v : DriveLink) : (s.setDrive d v).store = s.store := rfl
@[simp] theorem State.setDrive_saved (d : DriveId) (v : DriveLink) : (s.setDrive d v).saved = s.saved := rfl

@[simp] theorem State.setRest_pending (d : DriveId) (v : Rest) : (s.setRest d v).pending = s.pending := rfl
@[simp] theorem State.setRest_now (d : DriveId) (v : Rest) : (s.setRest d v).now = s.now := rfl
@[simp] theorem State.setRest_ports (d : DriveId) (v : Rest) : (s.setRest d v).ports = s.ports := rfl
@[simp] theorem State.setRest_options (d : DriveId) (v : Rest) : (s.setRest d v).options = s.options := rfl
@[simp] theorem State.setRest_views (d : DriveId) (v : Rest) : (s.setRest d v).views = s.views := rfl
@[simp] theorem State.setRest_streams (d : DriveId) (v : Rest) : (s.setRest d v).streams = s.streams := rfl
@[simp] theorem State.setRest_deferred (d : DriveId) (v : Rest) : (s.setRest d v).deferred = s.deferred := rfl
@[simp] theorem State.setRest_events (d : DriveId) (v : Rest) : (s.setRest d v).events = s.events := rfl
@[simp] theorem State.setRest_errors (d : DriveId) (v : Rest) : (s.setRest d v).errors = s.errors := rfl
@[simp] theorem State.setRest_linkFault (d : DriveId) (v : Rest) : (s.setRest d v).linkFault = s.linkFault := rfl
@[simp] theorem State.setRest_mounts (d : DriveId) (v : Rest) : (s.setRest d v).mounts = s.mounts := rfl
@[simp] theorem State.setRest_discard (d : DriveId) (v : Rest) : (s.setRest d v).discard = s.discard := rfl
@[simp] theorem State.setRest_unitMap (d : DriveId) (v : Rest) : (s.setRest d v).unitMap = s.unitMap := rfl
@[simp] theorem State.setRest_works (d : DriveId) (v : Rest) : (s.setRest d v).works = s.works := rfl
@[simp] theorem State.setRest_contexts (d : DriveId) (v : Rest) : (s.setRest d v).contexts = s.contexts := rfl
@[simp] theorem State.setRest_ctxReq (d : DriveId) (v : Rest) : (s.setRest d v).ctxReq = s.ctxReq := rfl
@[simp] theorem State.setRest_ctxLast (d : DriveId) (v : Rest) : (s.setRest d v).ctxLast = s.ctxLast := rfl
@[simp] theorem State.setRest_scheds (d : DriveId) (v : Rest) : (s.setRest d v).scheds = s.scheds := rfl
@[simp] theorem State.setRest_attempts (d : DriveId) (v : Rest) : (s.setRest d v).attempts = s.attempts := rfl
@[simp] theorem State.setRest_drives (d : DriveId) (v : Rest) : (s.setRest d v).drives = s.drives := rfl
@[simp] theorem State.setRest_link (d : DriveId) (v : Rest) : (s.setRest d v).link = s.link := rfl
@[simp] theorem State.setRest_rests (d : DriveId) (v : Rest) : (s.setRest d v).rests = s.rests.set d v := rfl
@[simp] theorem State.setRest_power (d : DriveId) (v : Rest) : (s.setRest d v).power = s.power := rfl
@[simp] theorem State.setRest_stats (d : DriveId) (v : Rest) : (s.setRest d v).stats = s.stats := rfl
@[simp] theorem State.setRest_served (d : DriveId) (v : Rest) : (s.setRest d v).served = s.served := rfl
@[simp] theorem State.setRest_table (d : DriveId) (v : Rest) : (s.setRest d v).table = s.table := rfl
@[simp] theorem State.setRest_loader (d : DriveId) (v : Rest) : (s.setRest d v).loader = s.loader := rfl
@[simp] theorem State.setRest_settings (d : DriveId) (v : Rest) : (s.setRest d v).settings = s.settings := rfl
@[simp] theorem State.setRest_store (d : DriveId) (v : Rest) : (s.setRest d v).store = s.store := rfl
@[simp] theorem State.setRest_saved (d : DriveId) (v : Rest) : (s.setRest d v).saved = s.saved := rfl

@[simp] theorem State.setStats_pending (d : DriveId) (v : DriveStats) : (s.setStats d v).pending = s.pending := rfl
@[simp] theorem State.setStats_now (d : DriveId) (v : DriveStats) : (s.setStats d v).now = s.now := rfl
@[simp] theorem State.setStats_ports (d : DriveId) (v : DriveStats) : (s.setStats d v).ports = s.ports := rfl
@[simp] theorem State.setStats_options (d : DriveId) (v : DriveStats) : (s.setStats d v).options = s.options := rfl
@[simp] theorem State.setStats_views (d : DriveId) (v : DriveStats) : (s.setStats d v).views = s.views := rfl
@[simp] theorem State.setStats_streams (d : DriveId) (v : DriveStats) : (s.setStats d v).streams = s.streams := rfl
@[simp] theorem State.setStats_deferred (d : DriveId) (v : DriveStats) : (s.setStats d v).deferred = s.deferred := rfl
@[simp] theorem State.setStats_events (d : DriveId) (v : DriveStats) : (s.setStats d v).events = s.events := rfl
@[simp] theorem State.setStats_errors (d : DriveId) (v : DriveStats) : (s.setStats d v).errors = s.errors := rfl
@[simp] theorem State.setStats_linkFault (d : DriveId) (v : DriveStats) :
    (s.setStats d v).linkFault = s.linkFault := rfl
@[simp] theorem State.setStats_mounts (d : DriveId) (v : DriveStats) : (s.setStats d v).mounts = s.mounts := rfl
@[simp] theorem State.setStats_discard (d : DriveId) (v : DriveStats) : (s.setStats d v).discard = s.discard := rfl
@[simp] theorem State.setStats_unitMap (d : DriveId) (v : DriveStats) : (s.setStats d v).unitMap = s.unitMap := rfl
@[simp] theorem State.setStats_works (d : DriveId) (v : DriveStats) : (s.setStats d v).works = s.works := rfl
@[simp] theorem State.setStats_contexts (d : DriveId) (v : DriveStats) : (s.setStats d v).contexts = s.contexts := rfl
@[simp] theorem State.setStats_ctxReq (d : DriveId) (v : DriveStats) : (s.setStats d v).ctxReq = s.ctxReq := rfl
@[simp] theorem State.setStats_ctxLast (d : DriveId) (v : DriveStats) : (s.setStats d v).ctxLast = s.ctxLast := rfl
@[simp] theorem State.setStats_scheds (d : DriveId) (v : DriveStats) : (s.setStats d v).scheds = s.scheds := rfl
@[simp] theorem State.setStats_attempts (d : DriveId) (v : DriveStats) : (s.setStats d v).attempts = s.attempts := rfl
@[simp] theorem State.setStats_drives (d : DriveId) (v : DriveStats) : (s.setStats d v).drives = s.drives := rfl
@[simp] theorem State.setStats_link (d : DriveId) (v : DriveStats) : (s.setStats d v).link = s.link := rfl
@[simp] theorem State.setStats_rests (d : DriveId) (v : DriveStats) : (s.setStats d v).rests = s.rests := rfl
@[simp] theorem State.setStats_power (d : DriveId) (v : DriveStats) : (s.setStats d v).power = s.power := rfl
@[simp] theorem State.setStats_stats (d : DriveId) (v : DriveStats) : (s.setStats d v).stats = s.stats.set d v := rfl
@[simp] theorem State.setStats_served (d : DriveId) (v : DriveStats) : (s.setStats d v).served = s.served := rfl
@[simp] theorem State.setStats_table (d : DriveId) (v : DriveStats) : (s.setStats d v).table = s.table := rfl
@[simp] theorem State.setStats_loader (d : DriveId) (v : DriveStats) : (s.setStats d v).loader = s.loader := rfl
@[simp] theorem State.setStats_settings (d : DriveId) (v : DriveStats) : (s.setStats d v).settings = s.settings := rfl
@[simp] theorem State.setStats_store (d : DriveId) (v : DriveStats) : (s.setStats d v).store = s.store := rfl
@[simp] theorem State.setStats_saved (d : DriveId) (v : DriveStats) : (s.setStats d v).saved = s.saved := rfl

@[simp] theorem State.setEvents_pending (p : PortId) (v : EventRegs) : (s.setEvents p v).pending = s.pending := rfl
@[simp] theorem State.setEvents_now (p : PortId) (v : EventRegs) : (s.setEvents p v).now = s.now := rfl
@[simp] theorem State.setEvents_ports (p : PortId) (v : EventRegs) : (s.setEvents p v).ports = s.ports := rfl
@[simp] theorem State.setEvents_options (p : PortId) (v : EventRegs) : (s.setEvents p v).options = s.options := rfl
@[simp] theorem State.setEvents_views (p : PortId) (v : EventRegs) : (s.setEvents p v).views = s.views := rfl
@[simp] theorem State.setEvents_streams (p : PortId) (v : EventRegs) : (s.setEvents p v).streams = s.streams := rfl
@[simp] theorem State.setEvents_deferred (p : PortId) (v : EventRegs) : (s.setEvents p v).deferred = s.deferred := rfl
@[simp] theorem State.setEvents_events (p : PortId) (v : EventRegs) :
    (s.setEvents p v).events = s.events.set p v := rfl
@[simp] theorem State.setEvents_errors (p : PortId) (v : EventRegs) : (s.setEvents p v).errors = s.errors := rfl
@[simp] theorem State.setEvents_linkFault (p : PortId) (v : EventRegs) :
    (s.setEvents p v).linkFault = s.linkFault := rfl
@[simp] theorem State.setEvents_mounts (p : PortId) (v : EventRegs) : (s.setEvents p v).mounts = s.mounts := rfl
@[simp] theorem State.setEvents_discard (p : PortId) (v : EventRegs) : (s.setEvents p v).discard = s.discard := rfl
@[simp] theorem State.setEvents_unitMap (p : PortId) (v : EventRegs) : (s.setEvents p v).unitMap = s.unitMap := rfl
@[simp] theorem State.setEvents_works (p : PortId) (v : EventRegs) : (s.setEvents p v).works = s.works := rfl
@[simp] theorem State.setEvents_contexts (p : PortId) (v : EventRegs) : (s.setEvents p v).contexts = s.contexts := rfl
@[simp] theorem State.setEvents_ctxReq (p : PortId) (v : EventRegs) : (s.setEvents p v).ctxReq = s.ctxReq := rfl
@[simp] theorem State.setEvents_ctxLast (p : PortId) (v : EventRegs) : (s.setEvents p v).ctxLast = s.ctxLast := rfl
@[simp] theorem State.setEvents_scheds (p : PortId) (v : EventRegs) : (s.setEvents p v).scheds = s.scheds := rfl
@[simp] theorem State.setEvents_attempts (p : PortId) (v : EventRegs) : (s.setEvents p v).attempts = s.attempts := rfl
@[simp] theorem State.setEvents_drives (p : PortId) (v : EventRegs) : (s.setEvents p v).drives = s.drives := rfl
@[simp] theorem State.setEvents_link (p : PortId) (v : EventRegs) : (s.setEvents p v).link = s.link := rfl
@[simp] theorem State.setEvents_rests (p : PortId) (v : EventRegs) : (s.setEvents p v).rests = s.rests := rfl
@[simp] theorem State.setEvents_power (p : PortId) (v : EventRegs) : (s.setEvents p v).power = s.power := rfl
@[simp] theorem State.setEvents_stats (p : PortId) (v : EventRegs) : (s.setEvents p v).stats = s.stats := rfl
@[simp] theorem State.setEvents_served (p : PortId) (v : EventRegs) : (s.setEvents p v).served = s.served := rfl
@[simp] theorem State.setEvents_table (p : PortId) (v : EventRegs) : (s.setEvents p v).table = s.table := rfl
@[simp] theorem State.setEvents_loader (p : PortId) (v : EventRegs) : (s.setEvents p v).loader = s.loader := rfl
@[simp] theorem State.setEvents_settings (p : PortId) (v : EventRegs) : (s.setEvents p v).settings = s.settings := rfl
@[simp] theorem State.setEvents_store (p : PortId) (v : EventRegs) : (s.setEvents p v).store = s.store := rfl
@[simp] theorem State.setEvents_saved (p : PortId) (v : EventRegs) : (s.setEvents p v).saved = s.saved := rfl

@[simp] theorem State.setServed_pending (p : PortId) (v : Nat) : (s.setServed p v).pending = s.pending := rfl
@[simp] theorem State.setServed_now (p : PortId) (v : Nat) : (s.setServed p v).now = s.now := rfl
@[simp] theorem State.setServed_ports (p : PortId) (v : Nat) : (s.setServed p v).ports = s.ports := rfl
@[simp] theorem State.setServed_options (p : PortId) (v : Nat) : (s.setServed p v).options = s.options := rfl
@[simp] theorem State.setServed_views (p : PortId) (v : Nat) : (s.setServed p v).views = s.views := rfl
@[simp] theorem State.setServed_streams (p : PortId) (v : Nat) : (s.setServed p v).streams = s.streams := rfl
@[simp] theorem State.setServed_deferred (p : PortId) (v : Nat) : (s.setServed p v).deferred = s.deferred := rfl
@[simp] theorem State.setServed_events (p : PortId) (v : Nat) : (s.setServed p v).events = s.events := rfl
@[simp] theorem State.setServed_errors (p : PortId) (v : Nat) : (s.setServed p v).errors = s.errors := rfl
@[simp] theorem State.setServed_linkFault (p : PortId) (v : Nat) : (s.setServed p v).linkFault = s.linkFault := rfl
@[simp] theorem State.setServed_mounts (p : PortId) (v : Nat) : (s.setServed p v).mounts = s.mounts := rfl
@[simp] theorem State.setServed_discard (p : PortId) (v : Nat) : (s.setServed p v).discard = s.discard := rfl
@[simp] theorem State.setServed_unitMap (p : PortId) (v : Nat) : (s.setServed p v).unitMap = s.unitMap := rfl
@[simp] theorem State.setServed_works (p : PortId) (v : Nat) : (s.setServed p v).works = s.works := rfl
@[simp] theorem State.setServed_contexts (p : PortId) (v : Nat) : (s.setServed p v).contexts = s.contexts := rfl
@[simp] theorem State.setServed_ctxReq (p : PortId) (v : Nat) : (s.setServed p v).ctxReq = s.ctxReq := rfl
@[simp] theorem State.setServed_ctxLast (p : PortId) (v : Nat) : (s.setServed p v).ctxLast = s.ctxLast := rfl
@[simp] theorem State.setServed_scheds (p : PortId) (v : Nat) : (s.setServed p v).scheds = s.scheds := rfl
@[simp] theorem State.setServed_attempts (p : PortId) (v : Nat) : (s.setServed p v).attempts = s.attempts := rfl
@[simp] theorem State.setServed_drives (p : PortId) (v : Nat) : (s.setServed p v).drives = s.drives := rfl
@[simp] theorem State.setServed_link (p : PortId) (v : Nat) : (s.setServed p v).link = s.link := rfl
@[simp] theorem State.setServed_rests (p : PortId) (v : Nat) : (s.setServed p v).rests = s.rests := rfl
@[simp] theorem State.setServed_power (p : PortId) (v : Nat) : (s.setServed p v).power = s.power := rfl
@[simp] theorem State.setServed_stats (p : PortId) (v : Nat) : (s.setServed p v).stats = s.stats := rfl
@[simp] theorem State.setServed_served (p : PortId) (v : Nat) :
    (s.setServed p v).served = s.served.set p (BitVec.ofNat 40 v) := rfl
@[simp] theorem State.setServed_table (p : PortId) (v : Nat) : (s.setServed p v).table = s.table := rfl
@[simp] theorem State.setServed_loader (p : PortId) (v : Nat) : (s.setServed p v).loader = s.loader := rfl
@[simp] theorem State.setServed_settings (p : PortId) (v : Nat) : (s.setServed p v).settings = s.settings := rfl
@[simp] theorem State.setServed_store (p : PortId) (v : Nat) : (s.setServed p v).store = s.store := rfl
@[simp] theorem State.setServed_saved (p : PortId) (v : Nat) : (s.setServed p v).saved = s.saved := rfl

@[simp] theorem State.setStage_pending (v : LoadStage) : (s.setStage v).pending = s.pending := rfl
@[simp] theorem State.setStage_now (v : LoadStage) : (s.setStage v).now = s.now := rfl
@[simp] theorem State.setStage_ports (v : LoadStage) : (s.setStage v).ports = s.ports := rfl
@[simp] theorem State.setStage_options (v : LoadStage) : (s.setStage v).options = s.options := rfl
@[simp] theorem State.setStage_views (v : LoadStage) : (s.setStage v).views = s.views := rfl
@[simp] theorem State.setStage_streams (v : LoadStage) : (s.setStage v).streams = s.streams := rfl
@[simp] theorem State.setStage_deferred (v : LoadStage) : (s.setStage v).deferred = s.deferred := rfl
@[simp] theorem State.setStage_events (v : LoadStage) : (s.setStage v).events = s.events := rfl
@[simp] theorem State.setStage_errors (v : LoadStage) : (s.setStage v).errors = s.errors := rfl
@[simp] theorem State.setStage_linkFault (v : LoadStage) : (s.setStage v).linkFault = s.linkFault := rfl
@[simp] theorem State.setStage_mounts (v : LoadStage) : (s.setStage v).mounts = s.mounts := rfl
@[simp] theorem State.setStage_discard (v : LoadStage) : (s.setStage v).discard = s.discard := rfl
@[simp] theorem State.setStage_unitMap (v : LoadStage) : (s.setStage v).unitMap = s.unitMap := rfl
@[simp] theorem State.setStage_works (v : LoadStage) : (s.setStage v).works = s.works := rfl
@[simp] theorem State.setStage_contexts (v : LoadStage) : (s.setStage v).contexts = s.contexts := rfl
@[simp] theorem State.setStage_ctxReq (v : LoadStage) : (s.setStage v).ctxReq = s.ctxReq := rfl
@[simp] theorem State.setStage_ctxLast (v : LoadStage) : (s.setStage v).ctxLast = s.ctxLast := rfl
@[simp] theorem State.setStage_scheds (v : LoadStage) : (s.setStage v).scheds = s.scheds := rfl
@[simp] theorem State.setStage_attempts (v : LoadStage) : (s.setStage v).attempts = s.attempts := rfl
@[simp] theorem State.setStage_drives (v : LoadStage) : (s.setStage v).drives = s.drives := rfl
@[simp] theorem State.setStage_link (v : LoadStage) : (s.setStage v).link = s.link := rfl
@[simp] theorem State.setStage_rests (v : LoadStage) : (s.setStage v).rests = s.rests := rfl
@[simp] theorem State.setStage_power (v : LoadStage) : (s.setStage v).power = s.power := rfl
@[simp] theorem State.setStage_stats (v : LoadStage) : (s.setStage v).stats = s.stats := rfl
@[simp] theorem State.setStage_served (v : LoadStage) : (s.setStage v).served = s.served := rfl
@[simp] theorem State.setStage_table (v : LoadStage) : (s.setStage v).table = s.table := rfl
@[simp] theorem State.setStage_loader (v : LoadStage) : (s.setStage v).loader = { s.loader with stage := v } := rfl
@[simp] theorem State.setStage_settings (v : LoadStage) : (s.setStage v).settings = s.settings := rfl
@[simp] theorem State.setStage_store (v : LoadStage) : (s.setStage v).store = s.store := rfl
@[simp] theorem State.setStage_saved (v : LoadStage) : (s.setStage v).saved = s.saved := rfl

@[simp] theorem State.raise_pending (p : PortId) (e : Event) : (s.raise p e).pending = s.pending := rfl
@[simp] theorem State.raise_now (p : PortId) (e : Event) : (s.raise p e).now = s.now := rfl
@[simp] theorem State.raise_ports (p : PortId) (e : Event) : (s.raise p e).ports = s.ports := rfl
@[simp] theorem State.raise_options (p : PortId) (e : Event) : (s.raise p e).options = s.options := rfl
@[simp] theorem State.raise_views (p : PortId) (e : Event) : (s.raise p e).views = s.views := rfl
@[simp] theorem State.raise_streams (p : PortId) (e : Event) : (s.raise p e).streams = s.streams := rfl
@[simp] theorem State.raise_deferred (p : PortId) (e : Event) : (s.raise p e).deferred = s.deferred := rfl
@[simp] theorem State.raise_events (p : PortId) (e : Event) :
    (s.raise p e).events = s.events.set p { s.events.get p with raw := (s.events.get p).raw ||| e.bit } := rfl
@[simp] theorem State.raise_errors (p : PortId) (e : Event) : (s.raise p e).errors = s.errors := rfl
@[simp] theorem State.raise_linkFault (p : PortId) (e : Event) : (s.raise p e).linkFault = s.linkFault := rfl
@[simp] theorem State.raise_mounts (p : PortId) (e : Event) : (s.raise p e).mounts = s.mounts := rfl
@[simp] theorem State.raise_discard (p : PortId) (e : Event) : (s.raise p e).discard = s.discard := rfl
@[simp] theorem State.raise_unitMap (p : PortId) (e : Event) : (s.raise p e).unitMap = s.unitMap := rfl
@[simp] theorem State.raise_works (p : PortId) (e : Event) : (s.raise p e).works = s.works := rfl
@[simp] theorem State.raise_contexts (p : PortId) (e : Event) : (s.raise p e).contexts = s.contexts := rfl
@[simp] theorem State.raise_ctxReq (p : PortId) (e : Event) : (s.raise p e).ctxReq = s.ctxReq := rfl
@[simp] theorem State.raise_ctxLast (p : PortId) (e : Event) : (s.raise p e).ctxLast = s.ctxLast := rfl
@[simp] theorem State.raise_scheds (p : PortId) (e : Event) : (s.raise p e).scheds = s.scheds := rfl
@[simp] theorem State.raise_attempts (p : PortId) (e : Event) : (s.raise p e).attempts = s.attempts := rfl
@[simp] theorem State.raise_drives (p : PortId) (e : Event) : (s.raise p e).drives = s.drives := rfl
@[simp] theorem State.raise_link (p : PortId) (e : Event) : (s.raise p e).link = s.link := rfl
@[simp] theorem State.raise_rests (p : PortId) (e : Event) : (s.raise p e).rests = s.rests := rfl
@[simp] theorem State.raise_power (p : PortId) (e : Event) : (s.raise p e).power = s.power := rfl
@[simp] theorem State.raise_stats (p : PortId) (e : Event) : (s.raise p e).stats = s.stats := rfl
@[simp] theorem State.raise_served (p : PortId) (e : Event) : (s.raise p e).served = s.served := rfl
@[simp] theorem State.raise_table (p : PortId) (e : Event) : (s.raise p e).table = s.table := rfl
@[simp] theorem State.raise_loader (p : PortId) (e : Event) : (s.raise p e).loader = s.loader := rfl
@[simp] theorem State.raise_settings (p : PortId) (e : Event) : (s.raise p e).settings = s.settings := rfl
@[simp] theorem State.raise_store (p : PortId) (e : Event) : (s.raise p e).store = s.store := rfl
@[simp] theorem State.raise_saved (p : PortId) (e : Event) : (s.raise p e).saved = s.saved := rfl

@[simp] theorem State.endExchange_pending : (s.endExchange).pending = s.pending := rfl
@[simp] theorem State.endExchange_now : (s.endExchange).now = s.now := rfl
@[simp] theorem State.endExchange_ports : (s.endExchange).ports = s.ports := rfl
@[simp] theorem State.endExchange_options : (s.endExchange).options = s.options := rfl
@[simp] theorem State.endExchange_views : (s.endExchange).views = s.views := rfl
@[simp] theorem State.endExchange_streams : (s.endExchange).streams = s.streams := rfl
@[simp] theorem State.endExchange_deferred : (s.endExchange).deferred = s.deferred := rfl
@[simp] theorem State.endExchange_events : (s.endExchange).events = s.events := rfl
@[simp] theorem State.endExchange_errors : (s.endExchange).errors = s.errors := rfl
@[simp] theorem State.endExchange_linkFault : (s.endExchange).linkFault = s.linkFault := rfl
@[simp] theorem State.endExchange_mounts : (s.endExchange).mounts = s.mounts := rfl
@[simp] theorem State.endExchange_discard : (s.endExchange).discard = s.discard := rfl
@[simp] theorem State.endExchange_unitMap : (s.endExchange).unitMap = s.unitMap := rfl
@[simp] theorem State.endExchange_works : (s.endExchange).works = s.works := rfl
@[simp] theorem State.endExchange_contexts : (s.endExchange).contexts = s.contexts := rfl
@[simp] theorem State.endExchange_ctxReq : (s.endExchange).ctxReq = s.ctxReq := rfl
@[simp] theorem State.endExchange_ctxLast : (s.endExchange).ctxLast = s.ctxLast := rfl
@[simp] theorem State.endExchange_scheds : (s.endExchange).scheds = s.scheds := rfl
@[simp] theorem State.endExchange_attempts : (s.endExchange).attempts = s.attempts := rfl
@[simp] theorem State.endExchange_drives : (s.endExchange).drives = s.drives := rfl
@[simp] theorem State.endExchange_link : (s.endExchange).link = { s.link with exchange := none } := rfl
@[simp] theorem State.endExchange_rests : (s.endExchange).rests = s.rests := rfl
@[simp] theorem State.endExchange_power : (s.endExchange).power = s.power := rfl
@[simp] theorem State.endExchange_stats : (s.endExchange).stats = s.stats := rfl
@[simp] theorem State.endExchange_served : (s.endExchange).served = s.served := rfl
@[simp] theorem State.endExchange_table : (s.endExchange).table = s.table := rfl
@[simp] theorem State.endExchange_loader : (s.endExchange).loader = s.loader := rfl
@[simp] theorem State.endExchange_settings : (s.endExchange).settings = s.settings := rfl
@[simp] theorem State.endExchange_store : (s.endExchange).store = s.store := rfl
@[simp] theorem State.endExchange_saved : (s.endExchange).saved = s.saved := rfl

end Sys2Proof.Machine
end

