-- ==== Sys2Proof/Laws/Settle.lean ====
section
/-! SUPPORT. What the schedulers' choices, the withdrawals and the quiet timer leave alone: the host view of the state.
The lemmas go up to `settle`. -/
namespace Sys2Proof.Machine

variable (s : State)

@[simp] theorem State.setMount_host (d : DriveId) (v : Option MountRec) : (s.setMount d v).host = s.host := rfl
@[simp] theorem State.setDiscard_host (d : DriveId) (v : Bool) : (s.setDiscard d v).host = s.host := rfl
@[simp] theorem State.setWork_host (d : DriveId) (v : List Entry) : (s.setWork d v).host = s.host := rfl
@[simp] theorem State.setCtx_host (i : Nat) (v : Option OpenCtx) : (s.setCtx i v).host = s.host := rfl
@[simp] theorem State.setCtxReq_host (d : DriveId) (v : Option Nat) : (s.setCtxReq d v).host = s.host := rfl
@[simp] theorem State.setSched_host (d : DriveId) (v : Sched) : (s.setSched d v).host = s.host := rfl
@[simp] theorem State.setAttempt_host (d : DriveId) (v : Option Attempt) : (s.setAttempt d v).host = s.host := rfl
@[simp] theorem State.setDrive_host (d : DriveId) (v : DriveLink) : (s.setDrive d v).host = s.host := rfl
@[simp] theorem State.release_host (i : Nat) : (s.release i).host = s.host := rfl

@[simp] theorem State.raise_masks (p : PortId) (e : Event) :
    (s.raise p e).events.map EventRegs.mask = s.events.map EventRegs.mask := by cases p <;> rfl

@[simp] theorem State.raise_host (p : PortId) (e : Event) : (s.raise p e).host = s.host := by
  simp [State.host, Pair.map_set]
  cases p <;> rfl

@[simp] theorem State.raiseBoth_host (e : Event) : (s.raiseBoth e).host = s.host := by simp [State.raiseBoth]

@[simp] theorem State.setUnit_host (d : DriveId) (u : Nat) (r : UnitRec) : (s.setUnit d u r).host = s.host := by
  unfold State.setUnit; split <;> rfl

@[simp] theorem State.newWork_host : s.newWork.host = s.host := by unfold State.newWork; split <;> rfl

@[simp] theorem State.dropRequest_host (d : DriveId) : (s.dropRequest d).host = s.host := by
  unfold State.dropRequest; split <;> (try split) <;> simp

@[simp] theorem State.leaveWork_host (d : DriveId) (w : List Entry) : (s.leaveWork d w).host = s.host := by
  simp [State.leaveWork]

@[simp] theorem State.displace_host (d : DriveId) (e : Entry) : (s.displace d e).host = s.host := by
  unfold State.displace
  simp only
  split
  · split <;> simp
  · simp

@[simp] theorem State.insertEntry_host (d : DriveId) (e : Entry) : (s.insertEntry d e).host = s.host := by
  unfold State.insertEntry; simp only; split <;> simp

@[simp] theorem State.placed_host (d : DriveId) (k : Demand) : (s.placed d k).host = s.host := by
  cases k <;> simp [State.placed]

@[simp] theorem State.demand_host (d : DriveId) (u : Nat) (k : Demand) : (s.demand d u k).1.host = s.host := by
  unfold State.demand
  split
  · rfl
  · split
    · simp only [State.placed_host]; split <;> simp
    · split
      · simp
      · split <;> simp

@[simp] theorem State.demands_host (d : DriveId) (k : Demand) (u n : Nat) : (s.demands d k u n).host = s.host := by
  induction n generalizing s u with
  | zero => rfl
  | succ n ih => rw [State.demands, ih, State.demand_host]

@[simp] theorem State.shrinkWork_host (d : DriveId) (w : List Entry) : (s.shrinkWork d w).host = s.host := by
  unfold State.shrinkWork; simp only; split <;> simp

@[simp] theorem State.withdrawClass_host (d : DriveId) (p : PortId) (c : PortClass) (lo hi : Nat) :
    (s.withdrawClass d p c lo hi).host = s.host := by simp [State.withdrawClass]

@[simp] theorem State.endAttempt_host (d : DriveId) : (s.endAttempt d).host = s.host := by
  unfold State.endAttempt; simp only; split <;> simp

@[simp] theorem State.withdrawRead_host (d : DriveId) : (s.withdrawRead d).host = s.host := by
  unfold State.withdrawRead; split <;> (try split) <;> simp

@[simp] theorem State.withdrawRequest_host (d : DriveId) : (s.withdrawRequest d).host = s.host := by
  unfold State.withdrawRequest; split <;> (try split) <;> simp

@[simp] theorem State.noteChoice_host (b : State) (d : DriveId) : (State.noteChoice b s d).host = s.host := by
  unfold State.noteChoice; simp only; split <;> (try split) <;> (try split) <;> simp

@[simp] theorem State.startAttempt_host (d : DriveId) (m : MountRec) (u n : Nat) :
    (s.startAttempt d m u n).host = s.host := by simp [State.startAttempt]

@[simp] theorem State.openContext_host (i : Nat) (d : DriveId) (m : MountRec) (u : Nat) :
    (s.openContext i d m u).host = s.host := by
  have h (q : State) : ({ q with ctxLast := d } : State).host = q.host := rfl
  unfold State.openContext
  exact (h _).trans (by simp)

@[simp] theorem State.fallback_host (d : DriveId) (m : MountRec) : (s.fallback d m).host = s.host := by
  unfold State.fallback; split <;> simp

@[simp] theorem State.sweepStep_host (d : DriveId) : (s.sweepStep d).host = s.host := by
  unfold State.sweepStep
  split
  · rfl
  · split
    · split
      · rename_i m _ _ u _
        have h := s.demand_host d u .sweep
        split
        · rename_i s' hs'; rw [hs'] at h; simpa using h
        · rename_i s' hs'; rw [hs'] at h; simpa using h
        · rfl
      · simp only; split <;> simp
    · rfl

@[simp] theorem State.rank_host (d : DriveId) (m : MountRec) : (s.rank d m).host = s.host := by
  unfold State.rank
  split
  · simp
  · split
    · simp
    · split
      · split <;> simp
      · simp

@[simp] theorem State.choose_host (d : DriveId) : (s.choose d).host = s.host := by
  unfold State.choose
  split
  · rfl
  · split
    · simp
    · split
      · simp
      · split <;> simp

@[simp] theorem State.makeChoice_host (d : DriveId) : (s.makeChoice d).host = s.host := by
  unfold State.makeChoice; simp only; split <;> simp

theorem State.eachDrive_host {f : State → DriveId → State} (h : ∀ s d, (f s d).host = s.host) :
    (s.eachDrive f).host = s.host := by simp [State.eachDrive, h]

@[simp] theorem State.quietTimer_host : s.quietTimer.host = s.host := by
  unfold State.quietTimer; split <;> (try split) <;> rfl

/-- What follows a command at the same moment leaves the host view alone. -/
@[simp] theorem State.settle_host (b : State) : (s.settle b).host = s.host := by
  unfold State.settle
  simp only [State.quietTimer_host]
  split
  · rw [State.eachDrive_host _ (fun s d => s.noteChoice_host b d), State.eachDrive_host _ State.withdrawRequest_host,
      State.eachDrive_host _ State.withdrawRead_host, State.quietTimer_host]
  · rw [State.eachDrive_host _ State.makeChoice_host, State.eachDrive_host _ (fun s d => s.noteChoice_host b d),
      State.eachDrive_host _ State.withdrawRequest_host, State.eachDrive_host _ State.withdrawRead_host,
      State.quietTimer_host]

/-- `settle` leaves each field of the host view alone. -/
theorem State.settle_fields (b : State) :
    (s.settle b).pending = s.pending ∧ (s.settle b).now = s.now ∧ (s.settle b).ports = s.ports ∧
      (s.settle b).options = s.options ∧ (s.settle b).views = s.views ∧ (s.settle b).streams = s.streams ∧
      (s.settle b).deferred = s.deferred ∧ (s.settle b).errors = s.errors ∧ (s.settle b).linkFault = s.linkFault ∧
      (s.settle b).link = s.link ∧ (s.settle b).rests = s.rests ∧ (s.settle b).stats = s.stats ∧
      (s.settle b).served = s.served ∧ (s.settle b).table = s.table ∧ (s.settle b).loader = s.loader ∧
      (s.settle b).settings = s.settings ∧ (s.settle b).store = s.store ∧ (s.settle b).saved = s.saved := by
  have h := s.settle_host b
  simp only [State.host, HostView.mk.injEq] at h
  obtain ⟨h1, h2, h3, h4, h5, h6, h7, _, h8, h9, h10, h11, h12, h13, h14, h15, h16, h17, h18⟩ := h
  exact ⟨h1, h2, h3, h4, h5, h6, h7, h8, h9, h10, h11, h12, h13, h14, h15, h16, h17, h18⟩

@[simp] theorem State.settle_ports (b : State) : (s.settle b).ports = s.ports := (s.settle_fields b).2.2.1
@[simp] theorem State.settle_options (b : State) : (s.settle b).options = s.options := (s.settle_fields b).2.2.2.1
@[simp] theorem State.settle_views (b : State) : (s.settle b).views = s.views := (s.settle_fields b).2.2.2.2.1
@[simp] theorem State.settle_streams (b : State) : (s.settle b).streams = s.streams :=
  (s.settle_fields b).2.2.2.2.2.1
@[simp] theorem State.settle_deferred (b : State) : (s.settle b).deferred = s.deferred :=
  (s.settle_fields b).2.2.2.2.2.2.1
@[simp] theorem State.settle_rests (b : State) : (s.settle b).rests = s.rests :=
  congrArg HostView.rests (s.settle_host b)
@[simp] theorem State.settle_link (b : State) : (s.settle b).link = s.link := congrArg HostView.link (s.settle_host b)
@[simp] theorem State.settle_store (b : State) : (s.settle b).store = s.store :=
  congrArg HostView.store (s.settle_host b)
@[simp] theorem State.settle_saved (b : State) : (s.settle b).saved = s.saved :=
  congrArg HostView.saved (s.settle_host b)
@[simp] theorem State.settle_settings (b : State) : (s.settle b).settings = s.settings :=
  congrArg HostView.settings (s.settle_host b)
@[simp] theorem State.settle_loader (b : State) : (s.settle b).loader = s.loader :=
  congrArg HostView.loader (s.settle_host b)
@[simp] theorem State.settle_stats (b : State) : (s.settle b).stats = s.stats :=
  congrArg HostView.stats (s.settle_host b)
@[simp] theorem State.settle_now (b : State) : (s.settle b).now = s.now := congrArg HostView.now (s.settle_host b)
@[simp] theorem State.settle_pending (b : State) : (s.settle b).pending = s.pending :=
  congrArg HostView.pending (s.settle_host b)

end Sys2Proof.Machine
end

