-- ==== Sys2Proof/Laws/Requests.lean ====
section
/-! SUPPORT. The path of a request: nothing due means that nothing is caught up, a frame built by `Frame.good` passes
its check, and a request on a port that is ready is carried out and answered at once. -/
namespace Sys2Proof.Machine

variable (s : State)

/-! ### Catching up -/

theorem State.runDue_of_due_none {s : State} (h : s.due = none) : s.runDue = none := by
  unfold State.runDue; rw [h]

/-- Before a row comes nothing else is done where that row is next, or where nothing is due. -/
theorem State.upTo_of_due {s : State} {c : Instr} (h : s.due = some c ∨ s.due = none) : s.upTo c = s := by
  unfold State.upTo; rw [State.upToN]
  rcases h with h | h
  · rw [if_pos h]
  · rw [State.runDue_of_due_none h]; split <;> rfl

/-- With nothing due, catching up changes nothing. -/
theorem State.catchUp_of_due_none {s : State} (h : s.due = none) : s.catchUp = s := by
  unfold State.catchUp
  rw [State.catchUpN, State.runDue_of_due_none h]

/-! ### Validation -/

theorem Frame.good_crcOk (code tag : Byte) (ps : List Byte) : Frame.crcOk code (Frame.good code tag ps) = true := by
  simp [Frame.crcOk, Frame.good, Frame.body]

theorem ReqCode.ofByte?_byte (c : ReqCode) : ReqCode.ofByte? c.byte = some c := by cases c <;> rfl

/-- A frame with a good check, a known code, the right length, in a state that accepts it and with its parameters in
range passes validation. -/
theorem State.validate_good {c : ReqCode} {tag : Byte} {ps : List Byte} (hl : c.lengthOk ps = true)
    (ha : s.accepts c = true) (hr : c.rangesOk ps = true) :
    s.validate c.byte (Frame.good c.byte tag ps) = .ok c := by
  simp only [State.validate, Frame.good_crcOk, ReqCode.ofByte?_byte]
  simp only [Frame.good, hl, ha, hr]
  simp

theorem State.ready_accepts {s : State} {p : PortId} (h : s.ready p) (c : ReqCode) : s.accepts c = true := by
  obtain ⟨-, hp, hl, -⟩ := h
  rcases hp with hp | hp <;> simp [State.accepts, hp, hl]

/-- A port that holds no request in progress holds no waiting one either, where nothing is due. -/
theorem State.takes_not_busy {s : State} {p : PortId} (h : s.takes p) : (s.ports.get p).busy = false := by
  obtain ⟨hd, -, hi⟩ := h
  have hw : (s.ports.get p).waiting = none := by
    unfold State.due at hd
    cases p <;> simp only [Pair.get] at hi ⊢ <;>
      · by_contra hne
        have hs : ∀ q : Port, q.inProgress = none → q.waiting ≠ none → q.waitingDue.isSome = true := by
          intro q h1 h2
          cases hq : q.waiting with
          | none => exact absurd hq h2
          | some w => simp [Port.waitingDue, h1, hq]
        have hw := hs _ hi hne
        repeat' split at hd
        all_goals contradiction
  simp [Port.busy, hi, hw]

theorem State.ready_takes {s : State} {p : PortId} (h : s.ready p) : s.takes p := by
  obtain ⟨h1, h2, -, h4⟩ := h
  exact ⟨h1, by rcases h2 with h | h <;> simp [h], h4⟩

theorem State.ready_not_busy {s : State} {p : PortId} (h : s.ready p) : (s.ports.get p).busy = false :=
  State.takes_not_busy (State.ready_takes h)

theorem State.ready_not_dormant {s : State} {p : PortId} (h : s.ready p) : (s.power.state == .dormant) = false := by
  rcases h.2.1 with hp | hp <;> simp [hp]

@[simp] theorem State.sends_power (p : PortId) (b : List Byte) : (s.sends p b).power = s.power := rfl

theorem State.sends_busy (p : PortId) (b : List Byte) : ((s.sends p b).ports.get p).busy = (s.ports.get p).busy := by
  cases p <;> rfl

theorem State.validate_sends (p : PortId) (b : List Byte) (code : Byte) (f : Frame) :
    (s.sends p b).validate code f = s.validate code f := rfl

/-- A request frame that completes on a port that takes it at once goes to validation. -/
theorem State.frame_takes {s : State} {p : PortId} (h : s.takes p) (code : Byte) (f : Frame) :
    s.catchUp.frameArrives p code f = (s.framed p f.params.length).takeRequest p code f := by
  have hd : ((s.framed p f.params.length).power.state == .dormant) = false := by
    have hn : (s.framed p f.params.length).power.state = s.power.state := rfl
    rw [hn]; simpa using h.2.1
  have hb : ((s.framed p f.params.length).ports.get p).busy = false := by
    rw [State.framed, State.sends_busy, State.takes_not_busy h]
  rw [State.catchUp_of_due_none h.1]
  unfold State.frameArrives
  change (if ((s.framed p f.params.length).power.state == .dormant) = true then _ else _) = _
  rw [if_neg (by rw [hd]; simp)]
  change (if ((s.framed p f.params.length).ports.get p).busy = true then _ else _) = _
  rw [if_neg (by rw [hb]; simp)]
  rfl

/-- A request with a good check and the right length, accepted in the state of the moment and with its parameters in
range, is carried out and delivered. -/
theorem State.frame_accepted {s : State} {p : PortId} (h : s.takes p) {c : ReqCode} (tag : Byte) {ps : List Byte}
    (hl : c.lengthOk ps = true) (ha : s.accepts c = true) (hr : c.rangesOk ps = true) :
    s.catchUp.frameArrives p c.byte (Frame.good c.byte tag ps) =
      ((s.framed p ps.length).carry p c ps).deliver p c.byte (Frame.good c.byte tag ps) := by
  rw [State.frame_takes h]
  have hv : (s.framed p ps.length).validate c.byte (Frame.good c.byte tag ps) = .ok c := by
    rw [State.framed, State.validate_sends]; exact s.validate_good hl ha hr
  have hp : (Frame.good c.byte tag ps).params = ps := rfl
  rw [hp, State.takeRequest, hv, hp]

/-- The same on a port that is ready, where every request is accepted. -/
theorem State.frame_ready {s : State} {p : PortId} (h : s.ready p) {c : ReqCode} (tag : Byte) {ps : List Byte}
    (hl : c.lengthOk ps = true) (hr : c.rangesOk ps = true) :
    s.catchUp.frameArrives p c.byte (Frame.good c.byte tag ps) =
      ((s.framed p ps.length).carry p c ps).deliver p c.byte (Frame.good c.byte tag ps) :=
  State.frame_accepted (State.ready_takes h) tag hl (State.ready_accepts h c) hr

/-- A request with a good check that fails a later test of R123 is answered with the refusal. -/
theorem State.frame_refused {s : State} {p : PortId} (h : s.takes p) {code : Byte} {f : Frame} {st : Status}
    (hv : s.validate code f = .error st) :
    s.catchUp.frameArrives p code f = (s.framed p f.params.length).answer p code f st [] := by
  rw [State.frame_takes h, State.takeRequest, State.framed, State.validate_sends, hv]

/-! ### Answers -/

/-- Data out, then an answer: the port is answered. -/
theorem State.framed_respond (p : PortId) (n : Nat) (st : Status) (tag : Byte) (payload : List Byte) :
    (s.framed p n).respond p st tag payload = s.answered p n st tag payload := by
  cases p <;> rfl

/-- A captured refusal leaves the ports as any answer does, and the error record valid. -/
theorem State.captureRefusal_ports (p : PortId) (st : Status) (code tag : Byte) (ps : List Byte) :
    (s.captureRefusal p st code tag ps).ports = s.ports := by
  unfold State.captureRefusal; split <;> rfl

/-- A capture changes the error records and the raw flags, and nothing else. -/
theorem State.captureRefusal_frame (p : PortId) (st : Status) (code tag : Byte) (ps : List Byte) :
    s.captureRefusal p st code tag ps =
      { s with errors := (s.captureRefusal p st code tag ps).errors
               events := (s.captureRefusal p st code tag ps).events } := by
  unfold State.captureRefusal; split <;> rfl

/-- The ports after a refusal of any kind. -/
theorem State.answer_ports (p : PortId) (code : Byte) (f : Frame) (n : Nat) (st : Status) (payload : List Byte) :
    ((s.framed p n).answer p code f st payload).ports =
      s.ports.set p ((s.ports.get p).answered n st f.tag payload) := by
  have h : ((if st.captured then (s.framed p n).captureRefusal p st code f.tag f.params else s.framed p n)).ports =
      (s.framed p n).ports := by
    split
    · exact State.captureRefusal_ports _ _ _ _ _ _
    · rfl
  have h2 : ((s.framed p n).answer p code f st payload).ports = ((s.framed p n).respond p st f.tag payload).ports := by
    simp only [State.answer, State.respond, State.setPort, h]
  rw [h2, State.framed_respond]; rfl

/-- A refusal that is not captured, or an answer, on a framed part. -/
theorem State.framed_answer (p : PortId) (code : Byte) (f : Frame) (n : Nat) {st : Status} (h : st.captured = false)
    (payload : List Byte) : (s.framed p n).answer p code f st payload = s.answered p n st f.tag payload := by
  rw [← State.framed_respond]; simp [State.answer, h]

/-- An answer that is not captured is the pending response and nothing else. -/
theorem State.answer_uncaptured (p : PortId) (code : Byte) (f : Frame) {st : Status} (h : st.captured = false)
    (payload : List Byte) : s.answer p code f st payload = s.respond p st f.tag payload := by
  simp [State.answer, h]

@[simp] theorem Handled.deliver_reply (p : PortId) (code : Byte) (f : Frame) (st : Status) (payload : List Byte) :
    Handled.deliver (s, .reply st payload) p code f = s.answer p code f st payload := rfl

/-- A change of the state that leaves the ports alone, then an answer. -/
theorem State.respond_host (p : PortId) (st : Status) (tag : Byte) (payload : List Byte) :
    (s.respond p st tag payload).host =
      { s.host with ports := s.ports.set p { s.ports.get p with response := some ⟨st, tag, payload⟩ } } := rfl

theorem State.answered_host (p : PortId) (n : Nat) (st : Status) (tag : Byte) (payload : List Byte) :
    (s.answered p n st tag payload).host =
      { s.host with ports := s.ports.set p ((s.ports.get p).answered n st tag payload) } := rfl

/-- The ports after data out and an answer. -/
theorem Port.sends_answered (x : Pair Port) (p : PortId) (n : Nat) (st : Status) (tag : Byte) (payload : List Byte) :
    (x.set p { x.get p with receiver := [], dataOut := List.replicate (6 + n) padding }).set p
        { (x.set p { x.get p with receiver := [], dataOut := List.replicate (6 + n) padding }).get p with
          response := some ⟨st, tag, payload⟩ } =
      x.set p ((x.get p).answered n st tag payload) := by
  cases p <;> rfl

end Sys2Proof.Machine
end

