-- ==== Sys2Proof/Laws/Sparse.lean ====
section
/-! SUPPORT. The sparse memories: what one reads after a write, and that every operation keeps the canonical form. -/
namespace Sys2Proof.Machine

variable {α : Type} [DecidableEq α] {dflt : α}

/-! ### Reads after writes -/

omit [DecidableEq α] in
theorem Sparse.get_erase_self (m : List (Nat × α)) (i : Nat) : Sparse.get dflt (Sparse.erase m i) i = dflt := by
  induction m with
  | nil => rfl
  | cons e m ih =>
    obtain ⟨k, v⟩ := e
    simp only [Sparse.erase]
    split
    · exact ih
    · rename_i h; simp [Sparse.get, h, ih]

omit [DecidableEq α] in
theorem Sparse.get_erase_ne (m : List (Nat × α)) {i j : Nat} (h : j ≠ i) :
    Sparse.get dflt (Sparse.erase m i) j = Sparse.get dflt m j := by
  induction m with
  | nil => rfl
  | cons e m ih =>
    obtain ⟨k, v⟩ := e
    simp only [Sparse.erase]
    split
    · rename_i hk; subst hk; simp [Sparse.get, h, ih]
    · simp [Sparse.get, ih]

omit [DecidableEq α] in
theorem Sparse.get_insert_ne (m : List (Nat × α)) {i j : Nat} (w : α) (h : j ≠ i) :
    Sparse.get dflt (Sparse.insert m i w) j = Sparse.get dflt m j := by
  induction m with
  | nil => simp [Sparse.insert, Sparse.get, h]
  | cons e m ih =>
    obtain ⟨k, v⟩ := e
    simp only [Sparse.insert]
    split
    · simp [Sparse.get, h]
    · simp [Sparse.get, ih]

omit [DecidableEq α] in
/-- An inserted entry is found where no earlier entry has its address. -/
theorem Sparse.get_insert_self (m : List (Nat × α)) (i : Nat) (w : α) (h : ∀ e ∈ m, e.1 ≠ i) :
    Sparse.get dflt (Sparse.insert m i w) i = w := by
  induction m with
  | nil => simp [Sparse.insert, Sparse.get]
  | cons e m ih =>
    obtain ⟨k, v⟩ := e
    have hk : i ≠ k := fun hik => h (k, v) (by simp) hik.symm
    simp only [Sparse.insert]
    split
    · simp [Sparse.get]
    · simp [Sparse.get, hk, ih fun e he => h e (by simp [he])]

omit [DecidableEq α] in
theorem Sparse.not_mem_erase (m : List (Nat × α)) (i : Nat) : ∀ e ∈ Sparse.erase m i, e.1 ≠ i := by
  induction m with
  | nil => simp [Sparse.erase]
  | cons e m ih =>
    obtain ⟨k, v⟩ := e
    simp only [Sparse.erase]
    split
    · exact ih
    · rename_i h
      intro e he
      rcases List.mem_cons.mp he with rfl | he
      · exact fun hk => h hk.symm
      · exact ih e he

@[simp] theorem Sparse.get_set (m : List (Nat × α)) (i : Nat) (w : α) :
    Sparse.get dflt (Sparse.set dflt m i w) i = w := by
  unfold Sparse.set
  split
  · rename_i h; rw [Sparse.get_erase_self, h]
  · exact Sparse.get_insert_self _ i w (Sparse.not_mem_erase m i)

theorem Sparse.get_set_ne (m : List (Nat × α)) {i j : Nat} (w : α) (h : j ≠ i) :
    Sparse.get dflt (Sparse.set dflt m i w) j = Sparse.get dflt m j := by
  unfold Sparse.set
  split
  · exact Sparse.get_erase_ne m h
  · rw [Sparse.get_insert_ne _ w h, Sparse.get_erase_ne m h]

omit [DecidableEq α] in
theorem Sparse.get_clear (m : List (Nat × α)) (first n i : Nat) :
    Sparse.get dflt (Sparse.clear m first n) i
      = if first ≤ i ∧ i < first + n then dflt else Sparse.get dflt m i := by
  induction m with
  | nil => simp [Sparse.clear, Sparse.get]
  | cons e m ih =>
    obtain ⟨k, v⟩ := e
    simp only [Sparse.clear, List.filter_cons, Bool.or_eq_true, decide_eq_true_eq] at ih ⊢
    split
    · simp only [Sparse.get]
      split
      · rename_i hk; subst hk; split <;> first | omega | rfl
      · exact ih
    · rename_i hk
      simp only [Sparse.get]
      split
      · rename_i h; rw [ih, if_pos h]
      · rename_i h
        rw [ih, if_neg h, if_neg (fun hik => h (by omega))]

/-! ### The canonical form -/

theorem Sparse.above_iff (lo : Nat) (m : List (Nat × α)) :
    Sparse.above dflt lo m = true ↔ (∀ e ∈ m, lo < e.1 ∧ e.2 ≠ dflt) ∧ m.Pairwise fun a b => a.1 < b.1 := by
  induction m generalizing lo with
  | nil => simp [Sparse.above]
  | cons e m ih =>
    obtain ⟨k, v⟩ := e
    simp only [Sparse.above, Bool.and_eq_true, decide_eq_true_eq, bne_iff_ne, ih, List.mem_cons,
      forall_eq_or_imp, List.pairwise_cons]
    constructor
    · rintro ⟨⟨h1, h2⟩, h3, h4⟩
      exact ⟨⟨⟨h1, h2⟩, fun e he => ⟨lt_trans h1 (h3 e he).1, (h3 e he).2⟩⟩, fun e he => (h3 e he).1, h4⟩
    · rintro ⟨⟨⟨h1, h2⟩, h3⟩, h4, h5⟩
      exact ⟨⟨h1, h2⟩, fun e he => ⟨h4 e he, (h3 e he).2⟩, h5⟩

/-- The canonical form in words: no entry reads as the default, and the addresses rise strictly. -/
theorem Sparse.wf_iff (m : List (Nat × α)) :
    Sparse.wf dflt m = true ↔ (∀ e ∈ m, e.2 ≠ dflt) ∧ m.Pairwise fun a b => a.1 < b.1 := by
  cases m with
  | nil => simp [Sparse.wf]
  | cons e m =>
    obtain ⟨k, v⟩ := e
    simp only [Sparse.wf, Bool.and_eq_true, bne_iff_ne, Sparse.above_iff, List.mem_cons, forall_eq_or_imp,
      List.pairwise_cons]
    constructor
    · rintro ⟨h1, h2, h3⟩
      exact ⟨⟨h1, fun e he => (h2 e he).2⟩, fun e he => (h2 e he).1, h3⟩
    · rintro ⟨⟨h1, h2⟩, h3, h4⟩
      exact ⟨h1, fun e he => ⟨h3 e he, h2 e he⟩, h4⟩

omit [DecidableEq α] in
theorem Sparse.erase_eq_filter (m : List (Nat × α)) (i : Nat) :
    Sparse.erase m i = m.filter fun e => !(decide (i = e.1)) := by
  induction m with
  | nil => rfl
  | cons e m ih =>
    obtain ⟨k, v⟩ := e
    by_cases h : i = k
    · subst h; simp [Sparse.erase, ih]
    · simp [Sparse.erase, h, ih]

theorem Sparse.wf_filter {m : List (Nat × α)} (h : Sparse.wf dflt m = true) (p : Nat × α → Bool) :
    Sparse.wf dflt (m.filter p) = true := by
  rw [Sparse.wf_iff] at h ⊢
  exact ⟨fun e he => h.1 e (List.mem_filter.mp he).1, h.2.filter p⟩

theorem Sparse.wf_erase {m : List (Nat × α)} (h : Sparse.wf dflt m = true) (i : Nat) :
    Sparse.wf dflt (Sparse.erase m i) = true := by
  rw [Sparse.erase_eq_filter]; exact Sparse.wf_filter h _

theorem Sparse.wf_clear {m : List (Nat × α)} (h : Sparse.wf dflt m = true) (first n : Nat) :
    Sparse.wf dflt (Sparse.clear m first n) = true := Sparse.wf_filter h _

omit [DecidableEq α] in
theorem Sparse.mem_insert {m : List (Nat × α)} {i : Nat} {w : α} {e : Nat × α} (h : e ∈ Sparse.insert m i w) :
    e = (i, w) ∨ e ∈ m := by
  induction m with
  | nil => simpa [Sparse.insert] using h
  | cons x m ih =>
    obtain ⟨k, v⟩ := x
    simp only [Sparse.insert] at h
    split at h
    · simpa using h
    · rcases List.mem_cons.mp h with h | h
      · exact .inr (by simp [h])
      · rcases ih h with h | h
        · exact .inl h
        · exact .inr (by simp [h])

theorem Sparse.wf_insert {m : List (Nat × α)} (h : Sparse.wf dflt m = true) {i : Nat} {w : α} (hw : w ≠ dflt)
    (hi : ∀ e ∈ m, e.1 ≠ i) : Sparse.wf dflt (Sparse.insert m i w) = true := by
  rw [Sparse.wf_iff] at h ⊢
  refine ⟨fun e he => ?_, ?_⟩
  · rcases Sparse.mem_insert he with rfl | he
    · exact hw
    · exact h.1 e he
  · obtain ⟨h1, h2⟩ := h
    induction m with
    | nil => simp [Sparse.insert]
    | cons x m ih =>
      obtain ⟨k, v⟩ := x
      have hk : k ≠ i := hi (k, v) (by simp)
      simp only [List.pairwise_cons] at h2
      simp only [Sparse.insert]
      split
      · rename_i hlt
        refine List.pairwise_cons.mpr ⟨fun e he => ?_, List.pairwise_cons.mpr h2⟩
        rcases List.mem_cons.mp he with rfl | he
        · exact hlt
        · exact lt_trans hlt (h2.1 e he)
      · rename_i hlt
        refine List.pairwise_cons.mpr ⟨fun e he => ?_, ih (fun e he => hi e (by simp [he]))
          (fun e he => h1 e (by simp [he])) h2.2⟩
        rcases Sparse.mem_insert he with rfl | he
        · simp only; omega
        · exact h2.1 e he

/-- A write keeps the canonical form. -/
theorem Sparse.wf_set {m : List (Nat × α)} (h : Sparse.wf dflt m = true) (i : Nat) (w : α) :
    Sparse.wf dflt (Sparse.set dflt m i w) = true := by
  unfold Sparse.set
  split
  · exact Sparse.wf_erase h i
  · rename_i hw
    exact Sparse.wf_insert (Sparse.wf_erase h i) hw (Sparse.not_mem_erase m i)

/-! ### The image store -/

theorem Memory.wf_writeByte {m : Memory} (h : Memory.wf m = true) (a : Nat) (b : Byte) :
    Memory.wf (Memory.writeByte m a b) = true := Sparse.wf_set h a b

theorem Memory.wf_writeBytes (bs : List Byte) {m : Memory} (h : Memory.wf m = true) (a : Nat) :
    Memory.wf (Memory.writeBytes m a bs) = true := by
  induction bs generalizing m a with
  | nil => exact h
  | cons b bs ih => exact ih (Memory.wf_writeByte h a b) (a + 1)

theorem Memory.wf_writeCells (cs : List Host.Cell) {m : Memory} (h : Memory.wf m = true) :
    Memory.wf (Memory.writeCells m cs) = true := by
  induction cs generalizing m with
  | nil => exact h
  | cons c cs ih => exact ih (Memory.wf_writeByte h c.1 c.2)

@[simp] theorem Memory.readByte_writeByte (m : Memory) (a : Nat) (b : Byte) :
    Memory.readByte (Memory.writeByte m a b) a = b := Sparse.get_set m a b

theorem Memory.readByte_writeByte_ne (m : Memory) {a c : Nat} (b : Byte) (h : c ≠ a) :
    Memory.readByte (Memory.writeByte m a b) c = Memory.readByte m c := Sparse.get_set_ne m b h

/-- A run of bytes written leaves every byte outside the run as it was. -/
theorem Memory.readByte_writeBytes_outside (bs : List Byte) (m : Memory) (a : Nat) {c : Nat}
    (h : c < a ∨ a + bs.length ≤ c) : Memory.readByte (Memory.writeBytes m a bs) c = Memory.readByte m c := by
  induction bs generalizing m a with
  | nil => rfl
  | cons b bs ih =>
    simp only [List.length_cons] at h
    rw [Memory.writeBytes, ih _ _ (by omega), Memory.readByte_writeByte_ne _ _ (by omega)]

/-- A run of bytes written reads back. -/
theorem Memory.readBytes_writeBytes (bs : List Byte) (m : Memory) (a : Nat) :
    Memory.readBytes (Memory.writeBytes m a bs) a bs.length = bs := by
  induction bs generalizing m a with
  | nil => rfl
  | cons b bs ih =>
    simp only [Memory.writeBytes, List.length_cons, Memory.readBytes, ih]
    rw [Memory.readByte_writeBytes_outside bs _ _ (by omega), Memory.readByte_writeByte]

end Sys2Proof.Machine
end

