-- ==== Sys2Proof/Laws/Bytes.lean ====
section
/-! SUPPORT. Byte fields: what a little-endian field reads back, the parameters that name a drive, the
counters' bytes, and a reply frame's check. -/
namespace Sys2Proof.Machine

/-! ### Fields -/

@[simp] theorem byteAt_nil (i : Nat) : byteAt [] i = 0 := by simp [byteAt]

@[simp] theorem byteAt_cons_zero (b : Byte) (l : List Byte) : byteAt (b :: l) 0 = b.toNat := rfl

@[simp] theorem byteAt_cons_succ (b : Byte) (l : List Byte) (i : Nat) : byteAt (b :: l) (i + 1) = byteAt l i := rfl

theorem leField2 (a b : Byte) (l : List Byte) : leField (a :: b :: l) 2 0 = a.toNat + 256 * b.toNat := by
  simp [leField]

theorem leField_cons (b : Byte) (l : List Byte) (n i : Nat) : leField (b :: l) n (i + 1) = leField l n i := by
  induction n generalizing i with
  | zero => rfl
  | succ n ih => simp only [leField, byteAt_cons_succ, ih]

/-- A two-byte field reads back. -/
theorem leField_leBytes2 (v : Nat) (h : v < 65536) (l : List Byte) : leField (leBytes 2 v ++ l) 2 0 = v := by
  simp [leBytes, leField2]; omega

/-- A four-byte field reads back. -/
theorem leField_leBytes4 (v : Nat) (h : v < 4294967296) (l : List Byte) : leField (leBytes 4 v ++ l) 4 0 = v := by
  simp [leBytes, leField]; omega

theorem leField_append_left (a b : List Byte) (n i : Nat) (h : i + n ≤ a.length) : leField (a ++ b) n i = leField a n
    i := by
  induction n generalizing i with
  | zero => rfl
  | succ n ih =>
    simp only [leField]
    rw [ih _ (by omega)]
    congr 1
    simp only [byteAt, List.getD_eq_getElem?_getD]
    rw [List.getElem?_append_left (by omega)]

theorem leField_append_right (a b : List Byte) (n i : Nat) : leField (a ++ b) n (a.length + i) = leField b n i := by
  induction n generalizing i with
  | zero => rfl
  | succ n ih =>
    simp only [leField]
    rw [show a.length + i + 1 = a.length + (i + 1) by omega, ih]
    congr 1
    simp only [byteAt, List.getD_eq_getElem?_getD]
    rw [List.getElem?_append_right (by omega)]; simp

/-- A five-byte field reads back. -/
theorem leField_leBytes5 (v : Nat) (h : v < 1099511627776) (l : List Byte) : leField (leBytes 5 v ++ l) 5 0 = v := by
  simp [leBytes, leField]; omega

theorem leBytes_length (n v : Nat) : (leBytes n v).length = n := by
  induction n generalizing v with
  | zero => rfl
  | succ n ih => simp [leBytes, ih]

/-! ### Runs of the store -/

theorem Memory.readBytes_append (m : Memory) (a n k : Nat) : Memory.readBytes m a (n + k) = Memory.readBytes m a n ++
    Memory.readBytes m (a + n) k := by
  induction n generalizing a with
  | zero => simp [Memory.readBytes]
  | succ n ih =>
    rw [show n + 1 + k = (n + k) + 1 by omega]
    simp only [Memory.readBytes, ih, List.cons_append]
    rw [show a + 1 + n = a + (n + 1) by omega]

theorem Memory.readBytes_length (m : Memory) (a n : Nat) : (Memory.readBytes m a n).length = n := by
  induction n generalizing a with
  | zero => rfl
  | succ n ih => simp [Memory.readBytes, ih]

/-! ### Drives, counters and replies -/

theorem driveAt_param_zero (d : DriveId) (l : List Byte) : driveAt (d.param :: l) 0 = some d := by cases d <;> rfl

theorem driveAt_param_one (b : Byte) (d : DriveId) (l : List Byte) : driveAt (b :: d.param :: l) 1 = some d := by
    cases d <;> rfl

theorem DriveStats.bytes_length (t : DriveStats) : t.bytes.length = 60 := by
  simp [DriveStats.bytes, DriveStats.toList, leBytes]

/-- Counter `i` of a drive stands at byte `4 * i`. -/
theorem DriveStats.leField_bytes (t : DriveStats) (i : Nat) (hi : i < 15) : leField t.bytes 4 (4 * i) = (t.toList.getD
    i 0).toNat := by
  have key : ∀ l : List (BitVec 32), ∀ i, i < l.length → leField (l.flatMap fun v => leBytes 4 v.toNat) 4 (4 * i) =
      (l.getD i 0).toNat := by
    intro l
    induction l with
    | nil => intro i h; simp at h
    | cons x l ih =>
      intro i hi
      simp only [List.flatMap_cons]
      cases i with
      | zero => rw [leField_leBytes4 _ (by have := x.isLt; omega)]; rfl
      | succ i =>
        have : 4 * (i + 1) = (leBytes 4 x.toNat).length + 4 * i := by simp [leBytes]; omega
        rw [this, leField_append_right, ih i (by simpa using hi)]
        simp
  exact key _ i (by simpa [DriveStats.toList] using hi)

theorem Event.pos_lt (x : Event) : x.pos < 13 := by cases x <;> decide

theorem Event.exists_pos (i : Nat) (h : i < 13) : ∃ x : Event, x.pos = i := by
  match i, h with
  | 0, _ => exact ⟨.deferReady, rfl⟩
  | 1, _ => exact ⟨.mediumComplete, rfl⟩
  | 2, _ => exact ⟨.workIdle, rfl⟩
  | 3, _ => exact ⟨.restEntered, rfl⟩
  | 4, _ => exact ⟨.driveOffline, rfl⟩
  | 5, _ => exact ⟨.mediumChanged, rfl⟩
  | 6, _ => exact ⟨.linkFault, rfl⟩
  | 7, _ => exact ⟨.portError, rfl⟩
  | 8, _ => exact ⟨.loadDone, rfl⟩
  | 9, _ => exact ⟨.writeDone, rfl⟩
  | 10, _ => exact ⟨.wake, rfl⟩
  | 11, _ => exact ⟨.mapLost, rfl⟩
  | 12, _ => exact ⟨.resetDone, rfl⟩

/-- A reply frame passes its check exactly when its last byte is the CRC-8 of the rest. -/
theorem replyCrcOk_iff (l : List Byte) : replyCrcOk l = true ↔ ∃ m, l = m ++ [crc8 m] := by
  unfold replyCrcOk
  constructor
  · intro h
    have h := by simpa using h
    refine ⟨l.dropLast, ?_⟩
    have hne : l ≠ [] := by rintro rfl; simp at h
    rw [List.getLast?_eq_some_getLast hne] at h
    have := List.dropLast_append_getLast hne
    rw [← Option.some.inj h]; exact this.symm
  · rintro ⟨m, rfl⟩; simp

end Sys2Proof.Machine
end

