-- ==== Sys2Proof/Laws/Effects.lean ====
section
/-! SUPPORT. What each shared operation does, said once: unit records, releases, terminal states, the loss of a mount,
the end of an attempt, link requests, link faults and the medium report. -/
namespace Sys2Proof.Machine

/-! ### Unit records -/

/-- A unit record written touches the Recovery Map alone. -/
theorem State.setUnit_eq (s : State) (d u r) : s.setUnit d u r = { s with unitMap := (s.setUnit d u r).unitMap } := by
  unfold State.setUnit; split <;> rfl

theorem State.unitRec_of {s : State} {d m} (h : s.mounts.get d = some m) (u : Nat) : s.unitRec d u = Sparse.get .fresh
    s.unitMap (m.mapFirst + u) := by
  simp [State.unitRec, h]

/-- A unit record reads back, and the others stay. -/
theorem State.unitRec_setUnit (s : State) (d : DriveId) (u r) {m} (h : s.mounts.get d = some m) (u' : Nat) :
    (s.setUnit d u r).unitRec d u' = if u' = u then r else s.unitRec d u' := by
  have : s.setUnit d u r = { s with unitMap := Sparse.set .fresh s.unitMap (m.mapFirst + u) r } := by
    unfold State.setUnit; rw [h]
  rw [this, State.unitRec_of (m := m) h, State.unitRec_of (m := m) (by exact h)]
  show Sparse.get _ (Sparse.set _ _ _ _) _ = _
  split
  · rename_i hu; subst hu; rw [Sparse.get_set]
  · rename_i hu; rw [Sparse.get_set_ne]; omega

theorem State.unitRec_congr {s t : State} (h1 : t.mounts = s.mounts) (h2 : t.unitMap = s.unitMap) (d u) : t.unitRec d
    u = s.unitRec d u := by
  unfold State.unitRec; rw [h1, h2]

/-- A unit record written leaves the map at every other address. -/
theorem State.setUnit_map (s : State) (d u r) {m} (h : s.mounts.get d = some m) (k : Nat) (hk : k ≠ m.mapFirst + u) :
    Sparse.get .fresh (s.setUnit d u r).unitMap k = Sparse.get .fresh s.unitMap k := by
  unfold State.setUnit; rw [h]; exact Sparse.get_set_ne _ _ hk

/-- R44, R82, R173: all that the opening of a context does. -/
theorem State.openContext_eq (s : State) (i : Nat) (d : DriveId) (m : MountRec) (u : Nat) :
    s.openContext i d m u = { s with
      contexts := s.contexts.set i
        (some ⟨.collecting, d, some u, m.snap.b, List.replicate (8 * m.snap.b) 0, false⟩)
      unitMap := (s.setUnit d u { s.unitRec d u with state := .active }).unitMap
      ctxReq := s.ctxReq.set d none
      ctxLast := d
      scheds := s.scheds.set d ((s.scheds.get d).begun u) } := by
  cases h : s.mounts.get d <;>
    simp [State.openContext, State.setUnit, State.setCtx, State.unitRec, State.setSched, State.setCtxReq, h]

/-! ### Releases (R14, R17, R45, R46) -/

/-- The context of a number after the release of all that are held for a drive. -/
def freedFor (d : DriveId) (c : Option OpenCtx) : Option OpenCtx := if c.any (fun c => c.drive == d) then none else c

theorem State.releaseUnit_eq (s : State) (l c) : s.releaseUnit l c = { s with unitMap := (s.releaseUnit l c).unitMap }
    := by
  unfold State.releaseUnit
  split
  · rfl
  · simp only; rw [State.setUnit_eq]

theorem State.releaseOf_eq (s : State) (l d) (i : Nat) : s.releaseOf l d i =
    { s with unitMap := (s.releaseOf l d i).unitMap, contexts := (s.releaseOf l d i).contexts } := by
  unfold State.releaseOf
  split
  · split
    · rw [State.release, State.releaseUnit_eq]; rfl
    · rfl
  · rfl

theorem State.releaseDrive_fold (l d) (is : List Nat) (s : State) : is.foldl (fun s i => s.releaseOf l d i) s =
    { s with unitMap := (is.foldl (fun s i => s.releaseOf l d i) s).unitMap,
             contexts := (is.foldl (fun s i => s.releaseOf l d i) s).contexts } := by
  induction is generalizing s with
  | nil => rfl
  | cons i is ih => simp only [List.foldl_cons]; rw [ih]; rw [State.releaseOf_eq]

/-- A release touches the map and the contexts alone. -/
theorem State.releaseDrive_eq (s : State) (l d) : s.releaseDrive l d =
    { s with unitMap := (s.releaseDrive l d).unitMap, contexts := (s.releaseDrive l d).contexts } :=
        State.releaseDrive_fold l d _ s

@[simp] theorem State.releaseDrive_pending (s : State) (l : Bool) (d : DriveId) : (s.releaseDrive l d).pending =
    s.pending := by rw [State.releaseDrive_eq]

@[simp] theorem State.releaseDrive_now (s : State) (l : Bool) (d : DriveId) : (s.releaseDrive l d).now = s.now := by
    rw [State.releaseDrive_eq]

@[simp] theorem State.releaseDrive_ports (s : State) (l : Bool) (d : DriveId) : (s.releaseDrive l d).ports = s.ports
    := by rw [State.releaseDrive_eq]

@[simp] theorem State.releaseDrive_options (s : State) (l : Bool) (d : DriveId) : (s.releaseDrive l d).options =
    s.options := by rw [State.releaseDrive_eq]

@[simp] theorem State.releaseDrive_views (s : State) (l : Bool) (d : DriveId) : (s.releaseDrive l d).views = s.views
    := by rw [State.releaseDrive_eq]

@[simp] theorem State.releaseDrive_streams (s : State) (l : Bool) (d : DriveId) : (s.releaseDrive l d).streams =
    s.streams := by rw [State.releaseDrive_eq]

@[simp] theorem State.releaseDrive_deferred (s : State) (l : Bool) (d : DriveId) : (s.releaseDrive l d).deferred =
    s.deferred := by rw [State.releaseDrive_eq]

@[simp] theorem State.releaseDrive_events (s : State) (l : Bool) (d : DriveId) : (s.releaseDrive l d).events =
    s.events := by rw [State.releaseDrive_eq]

@[simp] theorem State.releaseDrive_errors (s : State) (l : Bool) (d : DriveId) : (s.releaseDrive l d).errors =
    s.errors := by rw [State.releaseDrive_eq]

@[simp] theorem State.releaseDrive_linkFault (s : State) (l : Bool) (d : DriveId) : (s.releaseDrive l d).linkFault =
    s.linkFault := by rw [State.releaseDrive_eq]

@[simp] theorem State.releaseDrive_mounts (s : State) (l : Bool) (d : DriveId) : (s.releaseDrive l d).mounts =
    s.mounts := by rw [State.releaseDrive_eq]

@[simp] theorem State.releaseDrive_discard (s : State) (l : Bool) (d : DriveId) : (s.releaseDrive l d).discard =
    s.discard := by rw [State.releaseDrive_eq]

@[simp] theorem State.releaseDrive_works (s : State) (l : Bool) (d : DriveId) : (s.releaseDrive l d).works = s.works
    := by rw [State.releaseDrive_eq]

@[simp] theorem State.releaseDrive_ctxReq (s : State) (l : Bool) (d : DriveId) : (s.releaseDrive l d).ctxReq =
    s.ctxReq := by rw [State.releaseDrive_eq]

@[simp] theorem State.releaseDrive_ctxLast (s : State) (l : Bool) (d : DriveId) : (s.releaseDrive l d).ctxLast =
    s.ctxLast := by rw [State.releaseDrive_eq]

@[simp] theorem State.releaseDrive_scheds (s : State) (l : Bool) (d : DriveId) : (s.releaseDrive l d).scheds =
    s.scheds := by rw [State.releaseDrive_eq]

@[simp] theorem State.releaseDrive_attempts (s : State) (l : Bool) (d : DriveId) : (s.releaseDrive l d).attempts =
    s.attempts := by rw [State.releaseDrive_eq]

@[simp] theorem State.releaseDrive_drives (s : State) (l : Bool) (d : DriveId) : (s.releaseDrive l d).drives =
    s.drives := by rw [State.releaseDrive_eq]

@[simp] theorem State.releaseDrive_link (s : State) (l : Bool) (d : DriveId) : (s.releaseDrive l d).link = s.link :=
    by rw [State.releaseDrive_eq]

@[simp] theorem State.releaseDrive_rests (s : State) (l : Bool) (d : DriveId) : (s.releaseDrive l d).rests = s.rests
    := by rw [State.releaseDrive_eq]

@[simp] theorem State.releaseDrive_power (s : State) (l : Bool) (d : DriveId) : (s.releaseDrive l d).power = s.power
    := by rw [State.releaseDrive_eq]

@[simp] theorem State.releaseDrive_stats (s : State) (l : Bool) (d : DriveId) : (s.releaseDrive l d).stats = s.stats
    := by rw [State.releaseDrive_eq]

@[simp] theorem State.releaseDrive_served (s : State) (l : Bool) (d : DriveId) : (s.releaseDrive l d).served =
    s.served := by rw [State.releaseDrive_eq]

@[simp] theorem State.releaseDrive_table (s : State) (l : Bool) (d : DriveId) : (s.releaseDrive l d).table = s.table
    := by rw [State.releaseDrive_eq]

@[simp] theorem State.releaseDrive_loader (s : State) (l : Bool) (d : DriveId) : (s.releaseDrive l d).loader =
    s.loader := by rw [State.releaseDrive_eq]

@[simp] theorem State.releaseDrive_settings (s : State) (l : Bool) (d : DriveId) : (s.releaseDrive l d).settings =
    s.settings := by rw [State.releaseDrive_eq]

@[simp] theorem State.releaseDrive_store (s : State) (l : Bool) (d : DriveId) : (s.releaseDrive l d).store = s.store
    := by rw [State.releaseDrive_eq]

@[simp] theorem State.releaseDrive_saved (s : State) (l : Bool) (d : DriveId) : (s.releaseDrive l d).saved = s.saved
    := by rw [State.releaseDrive_eq]

theorem State.releaseOf_contexts (s : State) (l d) (i : Nat) (hi : i < 8) : (s.releaseOf l d i).contexts =
    s.contexts.set i (freedFor d ((s.contexts.get? i).getD none)) := by
  unfold State.releaseOf
  have hset : ∀ (x : Oct (Option OpenCtx)) v, x.get? i = some v → x.set i v = x := by
    intro x v
    match i, hi with
    | 0, _ | 1, _ | 2, _ | 3, _ | 4, _ | 5, _ | 6, _ | 7, _ =>
      simp only [Oct.get?, Oct.set, Option.some.injEq]
      rintro rfl
      rfl
  split
  · rename_i c h
    rw [h]; simp only [Option.getD_some, freedFor, Option.any_some]
    split
    · rw [State.release, State.releaseUnit_eq]; rfl
    · exact (hset _ _ h).symm
  · rename_i hne
    cases hg : s.contexts.get? i with
    | none =>
      exfalso
      match i, hi with
      | 0, _ | 1, _ | 2, _ | 3, _ | 4, _ | 5, _ | 6, _ | 7, _ => simp [Oct.get?] at hg
    | some o =>
      cases o with
      | none => simp [freedFor]; exact (hset _ _ hg).symm
      | some c => exact absurd hg (hne c)

/-- Every context held for the drive becomes FREE and no other. -/
theorem State.releaseDrive_contexts (s : State) (l d) : (s.releaseDrive l d).contexts = s.contexts.map (freedFor d) :=
    by
  have : List.range 8 = [0,1,2,3,4,5,6,7] := rfl
  unfold State.releaseDrive
  rw [this]
  simp only [List.foldl_cons, List.foldl_nil]
  repeat rw [State.releaseOf_contexts _ _ _ _ (by omega)]
  rfl

theorem State.releaseOf_unit (s : State) (d : DriveId) (i : Nat) {m} (h : s.mounts.get d = some m) (u : Nat) :
    (s.releaseOf false d i).unitRec d u =
      if ((s.contexts.get? i).getD none).any (fun c => c.drive == d && c.unit == some u) then
          { s.unitRec d u with state := .tried }
      else s.unitRec d u := by
  unfold State.releaseOf
  split
  · rename_i c hc
    rw [hc]
    simp only [Option.getD_some, Option.any_some]
    split
    · rename_i hd
      have hrel : ∀ t : State, (t.release i).unitRec d u = t.unitRec d u := fun _ => rfl
      rw [hrel]
      unfold State.releaseUnit
      simp only [hd, Bool.true_and]
      have hd' : c.drive = d := by simpa using hd
      cases hu : c.unit with
      | none => simp
      | some w =>
        simp only [hd']
        rw [State.unitRec_setUnit _ _ _ _ h]
        by_cases hw : u = w
        · subst hw; cases c.phase <;> simp
        · have : (some w == some u) = false := by simp; exact fun h => hw h.symm
          rw [this]; simp [hw]
    · rename_i hd; simp [hd]
  · rename_i hne
    cases hg : (s.contexts.get? i) with
    | none => simp
    | some o =>
      cases o with
      | none => simp
      | some c => exact absurd hg (hne c)

/-- R22: the units of the released contexts become TRIED and no other record changes. -/
theorem State.releaseDrive_unit (s : State) (d : DriveId) {m} (h : s.mounts.get d = some m) (u : Nat) :
    (s.releaseDrive false d).unitRec d u =
      if s.contexts.toList.any (fun c => c.any fun c => c.drive == d && c.unit == some u) then
          { s.unitRec d u with state := .tried }
      else s.unitRec d u := by
  have hr : List.range 8 = [0,1,2,3,4,5,6,7] := rfl
  have hmt : ∀ (t : State) i, (t.releaseOf false d i).mounts = t.mounts := by intro t i; rw [State.releaseOf_eq]
  have hg : ∀ is : List Nat, is.Nodup → (∀ i ∈ is, i < 8) → ∀ t : State, t.mounts.get d = some m →
      (is.foldl (fun s i => s.releaseOf false d i) t).unitRec d u =
        if is.any (fun i => ((t.contexts.get? i).getD none).any (fun c => c.drive == d && c.unit == some u)) then
            { t.unitRec d u with state := .tried }
        else t.unitRec d u := by
    intro is
    induction is with
    | nil => intro _ _ t _; simp
    | cons i is ih =>
      intro hn hl t ht
      simp only [List.nodup_cons] at hn
      simp only [List.foldl_cons]
      rw [ih hn.2 (fun j hj => hl j (by simp [hj])) _ (by rw [hmt]; exact ht)]
      have hc : ∀ j ∈ is, (t.releaseOf false d i).contexts.get? j = t.contexts.get? j := by
        intro j hj
        rw [State.releaseOf_contexts _ _ _ _ (hl i (by simp)), Oct.get?_set_ne]
        rintro rfl; exact hn.1 hj
      have ha : is.any (fun j => (((t.releaseOf false d i).contexts.get? j).getD none).any (fun c => c.drive == d &&
          c.unit == some u)) =
          is.any (fun j => ((t.contexts.get? j).getD none).any (fun c => c.drive == d && c.unit == some u)) := by
        clear ih hn
        induction is with
        | nil => rfl
        | cons j js ih2 =>
          simp only [List.any_cons]
          rw [hc j (by simp), ih2 (fun k hk => hl k (by simp at hk ⊢; tauto)) (fun k hk => hc k (by simp [hk]))]
      rw [ha, State.releaseOf_unit _ _ _ ht]
      simp only [List.any_cons]
      by_cases hb : ((t.contexts.get? i).getD none).any (fun c => c.drive == d && c.unit == some u) = true <;> simp
          [hb]
  unfold State.releaseDrive
  rw [hg _ (by rw [hr]; decide) (by rw [hr]; decide) s h, hr]
  rfl

/-- R22: the release of a drive's contexts leaves the map wherever no unit of theirs has its record. -/
theorem State.releaseDrive_map (s : State) (l) (d : DriveId) (k : Nat)
    (hk : ∀ m, s.mounts.get d = some m → ∀ c ∈ s.contexts.toList, ∀ x, c = some x → x.drive = d → ∀ u,
      x.unit = some u → k ≠ m.mapFirst + u) :
    Sparse.get .fresh (s.releaseDrive l d).unitMap k = Sparse.get .fresh s.unitMap k := by
  have one : ∀ (t : State) i, (∀ m, t.mounts.get d = some m → ∀ x, t.contexts.get? i = some (some x) → x.drive = d →
      ∀ u, x.unit = some u → k ≠ m.mapFirst + u) →
      Sparse.get .fresh (t.releaseOf l d i).unitMap k = Sparse.get .fresh t.unitMap k := by
    intro t i h
    unfold State.releaseOf
    split
    · rename_i c hc
      split
      · rename_i hd
        have hd : c.drive = d := by simpa using hd
        show Sparse.get _ (t.releaseUnit l c).unitMap k = _
        unfold State.releaseUnit
        split
        · rfl
        · rename_i u hu
          simp only
          cases hm : t.mounts.get d with
          | none => unfold State.setUnit; rw [hd, hm]
          | some m => exact State.setUnit_map _ _ _ _ (by rw [hd]; exact hm) _ (h m hm c hc hd u hu)
      · rfl
    · rfl
  have all : ∀ is : List Nat, is.Nodup → (∀ i ∈ is, i < 8) → ∀ t : State,
      (∀ i ∈ is, ∀ m, t.mounts.get d = some m → ∀ x, t.contexts.get? i = some (some x) → x.drive = d →
        ∀ u, x.unit = some u → k ≠ m.mapFirst + u) →
      Sparse.get .fresh (is.foldl (fun s i => s.releaseOf l d i) t).unitMap k = Sparse.get .fresh t.unitMap k := by
    intro is
    induction is with
    | nil => intro _ _ _ _; rfl
    | cons i is ih =>
      intro hn hl t h
      simp only [List.nodup_cons] at hn
      simp only [List.foldl_cons]
      rw [ih hn.2 (fun j hj => hl j (by simp [hj])) _ (fun j hj m hm x hx => ?_), one t i (h i (by simp))]
      rw [State.releaseOf_contexts _ _ _ _ (hl i (by simp)), Oct.get?_set_ne _ (by rintro rfl; exact hn.1 hj)] at hx
      exact h j (by simp [hj]) m (by rw [State.releaseOf_eq] at hm; exact hm) x hx
  have hr : List.range 8 = [0,1,2,3,4,5,6,7] := rfl
  refine all _ (by rw [hr]; decide) (by rw [hr]; decide) s fun i _ m hm x hx => hk m hm (some x) ?_ x rfl
  rcases i with _ | _ | _ | _ | _ | _ | _ | _ | i <;> simp [Oct.get?, Oct.toList] at hx ⊢ <;> simp [hx]

/-! ### Counting, work lists and terminal states (R24, R25, R34) -/

/-- R83: a request whose unit has no entry is withdrawn, and nothing else changes. -/
theorem State.dropRequest_eq (s : State) (d) : s.dropRequest d = { s with
    ctxReq := s.ctxReq.set d ((s.ctxReq.get d).filter fun u => (s.entryOf d u).isSome) } := by
  unfold State.dropRequest State.setCtxReq
  split
  · rename_i u hu
    rw [hu, Option.filter_some]
    split
    · rw [Quad.set_self _ _ _ hu.symm]
    · rfl
  · rename_i hu
    rw [hu, Option.filter_none, Quad.set_self _ _ _ hu.symm]

/-- R30, R31, R83: entries leave, and the request of a unit that has none left is withdrawn. -/
theorem State.leaveWork_eq (s : State) (d w) : s.leaveWork d w = { s with
    works := s.works.set d w
    ctxReq := s.ctxReq.set d ((s.ctxReq.get d).filter fun u => (w.find? fun e => e.unit == u).isSome) } := by
  unfold State.leaveWork
  rw [State.dropRequest_eq]
  simp [State.setWork, State.entryOf]

/-- R116: a part that new work wakes. -/
def State.woken (s : State) (d : DriveId) : Power :=
  if s.isMounted d = true ∧ s.power.state = .quiet then { s.power with state := .active } else s.power

/-- R29, R116: all that the adding of an entry does. -/
theorem State.insertEntry_eq (s : State) (d e) : s.insertEntry d e = { s with
    works := s.works.set d (s.works.get d ++ [e]), power := s.woken d } := by
  have hm : (s.setWork d (s.works.get d ++ [e])).isMounted d = s.isMounted d := rfl
  unfold State.insertEntry State.woken State.newWork
  simp only [hm]
  by_cases h : s.isMounted d = true <;> by_cases hq : s.power.state = .quiet <;> simp [h, hq, State.setWork]

/-- R69: the schedulers after a demand that is taken. -/
def State.owing (s : State) (d : DriveId) : Demand → Quad Sched
  | .direct _ | .ahead _ => s.scheds.set d { s.scheds.get d with owed := true }
  | .sweep => s.scheds

/-- R69: all that a demand that is taken leaves behind. -/
theorem State.placed_eq (s : State) (d k) : s.placed d k = { s with scheds := s.owing d k } := by
  cases k <;> rfl

/-- R30, R32: all that a displacement does. -/
theorem State.displace_eq (s : State) (d e) : s.displace d e = { s with
    works := s.works.set d ((s.works.get d).filter fun e' => e'.unit != e.unit)
    ctxReq := s.ctxReq.set d ((s.ctxReq.get d).filter fun u =>
      (((s.works.get d).filter fun e' => e'.unit != e.unit).find? fun e' => e'.unit == u).isSome)
    mounts := if e.sweep then s.mounts.set d ((s.mounts.get d).map fun m =>
      { m with cursor := min m.cursor e.unit, sweepOn := true }) else s.mounts } := by
  unfold State.displace
  rw [State.leaveWork_eq]
  simp only
  split
  · cases hm : s.mounts.get d with
    | none => simp only [Option.map_none]; rw [Quad.set_self _ _ _ hm.symm]
    | some m => rfl
  · rfl

/-- R17: a displacement leaves the phase of the mount. -/
theorem State.displace_woken (s : State) (d e) : (s.displace d e).woken d = s.woken d := by
  have hm : (s.displace d e).isMounted d = s.isMounted d := by
    rw [State.displace_eq]; unfold State.isMounted
    by_cases he : e.sweep = true
    · simp only [he, if_true, Quad.get_set]; cases s.mounts.get d <;> rfl
    · simp only [he]; rfl
  unfold State.woken
  rw [hm, State.displace_eq]

/-- A demand touches the list, the power state, the mount's sweep, the waiting request and the choice owed. -/
theorem State.demand_frame (s : State) (d u k) : (s.demand d u k).1 = { s with
    works := (s.demand d u k).1.works, power := (s.demand d u k).1.power, ctxReq := (s.demand d u k).1.ctxReq
    mounts := (s.demand d u k).1.mounts, scheds := (s.demand d u k).1.scheds } := by
  unfold State.demand
  split
  · rfl
  · split
    · simp only; rw [State.placed_eq]; unfold State.newWork; split <;> (try split) <;> rfl
    · split
      · simp only; rw [State.placed_eq, State.insertEntry_eq]
      · split
        · simp only; rw [State.placed_eq, State.insertEntry_eq, State.displace_eq]
        · rfl

/-- R69: a port's demand that is Merged or Inserted leaves a choice owed. -/
theorem State.demand_scheds (s : State) (d u k) (h : (s.demand d u k).2 = .merged ∨ (s.demand d u k).2 = .inserted) :
    (s.demand d u k).1.scheds = s.owing d k := by
  have hp : ∀ t : State, t.scheds = s.scheds → (t.placed d k).scheds = s.owing d k := by
    intro t ht; rw [State.placed_eq]; cases k <;> simp [State.owing, ht]
  unfold State.demand at h ⊢
  split at h
  · simp at h
  rename_i h0
  rw [if_neg h0]
  split at h
  · refine hp _ ?_
    split
    · unfold State.newWork; split <;> rfl
    · rfl
  · split at h
    · rename_i hl; rw [if_pos hl]; exact hp _ (by rw [State.insertEntry_eq])
    · rename_i hl; rw [if_neg hl]
      split at h
      · exact hp _ (by rw [State.insertEntry_eq, State.displace_eq])
      · cases k <;> simp at h

theorem State.shrinkWork_eq (s : State) (d w) : s.shrinkWork d w = { s with
    works := s.works.set d w
    ctxReq := s.ctxReq.set d ((s.ctxReq.get d).filter fun u => (w.find? fun e => e.unit == u).isSome)
    events := (s.shrinkWork d w).events } := by
  unfold State.shrinkWork
  simp only
  rw [State.leaveWork_eq]
  split <;> rfl

theorem State.countTerminal_eq (s : State) (d) {m} (h : s.mounts.get d = some m) : s.countTerminal d =
    { s with
      mounts := s.mounts.set d (some { m with terminal := m.terminal + 1 })
      events := (s.countTerminal d).events } := by
  unfold State.countTerminal; simp only [h]; split <;> rfl

/-- A raised flag stays set whatever else is raised. -/
theorem State.raise_stays (s : State) (p q) (e e' : Event) (h : (s.events.get q).raw.getLsbD e.pos = true) :
    ((s.raise p e').events.get q).raw.getLsbD e.pos = true := by
  by_cases hq : q = p
  · subst hq; simp [h]
  · rw [State.raise_events, Pair.get_set_ne _ hq]; exact h

/-- R34: the last entry leaves while the sweep is off. -/
theorem State.shrinkWork_idle (s : State) (d) (h : s.works.get d ≠ []) (ho : s.sweepOn d = false) (p) :
    ((s.shrinkWork d []).events.get p).raw.getLsbD Event.workIdle.pos = true := by
  unfold State.shrinkWork
  simp only
  rw [if_pos (by simp [h, ho])]
  cases p <;> simp [State.raiseBoth, State.raise, Pair.get, Pair.set] <;> right <;> decide

theorem State.countTerminal_stays (s : State) (d) {m} (h : s.mounts.get d = some m) (q) (e : Event)
    (hr : (s.events.get q).raw.getLsbD e.pos = true) : ((s.countTerminal d).events.get q).raw.getLsbD e.pos = true := by
  unfold State.countTerminal
  simp only [h]
  split
  · exact State.raise_stays _ _ _ _ _ (State.raise_stays _ _ _ _ _ hr)
  · exact hr

theorem State.countTerminal_raw (s : State) (d) {m} (h : s.mounts.get d = some m) (hu : m.terminal + 1 = m.u) (p) :
    ((s.countTerminal d).events.get p).raw.getLsbD Event.mediumComplete.pos = true := by
  unfold State.countTerminal; simp only [h, hu, if_true]
  cases p <;> simp [State.raiseBoth, State.raise, Pair.get, Pair.set, State.setMount] <;> right <;> decide

/-- A counter rises by 1 and the others stay. -/
theorem State.stats_count (t : State) (d i j) (hi : i < 15) : ((t.count d i).stats.get d).toList.getD j 0 =
    (t.stats.get d).toList.getD j 0 + (if j = i then 1 else 0) := by
  have : (t.count d i).stats.get d = (t.stats.get d).write i ((t.stats.get d).toList.getD i 0 + 1) := by
    simp [State.count, State.setStats]
  rw [this]
  generalize t.stats.get d = w
  by_cases hj : j < 15
  · interval_cases i <;> interval_cases j <;> simp [DriveStats.write, DriveStats.toList]
  · rw [if_neg (by omega)]
    have hl : ∀ x : DriveStats, x.toList.getD j 0 = 0 := by
      intro x; rw [List.getD_eq_default]; simp [DriveStats.toList]; omega
    rw [hl, hl]; simp

theorem State.readyOn_eq (s : State) (d u p) : s.readyOn d u p =
    { s with deferred := (s.readyOn d u p).deferred, events := (s.readyOn d u p).events } := by
  unfold State.readyOn; simp only; split <;> rfl

/-- R145: the entries of a port that become READY. -/
theorem State.readyOn_deferred (s : State) (d u p) : (s.readyOn d u p).deferred = s.deferred.set p ((s.deferred.get
    p).map fun e =>
    if e.state = .pending ∧ e.drive = d ∧ e.first ≤ u ∧ u < e.first + e.n ∧ (∀ i, i < e.n → s.isTerminal d (e.first +
        i) = true)
      then { e with state := .ready } else e) := by
  have hm : ∀ e : Deferred, (e.state == .pending && e.drive == d && decide (e.first ≤ u) && decide (u < e.first + e.n)
      &&
      (List.range e.n).all fun i => s.isTerminal d (e.first + i)) = true ↔ (e.state = .pending ∧ e.drive = d ∧ e.first
          ≤ u ∧ u < e.first + e.n ∧ (∀ i, i < e.n → s.isTerminal d (e.first + i) = true)) := by
    intro e; simp [and_assoc]
  unfold State.readyOn
  simp only
  split
  · simp only [State.raise, State.setDeferred]
    congr 1
    apply List.map_congr_left
    intro e _
    by_cases hh : (e.state = .pending ∧ e.drive = d ∧ e.first ≤ u ∧ u < e.first + e.n ∧ (∀ i, i < e.n → s.isTerminal d
        (e.first + i) = true))
    · rw [if_pos hh, if_pos ((hm e).2 hh)]
    · rw [if_neg hh, if_neg (fun hc => hh ((hm e).1 hc))]
  · rename_i hn
    rw [Pair.set_self]
    conv_rhs => rw [← List.map_id (s.deferred.get p)]
    apply List.map_congr_left
    intro e he
    have : ¬ (e.state = .pending ∧ e.drive = d ∧ e.first ≤ u ∧ u < e.first + e.n ∧ (∀ i, i < e.n → s.isTerminal d
        (e.first + i) = true)) := by
      intro hc
      exact hn (List.any_eq_true.2 ⟨e, he, (hm e).2 hc⟩)
    rw [if_neg this]; rfl

theorem State.readyOn_raw (s : State) (d u p q) (e : Event) (h : (s.events.get q).raw.getLsbD e.pos = true) :
    ((s.readyOn d u p).events.get q).raw.getLsbD e.pos = true := by
  unfold State.readyOn; simp only; split
  · exact State.raise_stays _ _ _ _ _ h
  · exact h

/-- R145: DEFER_READY is raised on a port of which an entry becomes READY. -/
theorem State.readyOn_raised (s : State) (d u p) (h : ∃ e ∈ s.deferred.get p, e.state = .pending ∧ e.drive = d ∧
    e.first ≤ u ∧ u < e.first + e.n ∧ (∀ i, i < e.n → s.isTerminal d (e.first + i) = true)) :
    ((s.readyOn d u p).events.get p).raw.getLsbD Event.deferReady.pos = true := by
  obtain ⟨e, he, h1, h2, h3, h4, h5⟩ := h
  unfold State.readyOn
  simp only
  rw [if_pos (List.any_eq_true.2 ⟨e, he, by simp [h1, h2, h3, h4]; exact h5⟩)]
  simp; right; decide

/-- What the entry of a unit into a terminal state does. -/
structure EntersTerminal (s t : State) (d : DriveId) (u : Nat) (m : MountRec) (r : UnitRec) : Prop where
  unit : t.unitRec d u = r
  units : ∀ u', u' ≠ u → t.unitRec d u' = s.unitRec d u'
  map : ∀ k, k ≠ m.mapFirst + u → Sparse.get .fresh t.unitMap k = Sparse.get .fresh s.unitMap k
  works : t.works = s.works.set d ((s.works.get d).filter fun e => e.unit != u)
  idle : s.works.get d ≠ [] → (∀ e ∈ s.works.get d, e.unit = u) → s.sweepOn d = false →
    ∀ p, (t.events.get p).raw.getLsbD Event.workIdle.pos = true
  ready : ∀ p, t.deferred.get p = (s.deferred.get p).map fun e =>
    if e.state = .pending ∧ e.drive = d ∧ e.first ≤ u ∧ u < e.first + e.n ∧
        (∀ i, i < e.n → t.isTerminal d (e.first + i) = true) then { e with state := .ready } else e
  readyRaw : ∀ p, (∃ e ∈ s.deferred.get p, e.state = .pending ∧ e.drive = d ∧ e.first ≤ u ∧ u < e.first + e.n ∧
    (∀ i, i < e.n → t.isTerminal d (e.first + i) = true)) → (t.events.get p).raw.getLsbD Event.deferReady.pos = true
  mounts : t.mounts = s.mounts.set d (some { m with terminal := m.terminal + 1 })
  raw : m.terminal + 1 = m.u → ∀ p, (t.events.get p).raw.getLsbD Event.mediumComplete.pos = true
  stats : t.stats = s.stats
  store : t.store = s.store
  contexts : t.contexts = s.contexts

/-- R24, R25. -/
theorem State.enterTerminal_spec (s : State) (d u m r) (hm : s.mounts.get d = some m) : EntersTerminal s
    (s.enterTerminal d u r) d u m r := by
  have e1 := State.setUnit_eq s d u r
  unfold State.enterTerminal
  simp only
  set s1 := s.setUnit d u r with hs1
  have hm1 : s1.mounts.get d = some m := by rw [e1]; exact hm
  have e2 := State.shrinkWork_eq s1 d ((s1.works.get d).filter fun e => e.unit != u)
  set s2 := s1.shrinkWork d ((s1.works.get d).filter fun e => e.unit != u) with hs2
  have hm2 : s2.mounts.get d = some m := by rw [e2]; exact hm1
  have e3 := State.countTerminal_eq s2 d hm2
  have r3 := State.countTerminal_raw s2 d hm2
  set s3 := s2.countTerminal d with hs3
  have e4 := State.readyOn_eq s3 d u .a
  set s4 := s3.readyOn d u .a with hs4
  have e5 := State.readyOn_eq s4 d u .b
  set s5 := s4.readyOn d u .b with hs5
  have hmf : s5.mounts = s.mounts.set d (some { m with terminal := m.terminal + 1 }) := by rw [e5, e4, e3, e2, e1]
  have hum : s5.unitMap = s1.unitMap := by rw [e5, e4, e3, e2]
  have hmf' : s5.mounts.get d = some { m with terminal := m.terminal + 1 } := by rw [hmf, Quad.get_set]
  have hur : ∀ x, s5.unitRec d x = s1.unitRec d x := by
    intro x; rw [State.unitRec_of hmf', State.unitRec_of hm1, hum]
  have hw1 : s1.works = s.works := by rw [e1]
  have ht : ∀ r : State, r.mounts.get d = some { m with terminal := m.terminal + 1 } → r.unitMap = s1.unitMap →
      ∀ x, r.isTerminal d x = s5.isTerminal d x := by
    intro r h1 h2 x
    unfold State.isTerminal
    rw [State.unitRec_of h1, State.unitRec_of hmf', h2, hum]
  have ht3 := ht s3 (by rw [e3]; simp) (by rw [e3, e2])
  have ht4 := ht s4 (by rw [e4, e3]; simp) (by rw [e4, e3, e2])
  have hd3 : s3.deferred = s.deferred := by rw [e3, e2, e1]
  have hd4 := State.readyOn_deferred s3 d u .a
  have hd5 := State.readyOn_deferred s4 d u .b
  rw [← hs4] at hd4
  rw [← hs5] at hd5
  simp only [ht3] at hd4
  simp only [ht4] at hd5
  refine ⟨?_, fun u' hu' => ?_, fun k hk => ?_, ?_, fun hne hall ho p => ?_,
    fun p => ?_, fun p hx => ?_, hmf, fun hu p => ?_, ?_, ?_,
    ?_⟩
  · rw [hur, hs1, State.unitRec_setUnit _ _ _ _ hm]; simp
  · rw [hur, hs1, State.unitRec_setUnit _ _ _ _ hm]; simp [hu']
  · rw [hum]; exact State.setUnit_map _ _ _ _ hm _ hk
  · rw [e5, e4, e3, e2, e1]
  · have hnil : (s1.works.get d).filter (fun e => e.unit != u) = [] := by
      rw [hw1, List.filter_eq_nil_iff]; intro e he; simp [hall e he]
    have i2 : (s2.events.get p).raw.getLsbD Event.workIdle.pos = true := by
      rw [hs2, hnil]
      exact State.shrinkWork_idle s1 d (by rw [hw1]; exact hne) (by unfold State.sweepOn at ho ⊢; rw [e1]; exact ho) p
    exact State.readyOn_raw _ _ _ _ _ _ (State.readyOn_raw _ _ _ _ _ _ (State.countTerminal_stays s2 d hm2 _ _ i2))
  · cases p with
    | a =>
      have : s5.deferred.get .a = s4.deferred.get .a := by rw [hd5, Pair.get_set_ne _ (by decide)]
      rw [this, hd4, Pair.get_set, hd3]
    | b =>
      have : s4.deferred.get .b = s.deferred.get .b := by rw [hd4, Pair.get_set_ne _ (by decide), hd3]
      rw [hd5, Pair.get_set, this]
  · cases p with
    | a =>
      refine State.readyOn_raw _ _ _ _ _ _ (State.readyOn_raised s3 d u .a ?_)
      simp only [ht3, hd3]; exact hx
    | b =>
      refine State.readyOn_raised s4 d u .b ?_
      have : s4.deferred.get .b = s.deferred.get .b := by rw [hd4, Pair.get_set_ne _ (by decide), hd3]
      simp only [ht4, this]; exact hx
  · exact State.readyOn_raw _ _ _ _ _ _ (State.readyOn_raw _ _ _ _ _ _ (r3 hu p))
  · rw [e5, e4, e3, e2, e1]
  · rw [e5, e4, e3, e2, e1]
  · rw [e5, e4, e3, e2, e1]

theorem recoveredBin_range (a) : recoveredBin a < 8 ∧ 2 ≤ recoveredBin a := by unfold recoveredBin; split_ifs <;>
    omega

/-! ### Evaluations (R58, R62) -/

theorem get_setUnit (s : State) (d u r) : (s.setUnit d u r).contexts = s.contexts ∧ (s.setUnit d u r).mounts =
    s.mounts ∧
    (s.setUnit d u r).stats = s.stats ∧ (s.setUnit d u r).store = s.store ∧ (s.setUnit d u r).works = s.works := by
  rw [State.setUnit_eq]; exact ⟨rfl, rfl, rfl, rfl, rfl⟩

/-- What an evaluation that ends without a terminal state does. -/
structure Decides (s t : State) (i : Nat) (c : OpenCtx) (u : Nat) (ph : CtxPhase) (r : UnitRec) : Prop where
  contexts : t.contexts = s.contexts.set i (some { c with phase := ph })
  unit : t.unitRec c.drive u = r
  stats : t.stats = s.stats
  store : t.store = s.store
  works : t.works = s.works
  mounts : t.mounts = s.mounts
  map : ∀ m, s.mounts.get c.drive = some m → ∀ k, k ≠ m.mapFirst + u →
    Sparse.get .fresh t.unitMap k = Sparse.get .fresh s.unitMap k

theorem State.decide_spec (s : State) (i c u m ph r) (hm : s.mounts.get c.drive = some m) : Decides s ((s.setUnit
    c.drive u r).setPhase i c ph) i c u ph r := by
  obtain ⟨h1, h2, h3, h4, h5⟩ := get_setUnit s c.drive u r
  refine ⟨by show (s.setUnit c.drive u r).contexts.set i _ = _; rw [h1], ?_, h3, h4, h5, h2,
    fun m' hm' k hk => State.setUnit_map _ _ _ _ hm' _ hk⟩
  have : ((s.setUnit c.drive u r).setPhase i c ph).unitRec c.drive u = (s.setUnit c.drive u r).unitRec c.drive u :=
      rfl
  rw [this, State.unitRec_setUnit _ _ _ _ hm]; simp

/-- R62: no limit is reached, and the context collects on. -/
theorem State.limitTest_open (s : State) (i c u m v sy amb) (hm : s.mounts.get c.drive = some m)
    (h : m.snap.attemptLimit = 0 ∨ v.attempts < m.snap.attemptLimit) :
    Decides s (s.limitTest i c u m v sy amb) i c u .collecting ((s.unitRec c.drive u).evaluated v amb) := by
  unfold State.limitTest
  simp only
  rw [if_neg (by omega)]
  exact State.decide_spec s i c u m _ _ hm

/-- R62: the limit is reached with contributing attempts, and the unit is to be stored EXHAUSTED. -/
theorem State.limitTest_exhausted (s : State) (i c u m) (v : EvalVals) (sy amb) (hm : s.mounts.get c.drive = some m)
    (h : m.snap.attemptLimit ≠ 0) (h2 : m.snap.attemptLimit ≤ v.attempts) (h3 : 0 < v.contributing) :
    Decides s (s.limitTest i c u m v sy amb) i c u (.storing ⟨.exhausted, .none, 0, (consensus c.votes).take
        m.snap.unitSize,
      weakMask m.snap.weakThreshold m.snap.unitSize c.votes⟩)
      ((s.unitRec c.drive u).evaluated (if sy then v else { v with weak := weakCount m.snap.weakThreshold c.votes })
          amb) := by
  unfold State.limitTest
  simp only
  rw [if_pos ⟨h, h2⟩, if_pos h3]
  exact State.decide_spec s i c u m _ _ hm

theorem State.ctxWork_some {s : State} {i c u m} (h1 : s.contexts.get? i = some (some c)) (h2 : c.unit = some u) (h3 :
    s.mounts.get c.drive = some m) :
    s.ctxWork i = some (c, u, m) := by
  unfold State.ctxWork; simp only [h1, h2, h3]

theorem State.ctxWork_inv {s : State} {i c u m} (h : s.ctxWork i = some (c, u, m)) : s.contexts.get? i = some (some c)
    ∧ c.unit = some u ∧ s.mounts.get c.drive = some m := by
  unfold State.ctxWork at h
  split at h
  · rename_i c' hc
    split at h
    · rename_i u' m' hu hm
      simp only [Option.some.injEq, Prod.mk.injEq] at h
      obtain ⟨rfl, rfl, rfl⟩ := h
      exact ⟨hc, hu, hm⟩
    · simp at h
  · simp at h

/-! ### Requests on the link and the end of an attempt (R79, R94) -/

/-- R94: a request adds a transaction that is not pending. -/
theorem State.request_eq (s : State) (d t) : s.request d t = s.setDrive d
    { s.drives.get d with pend := withTx (s.drives.get d).pend t } := by
  unfold State.request withTx; simp only [List.contains_eq_mem, decide_eq_true_eq]
  split
  · show s = { s with drives := s.drives.set d { s.drives.get d with pend := (s.drives.get d).pend } }
    rw [Quad.set_self]; rfl
  · rfl

theorem State.request_frame (s : State) (d t) : s.request d t = { s with drives := (s.request d t).drives } := by
  unfold State.request; simp only; split <;> rfl

/-- R79: all that the end of an attempt does. -/
theorem State.endAttempt_eq (s : State) (d) : s.endAttempt d = { s with
    attempts := s.attempts.set d none
    discard := s.discard.set d false
    drives := s.drives.set d { s.drives.get d with poll := none }
    contexts := match s.abandonPending d with | some i => s.contexts.set i none | none => s.contexts } := by
  unfold State.endAttempt
  simp only
  have : (((s.setAttempt d none).setDiscard d false).setDrive d
      { ((s.setAttempt d none).setDiscard d false).drives.get d with poll := none }).abandonPending
        d = s.abandonPending d := rfl
  rw [this]
  cases s.abandonPending d <;> rfl

/-! ### Loss of a mount (R17) -/

theorem State.ext_fields {a b : State} (h0 : a.pending = b.pending) (h1 : a.now = b.now) (h2 : a.ports = b.ports) (h3
    : a.options = b.options) (h4 : a.views = b.views) (h5 : a.streams = b.streams) (h6 : a.deferred = b.deferred) (h7
    : a.events = b.events) (h8 : a.errors = b.errors) (h9 : a.linkFault = b.linkFault) (h10 : a.mounts = b.mounts)
    (h11 : a.discard = b.discard) (h12 : a.unitMap = b.unitMap) (h13 : a.works = b.works) (h14 : a.contexts =
    b.contexts) (h15 : a.ctxReq = b.ctxReq) (h16 : a.ctxLast = b.ctxLast) (h17 : a.scheds = b.scheds) (h18 :
    a.attempts = b.attempts) (h19 : a.drives = b.drives) (h20 : a.link = b.link) (h21 : a.rests = b.rests) (h22 :
    a.power = b.power) (h23 : a.stats = b.stats) (h24 : a.served = b.served) (h25 : a.table = b.table) (h26 : a.loader
    = b.loader) (h27 : a.settings = b.settings) (h28 : a.store = b.store) (h29 : a.saved = b.saved) : a = b := by
  cases a; cases b; simp only at *; subst h0 h1 h2 h3 h4 h5 h6 h7 h8 h9 h10 h11 h12 h13 h14 h15 h16 h17 h18 h19 h20
      h21 h22 h23 h24 h25 h26 h27 h28 h29; rfl

/-- A part whose drive's mount `m` has become LOST. -/
def State.asLost (s : State) (d : DriveId) (m : MountRec) : State := { s with
        mounts := s.mounts.set d (some { m with phase := .lost })
        discard := s.discard.set d ((s.attempts.get d).isSome || s.discard.get d)
        works := s.works.set d ((s.works.get d).filter fun e => decide (s.effOf d e ≠ some .residual))
        contexts := s.contexts.map fun c => if c.any (fun c => c.drive == d) then none else c
        unitMap := (s.releaseDrive true d).unitMap
        ctxReq := s.ctxReq.set d none
        scheds := s.scheds.set d { s.scheds.get d with last := none, burst := 0 } }

theorem State.releaseUnit_map (s t : State) (l c) (h1 : s.unitMap = t.unitMap) (h2 : ∀ m, s.mounts.get c.drive = some
    m → ∃ m', t.mounts.get c.drive = some m' ∧ m'.mapFirst = m.mapFirst) (h3 : s.mounts.get c.drive = none →
    t.mounts.get c.drive = none) :
    (s.releaseUnit l c).unitMap = (t.releaseUnit l c).unitMap := by
  have hu : ∀ u, s.unitRec c.drive u = t.unitRec c.drive u := by
    intro u; unfold State.unitRec
    cases hm : s.mounts.get c.drive with
    | none => rw [h3 hm]
    | some m => obtain ⟨m', e1, e2⟩ := h2 m hm; rw [e1, h1]; simp only; rw [e2]
  have hs : ∀ u r, (s.setUnit c.drive u r).unitMap = (t.setUnit c.drive u r).unitMap := by
    intro u r; unfold State.setUnit
    cases hm : s.mounts.get c.drive with
    | none => rw [h3 hm]; exact h1
    | some m => obtain ⟨m', e1, e2⟩ := h2 m hm; rw [e1]; simp only; rw [h1, e2]
  unfold State.releaseUnit
  split
  · exact h1
  · simp only; rw [hs, hu]

theorem State.releaseFold_map (l d) (is : List Nat) (s t : State) (h1 : s.unitMap = t.unitMap) (h4 : s.contexts =
    t.contexts) (h2 : ∀ m, s.mounts.get d = some m → ∃ m', t.mounts.get d = some m' ∧ m'.mapFirst = m.mapFirst) (h3 :
    s.mounts.get d = none → t.mounts.get d = none) :
    (is.foldl (fun s i => s.releaseOf l d i) s).unitMap = (is.foldl (fun s i => s.releaseOf l d i) t).unitMap := by
  induction is generalizing s t with
  | nil => exact h1
  | cons i is ih =>
    simp only [List.foldl_cons]
    have e : ∀ r : State, (r.releaseOf l d i).mounts = r.mounts := by intro r; rw [State.releaseOf_eq]
    refine ih _ _ ?_ ?_ (by rw [e, e]; exact h2) (by rw [e, e]; exact h3)
    · unfold State.releaseOf
      rw [h4]
      split
      · split
        · rename_i c _ hc
          have hc : c.drive = d := by simpa using hc
          show (s.releaseUnit l c).unitMap = (t.releaseUnit l c).unitMap
          exact State.releaseUnit_map s t l c h1 (by rw [hc]; exact h2) (by rw [hc]; exact h3)
        · exact h1
      · exact h1
    · by_cases hi : i < 8
      · rw [State.releaseOf_contexts _ _ _ _ hi, State.releaseOf_contexts _ _ _ _ hi, h4]
      · have hn : ∀ r : State, r.contexts.get? i = none := by
          intro r
          match i, hi with
          | n + 8, _ => rfl
          | 0, h | 1, h | 2, h | 3, h | 4, h | 5, h | 6, h | 7, h => simp at h
        unfold State.releaseOf; rw [hn, hn]; exact h4

/-- R17: all that the loss of a MOUNTED mount does. -/
theorem State.loseMount_mounted (s : State) (d) {m} (h : s.mounts.get d = some m) (hp : m.phase = .mounted) :
    s.loseMount d = State.asLost s d m := by
  unfold State.loseMount
  rw [h]; simp only [hp, beq_self_eq_true, if_true]
  have hdis : (if (s.attempts.get d).isSome = true then (s.setMount d (some { m with phase := .lost })).setDiscard d
      true else (s.setMount d (some { m with phase := .lost }))) =
          (s.setMount d (some { m with phase := .lost })).setDiscard d ((s.attempts.get d).isSome || s.discard.get d)
              := by
        split
        · rename_i hh; simp [hh]
        · rename_i hh; simp [hh, State.setDiscard]
          rfl
  rw [hdis]
  unfold State.asLost
  apply State.ext_fields <;> simp [State.releaseDrive_contexts]
  · unfold State.releaseDrive
    apply State.releaseFold_map
    · rfl
    · rfl
    · intro m' hm'; simp [State.setWork, State.setDiscard, State.setMount] at hm'
      exact ⟨m, h, by rw [← hm']⟩
    · intro hm'; simp [State.setWork, State.setDiscard, State.setMount] at hm'
  · congr 1; apply List.filter_congr; intro e _; exact Bool.eq_iff_iff.mpr (by simp)
  · rfl
  · rfl

/-- R16: in the other states nothing happens. -/
theorem State.loseMount_same (s : State) (d) (h : ∀ m, s.mounts.get d = some m → m.phase ≠ .mounted) : s.loseMount d =
    s := by
  unfold State.loseMount
  split
  · rfl
  · rename_i m hm
    rw [if_neg (by simpa using h m hm)]

theorem State.loseMount_cases (s : State) (d) : s.loseMount d = s ∨ ∃ m, s.mounts.get d = some m ∧ m.phase = .mounted
    ∧ s.loseMount d = State.asLost s d m := by
  cases h : s.mounts.get d with
  | none => left; exact State.loseMount_same s d (by rw [h]; simp)
  | some m =>
    by_cases hp : m.phase = .mounted
    · right; exact ⟨m, rfl, hp, State.loseMount_mounted s d h hp⟩
    · left; exact State.loseMount_same s d (by rw [h]; rintro m' hm'; cases hm'; exact hp)

theorem State.loseMount_frame (s : State) (d) : s.loseMount d = { s with
    mounts := (s.loseMount d).mounts, discard := (s.loseMount d).discard, works := (s.loseMount d).works,
    contexts := (s.loseMount d).contexts, unitMap := (s.loseMount d).unitMap, ctxReq := (s.loseMount d).ctxReq,
    scheds := (s.loseMount d).scheds } := by
  rcases State.loseMount_cases s d with h | ⟨m, -, -, h⟩
  · rw [h]
  · rw [h]; rfl

theorem State.loseMount_mounts (s : State) (d) {m} (h : s.mounts.get d = some m) (hp : m.phase = .mounted) :
    (s.loseMount d).mounts = s.mounts.set d (some { m with phase := .lost }) := by
  rw [State.loseMount_mounted s d h hp]; rfl

theorem State.loseMount_position (s : State) (d e) : ((s.loseMount d).scheds.get e).position = (s.scheds.get
    e).position := by
  rcases State.loseMount_cases s d with h | ⟨m, -, -, h⟩ <;> rw [h]
  simp only [State.asLost]
  by_cases he : e = d
  · subst he; simp
  · rw [Quad.get_set_ne _ he]

theorem State.loseMount_fields (s : State) (d) : (s.loseMount d).attempts = s.attempts ∧ (s.loseMount d).store =
    s.store ∧ (s.loseMount d).rests = s.rests ∧ (s.loseMount d).linkFault = s.linkFault ∧
    (s.loseMount d).stats = s.stats ∧ (s.loseMount d).link = s.link ∧ (s.loseMount d).settings = s.settings ∧
        (s.loseMount d).drives = s.drives ∧ (s.loseMount d).now = s.now ∧ (s.loseMount d).power = s.power := by
  rcases State.loseMount_cases s d with h | ⟨m, -, -, h⟩ <;> rw [h] <;> exact ⟨rfl, rfl, rfl, rfl, rfl, rfl, rfl, rfl,
      rfl, rfl⟩

/-! ### UNMOUNT (R14, R41, R146) -/

/-- R146: all that an UNMOUNT does to a deferred read table. -/
theorem State.goneOn_eq (s : State) (d p) : s.goneOn d p = { s with
    deferred := s.deferred.set p ((s.deferred.get p).map fun e => if e.drive == d then { e with state := .gone } else e)
    events := s.events.set p { s.events.get p with
      raw := if (s.deferred.get p).any (fun e => e.drive == d && e.state != .gone)
          then (s.events.get p).raw ||| Event.deferReady.bit else (s.events.get p).raw } } := by
  have hmap : ((s.deferred.get p).map fun e => if (e.drive == d && e.state != .gone) then { e with state := .gone }
      else e) =
      ((s.deferred.get p).map fun e => if e.drive == d then { e with state := .gone } else e) := by
    apply List.map_congr_left
    intro e _
    by_cases h1 : e.drive = d <;> by_cases h2 : e.state = .gone <;> simp [h1, h2]
    cases e; simp_all
  unfold State.goneOn
  simp only
  split
  · rename_i h
    simp only [State.setDeferred, State.raise]
    rw [hmap]
  · rename_i h
    have h1 : ((s.deferred.get p).map fun e => if e.drive == d then { e with state := .gone } else e) = s.deferred.get
        p := by
      rw [← hmap]
      conv_rhs => rw [← List.map_id (s.deferred.get p)]
      apply List.map_congr_left
      intro e he
      have : (e.drive == d && e.state != .gone) = false := by
        by_contra hc
        exact h (List.any_eq_true.2 ⟨e, he, by simpa using hc⟩)
      rw [this]; rfl
    rw [h1, Pair.set_get, Pair.set_get]

theorem State.dropCursor_eq (s : State) (d p) : s.dropCursor d p = s.setPort p { s.ports.get p with
    cursor := if (s.ports.get p).cursor.any (fun c => c.1 == d) then none else (s.ports.get p).cursor } := by
  unfold State.dropCursor
  simp only
  by_cases h : Option.any (fun c => c.1 == d) (s.ports.get p).cursor = true
  · simp only [h, if_true]; rfl
  · rw [if_neg h, if_neg h]
    simp only [State.setPort]
    rw [Pair.set_self _ _ _ rfl]

/-! ### The medium report (R103) -/

/-- The fields that a medium report can change. -/
theorem State.takeMedium_frame (s : State) (d p c k) : s.takeMedium d p c k = { s with
    drives := s.drives.set d { s.drives.get d with medium := p, known := true, kind := k.or (s.drives.get d).kind }
    events := (s.takeMedium d p c k).events
    mounts := (s.takeMedium d p c k).mounts, discard := (s.takeMedium d p c k).discard,
    works := (s.takeMedium d p c k).works,
    contexts := (s.takeMedium d p c k).contexts, unitMap := (s.takeMedium d p c k).unitMap,
    ctxReq := (s.takeMedium d p c k).ctxReq, scheds := (s.takeMedium d p c k).scheds } := by
  have h : ∀ t : State, t = { s with
    drives := s.drives.set d { s.drives.get d with medium := p, known := true, kind := k.or (s.drives.get d).kind }
    events := t.events
    mounts := t.mounts, discard := t.discard, works := t.works,
    contexts := t.contexts, unitMap := t.unitMap, ctxReq := t.ctxReq, scheds := t.scheds } → t.loseMount d = { s with
    drives := s.drives.set d { s.drives.get d with medium := p, known := true, kind := k.or (s.drives.get d).kind }
    events := (t.loseMount d).events
    mounts := (t.loseMount d).mounts, discard := (t.loseMount d).discard, works := (t.loseMount d).works,
    contexts := (t.loseMount d).contexts, unitMap := (t.loseMount d).unitMap, ctxReq := (t.loseMount d).ctxReq,
    scheds := (t.loseMount d).scheds } := by
    intro t ht
    rcases State.loseMount_cases t d with h | ⟨m, -, -, h⟩ <;> rw [h]
    · exact ht
    · unfold State.asLost; rw [ht]
  unfold State.takeMedium
  simp only
  repeat' split
  all_goals first | exact h _ rfl | rfl

theorem State.raiseBoth_raw (s : State) (e p) : ((s.raiseBoth e).events.get p).raw = (s.events.get p).raw ||| e.bit :=
    by cases p <;> rfl

/-- R103: when a medium report loses the mount. -/
theorem State.takeMedium_mounts (s : State) (d p c k) : (s.takeMedium d p c k).mounts =
    if ∃ m, s.mounts.get d = some m ∧ m.phase = .mounted ∧ (p = false ∨ c = true ∨ ∃ k', k = some k' ∧ k' ≠
        m.snap.kind) then
      s.mounts.set d ((s.mounts.get d).map fun m => { m with phase := .lost }) else s.mounts := by
  unfold State.takeMedium
  simp only
  have hm : ∀ t : State, (t = (if ((s.drives.get d).known && p != (s.drives.get d).medium) || c then (s.setDrive d
      { s.drives.get d with medium := p, known := true, kind := k.or (s.drives.get d).kind }).raiseBoth .mediumChanged
      else s.setDrive d { s.drives.get d with medium := p, known := true, kind := k.or (s.drives.get d).kind })) →
      t.mounts = s.mounts := by
    rintro t rfl; split <;> rfl
  generalize ht : (if ((s.drives.get d).known && p != (s.drives.get d).medium) || c then (s.setDrive d
      { s.drives.get d with medium := p, known := true, kind := k.or (s.drives.get d).kind }).raiseBoth .mediumChanged
      else s.setDrive d { s.drives.get d with medium := p, known := true, kind := k.or (s.drives.get d).kind }) = t
      at hm ⊢
  have hm := hm t rfl
  rw [hm]
  cases h : s.mounts.get d with
  | none => simp [hm]
  | some m =>
    simp only
    by_cases hc : (!p || c || k.any fun k => k != m.snap.kind) = true
    · rw [if_pos hc]
      by_cases hp : m.phase = .mounted
      · rw [State.loseMount_mounts t d (by rw [hm]; exact h) hp, if_pos, hm]
        · rfl
        · refine ⟨m, rfl, hp, ?_⟩
          cases p <;> cases c <;> cases k <;> simp_all
      · rw [State.loseMount_same t d (by rw [hm, h]; rintro m' hm'; cases hm'; exact hp), hm, if_neg]
        rintro ⟨m', hm', hp', -⟩; cases hm'; exact hp hp'
    · rw [if_neg hc, hm, if_neg]
      rintro ⟨m', hm', hp', hh⟩; cases hm'
      apply hc
      cases p <;> cases c <;> cases k <;> simp_all

theorem State.takeMedium_keep (s : State) (d p c k) (h : ¬ ∃ m, s.mounts.get d = some m ∧ m.phase = .mounted ∧ (p =
    false ∨ c = true ∨ ∃ k', k = some k' ∧ k' ≠ m.snap.kind)) :
    (s.takeMedium d p c k).works = s.works ∧ (s.takeMedium d p c k).unitMap = s.unitMap ∧ (s.takeMedium d p c
        k).contexts = s.contexts ∧ (s.takeMedium d p c k).discard = s.discard := by
  unfold State.takeMedium
  simp only
  have hm : ∀ t : State, (t = (if ((s.drives.get d).known && p != (s.drives.get d).medium) || c then (s.setDrive d
      { s.drives.get d with medium := p, known := true, kind := k.or (s.drives.get d).kind }).raiseBoth .mediumChanged
      else s.setDrive d { s.drives.get d with medium := p, known := true, kind := k.or (s.drives.get d).kind })) →
      t.mounts = s.mounts ∧ t.works = s.works ∧ t.unitMap = s.unitMap ∧ t.contexts = s.contexts ∧ t.discard =
      s.discard := by
    rintro t rfl; split <;> exact ⟨rfl, rfl, rfl, rfl, rfl⟩
  generalize ht : (if ((s.drives.get d).known && p != (s.drives.get d).medium) || c then (s.setDrive d
      { s.drives.get d with medium := p, known := true, kind := k.or (s.drives.get d).kind }).raiseBoth .mediumChanged
      else s.setDrive d { s.drives.get d with medium := p, known := true, kind := k.or (s.drives.get d).kind }) = t
      at hm ⊢
  have hm := hm t rfl
  rw [hm.1]
  cases h' : s.mounts.get d with
  | none => exact hm.2
  | some m =>
    simp only
    by_cases hc : (!p || c || k.any fun k => k != m.snap.kind) = true
    · rw [if_pos hc]
      by_cases hp : m.phase = .mounted
      · exfalso; apply h
        refine ⟨m, h', hp, ?_⟩
        cases p <;> cases c <;> cases k <;> simp_all
      · rw [State.loseMount_same t d (by rw [hm.1, h']; rintro m' hm'; cases hm'; exact hp)]; exact hm.2
    · rw [if_neg hc]; exact hm.2

theorem State.takeMedium_raw (s : State) (d p c k q) : ((s.takeMedium d p c k).events.get q).raw = (s.events.get
    q).raw ||| (if ((s.drives.get d).known = true ∧ p ≠ (s.drives.get d).medium) ∨ c = true then
    Event.mediumChanged.bit else 0) := by
  have hl : ∀ t : State, (t.loseMount d).events = t.events := by intro t; rw [State.loseMount_frame]
  unfold State.takeMedium
  by_cases h1 : ((s.drives.get d).known && p != (s.drives.get d).medium || c) = true
  · have : ((s.drives.get d).known = true ∧ p ≠ (s.drives.get d).medium) ∨ c = true := by simpa using h1
    rw [if_pos this]; simp only [h1, if_true]
    repeat' split
    all_goals (try rw [hl]); rw [State.raiseBoth_raw]; rfl
  · have : ¬ (((s.drives.get d).known = true ∧ p ≠ (s.drives.get d).medium) ∨ c = true) := by simpa using h1
    rw [if_neg this]; simp only [if_neg h1]
    repeat' split
    all_goals (try rw [hl]); simp

theorem State.takeMedium_position (s : State) (d p c k q) : ((s.takeMedium d p c k).scheds.get q).position =
    (s.scheds.get q).position := by
  unfold State.takeMedium
  simp only
  repeat' split
  all_goals first | rfl | (rw [State.loseMount_position]; rfl)

theorem State.takeMedium_masks (s : State) (d p c k) : (s.takeMedium d p c k).events.map EventRegs.mask = s.events.map
    EventRegs.mask := by
  unfold State.takeMedium
  simp only
  have hl : ∀ t : State, (t.loseMount d).events = t.events := by intro t; rw [State.loseMount_frame]
  split <;> (split <;> (try split)) <;> (try rw [hl]) <;> rfl

/-! ### Link faults (R98, R155) -/

theorem State.captureFault_frame (s : State) (d c u k) : s.captureFault d c u k =
    { s with linkFault := LinkCapture.offered s.linkFault d c u k, events := (s.captureFault d c u k).events } := by
  unfold State.captureFault LinkCapture.offered; cases s.linkFault <;> rfl

theorem DriveStats.write_linkFaults (t : DriveStats) (v) : t.write 14 v = { t with linkFaults := v } := rfl

theorem State.count_linkFaults (s : State) (d) : s.count d 14 =
    { s with stats := s.stats.set d { s.stats.get d with linkFaults := (s.stats.get d).linkFaults + 1 } } := rfl

/-- R98 for the two faults that are no miss. -/
theorem State.takeFault_nomiss (s : State) (d c u k pos) (hk : k.miss = false) (hr : k = .positionTimeout ∨ k =
    .adaptorFault) : s.takeFault d c u k pos = { s with
    linkFault := LinkCapture.offered s.linkFault d c u k
    events := (s.captureFault d c u k).events
    stats := s.stats.set d { s.stats.get d with linkFaults := (s.stats.get d).linkFaults + 1 }
    scheds := if pos then s.scheds.set d { s.scheds.get d with position := none } else s.scheds
    drives := s.drives.set d { s.drives.get d with pend := withTx (s.drives.get d).pend .relax } } := by
  unfold State.takeFault
  simp only [hk, Bool.false_eq_true, if_false]
  rw [State.captureFault_frame, State.count_linkFaults]
  cases pos <;> rcases hr with rfl | rfl <;> simp [State.request_eq, State.setDrive, State.setPosition,
      State.setSched]

/-- R101, R102: the timers that start at a fault. -/
theorem State.pollEnd_bad (s : State) (d c) : s.pollEnd d c false = s.setDrive d { s.drives.get d with
    presence := (if (c = .probe ∨ c = .poll) ∧ (s.drives.get d).link = .online then some s.settings.presencePoll
      else (s.drives.get d).presence)
    reprobe := (if c = .probe ∧ (s.drives.get d).link ≠ .online then some s.settings.reprobeInterval
      else (s.drives.get d).reprobe) } := by
  have self : s = s.setDrive d (s.drives.get d) := by simp [State.setDrive]
  unfold State.pollEnd
  by_cases hl : (s.drives.get d).link = .online <;> cases c <;> simp [hl] <;>
    first | exact self | ((conv_lhs => rw [self]); rw [← hl])

theorem State.takeFault_link (s : State) (d c u k p) : (s.takeFault d c u k p).link = s.link := by
  have hm : ∀ q : State, (q.missed d).link = q.link := by
    intro q
    have hl : ∀ q : State, (q.loseMount d).link = q.link := fun q => (State.loseMount_fields q d).2.2.2.2.2.1
    unfold State.missed; simp only; split
    · rfl
    · split
      · unfold State.goOffline; simp only; rw [hl]; rfl
      · rfl
    · split
      · rw [hl]; rfl
      · rfl
  have h0 : ((s.captureFault d c u k).count d 14).link = s.link := by
    show (s.captureFault d c u k).link = _
    unfold State.captureFault; split <;> rfl
  unfold State.takeFault; simp only
  have h2 : (if k.miss = true then ((s.captureFault d c u k).count d 14).missed d else (s.captureFault d c u k).count
      d 14).link = s.link := by
    split
    · rw [hm, h0]
    · exact h0
  have h3 : (if p = true then (if k.miss = true then ((s.captureFault d c u k).count d 14).missed d else
      (s.captureFault d c u k).count d 14).setPosition d none else (if k.miss = true then ((s.captureFault d c u
      k).count d 14).missed d else (s.captureFault d c u k).count d 14)).link = s.link := by
    split
    · exact h2
    · exact h2
  cases k
  · exact h3
  · exact h3
  · exact h3
  · rw [State.request_frame]; exact h3
  · rw [State.request_frame]; exact h3

/-- A fault leaves the link without an exchange. -/
theorem State.faultTx_exchange (s : State) (x k) : (s.faultTx x k).link.exchange = none := by
  have hpe : ∀ (q : State) d c g, (q.pollEnd d c g).link = q.link := by
    intro q d c g; unfold State.pollEnd; simp only; split <;> (try split) <;> (try split) <;> rfl
  have hea : ∀ (q : State) d, (q.endAttempt d).link = q.link := by
    intro q d; rw [State.endAttempt_eq]
  unfold State.faultTx; simp only
  split
  · rw [State.settle_link]; unfold State.endOrphan; split
    · rw [hea]; rfl
    · rfl
  · rw [State.settle_link]
    split
    · rw [hea, hpe, State.takeFault_link]; rfl
    · rw [hpe, State.takeFault_link]; rfl

/-! ### The quiet timer (R114) -/

/-- R114: the quiet timer is all that changes. -/
theorem State.quietTimer_eq (s : State) : s.quietTimer = { s with power := { s.power with
    quiet := if s.power.state = .active ∧ s.withoutWork = true then
      some (s.power.quiet.getD (s.settings.quietDelay * 1000)) else none } } := by
  unfold State.quietTimer
  by_cases h : s.power.state = .active ∧ s.withoutWork = true
  · simp only [h, beq_self_eq_true, Bool.and_self, and_self, if_true]
    cases hq : s.power.quiet with
    | none => simp
    | some n =>
      have hp : s.power = { s.power with state := .active, quiet := some n } := by rw [← h.1, ← hq]
      simp only [Option.isNone_some, Bool.false_eq_true, if_false, Option.getD_some]
      exact congrArg (fun w => { s with power := w }) hp
  · have : (s.power.state == .active && s.withoutWork) = false := by
      simp only [Bool.and_eq_false_iff, beq_eq_false_iff_ne]
      exact (not_and_or.1 h).imp id (fun h => Bool.eq_false_iff.2 h)
    simp [h, this]

/-- Set twice at one moment the quiet timer reads as set once. -/
theorem State.quietTimer_idem (s : State) : s.quietTimer.quietTimer = s.quietTimer := by
  have hw : s.quietTimer.withoutWork = s.withoutWork := by rw [State.quietTimer_eq]; rfl
  rw [State.quietTimer_eq s.quietTimer, hw, State.quietTimer_eq s]
  by_cases h : s.power.state = .active ∧ s.withoutWork = true
  · simp only [h, and_self, if_true, Option.getD_some]
  · simp only [h, if_false]

/-! ### Time and rests (R108, R112) -/

/-- Every timer that runs falls. -/
theorem State.elapse_timer (s : State) (k : Nat) (i : TimerId) : (s.elapse k).timer i = (s.timer i).map (· - k) := by
  cases i with
  | rest d | poll d | presence d | reprobe d => simp only [State.elapse, State.timer]; split <;> cases d <;> rfl
  | ack | hold => simp only [State.elapse, State.timer]; cases s.link.exchange <;> rfl
  | quiet | wake =>
    simp only [State.elapse, State.timer]
    split <;> simp_all [Timer.fall]

/-- A list of the timers holds each of them. -/
theorem TimerId.mem_all (i : TimerId) : i ∈ TimerId.all := by
  cases i with
  | rest d | poll d | presence d | reprobe d => cases d <;> decide
  | _ => decide

theorem State.noneBefore_iff {s : State} {n : Nat} : s.noneBefore n = true ↔ ∀ j k, s.timer j = some k → n ≤ k := by
  simp only [State.noneBefore, List.all_eq_true]
  constructor
  · intro h j k hk; have := h j (TimerId.mem_all j); simpa [hk] using this
  · intro h j _; cases hj : s.timer j with
    | none => rfl
    | some k => simpa using h j k hj

/-- All that the expiry of a timer can do: a stopped timer and one that another outruns do not run out, and otherwise
its time passes and its effect follows. -/
theorem State.onTimer_spec (s : State) (i : TimerId) (f : State → State) :
    (s.timer i = none → s.onTimer i f = .refused .cannotOccur) ∧
    (∀ n j m, s.timer i = some n → s.timer j = some m → m < n →
      s.onTimer i f = .refused .cannotOccur) ∧
    (∀ n, s.timer i = some n → (∀ j m, s.timer j = some m → n ≤ m) →
      s.onTimer i f = .next (f (s.pass n))) := by
  refine ⟨fun h => by simp [State.onTimer, h], fun n j m h1 h2 h3 => ?_, fun n h1 h2 => ?_⟩
  · have : s.noneBefore n = false := by
      rw [Bool.eq_false_iff, ne_eq, State.noneBefore_iff]
      intro h; have := h j m h2; omega
    simp [State.onTimer, h1, this]
  · simp [State.onTimer, h1, State.noneBefore_iff.2 h2]

/-- R112: all that the passing of time does: timers fall, and where a rest has run out by then it expires and `settle`
follows. -/
theorem State.pass_cases (s : State) (k : Nat) :
    ((∀ d, (s.elapse k).rested d = false) ∧ s.pass k = s.elapse k) ∨
    ∃ r : Quad Rest, s.pass k = ({ s.elapse k with rests := r }).settle (s.elapse k) ∧
      ∀ d, r.get d = if (s.elapse k).rested d then { (s.elapse k).rests.get d with timer := none, cause := .none }
        else (s.elapse k).rests.get d := by
  unfold State.pass State.restsOver
  split
  · exact .inr ⟨_, rfl, fun d => by simp⟩
  · rename_i h
    refine .inl ⟨fun d => ?_, rfl⟩
    simp only [List.any_eq_true, not_exists, not_and] at h
    exact Bool.eq_false_iff.2 (h d (by cases d <;> simp [DriveId.all]))

/-- R112: a rest after the passing of time. -/
theorem State.pass_rests (s : State) (k : Nat) (d : DriveId) : (s.pass k).rests.get d =
    if (s.elapse k).rested d then { (s.elapse k).rests.get d with timer := none, cause := .none }
      else (s.elapse k).rests.get d := by
  rcases s.pass_cases k with ⟨h, e⟩ | ⟨r, e, h⟩
  · rw [e, h]; rfl
  · rw [e, State.settle_rests]; exact h d

/-- The passing of time leaves what `settle` leaves as the timers' fall left it. -/
theorem State.pass_fields (s : State) (k : Nat) :
    (s.pass k).pending = s.pending ∧ (s.pass k).now = s.now + k ∧ (s.pass k).ports = s.ports ∧
      (s.pass k).options = s.options ∧ (s.pass k).link = (s.elapse k).link ∧ (s.pass k).stats = s.stats ∧
      (s.pass k).settings = s.settings ∧ (s.pass k).store = s.store ∧ (s.pass k).saved = s.saved ∧
      (s.pass k).loader = s.loader ∧ (s.pass k).linkFault = s.linkFault := by
  rcases s.pass_cases k with ⟨_, e⟩ | ⟨r, e, _⟩ <;> rw [e] <;>
    simp [State.elapse, ((State.settle_fields _ _).2.2.2.2.2.2.2.2.1)]

end Sys2Proof.Machine
end

