-- ==== Sys2Proof/Laws/Choice.lean ====
section
/-! SUPPORT. Searches: the first drive in round-robin order, the first entry of the ranking, the context of a
unit, the view of an address. -/
namespace Sys2Proof.Machine

/-! ### Round robin -/

/-- The first of those that satisfy a test, counting from the drive after the last. -/
theorem DriveId.after_find (last : DriveId) (f : DriveId → Bool) (d : DriveId) (h : f d = true)
    (hm : ∀ e, f e = true → (d.toNat + 3 - last.toNat) % 4 ≤ (e.toNat + 3 - last.toNat) % 4) : last.after.find? f =
        some d := by
  have a := hm .d0; have b := hm .d1; have c := hm .d2; have e := hm .d3
  clear hm
  cases last <;> cases d <;> simp [DriveId.after, DriveId.succ, DriveId.toNat, List.find?] at a b c e ⊢ <;> simp_all

/-! ### The ranking (R72 to R74) -/

theorem lexLt_irrefl : ∀ a : List Nat, lexLt a a = false
  | [] => rfl
  | a :: as => by simp [lexLt, lexLt_irrefl as]

theorem lexLt_trans : ∀ (a b c : List Nat), lexLt a b = true → lexLt b c = true → lexLt a c = true
  | [], b, c, h, _ => by cases b <;> simp [lexLt] at h
  | _ :: _, [], c, h, _ => by simp [lexLt] at h
  | _ :: _, _ :: _, [], _, h => by simp [lexLt] at h
  | a :: as, b :: bs, c :: cs, h1, h2 => by
    simp only [lexLt, Bool.or_eq_true, decide_eq_true_eq, Bool.and_eq_true, beq_iff_eq] at *
    rcases h1 with h1 | ⟨rfl, h1⟩ <;> rcases h2 with h2 | ⟨rfl, h2⟩
    · exact .inl (by omega)
    · exact .inl h1
    · exact .inl h2
    · exact .inr ⟨rfl, lexLt_trans _ _ _ h1 h2⟩

theorem lexLt_total : ∀ (a b : List Nat), a.length = b.length → lexLt a b = false → lexLt b a = false → a = b
  | [], [], _, _, _ => rfl
  | a :: as, b :: bs, hl, h1, h2 => by
    simp only [lexLt, Bool.or_eq_false_iff, decide_eq_false_iff_not, Bool.and_eq_false_iff, beq_eq_false_iff_ne] at *
    have : a = b := by omega
    subst this
    rw [lexLt_total as bs (by simpa using hl) (by simpa using h1.2) (by simpa using h2.2)]
  | [], _ :: _, hl, _, _ => by simp at hl
  | _ :: _, [], hl, _, _ => by simp at hl

theorem firstBy_mem (key) (l : List Entry) (e) (h : firstBy key l = some e) : e ∈ l := by
  induction l generalizing e with
  | nil => simp [firstBy] at h
  | cons x l ih =>
    simp only [firstBy] at h
    split at h
    · simp at h; simp [h]
    · rename_i b hb
      split at h
      · simp at h; subst h; simp [ih _ hb]
      · simp at h; simp [h]

theorem firstBy_none (key : Entry → List Nat) (l : List Entry) : firstBy key l = none ↔ l = [] := by
  cases l with
  | nil => simp [firstBy]
  | cons x l => simp only [firstBy]; split <;> (try split) <;> simp

/-- The ranking takes the entry that beats all before it and is beaten by none after it. -/
theorem firstBy_spec (key : Entry → List Nat) (before after : List Entry) (e : Entry)
    (hb : ∀ x ∈ before, lexLt (key e) (key x) = true) (ha : ∀ x ∈ after, lexLt (key x) (key e) = false) :
    firstBy key (before ++ e :: after) = some e := by
  induction before with
  | nil =>
    simp only [List.nil_append, firstBy]
    split
    · rfl
    · rename_i b hbm
      rw [if_neg]; rw [ha b (firstBy_mem _ _ _ hbm)]; simp
  | cons x before ih =>
    have := ih fun y hy => hb y (by simp [hy])
    simp only [List.cons_append, firstBy, this]
    rw [if_pos (hb x (by simp))]

theorem State.rankKey_len (s : State) (d m) (a b) : (s.rankKey d m a).length = (s.rankKey d m b).length := by
  unfold State.rankKey; cases m.snap.kind <;> rfl

/-! ### Contexts -/

theorem State.numbered_eq (s : State) : s.numbered = [(0, s.contexts.c0), (1, s.contexts.c1), (2, s.contexts.c2), (3,
    s.contexts.c3), (4, s.contexts.c4), (5, s.contexts.c5), (6, s.contexts.c6), (7, s.contexts.c7)] := rfl

theorem State.numbered_mem {s : State} {i o} (h : (i, o) ∈ s.numbered) : i < 8 ∧ s.contexts.get? i = some o := by
  have all : ∀ e ∈ s.numbered, e.1 < 8 ∧ s.contexts.get? e.1 = some e.2 := by
    rw [State.numbered_eq]; simp [Oct.get?]
  exact all _ h

theorem State.ctxOf_some {s : State} {d u i c} (h : s.ctxOf d u = some (i, c)) : i < 8 ∧ s.contexts.get? i = some
    (some c) ∧ c.drive = d ∧ c.unit = some u := by
  unfold State.ctxOf at h
  obtain ⟨e, he, hf⟩ := List.exists_of_findSome?_eq_some h
  obtain ⟨j, o⟩ := e
  cases o with
  | none => simp at hf
  | some c' =>
    simp only at hf
    split at hf
    · rename_i hcc
      simp only [Option.some.injEq, Prod.mk.injEq] at hf
      obtain ⟨rfl, rfl⟩ := hf
      simp only [Bool.and_eq_true, beq_iff_eq] at hcc
      exact ⟨(State.numbered_mem he).1, (State.numbered_mem he).2, hcc.1, hcc.2⟩
    · simp at hf

theorem State.freeCtx_some {s : State} {i} (h : s.freeCtx = some i) : i < 8 ∧ s.contexts.get? i = some none := by
  unfold State.freeCtx at h
  obtain ⟨⟨j, o⟩, he, hf⟩ := List.exists_of_findSome?_eq_some h
  simp only at hf
  split at hf
  · rename_i ho
    simp only [Option.some.injEq] at hf
    subst hf
    have := State.numbered_mem he
    cases o with
    | none => exact this
    | some c => simp at ho
  · simp at hf

theorem State.noneWaiting_iff (s : State) : s.noneWaiting = true ↔ ∀ d, s.ctxReq.get d = none := by
  unfold State.noneWaiting
  rw [Quad.all_iff]
  simp [Option.isNone_iff_eq_none]

/-- R170: what settled means. -/
theorem State.settled_iff (s : State) : s.settled = true ↔ (∀ d, s.attempts.get d = none) ∧
      (∀ c ∈ s.contexts.toList, ∀ x, c = some x → x.phase = .collecting) ∧ s.link.exchange = none ∧
      s.link.clearing = false ∧ ∀ d, PendTx.relax ∉ (s.drives.get d).pend := by
  unfold State.settled
  rw [Bool.and_eq_true, Bool.and_eq_true, Bool.and_eq_true, Bool.and_eq_true, Quad.all_iff, Quad.all_iff,
    List.all_eq_true]
  constructor
  · rintro ⟨⟨⟨⟨h1, h2⟩, h3⟩, h5⟩, h4⟩
    refine ⟨fun d => Option.isNone_iff_eq_none.mp (h1 d), fun c hc x hx => ?_, Option.isNone_iff_eq_none.mp h3,
      by simpa using h5, fun d => ?_⟩
    · have := h2 c hc
      subst hx
      simp only [Option.any_some, Bool.not_eq_true'] at this
      unfold OpenCtx.inEvaluation at this
      split at this
      · assumption
      all_goals simp at this
    · simpa using h4 d
  · rintro ⟨h1, h2, h3, h5, h4⟩
    refine ⟨⟨⟨⟨fun d => by rw [h1]; rfl, fun c hc => ?_⟩, by rw [h3]; rfl⟩, by rw [h5]; rfl⟩,
      fun d => by simpa using h4 d⟩
    cases c with
    | none => rfl
    | some x => simp [OpenCtx.inEvaluation, h2 _ hc x rfl]

/-! ### Views (R137) -/

/-- The view that decodes an address: the lowest-numbered whose window holds it. -/
theorem State.decodeView_some (s : State) (p a w v) : s.decodeView p a = some (w, v) ↔
    ((s.views.get p).get w = some v ∧ v.base ≤ a ∧ a < v.base + 2 ^ v.k ∧
      (∀ w' v', w'.toNat < w.toNat → (s.views.get p).get w' = some v' → ¬ (v'.base ≤ a ∧ a < v'.base + 2 ^ v'.k))) :=
          by
  have hh : ∀ v : View, v.holds a = true ↔ (v.base ≤ a ∧ a < v.base + 2 ^ v.k) := by intro v; simp [View.holds]
  unfold State.decodeView
  generalize hx : s.views.get p = x
  have key : ∀ o : Option View, (∃ v, o = some v ∧ v.holds a = true) ∨ (∀ v, o = some v → v.holds a = false) := by
    intro o
    cases o with
    | none => right; intro v h; cases h
    | some v => cases hv : v.holds a with
      | true => left; exact ⟨v, rfl, hv⟩
      | false => right; intro v' h; cases h; exact hv
  generalize hg : (fun w => match x.get w with
    | some v => if v.holds a = true then some (w, v) else none
    | none => none) = g
  have red0 : ∀ (i : ViewId), (∀ v, x.get i = some v → v.holds a = false) → g i = none := by
    intro i h; rw [← hg]; simp only; split
    · rename_i v hv; simp [h v hv]
    · rfl
  have red1 : ∀ (i : ViewId) v, x.get i = some v → v.holds a = true → g i = some (i, v) := by
    intro i v h h2; rw [← hg]; simp only [h, h2, if_true]
  simp only [DriveId.all, List.findSome?_cons, List.findSome?_nil]
  have fin : ∀ (i : ViewId) (vi : View), x.get i = some vi → vi.holds a = true →
      (∀ j : ViewId, j.toNat < i.toNat → ∀ v, x.get j = some v → v.holds a = false) →
      (some (i, vi) = some (w, v) ↔ (x.get w = some v ∧ v.base ≤ a ∧ a < v.base + 2 ^ v.k ∧
      (∀ w' v', w'.toNat < w.toNat → x.get w' = some v' → ¬ (v'.base ≤ a ∧ a < v'.base + 2 ^ v'.k)))) := by
    intro i vi h1 h2 h3
    constructor
    · intro h; cases h
      have := (hh _).1 h2
      refine ⟨h1, this.1, this.2, fun w' v' hw hv' hc => ?_⟩
      have := h3 w' hw v' hv'
      rw [(hh _).2 hc] at this; cases this
    · rintro ⟨a1, a2, a3, a4⟩
      have hvh := (hh v).2 ⟨a2, a3⟩
      have hinj : ∀ i j : ViewId, i.toNat = j.toNat → i = j := by intro i j; cases i <;> cases j <;> simp
          [DriveId.toNat]
      rcases Nat.lt_trichotomy i.toNat w.toNat with hlt | heq | hgt
      · exact absurd ((hh _).1 h2) (a4 i vi hlt h1)
      · have := hinj _ _ heq; subst this; rw [h1] at a1; cases a1; rfl
      · have := h3 w hgt v a1; rw [hvh] at this; cases this
  rcases key (x.get .d0) with ⟨v0, h0, g0⟩ | h0
  · rw [red1 _ _ h0 g0]; simp only
    exact fin .d0 v0 h0 g0 (fun j hj => by cases j <;> simp [DriveId.toNat] at hj)
  rw [red0 _ h0]
  rcases key (x.get .d1) with ⟨v1, h1, g1⟩ | h1
  · rw [red1 _ _ h1 g1]; simp only
    exact fin .d1 v1 h1 g1 (fun j hj => by cases j <;> simp [DriveId.toNat] at hj; exact h0)
  rw [red0 _ h1]
  rcases key (x.get .d2) with ⟨v2, h2, g2⟩ | h2
  · rw [red1 _ _ h2 g2]; simp only
    exact fin .d2 v2 h2 g2 (fun j hj => by cases j <;> simp [DriveId.toNat] at hj; exacts [h0, h1])
  rw [red0 _ h2]
  rcases key (x.get .d3) with ⟨v3, h3, g3⟩ | h3
  · rw [red1 _ _ h3 g3]; simp only
    exact fin .d3 v3 h3 g3 (fun j hj => by cases j <;> simp [DriveId.toNat] at hj; exacts [h0, h1, h2])
  rw [red0 _ h3]; simp only
  constructor
  · intro h; cases h
  · rintro ⟨a1, a2, a3, a4⟩
    have hvh := (hh v).2 ⟨a2, a3⟩
    cases w
    · rw [h0 v a1] at hvh; cases hvh
    · rw [h1 v a1] at hvh; cases hvh
    · rw [h2 v a1] at hvh; cases hvh
    · rw [h3 v a1] at hvh; cases hvh

theorem State.decodeView_none (s : State) (p a) : s.decodeView p a = none ↔
    ∀ w v, (s.views.get p).get w = some v → ¬ (v.base ≤ a ∧ a < v.base + 2 ^ v.k) := by
  unfold State.decodeView
  rw [List.findSome?_eq_none_iff]
  constructor
  · intro h w v hv hc
    have := h w (by cases w <;> simp [DriveId.all])
    rw [hv] at this
    have hh : v.holds a = true := by simp [View.holds, hc]
    simp [hh] at this
  · intro h w _
    cases hv : (s.views.get p).get w with
    | none => rfl
    | some v =>
      have := h w v hv
      have hh : v.holds a = false := by simp only [View.holds]; simp; omega
      simp [hh]

end Sys2Proof.Machine
end

