-- ==== Sys2Proof/Laws/Keeps.lean ====
section
/-! SUPPORT. That every operation of the part keeps the invariants of Safety.lean, each one by itself, and leaves the
image store as it was: one lemma for each operation, which the statements about every step cite. The operations that
write the store stand apart, in Laws/Sparse.lean. -/
namespace Sys2Proof.Machine

/-! ### The invariants, each as a proposition -/

/-- The Recovery Map, in the part and in the saved image, keeps its canonical form. -/
def MapOk (s : State) : Prop :=
  Sparse.wf UnitRec.fresh s.unitMap = true ∧ ∀ im, s.saved = some im → Sparse.wf UnitRec.fresh im.unitMap = true

/-- Four work lists hold at most 64 entries each. -/
def ListsBounded (w : Quad (List Entry)) : Prop := ∀ d, (w.get d).length ≤ 64

/-- The work lists, in the part and in the saved image, are bounded. -/
def ListsOk (s : State) : Prop := ListsBounded s.works ∧ ∀ im, s.saved = some im → ListsBounded im.works

/-- Two deferred read tables hold at most 8 entries each. -/
def TablesBounded (x : Pair (List Deferred)) : Prop := ∀ p, (x.get p).length ≤ 8

/-- The deferred read tables, in the part and in the saved image, are bounded. -/
def TablesOk (s : State) : Prop := TablesBounded s.deferred ∧ ∀ im, s.saved = some im → TablesBounded im.deferred

/-- Every Rest Controller is sound. -/
def RestsOk (s : State) : Prop := ∀ d, Rest.sound (s.rests.get d) = true

/-- The link has no exchange while its clear pattern is due. -/
def LinkOk (s : State) : Prop := s.link.clearing = true → s.link.exchange = none

/-- An operation that takes `s` to `t` keeps each invariant and the image store. -/
structure Keeps (s t : State) : Prop where
  map : MapOk s → MapOk t
  lists : ListsOk s → ListsOk t
  tables : TablesOk s → TablesOk t
  rests : RestsOk s → RestsOk t
  link : LinkOk s → LinkOk t
  store : t.store = s.store

theorem canonical_iff (s : State) : s.canonical = true ↔ Memory.wf s.store = true ∧ MapOk s := by
  unfold State.canonical MapOk
  simp only [Bool.and_eq_true, and_assoc]
  cases s.saved <;> simp

theorem listsBounded_iff (s : State) : s.listsBounded = true ↔ ListsOk s := by
  have h : ∀ w : Quad (List Entry), w.toList.all (fun l => decide (l.length ≤ 64)) = true ↔ ListsBounded w := by
    intro w; rw [Quad.all_iff]; simp only [decide_eq_true_eq]; rfl
  unfold State.listsBounded ListsOk
  simp only [Bool.and_eq_true, h]
  cases s.saved <;> simp [-List.all_eq_true, h]

theorem tablesBounded_iff (s : State) : s.tablesBounded = true ↔ TablesOk s := by
  have h : ∀ x : Pair (List Deferred), (x.a.length ≤ 8 ∧ x.b.length ≤ 8) ↔ TablesBounded x := fun x =>
    ⟨fun h p => by cases p; exacts [h.1, h.2], fun h => ⟨h .a, h .b⟩⟩
  unfold State.tablesBounded TablesOk
  simp only [Bool.and_eq_true, decide_eq_true_eq, h]
  cases s.saved <;> simp [h]

theorem restsSound_iff (s : State) : s.restsSound = true ↔ RestsOk s := by
  unfold State.restsSound RestsOk; rw [Quad.all_iff]

theorem linkSound_iff (s : State) : s.linkSound = true ↔ LinkOk s := by
  unfold State.linkSound LinkOk
  cases s.link.clearing <;> simp

/-! ### Composing -/

theorem Keeps.refl (s : State) : Keeps s s := ⟨id, id, id, id, id, rfl⟩

theorem Keeps.trans {s t u : State} (h : Keeps s t) (g : Keeps t u) : Keeps s u :=
  ⟨g.map ∘ h.map, g.lists ∘ h.lists, g.tables ∘ h.tables, g.rests ∘ h.rests, g.link ∘ h.link, g.store.trans h.store⟩

/-- An operation that leaves the fields of the invariants alone keeps them. -/
theorem Keeps.frame {s t : State} (h1 : t.unitMap = s.unitMap) (h2 : t.works = s.works) (h3 : t.deferred = s.deferred)
    (h4 : t.rests = s.rests) (h5 : t.link = s.link) (h6 : t.saved = s.saved) (h7 : t.store = s.store) : Keeps s t :=
        by
  refine ⟨fun i => ?_, fun i => ?_, fun i => ?_, fun i => ?_, fun i => ?_, h7⟩
  · unfold MapOk; rw [h1, h6]; exact i
  · unfold ListsOk; rw [h2, h6]; exact i
  · unfold TablesOk; rw [h3, h6]; exact i
  · unfold RestsOk; rw [h4]; exact i
  · unfold LinkOk; rw [h5]; exact i

theorem ListsBounded.set {w : Quad (List Entry)} (h : ListsBounded w) (d : DriveId) {v : List Entry}
    (hv : v.length ≤ 64) : ListsBounded (w.set d v) := by
  intro e
  by_cases he : e = d
  · subst he; rw [Quad.get_set]; exact hv
  · rw [Quad.get_set_ne _ he]; exact h e

theorem TablesBounded.set {x : Pair (List Deferred)} (h : TablesBounded x) (p : PortId) {v : List Deferred}
    (hv : v.length ≤ 8) : TablesBounded (x.set p v) := by
  intro e
  by_cases he : e = p
  · subst he; rw [Pair.get_set]; exact hv
  · rw [Pair.get_set_ne _ he]; exact h e

/-! ### Setters -/

section
variable (s : State)
theorem State.setPort_keeps (p v) : Keeps s (s.setPort p v) := Keeps.frame rfl rfl rfl rfl rfl rfl rfl
theorem State.setOptions_keeps (p v) : Keeps s (s.setOptions p v) := Keeps.frame rfl rfl rfl rfl rfl rfl rfl
theorem State.setView_keeps (p w v) : Keeps s (s.setView p w v) := Keeps.frame rfl rfl rfl rfl rfl rfl rfl
theorem State.setStream_keeps (p w v) : Keeps s (s.setStream p w v) := Keeps.frame rfl rfl rfl rfl rfl rfl rfl
theorem State.setDeferred_keeps (p v) (h : (s.deferred.get p).length ≤ 8 → v.length ≤ 8) : Keeps s (s.setDeferred p v)
    :=
  ⟨id, id, fun i => ⟨i.1.set p (h (i.1 p)), i.2⟩, id, id, rfl⟩
theorem State.setError_keeps (p v) : Keeps s (s.setError p v) := Keeps.frame rfl rfl rfl rfl rfl rfl rfl
theorem State.setMount_keeps (d v) : Keeps s (s.setMount d v) := Keeps.frame rfl rfl rfl rfl rfl rfl rfl
theorem State.setDiscard_keeps (d v) : Keeps s (s.setDiscard d v) := Keeps.frame rfl rfl rfl rfl rfl rfl rfl
theorem State.setWork_keeps (d v) (h : (s.works.get d).length ≤ 64 → v.length ≤ 64) : Keeps s (s.setWork d v) :=
  ⟨id, fun i => ⟨i.1.set d (h (i.1 d)), i.2⟩, id, id, id, rfl⟩
theorem State.setCtx_keeps (d v) : Keeps s (s.setCtx d v) := Keeps.frame rfl rfl rfl rfl rfl rfl rfl
theorem State.setCtxReq_keeps (d v) : Keeps s (s.setCtxReq d v) := Keeps.frame rfl rfl rfl rfl rfl rfl rfl
theorem State.setSched_keeps (d v) : Keeps s (s.setSched d v) := Keeps.frame rfl rfl rfl rfl rfl rfl rfl
theorem State.setAttempt_keeps (d v) : Keeps s (s.setAttempt d v) := Keeps.frame rfl rfl rfl rfl rfl rfl rfl
theorem State.setDrive_keeps (d v) : Keeps s (s.setDrive d v) := Keeps.frame rfl rfl rfl rfl rfl rfl rfl
theorem State.setRest_keeps (d v) (h : Rest.sound (s.rests.get d) = true → Rest.sound v = true) : Keeps s (s.setRest d
    v) := by
  refine ⟨id, id, id, fun i e => ?_, id, rfl⟩
  by_cases he : e = d
  · subst he; simp only [State.setRest, Quad.get_set]; exact h (i e)
  · simp only [State.setRest, Quad.get_set_ne _ he]; exact i e
theorem State.setStats_keeps (d v) : Keeps s (s.setStats d v) := Keeps.frame rfl rfl rfl rfl rfl rfl rfl
theorem State.setUnit_keeps (d u r) : Keeps s (s.setUnit d u r) := by
  unfold State.setUnit
  split
  · exact Keeps.refl s
  · exact ⟨fun i => ⟨Sparse.wf_set i.1 _ _, i.2⟩, id, id, id, id, rfl⟩
theorem State.raise_keeps (p e) : Keeps s (s.raise p e) := Keeps.frame rfl rfl rfl rfl rfl rfl rfl
theorem State.raiseBoth_keeps (e) : Keeps s (s.raiseBoth e) := Keeps.frame rfl rfl rfl rfl rfl rfl rfl
theorem State.count_keeps (d i) : Keeps s (s.count d i) := Keeps.frame rfl rfl rfl rfl rfl rfl rfl
theorem State.serve_keeps (p i) : Keeps s (s.serve p i) := Keeps.frame rfl rfl rfl rfl rfl rfl rfl
theorem State.release_keeps (i) : Keeps s (s.release i) := Keeps.frame rfl rfl rfl rfl rfl rfl rfl
theorem State.setPosition_keeps (d i) : Keeps s (s.setPosition d i) := Keeps.frame rfl rfl rfl rfl rfl rfl rfl
theorem State.endedWell_keeps (d) : Keeps s (s.endedWell d) := Keeps.frame rfl rfl rfl rfl rfl rfl rfl
theorem State.setPhase_keeps (i c ph) : Keeps s (s.setPhase i c ph) := Keeps.frame rfl rfl rfl rfl rfl rfl rfl
theorem State.setEvents_keeps (p r) : Keeps s (s.setEvents p r) := Keeps.frame rfl rfl rfl rfl rfl rfl rfl
theorem State.setServed_keeps (p r) : Keeps s (s.setServed p r) := Keeps.frame rfl rfl rfl rfl rfl rfl rfl
theorem State.emptyStreams_keeps (p r) : Keeps s (s.emptyStreams p r) := Keeps.frame rfl rfl rfl rfl rfl rfl rfl
theorem State.newWork_keeps : Keeps s s.newWork := by
  unfold State.newWork; split <;> exact Keeps.frame rfl rfl rfl rfl rfl rfl rfl
theorem State.captureRefusal_keeps (p st code tag ps) : Keeps s (s.captureRefusal p st code tag ps) := by
  unfold State.captureRefusal; split <;> exact Keeps.frame rfl rfl rfl rfl rfl rfl rfl
theorem State.captureFault_keeps (d c u k) : Keeps s (s.captureFault d c u k) := by
  unfold State.captureFault; split <;> exact Keeps.frame rfl rfl rfl rfl rfl rfl rfl
theorem State.request_keeps (d t) : Keeps s (s.request d t) := by
  unfold State.request; simp only; split <;> exact Keeps.frame rfl rfl rfl rfl rfl rfl rfl
end

theorem length_filterMap_work {α β} (f : α → Option β) (l : List α) : (l.filterMap f).length ≤ l.length :=
    List.length_filterMap_le f l

theorem State.leaveWork_keeps (s : State) (d w) (h : (s.works.get d).length ≤ 64 → w.length ≤ 64) : Keeps s
    (s.leaveWork d w) := by
  rw [State.leaveWork_eq]
  exact (State.setWork_keeps s d w h).trans (State.setCtxReq_keeps _ d _)

theorem State.shrinkWork_keeps (s : State) (d w) (h : (s.works.get d).length ≤ 64 → w.length ≤ 64) : Keeps s
    (s.shrinkWork d w) := by
  unfold State.shrinkWork; simp only
  split
  · exact (State.leaveWork_keeps s d w h).trans (State.raiseBoth_keeps _ _)
  · exact State.leaveWork_keeps s d w h

theorem State.withdrawClass_keeps (s : State) (d p c lo hi) : Keeps s (s.withdrawClass d p c lo hi) :=
  State.shrinkWork_keeps s d _ fun h => (length_filterMap_work _ _).trans h

theorem State.displace_keeps (s : State) (d e) : Keeps s (s.displace d e) := by
  unfold State.displace
  simp only
  have h1 := State.leaveWork_keeps s d ((s.works.get d).filter fun e' => e'.unit != e.unit) (fun h =>
      (List.length_filter_le _ _).trans h)
  split
  · split
    · exact h1.trans (State.setMount_keeps _ _ _)
    · exact h1
  · exact h1

theorem State.displace_works (s : State) (d e) : (s.displace d e).works.get d = (s.works.get d).filter fun e' =>
    e'.unit != e.unit := by
  unfold State.displace
  simp only
  rw [State.leaveWork_eq]
  split
  · split <;> simp
  · simp

/-- An entry inserted where the list has room keeps what the operations before it kept. -/
theorem Keeps.insertEntry {s t : State} (h : Keeps s t) (d : DriveId) (e : Entry)
    (hl : ListsOk s → (t.works.get d).length < 64) : Keeps s (t.insertEntry d e) := by
  have h1 : Keeps s (t.setWork d (t.works.get d ++ [e])) :=
    ⟨h.map, fun i => ⟨(h.lists i).1.set d (by have := hl i; simp; omega), (h.lists i).2⟩, h.tables, h.rests, h.link,
      h.store⟩
  unfold State.insertEntry
  simp only
  split
  · exact h1.trans (State.newWork_keeps _)
  · exact h1

theorem newest_mem {t w v} (h : newest t w = some v) : v ∈ w := by
  unfold newest at h
  exact (List.mem_filter.mp (List.mem_of_getLast? h)).1

theorem State.victim_mem {s : State} {d k v} (h : s.victim d k = some v) : v ∈ s.works.get d := by
  unfold State.victim at h
  simp only at h
  cases k with
  | direct p =>
    simp only [Option.or_eq_some_iff] at h
    rcases h with h | ⟨-, h⟩ <;> exact newest_mem h
  | ahead p => exact newest_mem h
  | sweep => cases h

theorem length_filter_unit_lt (w : List Entry) (v : Entry) (h : v ∈ w) : (w.filter fun e => e.unit != v.unit).length <
    w.length := by
  by_contra hc
  have hl := List.length_filter_le (fun e : Entry => e.unit != v.unit) w
  have : (w.filter fun e => e.unit != v.unit) = w := List.length_filter_eq_length_iff.mp (by omega) |> fun hh =>
      List.filter_eq_self.mpr hh
  rw [List.filter_eq_self] at this
  have := this v h
  simp at this

/-- R29, R30: a demand keeps every invariant. The list stays bounded because a full one loses the entry displaced. -/
theorem State.placed_keeps (s : State) (d k) : Keeps s (s.placed d k) := by
  cases k
  · exact State.setSched_keeps _ _ _
  · exact State.setSched_keeps _ _ _
  · exact Keeps.refl s

theorem State.demand_keeps (s : State) (d u k) : Keeps s (s.demand d u k).1 := by
  unfold State.demand
  split
  · exact Keeps.refl s
  · split
    · simp only
      have h1 := State.setWork_keeps s d ((s.works.get d).map fun e' => if e'.unit == u then e'.merge k else e')
        (fun h => by simpa using h)
      refine Keeps.trans ?_ (State.placed_keeps _ d k)
      split
      · exact h1.trans (State.newWork_keeps _)
      · exact h1
    · split
      · rename_i h; exact ((Keeps.refl s).insertEntry d _ fun _ => h).trans (State.placed_keeps _ d k)
      · split
        · rename_i v hv
          refine ((State.displace_keeps s d v).insertEntry d _ fun i => ?_).trans (State.placed_keeps _ d k)
          rw [State.displace_works]
          have := length_filter_unit_lt _ _ (State.victim_mem hv)
          have := i.1 d
          omega
        · exact Keeps.refl s

theorem State.demands_keeps (s : State) (d k u n) : Keeps s (s.demands d k u n) := by
  induction n generalizing s u with
  | zero => exact Keeps.refl s
  | succ n ih => exact (State.demand_keeps s d u k).trans (ih _ _)

theorem State.readyOn_keeps (s : State) (d u p) : Keeps s (s.readyOn d u p) := by
  unfold State.readyOn
  simp only
  split
  · exact (State.setDeferred_keeps s p _ (fun h => by simpa using h)).trans (State.raise_keeps _ _ _)
  · exact Keeps.refl s

theorem State.countTerminal_keeps (s : State) (d) : Keeps s (s.countTerminal d) := by
  unfold State.countTerminal
  split
  · exact Keeps.refl s
  · simp only; split
    · exact (State.setMount_keeps _ _ _).trans (State.raiseBoth_keeps _ _)
    · exact State.setMount_keeps _ _ _

theorem State.enterTerminal_keeps (s : State) (d u r) : Keeps s (s.enterTerminal d u r) := by
  unfold State.enterTerminal
  exact ((((State.setUnit_keeps s d u r).trans (State.shrinkWork_keeps _ _ _ fun h => (List.length_filter_le _
      _).trans h)).trans (State.countTerminal_keeps _ _)).trans (State.readyOn_keeps _ _ _ _)).trans
      (State.readyOn_keeps _ _ _ _)

theorem State.abandonUnit_keeps (s : State) (d u) : Keeps s (s.abandonUnit d u) := (State.enterTerminal_keeps s d u
    _).trans (State.count_keeps _ _ _)

theorem State.releaseUnit_keeps (s : State) (l c) : Keeps s (s.releaseUnit l c) := by
  unfold State.releaseUnit
  split
  · exact Keeps.refl s
  · exact State.setUnit_keeps _ _ _ _

theorem State.releaseOf_keeps (s : State) (l d i) : Keeps s (s.releaseOf l d i) := by
  unfold State.releaseOf
  split
  · split
    · exact (State.releaseUnit_keeps _ _ _).trans (State.release_keeps _ _)
    · exact Keeps.refl s
  · exact Keeps.refl s

theorem State.releaseDrive_keeps (s : State) (l d) : Keeps s (s.releaseDrive l d) := by
  unfold State.releaseDrive
  generalize List.range 8 = is
  induction is generalizing s with
  | nil => exact Keeps.refl s
  | cons i is ih => exact (State.releaseOf_keeps s l d i).trans (ih _)

theorem State.loseMount_keeps (s : State) (d) : Keeps s (s.loseMount d) := by
  unfold State.loseMount
  split
  · exact Keeps.refl s
  · split
    · refine Keeps.trans ?_ (State.setSched_keeps _ _ _)
      refine Keeps.trans ?_ (State.setCtxReq_keeps _ _ _)
      refine Keeps.trans ?_ (State.releaseDrive_keeps _ _ _)
      have h1 : Keeps s (if (s.attempts.get d).isSome = true then (s.setMount d (some
          { (‹MountRec› : MountRec) with phase := .lost })).setDiscard d true else s.setMount d (some
          { (‹MountRec› : MountRec) with phase := .lost })) := by
        split
        · exact (State.setMount_keeps _ _ _).trans (State.setDiscard_keeps _ _ _)
        · exact State.setMount_keeps _ _ _
      refine Keeps.trans h1 (State.setWork_keeps _ _ _ ?_)
      split <;> exact fun h => (List.length_filter_le _ _).trans h
    · exact Keeps.refl s

theorem State.endAttempt_keeps (s : State) (d) : Keeps s (s.endAttempt d) := by
  unfold State.endAttempt
  simp only
  have h1 := ((State.setAttempt_keeps s d none).trans (State.setDiscard_keeps _ d false)).trans (State.setDrive_keeps
      _ d { ((s.setAttempt d none).setDiscard d false).drives.get d with poll := none })
  split
  · exact h1.trans (State.release_keeps _ _)
  · exact h1

/-! ### The schedulers -/
theorem State.startAttempt_keeps (s : State) (d m u b) : Keeps s (s.startAttempt d m u b) := ((State.newWork_keeps
    s).trans (State.setSched_keeps _ _ _)).trans (State.setAttempt_keeps _ _ _)
theorem State.openContext_keeps (s : State) (i d m u) : Keeps s (s.openContext i d m u) := by
  unfold State.openContext
  simp only
  refine (((State.setCtx_keeps s i _).trans (State.setUnit_keeps _ d u _)).trans (State.setCtxReq_keeps _ d
      none)).trans (Keeps.frame rfl rfl rfl rfl rfl rfl rfl)
theorem State.fallback_keeps (s : State) (d m) : Keeps s (s.fallback d m) := by
  unfold State.fallback; split
  · exact State.startAttempt_keeps _ _ _ _ _
  · exact State.setSched_keeps _ _ _
theorem State.rank_keeps (s : State) (d m) : Keeps s (s.rank d m) := by
  unfold State.rank
  split
  · exact (State.setCtxReq_keeps _ _ _).trans (State.setSched_keeps _ _ _)
  · split
    · exact (State.setCtxReq_keeps _ _ _).trans (State.startAttempt_keeps _ _ _ _ _)
    · split
      · split
        · exact (State.openContext_keeps _ _ _ _ _).trans (State.startAttempt_keeps _ _ _ _ _)
        · exact (State.setCtxReq_keeps _ _ _).trans (State.fallback_keeps _ _ _)
      · exact (State.setCtxReq_keeps _ _ _).trans (State.fallback_keeps _ _ _)
theorem State.sweepStep_keeps (s : State) (d) : Keeps s (s.sweepStep d) := by
  unfold State.sweepStep
  split
  · exact Keeps.refl s
  · split
    · split
      · rename_i u _
        have h := State.demand_keeps s d u .sweep
        split
        · rename_i s' hs'; rw [hs'] at h; exact h.trans (State.setMount_keeps _ _ _)
        · rename_i s' hs'; rw [hs'] at h; exact h.trans (State.setMount_keeps _ _ _)
        · exact Keeps.refl s
      · simp only; split
        · exact (State.setMount_keeps _ _ _).trans (State.raiseBoth_keeps _ _)
        · exact State.setMount_keeps _ _ _
    · exact Keeps.refl s
theorem State.choose_keeps (s : State) (d) : Keeps s (s.choose d) := by
  unfold State.choose
  split
  · exact Keeps.refl s
  · split
    · exact State.setSched_keeps _ _ _
    · split
      · exact State.startAttempt_keeps _ _ _ _ _
      · split
        · exact (State.setCtxReq_keeps _ _ _).trans (State.startAttempt_keeps _ _ _ _ _)
        · exact (State.sweepStep_keeps _ _).trans (State.rank_keeps _ _ _)
theorem State.makeChoice_keeps (s : State) (d) : Keeps s (s.makeChoice d) := by
  unfold State.makeChoice; simp only; split
  · exact (State.setSched_keeps _ _ _).trans (State.choose_keeps _ _)
  · exact Keeps.refl s
theorem State.noteChoice_keeps (b s : State) (d) : Keeps s (State.noteChoice b s d) := by
  unfold State.noteChoice; simp only
  split
  · exact State.setSched_keeps _ _ _
  · split
    · exact State.setSched_keeps _ _ _
    · split
      · exact State.setSched_keeps _ _ _
      · exact Keeps.refl s
theorem State.withdrawRead_keeps (s : State) (d) : Keeps s (s.withdrawRead d) := by
  unfold State.withdrawRead; split
  · split
    · exact State.endAttempt_keeps _ _
    · exact Keeps.refl s
  · exact Keeps.refl s
theorem State.withdrawRequest_keeps (s : State) (d) : Keeps s (s.withdrawRequest d) := by
  unfold State.withdrawRequest; split
  · split
    · exact Keeps.refl s
    · exact State.setCtxReq_keeps _ _ _
  · exact Keeps.refl s
theorem State.eachDrive_keeps {f : State → DriveId → State} (h : ∀ s d, Keeps s (f s d)) (s) : Keeps s (s.eachDrive f)
    :=
  (((h _ _).trans (h _ _)).trans (h _ _)).trans (h _ _)
theorem State.quietTimer_keeps (s : State) : Keeps s s.quietTimer := by
  unfold State.quietTimer; split
  · split
    · exact Keeps.frame rfl rfl rfl rfl rfl rfl rfl
    · exact Keeps.refl s
  · exact Keeps.frame rfl rfl rfl rfl rfl rfl rfl
theorem State.settle_keeps (s b : State) : Keeps s (s.settle b) := by
  unfold State.settle
  simp only
  refine Keeps.trans ?_ (State.quietTimer_keeps _)
  have h := (((State.quietTimer_keeps s).trans (State.eachDrive_keeps State.withdrawRead_keeps _)).trans
      (State.eachDrive_keeps State.withdrawRequest_keeps _)).trans (State.eachDrive_keeps (State.noteChoice_keeps b) _)
  split
  · exact h
  · exact h.trans (State.eachDrive_keeps State.makeChoice_keeps _)

/-! ### The Read Combiner and the Rest Controllers -/

theorem restTimer_ne (n : Nat) : (restTimer n != some 0) = true := by
  unfold restTimer; split <;> simp_all

theorem State.shed_keeps (s : State) (d m) : Keeps s (s.shed d m) := by
  unfold State.shed
  simp only
  refine Keeps.trans (Keeps.trans (Keeps.trans (State.setRest_keeps s d _ ?_) (State.request_keeps _ _ _))
      (State.raiseBoth_keeps _ _)) (State.count_keeps _ _ _)
  intro h
  generalize s.rests.get d = r at h ⊢
  simp only [Rest.sound, Bool.and_eq_true, decide_eq_true_eq] at h ⊢
  refine ⟨⟨restTimer_ne _, ?_⟩, by omega⟩
  by_cases hn : max r.left (m.snap.restBase * 2 ^ r.level) = 0
  · have h0 : ¬ r.left < m.snap.restBase * 2 ^ r.level := by omega
    have hl : r.left = 0 := by omega
    rw [if_neg h0]
    obtain ⟨t, c, lv, w⟩ := r
    cases t with
    | none => have hc := h.1.2; simp at hc; simp [hc]
    | some x => simp [Rest.left] at hl; subst hl; simp at h
  · simp [restTimer, hn]

theorem State.reportQuality_keeps (s : State) (d m mean) : Keeps s (s.reportQuality d m mean) := by
  unfold State.reportQuality
  simp only
  have h1 : Keeps s (s.setRest d { s.rests.get d with weakRun := (s.rests.get d).weakRun + 1 }) := State.setRest_keeps
      s d _ fun h => h
  split
  · split
    · exact h1.trans (State.shed_keeps _ _ _)
    · exact h1
  · refine State.setRest_keeps s d _ fun h => ?_
    simp only [Rest.sound, Bool.and_eq_true, decide_eq_true_eq] at h ⊢
    exact ⟨h.1, by omega⟩

theorem State.beginStore_keeps (s : State) (i c u v a w) : Keeps s (s.beginStore i c u v a w) := (State.setUnit_keeps
    _ _ _ _).trans (State.setPhase_keeps _ _ _ _)
theorem State.limitTest_keeps (s : State) (i c u m v sy a) : Keeps s (s.limitTest i c u m v sy a) := by
  unfold State.limitTest; simp only
  split
  · split
    · exact State.beginStore_keeps _ _ _ _ _ _ _
    · exact ((State.enterTerminal_keeps _ _ _ _).trans (State.release_keeps _ _)).trans (State.count_keeps _ _ _)
  · exact (State.setUnit_keeps _ _ _ _).trans (State.setPhase_keeps _ _ _ _)
theorem State.judge_keeps (s : State) (i c u m v) : Keeps s (s.judge i c u m v) := by
  unfold State.judge; simp only
  split
  · split
    · exact State.beginStore_keeps _ _ _ _ _ _ _
    · exact State.limitTest_keeps _ _ _ _ _ _ _ _
  · split
    · exact State.setPhase_keeps _ _ _ _
    · exact State.limitTest_keeps _ _ _ _ _ _ _ _
theorem State.evaluate_keeps (s : State) (i c u m r) : Keeps s (s.evaluate i c u m r) := by
  unfold State.evaluate; simp only
  have h1 : ∀ c' v, Keeps s (if r.sync = true then (s.setPhase i c' (.evaluating v)).count c.drive 0 else ((s.setPhase
      i c' (.evaluating v)).count c.drive 0).count c.drive 1) := by
    intro c' v; split
    · exact (State.setPhase_keeps _ _ _ _).trans (State.count_keeps _ _ _)
    · exact ((State.setPhase_keeps _ _ _ _).trans (State.count_keeps _ _ _)).trans (State.count_keeps _ _ _)
  have h2 := fun c' v => (h1 c' v).trans (State.reportQuality_keeps _ c.drive m (meanQuality c.b r))
  by_cases hs : r.sync = true
  · simp only [hs, if_true] at h2 ⊢
    exact (h2 _ _).trans (State.judge_keeps _ _ _ _ _ _)
  · simp only [hs] at h2 ⊢
    exact (h2 _ _).trans (State.limitTest_keeps _ _ _ _ _ _ _ _)
theorem State.takeResult_keeps (s : State) (d u r) : Keeps s (s.takeResult d u r) := by
  unfold State.takeResult
  split
  · exact Keeps.refl s
  · split
    · exact State.evaluate_keeps _ _ _ _ _ _
    · exact Keeps.refl s
theorem State.endSearch_keeps (s : State) (i c u m v) : Keeps s (s.endSearch i c u m v) := by
  unfold State.endSearch; simp only
  split
  · exact State.beginStore_keeps _ _ _ _ _ _ _
  · exact State.limitTest_keeps _ _ _ _ _ _ _ _
  · exact (State.count_keeps _ _ _).trans (State.limitTest_keeps _ _ _ _ _ _ _ _)

/-! ### The drive link -/
theorem State.pollEnd_keeps (s : State) (d c g) : Keeps s (s.pollEnd d c g) := by
  unfold State.pollEnd; simp only
  split
  · split
    · exact State.setDrive_keeps _ _ _
    · split
      · exact State.setDrive_keeps _ _ _
      · exact Keeps.refl s
  · split
    · exact State.setDrive_keeps _ _ _
    · split
      · exact State.setDrive_keeps _ _ _
      · exact Keeps.refl s
  all_goals exact Keeps.refl s
theorem State.goOffline_keeps (s : State) (d) : Keeps s (s.goOffline d) := ((State.setDrive_keeps _ _ _).trans
    (State.raiseBoth_keeps _ _)).trans (State.loseMount_keeps _ _)
theorem State.missed_keeps (s : State) (d) : Keeps s (s.missed d) := by
  unfold State.missed; simp only
  split
  · exact Keeps.refl s
  · split
    · exact (State.setDrive_keeps _ _ _).trans (State.goOffline_keeps _ _)
    · exact State.setDrive_keeps _ _ _
  · split
    · exact ((State.setDrive_keeps _ _ _).trans (State.raiseBoth_keeps _ _)).trans (State.loseMount_keeps _ _)
    · exact State.setDrive_keeps _ _ _
theorem State.takeFault_keeps (s : State) (d c u k p) : Keeps s (s.takeFault d c u k p) := by
  unfold State.takeFault; simp only
  have h1 := (State.captureFault_keeps s d c u k).trans (State.count_keeps _ d 14)
  have h2 : Keeps s (if k.miss = true then ((s.captureFault d c u k).count d 14).missed d else (s.captureFault d c u
      k).count d 14) := by
    split
    · exact h1.trans (State.missed_keeps _ _)
    · exact h1
  have h3 : Keeps s (if p = true then (if k.miss = true then ((s.captureFault d c u k).count d 14).missed d else
      (s.captureFault d c u k).count d 14).setPosition d none else (if k.miss = true then ((s.captureFault d c u
      k).count d 14).missed d else (s.captureFault d c u k).count d 14)) := by
    split
    · exact h2.trans (State.setPosition_keeps _ _ _)
    · exact h2
  cases k
  · exact h3
  · exact h3
  · exact h3
  · exact h3.trans (State.request_keeps _ _ _)
  · exact h3.trans (State.request_keeps _ _ _)
theorem State.endExchange_keeps (s : State) : Keeps s s.endExchange :=
  ⟨id, id, id, id, fun _ _ => rfl, rfl⟩
theorem State.endOrphan_keeps (s : State) (x) : Keeps s (s.endOrphan x) := by
  unfold State.endOrphan; split
  · exact (State.endExchange_keeps _).trans (State.endAttempt_keeps _ _)
  · exact State.endExchange_keeps _
theorem State.faultTx_keeps (s : State) (x k) : Keeps s (s.faultTx x k) := by
  unfold State.faultTx; simp only
  split
  · exact (State.endOrphan_keeps _ _).trans (State.settle_keeps _ _)
  · have h := fun u p => ((State.endExchange_keeps s).trans (State.takeFault_keeps _ x.drive x.cmd u k p)).trans
        (State.pollEnd_keeps _ x.drive x.cmd false)
    refine Keeps.trans ?_ (State.settle_keeps _ _)
    by_cases hx : x.ofAttempt = true
    · simp only [hx, if_true]; exact (h _ _).trans (State.endAttempt_keeps _ _)
    · simp only [hx]; exact h _ _
theorem State.takeMedium_keeps (s : State) (d p c k) : Keeps s (s.takeMedium d p c k) := by
  unfold State.takeMedium; simp only
  have h2 : ∀ l, Keeps s (if ((s.drives.get d).known && p != (s.drives.get d).medium || c) = true then (s.setDrive d
      l).raiseBoth .mediumChanged else s.setDrive d l) := by
    intro l; split
    · exact (State.setDrive_keeps _ _ _).trans (State.raiseBoth_keeps _ _)
    · exact State.setDrive_keeps _ _ _
  have h2 := h2 { s.drives.get d with medium := p, known := true, kind := k.or (s.drives.get d).kind }
  split
  · split
    · exact h2.trans (State.loseMount_keeps _ _)
    · exact h2
  · exact h2
theorem State.takeReport_keeps (s : State) (d p c k pos) : Keeps s (s.takeReport d p c k pos) :=
    ((State.endedWell_keeps _ _).trans (State.setPosition_keeps _ _ _)).trans (State.takeMedium_keeps _ _ _ _ _)
theorem State.goOnline_keeps (s : State) (d) : Keeps s (s.goOnline d) := by
  unfold State.goOnline; simp only; split
  · exact Keeps.refl s
  · exact (State.setDrive_keeps _ _ _).trans (State.request_keeps _ _ _)
theorem State.probeReply_keeps (s : State) (x b) : Keeps s (s.probeReply x b) := by
  unfold State.probeReply; split
  · exact (State.endOrphan_keeps _ _).trans (State.settle_keeps _ _)
  · split
    · exact State.faultTx_keeps _ _ _
    · exact ((((State.endExchange_keeps _).trans (State.takeReport_keeps _ _ _ _ _ _)).trans (State.goOnline_keeps _
          _)).trans (State.pollEnd_keeps _ _ _ _)).trans (State.settle_keeps _ _)
theorem State.presenceReply_keeps (s : State) (x b) : Keeps s (s.presenceReply x b) := by
  unfold State.presenceReply; split
  · exact (State.endOrphan_keeps _ _).trans (State.settle_keeps _ _)
  · split
    · exact State.faultTx_keeps _ _ _
    · rename_i r _
      have h := ((State.endExchange_keeps s).trans (State.takeReport_keeps _ x.drive r.medium r.changed none
          r.position)).trans (State.pollEnd_keeps _ x.drive .poll true)
      simp only
      refine Keeps.trans ?_ (State.settle_keeps _ _)
      split
      · exact h.trans (State.takeFault_keeps _ _ _ _ _ _)
      all_goals exact h
theorem State.setAttemptPhase_keeps (s : State) (d ph) : Keeps s (s.setAttemptPhase d ph) := by
  unfold State.setAttemptPhase; split
  · exact State.setAttempt_keeps _ _ _
  · exact Keeps.refl s
theorem State.startPollTimer_keeps (s : State) (d) : Keeps s (s.startPollTimer d) := (State.setAttemptPhase_keeps _ _
    _).trans (State.setDrive_keeps _ _ _)
theorem State.positionPollReply_keeps (s : State) (x b) : Keeps s (s.positionPollReply x b) := by
  unfold State.positionPollReply; split
  · exact (State.endOrphan_keeps _ _).trans (State.settle_keeps _ _)
  · split
    · exact State.faultTx_keeps _ _ _
    · rename_i r _
      have h := ((State.endExchange_keeps s).trans (State.takeReport_keeps _ x.drive r.medium r.changed none
          r.position)).trans (State.pollEnd_keeps _ x.drive .poll true)
      simp only
      refine Keeps.trans ?_ (State.settle_keeps _ _)
      split
      · exact h.trans (State.endAttempt_keeps _ _)
      · split
        · split
          · exact h.trans (State.endAttempt_keeps _ _)
          · exact h.trans (State.setAttemptPhase_keeps _ _ _)
        · split
          · exact h.trans ((State.takeFault_keeps _ _ _ _ _ _).trans (State.endAttempt_keeps _ _))
          · exact h.trans (State.startPollTimer_keeps _ _)
        · exact h.trans ((State.takeFault_keeps _ _ _ _ _ _).trans (State.endAttempt_keeps _ _))
theorem State.positionAck_keeps (s : State) (x) : Keeps s (s.positionAck x) := by
  unfold State.positionAck; split
  · exact (State.endOrphan_keeps _ _).trans (State.settle_keeps _ _)
  · simp only
    have h := (State.endExchange_keeps s).trans (State.endedWell_keeps _ x.drive)
    refine Keeps.trans ?_ (State.settle_keeps _ _)
    split
    · exact h.trans (State.endAttempt_keeps _ _)
    · exact h.trans ((State.setDrive_keeps _ _ _).trans (State.startPollTimer_keeps _ _))
theorem State.readReply_keeps (s : State) (x b) : Keeps s (s.readReply x b) := by
  unfold State.readReply; split
  · exact (State.endOrphan_keeps _ _).trans (State.settle_keeps _ _)
  · have h := (State.endExchange_keeps s).trans (State.endedWell_keeps _ x.drive)
    split
    · exact ((h.trans (State.takeResult_keeps _ _ _ _)).trans (State.endAttempt_keeps _ _)).trans (State.settle_keeps
          _ _)
    · exact ((h.trans (State.takeFault_keeps _ _ _ _ _ _)).trans (State.endAttempt_keeps _ _)).trans
          (State.settle_keeps _ _)
    · exact State.faultTx_keeps _ _ _
    · exact (State.endExchange_keeps s).trans (State.settle_keeps _ _)
theorem State.relaxAck_keeps (s : State) (x) : Keeps s (s.relaxAck x) := by
  unfold State.relaxAck; split
  · exact (State.endOrphan_keeps _ _).trans (State.settle_keeps _ _)
  · exact ((State.endExchange_keeps s).trans (State.endedWell_keeps _ x.drive)).trans (State.settle_keeps _ _)

theorem State.stretchOut_keeps (s : State) (x) : Keeps s (s.stretchOut x) := by
  have h := State.faultTx_keeps s x .stretchTimeout
  exact h.trans ⟨id, id, id, id, fun _ _ => State.faultTx_exchange _ _ _, rfl⟩
theorem State.abandonPositioning_keeps (s : State) (d) : Keeps s (s.abandonPositioning d) := by
  unfold State.abandonPositioning; split
  · exact Keeps.refl s
  · split
    · simp only
      have h := ((State.request_keeps s d .relax).trans (State.setPosition_keeps _ d none)).trans
          (State.setDrive_keeps _ d { ((s.request d .relax).setPosition d none).drives.get d with poll := none })
      split
      · exact h.trans (State.setAttempt_keeps _ _ _)
      · exact h.trans (State.endAttempt_keeps _ _)
    · exact Keeps.refl s
/-- A rest that has not run out is sound after a time as it was before. -/
theorem State.elapse_rest (s : State) (k d) (h : Rest.sound (s.rests.get d) = true)
    (hr : (s.elapse k).rested d = false) : Rest.sound ((s.elapse k).rests.get d) = true := by
  unfold State.rested State.timer at hr
  unfold State.elapse at hr ⊢
  simp only at hr ⊢
  cases ht : s.power.state.timersRun <;> simp only [ht, if_true] at hr ⊢
  · simpa using h
  · simp only [Quad.get_map] at hr ⊢
    simp only [Rest.sound, Bool.and_eq_true, decide_eq_true_eq, bne_iff_ne, ne_eq] at h ⊢
    exact ⟨⟨by simpa using hr, by simpa [Timer.fall] using h.1.2⟩, h.2⟩
theorem State.pass_keeps (s : State) (k) : Keeps s (s.pass k) := by
  have hl : LinkOk s → LinkOk (s.elapse k) := fun i h => by
    show s.link.exchange.map _ = none
    rw [i h]; rfl
  unfold State.pass State.restsOver; simp only
  split
  · refine Keeps.trans (t := { s.elapse k with rests := Quad.ofFn fun d => if (s.elapse k).rested d = true then
      { (s.elapse k).rests.get d with timer := none, cause := .none } else (s.elapse k).rests.get d })
      ⟨id, id, id, fun i d => ?_, hl, rfl⟩ (State.settle_keeps _ _)
    show Rest.sound ((Quad.ofFn _).get d) = true
    rw [Quad.get_ofFn]
    split
    · have h := i d
      have hlev : ((s.elapse k).rests.get d).level = (s.rests.get d).level := by
        unfold State.elapse; simp only; split
        · rw [Quad.get_map]
        · rfl
      simp only [Rest.sound, Bool.and_eq_true, decide_eq_true_eq] at h ⊢
      exact ⟨⟨rfl, rfl⟩, by rw [hlev]; exact h.2⟩
    · rename_i hr; exact State.elapse_rest s k d (i d) (by simpa using hr)
  · rename_i hr
    refine ⟨id, id, id, fun i d => State.elapse_rest s k d (i d) ?_, hl, rfl⟩
    simp only [List.any_eq_true, not_exists, not_and, Bool.not_eq_true] at hr
    exact hr d (by cases d <;> simp [DriveId.all])

theorem State.grantLink_keeps (s : State) (d t) (h : s.link.clearing = false) : Keeps s (s.grantLink d t) := by
  have h1 : Keeps s { s with link := ⟨some (t.exchange d s.settings.ackWait), s.link.clearing, d⟩ } :=
    ⟨id, id, id, id, fun _ hc => absurd hc (by simp [h]), rfl⟩
  unfold State.grantLink; simp only
  split
  · exact h1.trans (State.setAttempt_keeps _ _ _)
  · exact h1.trans (State.setDrive_keeps _ _ _)

theorem State.grantOf_free {s : State} {d} (h : s.grantOf = some d) : s.link.clearing = false := by
  unfold State.grantOf at h; simp only at h
  split at h
  · cases h
  · rename_i hc; simp only [Bool.or_eq_true, not_or, Bool.not_eq_true] at hc; exact hc.2

/-! ### Power -/
theorem State.clearAll_keeps (s : State) (ev) : Keeps s (s.clearAll ev) := by
  refine ⟨fun i => ⟨rfl, i.2⟩, fun i => ⟨fun d => by cases d <;> exact Nat.zero_le _, i.2⟩,
    fun i => ⟨fun p => by cases p <;> exact Nat.zero_le _, i.2⟩, fun _ d => by cases d <;> rfl, fun i h => ?_, rfl⟩
  show s.link.exchange.map _ = none
  rw [i h]; rfl
theorem State.enterSaving_keeps (s : State) : Keeps s s.enterSaving := by
  refine ⟨fun i => ⟨i.1, fun im h => ?_⟩, fun i => ⟨i.1, fun im h => ?_⟩, fun i => ⟨i.1, fun im h => ?_⟩,
    fun i d => ?_, id, rfl⟩
  · cases h; exact i.1
  · cases h; exact i.1
  · cases h; exact i.1
  · have h := i d
    simp only [State.enterSaving, Quad.get_map]
    simp only [Rest.sound, Bool.and_eq_true, decide_eq_true_eq] at h ⊢
    exact ⟨⟨rfl, rfl⟩, h.2⟩

theorem State.wake_keeps (s : State) : Keeps s s.wake :=
  ⟨fun i => ⟨rfl, i.2⟩, fun i => ⟨fun d => by cases d <;> exact Nat.zero_le _, i.2⟩, id, id, id, rfl⟩

/-! ### The Profile Loader -/
theorem State.applySetting_keeps (s : State) (a b) : Keeps s (s.applySetting a b) := by
  unfold State.applySetting; split
  · simp only; split <;> exact Keeps.frame rfl rfl rfl rfl rfl rfl rfl
  · exact Keeps.frame rfl rfl rfl rfl rfl rfl rfl
theorem State.setStage_keeps (s : State) (a) : Keeps s (s.setStage a) := Keeps.frame rfl rfl rfl rfl rfl rfl rfl
theorem State.endRun_keeps (s : State) : Keeps s s.endRun := Keeps.frame rfl rfl rfl rfl rfl rfl rfl
theorem State.fallBack_keeps (s : State) : Keeps s s.fallBack := Keeps.frame rfl rfl rfl rfl rfl rfl rfl
theorem State.toSetting_keeps (s : State) (j) : Keeps s (s.toSetting j) := by
  unfold State.toSetting; split
  · exact State.endRun_keeps _
  · split <;> exact Keeps.frame rfl rfl rfl rfl rfl rfl rfl
theorem State.markerRead_keeps (s : State) (b) : Keeps s (s.markerRead b) := by
  unfold State.markerRead; split <;> exact Keeps.frame rfl rfl rfl rfl rfl rfl rfl
theorem State.countRead_keeps (s : State) (b) : Keeps s (s.countRead b) := Keeps.frame rfl rfl rfl rfl rfl rfl rfl
theorem State.recordRead_keeps (s : State) (i b) : Keeps s (s.recordRead i b) := Keeps.frame rfl rfl rfl rfl rfl rfl
    rfl
theorem State.settingsMarkerRead_keeps (s : State) (b) : Keeps s (s.settingsMarkerRead b) := by
  unfold State.settingsMarkerRead; split <;> exact Keeps.frame rfl rfl rfl rfl rfl rfl rfl
theorem State.settingsCountRead_keeps (s : State) (b) : Keeps s (s.settingsCountRead b) := by
  have h : Keeps s { s with loader := { s.loader with m := b.toNat } } := Keeps.frame rfl rfl rfl rfl rfl rfl rfl
  exact h.trans (State.toSetting_keeps _ _)
theorem State.settingRead_keeps (s : State) (j a b c) : Keeps s (s.settingRead j a b c) := (State.applySetting_keeps _
    _ _).trans (State.toSetting_keeps _ _)
theorem State.busNoAck_keeps (s : State) : Keeps s s.busNoAck := by
  unfold State.busNoAck; split <;> exact Keeps.frame rfl rfl rfl rfl rfl rfl rfl
theorem State.endWrite_keeps (s : State) (o) : Keeps s (s.endWrite o) := Keeps.frame rfl rfl rfl rfl rfl rfl rfl
theorem State.transferEnd_keeps (s : State) (a) : Keeps s (s.transferEnd a) := by
  unfold State.transferEnd; split <;> exact Keeps.frame rfl rfl rfl rfl rfl rfl rfl
theorem State.writePollEnd_keeps (s : State) (a) : Keeps s (s.writePollEnd a) := by
  unfold State.writePollEnd; split
  · exact State.endWrite_keeps _ _
  · split <;> exact Keeps.frame rfl rfl rfl rfl rfl rfl rfl
theorem State.nextWritePoll_keeps (s : State) : Keeps s s.nextWritePoll := Keeps.frame rfl rfl rfl rfl rfl rfl rfl
theorem State.startRun_keeps (s : State) : Keeps s s.startRun := Keeps.frame rfl rfl rfl rfl rfl rfl rfl
theorem State.startWrite_keeps (s : State) (p a b) : Keeps s (s.startWrite p a b) := Keeps.frame rfl rfl rfl rfl rfl
    rfl rfl

/-! ### Requests -/
theorem State.goneOn_keeps (s : State) (d p) : Keeps s (s.goneOn d p) := by
  unfold State.goneOn; simp only
  split
  · exact (State.setDeferred_keeps s p _ (fun h => by simpa using h)).trans (State.raise_keeps _ _ _)
  · exact Keeps.refl s
theorem State.dropCursor_keeps (s : State) (d p) : Keeps s (s.dropCursor d p) := by
  unfold State.dropCursor; simp only; split
  · exact State.setPort_keeps _ _ _
  · exact Keeps.refl s
theorem State.mountOn_keeps (s : State) (d m) : Keeps s (s.mountOn d m) := by
  unfold State.mountOn; simp only
  have hc : Keeps (s.setMount d (some m))
      { s.setMount d (some m) with unitMap := Sparse.clear (s.setMount d (some m)).unitMap m.mapFirst m.u } :=
    ⟨fun i => ⟨Sparse.wf_clear i.1 _ _, i.2⟩, id, id, id, id, rfl⟩
  refine Keeps.trans ?_ (State.newWork_keeps _)
  refine Keeps.trans ?_ (State.setRest_keeps _ _ _ ?_)
  · exact (((State.setMount_keeps _ _ _).trans hc).trans (State.setWork_keeps _ _ _ fun _ => Nat.zero_le _)).trans
        (State.setSched_keeps _ _ _)
  · intro h
    simp only [Rest.sound, Bool.and_eq_true, decide_eq_true_eq] at h ⊢
    exact ⟨h.1, Nat.zero_le _⟩
theorem State.doMount_keeps (s : State) (d n) : Keeps s (s.doMount d n).1 := by
  unfold State.doMount; split
  · exact Keeps.refl s
  · exact (State.mountOn_keeps _ _ _).trans (State.settle_keeps _ _)
theorem State.unmountOf_keeps (s : State) (d m) : Keeps s (s.unmountOf d m) := by
  unfold State.unmountOf; simp only
  have h1 : Keeps s (if (s.attempts.get d).isSome = true then s.setDiscard d true else s) := by
    split
    · exact State.setDiscard_keeps _ _ _
    · exact Keeps.refl s
  refine Keeps.trans ?_ (State.dropCursor_keeps _ _ _)
  refine Keeps.trans ?_ (State.dropCursor_keeps _ _ _)
  refine Keeps.trans ?_ (State.emptyStreams_keeps _ _ _)
  refine Keeps.trans ?_ (State.emptyStreams_keeps _ _ _)
  refine Keeps.trans ?_ (State.goneOn_keeps _ _ _)
  refine Keeps.trans ?_ (State.goneOn_keeps _ _ _)
  refine Keeps.trans ?_ (State.setSched_keeps _ _ _)
  refine Keeps.trans ?_ (State.setWork_keeps _ _ _ fun _ => Nat.zero_le _)
  refine Keeps.trans ?_ (State.setMount_keeps _ _ _)
  refine Keeps.trans ?_ (State.setCtxReq_keeps _ _ _)
  exact h1.trans (State.releaseDrive_keeps _ _ _)
theorem State.doUnmount_keeps (s : State) (d) : Keeps s (s.doUnmount d).1 := by
  unfold State.doUnmount; split
  · exact Keeps.refl s
  · exact (State.unmountOf_keeps _ _ _).trans (State.settle_keeps _ _)
theorem State.completeUnmount_keeps (s : State) (d) : Keeps s (s.completeUnmount d) := by
  unfold State.completeUnmount; split
  · exact Keeps.refl s
  · rename_i m _
    simp only
    have hc : Keeps s { s.setMount d none with unitMap := Sparse.clear s.unitMap m.mapFirst m.u } :=
      ⟨fun i => ⟨Sparse.wf_clear i.1 _ _, i.2⟩, id, id, id, id, rfl⟩
    refine Keeps.trans ?_ (State.settle_keeps _ _)
    split
    · exact hc.trans (State.request_keeps _ _ _)
    · exact hc
theorem State.doResume_keeps (s : State) (d) : Keeps s (s.doResume d).1 := by
  unfold State.doResume; split
  · exact Keeps.refl s
  · split
    · exact Keeps.refl s
    · exact Keeps.refl s
    · simp only; split
      · exact Keeps.refl s
      · exact (((State.setMount_keeps _ _ _).trans (State.setSched_keeps _ _ _)).trans (State.newWork_keeps _)).trans
            (State.settle_keeps _ _)
theorem State.recoverRun_keeps (s : State) (d p u n k) : Keeps s (s.recoverRun d p u n k).1 := by
  induction n generalizing s u k with
  | zero => exact Keeps.refl s
  | succ n ih =>
    unfold State.recoverRun
    have h := State.demand_keeps s d u (.direct p)
    split
    · exact Keeps.refl s
    · rename_i s' o _ hs; rw [hs] at h; exact h.trans (ih _ _ _)
theorem State.doRecover_keeps (s : State) (p d f c) : Keeps s (s.doRecover p d f c).1 := by
  unfold State.doRecover; split
  · exact Keeps.refl s
  · split
    · exact Keeps.refl s
    · simp only
      split
      · exact (State.recoverRun_keeps _ _ _ _ _ _).trans (State.settle_keeps _ _)
      · exact Keeps.refl s
theorem State.doSweep_keeps (s : State) (d o st) : Keeps s (s.doSweep d o st).1 := by
  unfold State.doSweep; split
  · exact Keeps.refl s
  · rename_i m _
    split
    · split
      · exact Keeps.refl s
      · simp only
        refine Keeps.trans ?_ (State.settle_keeps _ _)
        split
        · exact (State.setMount_keeps _ _ _).trans (State.newWork_keeps _)
        · exact State.setMount_keeps _ _ _
    · simp only
      refine Keeps.trans ?_ (State.settle_keeps _ _)
      have h : Keeps s ((s.setMount d (some { m with sweepOn := false })).leaveWork d (s.unswept d)) :=
        (State.setMount_keeps _ _ _).trans (State.leaveWork_keeps _ _ _ fun h => (length_filterMap_work _ _).trans h)
      split
      · exact h.trans (State.raiseBoth_keeps _ _)
      · exact h
theorem State.doAbandon_keeps (s : State) (d u) : Keeps s (s.doAbandon d u).1 := by
  unfold State.doAbandon; split
  · exact Keeps.refl s
  · split
    · exact Keeps.refl s
    · split
      · exact Keeps.refl s
      · split
        · exact (State.abandonUnit_keeps _ _ _).trans (State.settle_keeps _ _)
        · split
          · exact Keeps.refl s
          · simp only
            refine Keeps.trans ?_ (State.settle_keeps _ _)
            split
            · exact (State.abandonUnit_keeps _ _ _).trans (State.setCtx_keeps _ _ _)
            · exact (State.abandonUnit_keeps _ _ _).trans (State.release_keeps _ _)
theorem State.doQueryMap_keeps (s : State) (p d f c) : Keeps s (s.doQueryMap p d f c).1 := by
  unfold State.doQueryMap; split
  · exact Keeps.refl s
  · split
    · exact Keeps.refl s
    · exact State.setPort_keeps _ _ _
theorem State.doQueryMapNext_keeps (s : State) (p c) : Keeps s (s.doQueryMapNext p c).1 := by
  unfold State.doQueryMapNext; split
  · exact Keeps.refl s
  · exact State.doQueryMap_keeps _ _ _ _ _
theorem State.withdrawRange_keeps (s : State) (d p r) : Keeps s (s.withdrawRange d p r) := by
  unfold State.withdrawRange; split
  · exact State.withdrawClass_keeps _ _ _ _ _ _
  · exact Keeps.refl s
theorem State.tearDown_keeps (s : State) (p w) : Keeps s (s.tearDown p w) := by
  unfold State.tearDown; simp only
  refine Keeps.trans ?_ (State.setStream_keeps _ _ _ _)
  split
  · exact State.withdrawRange_keeps _ _ _ _
  · exact Keeps.refl s
theorem State.doSetView_keeps (s : State) (p w v pl) : Keeps s (s.doSetView p w v pl).1 := ((State.tearDown_keeps _ _
    _).trans (State.setView_keeps _ _ _ _)).trans (State.settle_keeps _ _)
theorem State.doClearView_keeps (s : State) (p w) : Keeps s (s.doClearView p w).1 := ((State.tearDown_keeps _ _
    _).trans (State.setView_keeps _ _ _ _)).trans (State.settle_keeps _ _)
theorem State.moveStream_keeps (s : State) (p t a) : Keeps s (s.moveStream p t a) := by
  unfold State.moveStream; simp only
  refine Keeps.trans ?_ (State.setStream_keeps _ _ _ _)
  refine Keeps.trans ?_ (State.demands_keeps _ _ _ _ _)
  split
  · exact Keeps.refl s
  · exact State.withdrawRange_keeps _ _ _ _
theorem State.serveRead_keeps (s : State) (p t a) : Keeps s (s.serveRead p t a).1 := by
  unfold State.serveRead; simp only
  refine Keeps.trans ?_ (State.settle_keeps _ _)
  split
  · exact (State.serve_keeps _ _ _).trans (State.moveStream_keeps _ _ _ _)
  · exact (State.serve_keeps _ _ _).trans (State.moveStream_keeps _ _ _ _)
  · exact State.serve_keeps _ _ _
theorem State.freeEntry_keeps (s : State) (p a c) : Keeps s (s.freeEntry p a c) := State.setDeferred_keeps _ _ _ fun h
    => (List.length_filter_le _ _).trans h
theorem State.demandRead_deferred (s : State) (p t) : (s.demandRead p t).deferred = s.deferred := congrArg
    HostView.deferred (State.demands_host s _ _ _ _)
theorem State.readNew_keeps (s : State) (p t a c) : Keeps s (s.readNew p t a c).1 := by
  unfold State.readNew
  split
  · exact State.serveRead_keeps _ _ _ _
  · split
    · exact Keeps.refl s
    · split
      · exact Keeps.refl s
      · rename_i h
        simp only
        refine Keeps.trans ?_ (State.settle_keeps _ _)
        refine Keeps.trans (State.demands_keeps _ _ _ _ _ : Keeps s (s.demandRead p t)) (State.setDeferred_keeps _ _ _
            fun _ => ?_)
        rw [State.demandRead_deferred]
        unfold Config.deferredSize at h
        simp; omega
theorem State.readPending_keeps (s : State) (p t a c e) : Keeps s (s.readPending p t a c e).1 := by
  unfold State.readPending; simp only
  split
  · exact Keeps.refl s
  · split
    · exact ((State.freeEntry_keeps _ _ _ _).trans (State.withdrawClass_keeps _ _ _ _ _ _)).trans
        (State.settle_keeps _ _)
    · exact ((State.setDeferred_keeps s p _ (fun h => by simpa using h)).trans (State.demands_keeps _ _ _ _ _)).trans
        (State.settle_keeps _ _)
theorem State.doRead_keeps (s : State) (p a c) : Keeps s (s.doRead p a c).1 := by
  unfold State.doRead
  split
  · split
    · exact Keeps.refl s
    · exact State.readNew_keeps _ _ _ _ _
  · split
    · exact State.freeEntry_keeps _ _ _ _
    · split
      · exact State.freeEntry_keeps _ _ _ _
      · split
        · exact (State.freeEntry_keeps _ _ _ _).trans (State.readNew_keeps _ _ _ _ _)
        · split
          · exact (State.freeEntry_keeps _ _ _ _).trans (State.serveRead_keeps _ _ _ _)
          · exact State.readPending_keeps _ _ _ _ _ _
theorem State.doReset_keeps (s : State) (p) : Keeps s (s.doReset p).1 := ((State.clearAll_keeps _ _).trans
    (State.setPort_keeps _ _ _)).trans (State.settle_keeps _ _)
theorem State.doReload_keeps (s : State) : Keeps s s.doReload.1 := by
  unfold State.doReload; split
  · exact Keeps.refl s
  · exact ((State.newWork_keeps _).trans (State.startRun_keeps _)).trans (State.settle_keeps _ _)
theorem State.doProfileWrite_keeps (s : State) (p a b) : Keeps s (s.doProfileWrite p a b).1 := by
  unfold State.doProfileWrite; split
  · exact Keeps.refl s
  · exact ((State.newWork_keeps _).trans (State.startWrite_keeps _ _ _ _)).trans (State.settle_keeps _ _)
theorem State.doHold_keeps (s : State) (d n) : Keeps s (s.doHold d n).1 := by
  unfold State.doHold; simp only
  refine Keeps.trans (State.setRest_keeps _ _ _ fun h => ?_) (State.settle_keeps _ _)
  simp only [Rest.sound, Rest.hold, Bool.and_eq_true] at h ⊢
  refine ⟨⟨restTimer_ne _, ?_⟩, h.2⟩
  split
  · simp
  · rename_i hn; simp [restTimer, hn]
theorem State.doErrorRelease_keeps (s : State) (p n) : Keeps s (s.doErrorRelease p n).1 := by
  unfold State.doErrorRelease; simp only
  split
  · split <;> exact Keeps.frame rfl rfl rfl rfl rfl rfl rfl
  · split <;> exact Keeps.frame rfl rfl rfl rfl rfl rfl rfl
theorem State.doStatsWrite_keeps (s : State) (a b c) : Keeps s (s.doStatsWrite a b c).1 := by
  unfold State.doStatsWrite; simp only
  split
  · exact State.setStats_keeps _ _ _
  · exact State.setServed_keeps _ _ _
theorem State.enter_keeps (s : State) (a b) : Keeps s (s.enter a b) := by
  unfold State.enter; simp only
  refine Keeps.trans ?_ (State.eachDrive_keeps State.abandonPositioning_keeps _)
  exact Keeps.frame rfl rfl rfl rfl rfl rfl rfl
theorem State.doSleep_keeps (s : State) (a b c) : Keeps s (s.doSleep a b c).1 := by
  unfold State.doSleep; simp only
  split
  · exact Keeps.frame rfl rfl rfl rfl rfl rfl rfl
  · exact (State.enter_keeps _ _ _).trans (State.settle_keeps _ _)
theorem State.withDrive_keeps (s : State) (ps i f) (h : ∀ d, Keeps s (f d).1) : Keeps s (s.withDrive ps i f).1 := by
  unfold State.withDrive; split
  · exact h _
  · exact Keeps.refl s
theorem State.carry_keeps (s : State) (p c ps) : Keeps s (s.carry p c ps).1 := by
  cases c
  · exact Keeps.refl s
  · exact Keeps.refl s
  · exact (State.setOptions_keeps _ _ _).trans (State.settle_keeps _ _)
  · exact State.doReset_keeps _ _
  · exact Keeps.refl s
  · exact State.doReload_keeps _
  · exact State.doProfileWrite_keeps _ _ _ _
  · exact State.withDrive_keeps _ _ _ _ fun d => State.doMount_keeps _ _ _
  · exact State.withDrive_keeps _ _ _ _ fun d => State.doUnmount_keeps _ _
  · exact State.withDrive_keeps _ _ _ _ fun d => State.doResume_keeps _ _
  · exact State.withDrive_keeps _ _ _ _ fun d => State.doRecover_keeps _ _ _ _ _
  · exact State.withDrive_keeps _ _ _ _ fun d => State.doSweep_keeps _ _ _ _
  · exact State.withDrive_keeps _ _ _ _ fun d => State.doAbandon_keeps _ _ _
  · exact State.withDrive_keeps _ _ _ _ fun d => State.doQueryMap_keeps _ _ _ _ _
  · exact State.doQueryMapNext_keeps _ _ _
  · exact State.withDrive_keeps _ _ _ _ fun d => State.doHold_keeps _ _ _
  · exact State.withDrive_keeps _ _ _ _ fun w => State.withDrive_keeps _ _ _ _ fun d => State.doSetView_keeps _ _ _ _
        _
  · exact State.withDrive_keeps _ _ _ _ fun d => State.doClearView_keeps _ _ _
  · exact State.doRead_keeps _ _ _ _
  · exact Keeps.refl s
  · exact State.setEvents_keeps _ _ _
  · exact State.setEvents_keeps _ _ _
  · exact Keeps.refl s
  · exact State.doErrorRelease_keeps _ _ _
  · exact Keeps.refl s
  · exact State.doStatsWrite_keeps _ _ _ _
  · exact State.doSleep_keeps _ _ _ _
theorem State.respond_keeps (s : State) (p st t pl) : Keeps s (s.respond p st t pl) := State.setPort_keeps _ _ _
theorem State.answer_keeps (s : State) (p c f st pl) : Keeps s (s.answer p c f st pl) := by
  unfold State.answer
  refine Keeps.trans ?_ (State.respond_keeps _ _ _ _ _)
  split
  · exact State.captureRefusal_keeps _ _ _ _ _ _
  · exact Keeps.refl s
theorem Handled.deliver_keeps (s : State) (h : Handled) (p c f) (hk : Keeps s h.1) : Keeps s (h.deliver p c f) := by
  unfold Handled.deliver; split
  · exact hk.trans (State.answer_keeps _ _ _ _ _ _)
  · exact hk.trans (State.setPort_keeps _ _ _)
theorem State.takeRequest_keeps (s : State) (p c f) : Keeps s (s.takeRequest p c f) := by
  unfold State.takeRequest; split
  · exact State.answer_keeps _ _ _ _ _ _
  · exact Handled.deliver_keeps _ _ _ _ _ (State.carry_keeps _ _ _ _)
theorem State.sends_keeps (s : State) (p b) : Keeps s (s.sends p b) := State.setPort_keeps _ _ _
theorem State.dormantFrame_keeps (s : State) (p f) : Keeps s (s.dormantFrame p f) := by
  unfold State.dormantFrame; simp only; split
  · exact (State.respond_keeps _ _ _ _ _).trans (State.wake_keeps _)
  · exact State.respond_keeps _ _ _ _ _
theorem State.frameArrives_keeps (s : State) (p c f) : Keeps s (s.frameArrives p c f) := by
  unfold State.frameArrives; simp only
  refine (State.sends_keeps s p (List.replicate (6 + f.params.length) padding)).trans ?_
  split
  · exact State.dormantFrame_keeps _ _ _
  · split
    · exact State.setPort_keeps _ _ _
    · exact State.takeRequest_keeps _ _ _ _

/-! ### The steps that are due -/
theorem State.answerAbandon_keeps (s : State) (p ip) : Keeps s (s.answerAbandon p ip) := by
  unfold State.answerAbandon; simp only
  split
  · exact Keeps.refl s
  · exact (((State.setPort_keeps _ _ _).trans (State.doAbandon_keeps _ _ _)).trans (State.settle_keeps _ _)).trans
      (State.setPort_keeps _ _ _)
theorem State.takeWaiting_keeps (s : State) (p w) : Keeps s (s.takeWaiting p w) := (State.setPort_keeps _ _ _).trans
    (State.takeRequest_keeps _ _ _ _)
theorem State.grantContext_keeps (s : State) : Keeps s s.grantContext := by
  unfold State.grantContext; split
  · split
    · exact (State.openContext_keeps _ _ _ _ _).trans (State.settle_keeps _ _)
    · exact (State.setCtxReq_keeps _ _ _).trans (State.settle_keeps _ _)
  · exact Keeps.refl s
/-- A step that is due, where there is one, keeps the invariants. -/
def KeepsStep (s : State) (o : Option State) : Prop := ∀ t, o = some t → Keeps s t
theorem State.abandonStep_keeps (s : State) (p) : KeepsStep s (s.abandonStep p) := by
  intro t h; unfold State.abandonStep at h; split at h
  · split at h
    · cases h; exact State.answerAbandon_keeps _ _ _
    · cases h
  · cases h
theorem State.waitingStep_keeps (s : State) (p) : KeepsStep s (s.waitingStep p) := by
  intro t h; unfold State.waitingStep at h; split at h
  · cases h; exact State.takeWaiting_keeps _ _ _
  · cases h
theorem State.unmountStep_keeps (s : State) (p) : KeepsStep s (s.unmountStep p) := by
  intro t h; unfold State.unmountStep at h; split at h
  · cases h; exact State.completeUnmount_keeps _ _
  · cases h
theorem State.grantStep_keeps (s : State) : KeepsStep s s.grantStep := by
  intro t h; unfold State.grantStep at h; split at h
  · cases h; exact State.grantContext_keeps _
  · cases h
theorem State.linkStep_keeps (s : State) : KeepsStep s s.linkStep := by
  intro t h; unfold State.linkStep at h; split at h
  · rename_i d hd
    obtain ⟨x, -, rfl⟩ := Option.map_eq_some_iff.mp h
    exact State.grantLink_keeps s d x (State.grantOf_free hd)
  · cases h
theorem State.savingStep_keeps (s : State) : KeepsStep s s.savingStep := by
  intro t h; unfold State.savingStep at h; split at h
  · cases h; exact State.enterSaving_keeps _
  · cases h
theorem State.runDue_keeps (s : State) : KeepsStep s s.runDue := by
  unfold State.runDue; split
  · exact State.abandonStep_keeps _ _
  · exact State.waitingStep_keeps _ _
  · exact State.unmountStep_keeps _ _
  · exact State.grantStep_keeps _
  · exact State.linkStep_keeps _
  · exact State.savingStep_keeps _
  · intro t h; cases h
theorem State.catchUpN_keeps (n) (s : State) : Keeps s (State.catchUpN n s) := by
  induction n generalizing s with
  | zero => exact Keeps.refl s
  | succ n ih =>
    unfold State.catchUpN; split
    · rename_i s' h; exact (State.runDue_keeps s _ h).trans (ih _)
    · exact Keeps.refl s
theorem State.catchUp_keeps (s : State) : Keeps s s.catchUp := State.catchUpN_keeps _ _
theorem State.upToN_keeps (c n) (s : State) : Keeps s (State.upToN c n s) := by
  induction n generalizing s with
  | zero => exact Keeps.refl s
  | succ n ih =>
    unfold State.upToN; split
    · exact Keeps.refl s
    · split
      · rename_i s' h; exact (State.runDue_keeps s _ h).trans (ih _)
      · exact Keeps.refl s
theorem State.upTo_keeps (c) (s : State) : Keeps s (s.upTo c) := State.upToN_keeps _ _ _

theorem State.presenceDue_keeps (s : State) (d) : Keeps s (s.presenceDue d) := by
  unfold State.presenceDue; exact ((State.setDrive_keeps _ _ _).trans (State.request_keeps _ _ _)).trans
      (State.settle_keeps _ _)
theorem State.reprobeDue_keeps (s : State) (d) : Keeps s (s.reprobeDue d) := by
  unfold State.reprobeDue; exact ((State.setDrive_keeps _ _ _).trans (State.request_keeps _ _ _)).trans
      (State.settle_keeps _ _)
theorem State.pollDue_keeps (s : State) (d) : Keeps s (s.pollDue d) := by
  unfold State.pollDue; exact (State.setDrive_keeps _ _ _).trans (State.setAttemptPhase_keeps _ _ _)
theorem State.ackOut_keeps (s : State) : Keeps s s.ackOut := by
  unfold State.ackOut; split
  · exact State.faultTx_keeps _ _ _
  · exact Keeps.refl s
theorem State.holdOut_keeps (s : State) : Keeps s s.holdOut := by
  unfold State.holdOut; split
  · exact State.stretchOut_keeps _ _
  · exact Keeps.refl s
theorem State.setExchange_keeps (s : State) (x) (h : s.link.exchange.isSome) : Keeps s (s.setExchange x) :=
  ⟨id, id, id, id, fun i hc => absurd (i hc) (by simpa using Option.isSome_iff_ne_none.1 h), rfl⟩
theorem State.enterQuiet_keeps (x : State) : Keeps x x.enterQuiet := by
    unfold State.enterQuiet; simp only
    refine Keeps.trans ?_ (State.settle_keeps _ _)
    refine Keeps.trans (t := { x with power := { x.power with state := .quiet, quiet := none } }) (Keeps.frame rfl rfl
        rfl rfl rfl rfl rfl) (State.eachDrive_keeps ?_ _)
    intro s d
    split
    · exact State.request_keeps _ _ _
    · exact Keeps.refl _

end Sys2Proof.Machine
end

