-- ==== Sys2Proof/Laws/Runs.lean ====
section
/-! SUPPORT. First fit (R11, R12): the run it finds is free and no lower one is, and it finds one where there is one. -/
namespace Sys2Proof.Machine

theorem least_none {l : List Nat} : least l = none ↔ l = [] := by
  cases l with
  | nil => simp [least]
  | cons a l => simp only [least]; split <;> simp

theorem least_some {l : List Nat} {a : Nat} : least l = some a ↔ a ∈ l ∧ ∀ b ∈ l, a ≤ b := by
  induction l generalizing a with
  | nil => simp [least]
  | cons x l ih =>
    simp only [least]
    split
    · rename_i h; rw [least_none] at h; subst h; simp; omega
    · rename_i y h
      have hy := ih.1 h
      simp only [Option.some.injEq, List.mem_cons, forall_eq_or_imp]
      constructor
      · rintro rfl
        refine ⟨?_, by omega, fun b hb => by have := hy.2 b hb; omega⟩
        rcases Nat.le_total x y with h1 | h1
        · left; omega
        · right; rw [Nat.min_eq_right h1]; exact hy.1
      · rintro ⟨h1, h2, h3⟩
        have := h3 y hy.1
        rcases h1 with h1 | h1
        · omega
        · have := hy.2 a h1; omega

/-- A run is free when it lies below the limit and shares nothing with an extent. -/
theorem freeRun_iff (limit : Nat) (ext : List (Nat × Nat)) (r n : Nat) : freeRun limit ext r n = true ↔
    r + n ≤ limit ∧ ∀ e ∈ ext, r + n ≤ e.1 ∨ e.1 + e.2 ≤ r := by
  simp only [freeRun, disjointRun, Bool.and_eq_true, decide_eq_true_eq, List.all_eq_true, Bool.or_eq_true]

theorem least_free_is_start {limit n r : Nat} {ext : List (Nat × Nat)} (h : freeRun limit ext r n = true)
    (hm : ∀ r' < r, freeRun limit ext r' n = false) : r ∈ runStarts ext := by
  rcases Nat.eq_zero_or_pos r with rfl | hr
  · simp [runStarts]
  · have h1 := hm (r - 1) (by omega)
    have h2 := (freeRun_iff _ _ _ _).1 h
    have h3 : ¬ (r - 1 + n ≤ limit ∧ ∀ e ∈ ext, r - 1 + n ≤ e.1 ∨ e.1 + e.2 ≤ r - 1) := by
      rw [← freeRun_iff]; simp [h1]
    have h4 : ∃ e ∈ ext, ¬ (r - 1 + n ≤ e.1 ∨ e.1 + e.2 ≤ r - 1) := by
      by_contra hc; push Not at hc
      exact h3 ⟨by omega, fun e he => by have := hc e he; omega⟩
    obtain ⟨e, he, hne⟩ := h4
    have := h2.2 e he
    simp only [runStarts, List.mem_cons, List.mem_map]
    right; exact ⟨e, he, by omega⟩

theorem exists_least {P : Nat → Prop} (h : ∃ n, P n) : ∃ n, P n ∧ ∀ m < n, ¬ P m := by
  classical
  exact ⟨Nat.find h, Nat.find_spec h, fun m hm => Nat.find_min h hm⟩

/-- What first fit answers. -/
theorem firstFit_some {limit n r : Nat} {ext : List (Nat × Nat)} : firstFit limit n ext = some r ↔
    freeRun limit ext r n = true ∧ ∀ r' < r, freeRun limit ext r' n = false := by
  unfold firstFit
  rw [least_some]
  simp only [List.mem_filter]
  constructor
  · rintro ⟨⟨h1, h2⟩, h3⟩
    refine ⟨h2, fun r' hr' => ?_⟩
    by_contra hc
    obtain ⟨m, hm1, hm2⟩ := exists_least (P := fun x => freeRun limit ext x n = true) ⟨r', by simpa using hc⟩
    have hm3 := least_free_is_start hm1 (fun x hx => by simpa using hm2 x hx)
    have := h3 m ⟨hm3, hm1⟩
    have : m ≤ r' := by by_contra hcc; exact hm2 r' (by omega) (by simpa using hc)
    omega
  · rintro ⟨h1, h2⟩
    refine ⟨⟨least_free_is_start h1 h2, h1⟩, ?_⟩
    rintro b ⟨-, hb⟩
    by_contra hc
    have := h2 b (by omega)
    simp [this] at hb

theorem firstFit_none {limit n : Nat} {ext : List (Nat × Nat)} : firstFit limit n ext = none ↔
    ∀ r, freeRun limit ext r n = false := by
  constructor
  · intro h r
    by_contra hc
    obtain ⟨m, hm1, hm2⟩ := exists_least (P := fun x => freeRun limit ext x n = true) ⟨r, by simpa using hc⟩
    have := firstFit_some.2 ⟨hm1, fun x hx => by simpa using hm2 x hx⟩
    rw [h] at this; cases this
  · intro h
    cases hf : firstFit limit n ext with
    | none => rfl
    | some r => have := (firstFit_some.1 hf).1; simp [h r] at this

end Sys2Proof.Machine
end

