-- ==== Sys2Proof/Laws/Votes.lean ====
section
/-! SUPPORT. The arithmetic of read combining: the bits of packed bytes, the votes of a result, the order
of the weak bits, and the candidates. -/
namespace Sys2Proof.Machine

/-! ### Packed bits -/

theorem flagSet_eight (b0 b1 b2 b3 b4 b5 b6 b7 : Bool) (j : Nat) (hj : j < 8) :
    (BitVec.ofNat 8 (flagSet [b0,b1,b2,b3,b4,b5,b6,b7])).getLsbD (7 - j) = [b7,b6,b5,b4,b3,b2,b1,b0].getD j false :=
        by
  have : j = 0 ∨ j = 1 ∨ j = 2 ∨ j = 3 ∨ j = 4 ∨ j = 5 ∨ j = 6 ∨ j = 7 := by omega
  revert b0 b1 b2 b3 b4 b5 b6 b7
  rcases this with rfl|rfl|rfl|rfl|rfl|rfl|rfl|rfl <;> decide

/-- Bit `i` of packed bits, counted from the most significant bit of the first byte. -/
theorem packBits_getLsbD (l : List Bool) (i : Nat) (h8 : l.length % 8 = 0) (hi : i < l.length) :
    ((packBits l).getD (i / 8) 0).getLsbD (7 - i % 8) = l.getD i false := by
  fun_induction packBits l generalizing i with
  | case1 b7 b6 b5 b4 b3 b2 b1 b0 rest ih =>
    by_cases h : i < 8
    · rw [Nat.div_eq_of_lt h, Nat.mod_eq_of_lt h, List.getD_cons_zero, flagSet_eight _ _ _ _ _ _ _ _ _ h]
      have : i = 0 ∨ i = 1 ∨ i = 2 ∨ i = 3 ∨ i = 4 ∨ i = 5 ∨ i = 6 ∨ i = 7 := by omega
      rcases this with rfl|rfl|rfl|rfl|rfl|rfl|rfl|rfl <;> rfl
    · obtain ⟨j, rfl⟩ := Nat.exists_eq_add_of_le (Nat.le_of_not_lt h)
      simp only [List.length_cons] at h8 hi
      have e1 : (8 + j) / 8 = j / 8 + 1 := by omega
      have e2 : (8 + j) % 8 = j % 8 := by omega
      rw [e1, e2, List.getD_cons_succ, ih j (by omega) (by omega), show 8 + j = j + 8 by omega]
      rfl
  | case2 l h =>
    exfalso
    match l, h, h8, hi with
    | [], _, _, hi => simp at hi
    | [_], _, h8, _ => simp at h8
    | [_, _], _, h8, _ => simp at h8
    | [_, _, _], _, h8, _ => simp at h8
    | [_, _, _, _], _, h8, _ => simp at h8
    | [_, _, _, _, _], _, h8, _ => simp at h8
    | [_, _, _, _, _, _], _, h8, _ => simp at h8
    | [_, _, _, _, _, _, _], _, h8, _ => simp at h8
    | a :: b :: c :: d :: e :: f :: g :: k :: r, h, _, _ => exact h a b c d e f g k r rfl

theorem bitsMsb_getD (b : Byte) (i : Nat) (hi : i < 8) : (bitsMsb b).getD i false = b.getLsbD (7 - i) := by
  have : i = 0 ∨ i = 1 ∨ i = 2 ∨ i = 3 ∨ i = 4 ∨ i = 5 ∨ i = 6 ∨ i = 7 := by omega
  rcases this with rfl|rfl|rfl|rfl|rfl|rfl|rfl|rfl <;> rfl

/-! ### Votes (R49) -/

theorem flatten_getD (l : List (List Int)) (h : ∀ x ∈ l, x.length = 8) (i : Nat) (hi : i < 8 * l.length) :
    l.flatten.length = 8 * l.length ∧ l.flatten.getD i 0 = (l.getD (i / 8) []).getD (i % 8) 0 := by
  induction l generalizing i with
  | nil => simp at hi
  | cons x l ih =>
    have hx := h x (by simp)
    have hl : l.flatten.length = 8 * l.length := by
      rw [List.length_flatten]
      have : l.map List.length = l.map fun _ => 8 := List.map_congr_left fun y hy => h y (by simp [hy])
      rw [this]; simp; omega
    refine ⟨by simp [hl, hx]; omega, ?_⟩
    simp only [List.flatten_cons]
    by_cases h8 : i < 8
    · rw [Nat.div_eq_of_lt h8, Nat.mod_eq_of_lt h8]
      simp only [List.getD_cons_zero]
      rw [List.getD_append _ _ _ _ (by omega)]
    · obtain ⟨j, rfl⟩ := Nat.exists_eq_add_of_le (Nat.le_of_not_lt h8)
      simp only [List.length_cons] at hi
      rw [List.getD_append_right _ _ _ _ (by omega), hx, show 8 + j - 8 = j by omega, show (8 + j) / 8 = j / 8 + 1 by
          omega, show (8 + j) % 8 = j % 8 by omega, List.getD_cons_succ]
      exact (ih (fun y hy => h y (by simp [hy])) j (by omega)).2

/-- What a result adds to the vote of bit `i`. -/
theorem resultVotes_getD (r : Result) (i : Nat) (h1 : i < 8 * r.data.length) (h2 : i < 8 * r.quals.length) :
    i < (resultVotes r).length ∧ (resultVotes r).getD i 0 = (if (r.data.getD (i / 8) 0).getLsbD (7 - i % 8) then
        (r.quals.getD (i / 8) 0 : Int)
        else -(r.quals.getD (i / 8) 0 : Int)) := by
  have hl : (List.zipWith byteVotes r.data r.quals).length = min r.data.length r.quals.length := by simp
  have hf := flatten_getD (List.zipWith byteVotes r.data r.quals) (by
    intro x hx
    rw [List.mem_iff_getElem] at hx
    obtain ⟨k, hk, rfl⟩ := hx
    simp [byteVotes, bitsMsb]) i (by rw [hl]; omega)
  unfold resultVotes
  refine ⟨by rw [hf.1, hl]; omega, ?_⟩
  rw [hf.2]
  have hk : i / 8 < min r.data.length r.quals.length := by omega
  rw [List.getD_eq_getElem (l := List.zipWith byteVotes r.data r.quals) (n := i / 8) _ (by rw [hl]; exact hk)]
  simp only [List.getElem_zipWith, byteVotes]
  rw [List.getD_eq_getElem _ _ (by simp [bitsMsb]; omega), List.getElem_map]
  have hb := bitsMsb_getD (r.data[i / 8]'(by omega)) (i % 8) (by omega)
  rw [List.getD_eq_getElem _ _ (by simp [bitsMsb]; omega)] at hb
  rw [hb, List.getD_eq_getElem (l := r.data) _ (by omega), List.getD_eq_getElem (l := r.quals) _ (by omega)]

/-! ### Weak bits (R51, R60) -/

/-- The weak bits are those within the threshold, in index order. -/
theorem weakBits_eq (t i : Nat) (votes : List Int) : (weakBits t i votes) = ((List.range votes.length).filter fun k =>
    decide ((votes.getD k 0).natAbs ≤ t)).map fun k => (i + k, (votes.getD k 0).natAbs) := by
  induction votes generalizing i with
  | nil => rfl
  | cons v vs ih =>
    have hr : List.range (v :: vs).length = 0 :: (List.range vs.length).map (· + 1) := by
      rw [List.length_cons, List.range_succ_eq_map]
    simp only [weakBits]
    rw [hr, ih, List.filter_cons, List.filter_map]
    simp only [weakVote, List.getD_cons_zero, decide_eq_true_eq]
    have e : ((fun k => decide (((v :: vs).getD k 0).natAbs ≤ t)) ∘ fun x => x + 1) = fun k => decide ((vs.getD k
        0).natAbs ≤ t) := by
      funext k; simp
    rw [e]
    split <;> simp only [List.map_cons, List.map_map, List.getD_cons_zero, Nat.add_zero]
    · congr 1
      refine List.map_congr_left fun k _ => ?_
      simp only [Function.comp, List.getD_cons_succ]
      exact Prod.ext (by simp only; omega) rfl
    · refine List.map_congr_left fun k _ => ?_
      simp only [Function.comp, List.getD_cons_succ]
      exact Prod.ext (by simp only; omega) rfl

theorem insertWeak_perm (w : Nat × Nat) (l) : (insertWeak w l).Perm (w :: l) := by
  induction l with
  | nil => exact List.Perm.refl _
  | cons x xs ih =>
    simp only [insertWeak]; split
    · exact List.Perm.refl _
    · exact (List.Perm.cons x ih).trans (List.Perm.swap w x xs)

/-- The order of R60, step 1, on index and magnitude. -/
def weakBefore (a b : Nat × Nat) : Prop := a.2 < b.2 ∨ (a.2 = b.2 ∧ a.1 < b.1)

theorem insertWeak_sorted (w : Nat × Nat) (l) (h : l.Pairwise weakBefore) (hw : ∀ x ∈ l, x.1 < w.1) : (insertWeak w
    l).Pairwise weakBefore := by
  induction l with
  | nil => simp [insertWeak]
  | cons x xs ih =>
    simp only [insertWeak]
    rw [List.pairwise_cons] at h
    split
    · rename_i hlt
      refine List.pairwise_cons.mpr ⟨fun y hy => ?_, List.pairwise_cons.mpr h⟩
      rcases List.mem_cons.mp hy with rfl | hy
      · exact .inl hlt
      · rcases h.1 y hy with h1 | ⟨h1, _⟩ <;> exact .inl (by omega)
    · rename_i hlt
      refine List.pairwise_cons.mpr ⟨fun y hy => ?_, ih h.2 fun y hy => hw y (by simp [hy])⟩
      rcases List.mem_cons.mp ((insertWeak_perm w xs).mem_iff.mp hy) with rfl | hy
      · have := hw x (by simp)
        unfold weakBefore; omega
      · exact h.1 y hy

theorem foldl_insertWeak (ws acc : List (Nat × Nat)) (h : acc.Pairwise weakBefore) (hs : ws.Pairwise fun a b => a.1 <
    b.1)
    (hw : ∀ x ∈ acc, ∀ y ∈ ws, x.1 < y.1) : (ws.foldl (fun acc w => insertWeak w acc) acc).Perm (acc ++ ws) ∧
    (ws.foldl (fun acc w => insertWeak w acc) acc).Pairwise weakBefore := by
  induction ws generalizing acc with
  | nil => simpa using h
  | cons w ws ih =>
    rw [List.pairwise_cons] at hs
    have := ih (insertWeak w acc) (insertWeak_sorted w acc h fun x hx => hw x hx w (by simp)) hs.2 (by
      intro x hx y hy
      rcases List.mem_cons.mp ((insertWeak_perm w acc).mem_iff.mp hx) with rfl | hx
      · exact hs.1 y hy
      · exact hw x hx y (by simp [hy]))
    refine ⟨this.1.trans ?_, this.2⟩
    refine ((insertWeak_perm w acc).append_right ws).trans ?_
    simpa using (List.perm_middle (a := w) (l₁ := acc) (l₂ := ws)).symm

/-! ### Candidates (R60) -/

theorem pairsOf_length (l : List Nat) : (pairsOf l).length = l.length * (l.length - 1) / 2 := by
  induction l with
  | nil => rfl
  | cons b bs ih =>
    simp only [pairsOf, List.length_append, List.length_map, ih, List.length_cons, Nat.add_sub_cancel]
    rcases Nat.eq_zero_or_pos bs.length with h | h
    · simp [h]
    · generalize bs.length = k at h ⊢
      obtain ⟨n, rfl⟩ : ∃ n, k = n + 1 := ⟨k - 1, by omega⟩
      have e1 : (n + 1 + 1) * (n + 1) = (n + 1) * (n + 1 - 1) + 2 * (n + 1) := by
        rw [show n + 1 - 1 = n by omega]; ring
      rw [e1]; omega

theorem pairsOf_mem (l : List Nat) (c) (h : c ∈ pairsOf l) : ∃ i j, i < j ∧ j < l.length ∧ c = [l.getD i 0, l.getD j
    0] := by
  induction l with
  | nil => simp [pairsOf] at h
  | cons b bs ih =>
    simp only [pairsOf, List.mem_append, List.mem_map] at h
    rcases h with ⟨x, hx, rfl⟩ | h
    · obtain ⟨k, hk, rfl⟩ := List.mem_iff_getElem.mp hx
      exact ⟨0, k + 1, by omega, by simpa using hk, by simp [hk]⟩
    · obtain ⟨i, j, h1, h2, rfl⟩ := ih h
      exact ⟨i + 1, j + 1, by omega, by simp; omega, by simp⟩

theorem invertBits_getD (c : List Nat) (k : Nat) (l : List Bool) (i : Nat) (hi : i < l.length) :
    (invertBits c k l).length = l.length ∧ (invertBits c k l).getD i false = if k + i ∈ c then !(l.getD i false) else
        l.getD i false := by
  induction l generalizing k i with
  | nil => simp at hi
  | cons b bs ih =>
    have hl : ∀ (k : Nat) (l : List Bool), (invertBits c k l).length = l.length := by
      intro k l; induction l generalizing k with
      | nil => rfl
      | cons b bs ih => simp [invertBits, ih]
    refine ⟨hl _ _, ?_⟩
    cases i with
    | zero => simp [invertBits]
    | succ i =>
      simp only [invertBits, List.getD_cons_succ]
      rw [(ih (k + 1) i (by simpa using hi)).2, show k + 1 + i = k + (i + 1) by omega]

theorem invertBits_length (c : List Nat) (k : Nat) (l : List Bool) : (invertBits c k l).length = l.length := by
  induction l generalizing k with
  | nil => rfl
  | cons b bs ih => simp [invertBits, ih]

end Sys2Proof.Machine
end

