-- ==== Sys2Proof/WellFormed.lean ====
section
/-! DEFINITION. Which terms of `Instr` stand for something that can cross the part's pins: lengths that their
fields can hold, numbers that name something. A meaning does not rest on this check; it says which operands a
reader should think of. -/
namespace Sys2Proof

/-- The parameter length field of a request frame has 2 bytes (R119). -/
def Frame.wf (f : Frame) : Bool := f.params.length < 65536

/-- The request codes of chapter 12, section 12.2. -/
def knownCodes : List Byte :=
  [0x01, 0x02, 0x03, 0x04, 0x08, 0x09, 0x0A, 0x10, 0x11, 0x12, 0x18, 0x19, 0x1A, 0x1B, 0x1C, 0x20,
   0x28, 0x29, 0x2A, 0x30, 0x31, 0x32, 0x34, 0x35, 0x38, 0x39, 0x40]

/-- The bytes received so far of a request frame do not make it complete: it is complete at its 6 + n-th byte,
n being its parameter length field (R119). A frame of the kind 00h is a response read and no request frame. -/
def partialBytes (bs : List Byte) : Bool :=
  bs.head? != some 0 &&
    (bs.length < 4 || bs.length < 6 + (bs.getD 2 0).toNat + 256 * (bs.getD 3 0).toNat)

/-- Well-formed commands. -/
def Instr.wf : Instr → Bool
  | .identify _ f | .status _ f | .setPortOptions _ f | .reset _ f | .profileQuery _ f | .reload _ f
  | .profileWrite _ f | .mount _ f | .unmount _ f | .resume _ f | .recover _ f | .sweep _ f | .abandon _ f
  | .queryMap _ f | .queryMapNext _ f | .hold _ f | .setView _ f | .clearView _ f | .read _ f
  | .readEvents _ f | .clearEvents _ f | .setMask _ f | .errorRead _ f | .errorRelease _ f
  | .statsRead _ f | .statsWrite _ f | .sleep _ f => f.wf
  | .unknownRequest _ code f => f.wf && code != 0 && !knownCodes.contains code
  | .waitingRequest _ code f | .dormantRequestFrame _ code f => f.wf && code != 0
  | .responseRead _ n => 0 < n
  | .partialFrame _ bs => partialBytes bs
  | .repairSearchEnd i | .storeWriteComplete i => i < 8
  | .profileRecordRead bs => bs.length = 48
  | .restoreCheckEnd lost => lost.all fun c => c.1 < 67108864
  | .powerOn | .rstPin | .waitingRequestTaken _ | .linkGrant | .probeReply _ | .positionAck
  | .pollTimerExpiry _ | .positionPollReply _ | .readReply _ | .relaxAck | .presenceTimerExpiry _
  | .presencePollReply _ | .reprobeTimerExpiry _ | .noAck | .stretchTimeout | .linkClearPatternSent
  | .contextGrant | .abandonDeferredAnswer _ | .unmountComplete _ | .restExpiry _ | .quietTimerExpiry
  | .enterSaving | .saveImageWriteComplete | .wakeTimerExpiry | .loaderMarkerRead _ | .loaderCountRead _
  | .settingsMarkerRead _ | .settingsCountRead _ | .settingRecordRead _ _ _ | .profileBusNoAck
  | .profileWriteTransferEnd _ | .writePollEnd _ | .writePollSpacingExpiry => true

end Sys2Proof
end

