-- ==== Sys2Proof/Tests/Slice0.lean ====
section
/-! SUPPORT. Tests: ill-formed terms that the check of WellFormed refuses, values the spec works out, single steps, and
for each obligation with hypotheses a state and operands that meet them, clause by clause. -/
namespace Sys2Proof.Tests

open Sys2Proof Sys2Proof.Machine

set_option Elab.async false

/-! ### Ill-formed terms -/

theorem test_wf_frame_too_long (ps : List Byte) (h : ps.length = 65536) :
    (Instr.identify .a ⟨0, ps, 0⟩).wf = false := by simp [Instr.wf, Frame.wf, h]

theorem test_wf_unknown_code :
    (Instr.unknownRequest .a 0x00 ⟨0, [], 0⟩).wf = false ∧ (Instr.unknownRequest .a 0x40 ⟨0, [], 0⟩).wf = false ∧
      (Instr.unknownRequest .a 0x41 ⟨0, [], 0⟩).wf = true := by decide

theorem test_wf_frame_kind :
    (Instr.waitingRequest .a 0 ⟨0, [], 0⟩).wf = false ∧ (Instr.dormantRequestFrame .b 0 ⟨0, [], 0⟩).wf = false := by
  decide

theorem test_wf_read_frame : (Instr.responseRead .a 0).wf = false ∧ (Instr.responseRead .a 1).wf = true := by decide

theorem test_wf_partial_frame :
    (Instr.partialFrame .a [0x00, 0x00]).wf = false ∧ (Instr.partialFrame .a [0x02, 0, 0, 0, 0, 0]).wf = false ∧
      (Instr.partialFrame .a [0x02, 0, 0, 0, 0]).wf = true := by decide

theorem test_wf_context : (Instr.repairSearchEnd 8).wf = false ∧ (Instr.storeWriteComplete 8).wf = false := by decide

theorem test_wf_record : (Instr.profileRecordRead [0]).wf = false := by decide

theorem test_wf_lost_byte : (Instr.restoreCheckEnd [(67108864, 1)]).wf = false := by decide

/-! ### Values the spec works out -/

/-- The text 123456789. -/
def digits : List Byte := [0x31, 0x32, 0x33, 0x34, 0x35, 0x36, 0x37, 0x38, 0x39]

/-- R87, R120, R53 and R54 give the four check values of the text. -/
theorem test_checks :
    crc8 digits = 0xF4 ∧ crc16 digits = 0x29B1 ∧ c16 0xFFFF digits = 0x29B1 ∧ c32 digits = 0xCBF43926 := by
  decide +kernel

/-- FD80D18, slot 1 of R4. -/
def fd80 : Profile := builtinFloppy [0x46, 0x44, 0x38, 0x30, 0x44, 0x31, 0x38] 80 18 1 512

/-- FD40D10, slot 2 of R4. -/
def fd40 : Profile := builtinFloppy [0x46, 0x44, 0x34, 0x30, 0x44, 0x31, 0x30] 40 10 0 256

/-- The two worked addresses of R6. -/
theorem test_addresses :
    fd80.target 35 = 0 ∧ (fd80.readParams 35).take 2 = [1, 18] ∧
      fd80.target 2879 = 79 ∧ (fd80.readParams 2879).take 2 = [1, 18] := by decide

/-- R4: the unit counts of the built-in profiles, each VALID with reason NONE. -/
theorem test_builtin :
    builtinProfiles.map Profile.units = [1440, 2880, 800, 16384] ∧
      (builtinProfiles.map fun p => testRecord p.toBytes) = [none, none, none, none] := by decide

/-- R2: of two failing tests the first gives the reason. -/
theorem test_first_reason :
    testRecord (({ fd40 with heads := 3, burst := 9 } : Profile).toBytes) = some .heads ∧
      testRecord (List.replicate 48 1) = some .sum := by decide

/-- R60: the number of candidates for W = 1, 3 and 12. -/
theorem test_candidates :
    (candidates 1 (List.range 12)).length = 12 ∧ (candidates 2 (List.range 1)).length = 1 ∧
      (candidates 2 (List.range 3)).length = 6 ∧ (candidates 2 (List.range 12)).length = 78 := by decide

/-- R49: a vote at +127 that takes a contrary bit of weight 7 goes to +120, and one at +125 is clamped. -/
theorem test_votes :
    addVotes [127, 125, 0, 0, 0, 0, 0, -127] ⟨[0x40], [7], true⟩ = [120, 127, -7, -7, -7, -7, -7, -127] := by decide

/-- R51: a vote of 0 is weak and gives a 0. -/
theorem test_consensus :
    consensus [1, 0, -1, 5, 0, 0, 0, 2] = [0x91] ∧ weakCount 0 [1, 0, -1, 5, 0, 0, 0, 2] = 4 := by decide

/-- R163: a setting of 25 for ACK_WAIT is clamped to 20 and counted; an unknown id is counted. -/
theorem test_settings :
    ((State.reset.applySetting 0x20 25).settings.ackWait, (State.reset.applySetting 0x20 25).loader.clamped,
      (State.reset.applySetting 0x05 1).loader.unknown) = (20, 1, 1) := by decide

/-! ### Small states -/

/-- After power-on, the loader run over, the built-in profiles loaded and the four PROBEs sent and missed. -/
def calm : State := { State.reset with
  loader := { State.reset.loader with stage := .idle }, table := builtinTable
  drives := Quad.four { DriveLink.start with pend := [] } }

/-- The same part with its loader at work, and with its four PROBEs still to be sent. -/
def booting : State := { calm with loader := State.reset.loader }
def probing : State := { calm with drives := State.reset.drives }

/-- A mount of FD40D10 on the first map records and pages. -/
def disk (ph : MountPhase) : MountRec := ⟨ph, 2, fd40, 800, 0, 0, 57, false, 0, 3⟩

/-- A drive that is ONLINE with a floppy and wants nothing of the link. -/
def up : DriveLink := ⟨.online, some .floppy, true, true, 0, some 500, none, none, 0, []⟩

/-- Drive 0 with units RECOVERED, EXHAUSTED, ACTIVE, TRIED and ABANDONED, a context, two entries, a view of Port A and a
deferred read of it. -/
def desk (ph : MountPhase) : State := { calm with
  drives := Quad.four up
  mounts := ⟨some (disk ph), none, none, none⟩
  unitMap := [(0, ⟨.recovered, 1, 1, .clean, 0, 3, 6, false⟩), (1, ⟨.exhausted, 32, 5, .none, 0, 40, 2, true⟩),
    (2, ⟨.active, 1, 1, .none, 0, 9, 5, false⟩), (3, ⟨.tried, 2, 0, .none, 0, 0, 0, false⟩),
    (4, ⟨.abandoned, 0, 0, .none, 0, 0, 0, false⟩)]
  contexts := (Oct.all none).set 0 (some ⟨.collecting, .d0, some 2, 258, [], false⟩)
  works := ⟨[⟨2, ⟨.direct, .none⟩, false⟩, ⟨9, ⟨.none, .ahead⟩, true⟩], [], [], []⟩
  views := ⟨⟨some ⟨.d0, 0, 10, 0, 2, true⟩, some ⟨.d1, 1024, 0, 0, 0, false⟩, none, none⟩, Quad.four none⟩
  streams := ⟨(Quad.four Stream.empty).set .d0 ⟨some 9, some (9, 10)⟩, Quad.four Stream.empty⟩
  deferred := ⟨[⟨5, 1, .d0, 5, 1, 31, .pending⟩], []⟩ }

/-- The desk with the context of unit 2 in a phase. -/
def deskIn (ph : CtxPhase) : State := { desk .mounted with
  contexts := (Oct.all none).set 0 (some ⟨ph, .d0, some 2, 258, [], false⟩) }

/-- The desk with an attempt of unit 2 in flight. -/
def deskAt (ph : AttemptPhase) : State := { desk .mounted with
  attempts := ⟨some ⟨2, ph, 0, [0, 2, 2, 1], 258, false⟩, none, none, none⟩ }

/-- The desk with an ABANDON of unit 2 in progress on Port A. -/
def deskWith (q : State) : State := { q with
  ports := ⟨{ Port.start with inProgress := some ⟨7, .d0, 2⟩ }, Port.start⟩ }

/-- Port A of a state with a waiting STATUS. -/
def waiting (s : State) : State := { s with
  ports := ⟨{ s.ports.a with waiting := some (0x02, Frame.good 0x02 7 []) }, s.ports.b⟩ }

/-- A state with a transaction of drive 0 in its frame exchange, its waits those given. -/
def onWire (s : State) (c : Cmd) (ofAttempt orphan : Bool) (ack hold : Timer) : State := { s with
  link := ⟨some ⟨.d0, c, ofAttempt, [], 258, ack, hold, orphan⟩, false, .d3⟩ }

/-- A state with a transaction of drive 0 that has been acknowledged. -/
def onLine (s : State) (c : Cmd) (ofAttempt orphan : Bool) : State := onWire s c ofAttempt orphan none none

/-- The desk with the three link timers of drive 0 at one value. -/
def timed (k : Timer) : State := { deskAt .moving with
  drives := (Quad.four up).set .d0 { up with poll := k, presence := k, reprobe := k } }

/-- The desk with drive 0 in a rest. -/
def resting (s : State) (k : Nat) : State := { s with
  rests := (Quad.four ⟨none, .none, 0, 0⟩).set .d0 ⟨some k, .hold, 0, 0⟩ }

/-- The desk with a request of drive 0 for a context. -/
def asking : State := { desk .mounted with ctxReq := ⟨some 9, none, none, none⟩ }

/-- A state in a power state. -/
def inPower (s : State) (x : PowerState) : State := { s with power := { s.power with state := x } }

/-! ### Witnesses: the queue and the clock -/

theorem witness_StepTakesFront :
    ({ calm with pending := [.linkGrant, .noAck] } : State).pending = .linkGrant :: [.noAck] := rfl

theorem witness_IdleStep :
    (∀ d, ((resting (desk .mounted) 9).elapse 8).timer (.rest d) ≠ some 0) ∧
      (waiting calm).pending = [] ∧ (waiting calm).due = some (.waitingRequestTaken .a) ∧
      probing.due = some .linkGrant ∧ probing.runDue.isSome = true ∧ probing.catchUp.due = none ∧
      (waiting probing).due ≠ some (.waitingRequestTaken .a) ∧
      (timed (some 0)).pending = [] ∧ (timed (some 0)).due = none ∧ (timed (some 0)).runOut = some (.poll .d0) ∧
      calm.pending = [] ∧ calm.due = none ∧ calm.runOut = none ∧
      (inPower calm .saving).power.state.timersRun = false :=
  ⟨fun d => by cases d <;> decide +kernel, by decide +kernel⟩

/-- R94, R105: the link is granted to the PROBE that requests it before the next command is taken, and the waiting
request of a port is taken only then. -/
theorem test_grant_before_command :
    (probing.catchUp.link.exchange.map fun x => (x.drive, x.cmd)) = some (.d0, .probe) ∧
      ((waiting probing).upTo (.waitingRequestTaken .a)).due = some (.waitingRequestTaken .a) ∧
      ((waiting probing).upTo (.waitingRequestTaken .a)).link.exchange.isSome = true := by decide +kernel

/-- R112, R129: a rest that reaches 0 as a millisecond passes has no cause any more, and no time shows a cause without
a rest. -/
theorem test_rest_runs_out :
    ((resting (desk .mounted) 1).pass 1).rests.get .d0 = ⟨none, .none, 0, 0⟩ ∧
      ((resting (desk .mounted) 2).pass 1).rests.get .d0 = ⟨some 1, .hold, 0, 0⟩ := by decide +kernel

/-- R68, R78, R113: each of the three ways in which a scheduler may stand, a waiting READ and a waiting POSITION that
end as their drive rests, a context request that falls away, and a part that starts its quiet timer. -/
theorem witness_SettleFrame :
    (deskAt .moving).attempts.get .d0 = some ⟨2, .moving, 0, [0, 2, 2, 1], 258, false⟩ ∧
      (deskAt .moving).blocked .d0 .moving = false ∧ (resting (deskAt .needRead) 1).blocked .d0 .needRead = true ∧
      (resting (deskAt .needPosition) 1).blocked .d0 .needPosition = true ∧
      (desk .mounted).attempts.get .d0 = none ∧ (desk .mounted).runnable .d0 = true ∧
      (desk .lost).attempts.get .d0 = none ∧ (desk .lost).runnable .d0 = false ∧
      (inPower (deskAt .needRead) .entering).attempts.get .d0 = some ⟨2, .needRead, 0, [0, 2, 2, 1], 258, false⟩ ∧
      (inPower (deskAt .needRead) .entering).blocked .d0 .needRead = false ∧
      (inPower (deskAt .needRead) .entering).power.state = .entering ∧
      ({ desk .lost with ctxReq := ⟨some 9, none, none, none⟩ } : State).ctxReq.get .d0 = some 9 ∧
      (calm.settle calm).power.state = .active ∧ (calm.settle calm).power.quiet = some 60000 := by decide +kernel

/-- R68, R170: a READ that waits as ENTERING begins stays, and its drive's scheduler is STOPPED. -/
theorem test_entering_stops :
    let t := (inPower (deskAt .needRead) .entering).settle (deskAt .needRead)
    ((t.attempts.get .d0).map Attempt.phase, (t.scheds.get .d0).state) = (some .needRead, .stopped) := by
  decide +kernel

/-- The desk with an attempt whose result would be dropped and whose context an ABANDON waits for. -/
def dropping : State := { deskAt .needRead with
  contexts := (Oct.all none).set 0 (some ⟨.collecting, .d0, some 2, 258, [], true⟩) }

/-- The desk with a scheduler of drive 0 that waits, nothing owed. -/
def settled : State := { desk .mounted with
  scheds := (Quad.four Sched.start).set .d0 ⟨.waiting, none, 0, none, false, []⟩ }

/-- R69, R78, R82, R39, R114: an attempt that ends with its context, a choice that is owed for a changed list and one
that is not, a grant and an ABANDON that hold the choices back, and a part that stays or falls idle. -/
theorem witness_SettleFrame_choices :
    (∀ d, settled.ctxReq.get d = none ∧ calm.isMounted d = false ∧ calm.attempts.get d = none) ∧
      (∀ p, (settled.ports.get p).inProgress = none) ∧
      dropping.attempts.get .d0 = some ⟨2, .needRead, 0, [0, 2, 2, 1], 258, false⟩ ∧ dropping.isMounted .d0 = true ∧
      dropping.abandonPending .d0 = some 0 ∧
      (settled.scheds.get .d0).state = .waiting ∧ (settled.scheds.get .d0).owed = false ∧
      settled.runnable .d0 = true ∧ settled.works.get .d0 ≠ (settled.setWork .d0 []).works.get .d0 ∧
      (asking.freeCtx ≠ none ∧ asking.ctxReq.get .d0 ≠ none) ∧
      ((deskWith (desk .mounted)).ports.get .a).inProgress = some ⟨7, .d0, 2⟩ ∧
      (∀ c ∈ calm.contexts.toList, c = none) ∧ calm.power.state = .active ∧ calm.loader.stage = .idle ∧
      calm.loader.write = .idle ∧ settled.works.get .d0 ≠ [] :=
  ⟨fun d => by cases d <;> decide +kernel, fun p => by cases p <;> decide +kernel, by decide +kernel⟩

/-- R69, R126: another defer limit is a changed input, and the WAITING scheduler chooses. -/
theorem test_options_choose :
    (settled.settle settled).attempts.q0 = none ∧
      (({ settled with options := settled.options.set .a ⟨true, 3⟩ } : State).settle settled).attempts.q0.map
        Attempt.unit = some 2 := by decide +kernel

/-- R69: a Merged that changes no entry is followed by a choice. -/
theorem test_merged_choose :
    ((settled.demand .d0 2 (.direct .a)).1.works.get .d0 = settled.works.get .d0) ∧
      (((settled.demand .d0 2 (.direct .a)).1.settle settled).attempts.q0.map Attempt.unit) = some 2 := by
  decide +kernel

/-- R114: a sweep that is turned on and finds no unit at once leaves the quiet timer at its full delay. -/
theorem test_sweep_restarts_quiet :
    let s : State := { calm with
      drives := Quad.four up, power := { calm.power with quiet := some 7 }
      mounts := ⟨some { disk .mounted with sweepOn := true, cursor := 800 }, none, none, none⟩ }
    ((s.settle s).sweepOn .d0, (s.settle s).power.quiet) = (false, some 60000) := by decide +kernel

/-! ### Witnesses: requests on the part -/

theorem witness_IdentifyAnswer : booting.takes .a ∧ (inPower calm .saving).takes .b := by
  unfold State.takes; decide +kernel

theorem witness_StatusAnswer : booting.takes .b ∧ (desk .mounted).takes .a := by
  unfold State.takes; decide +kernel

theorem witness_SetPortOptions :
    calm.ready .a ∧ (1 : Byte).toNat ≤ 1 ∧ 1 < (2 : Byte).toNat ∧ booting.takes .b ∧
      booting.power.state = .active ∧ booting.loader.stage ≠ .idle := by
  unfold State.ready State.takes; decide +kernel

theorem witness_ResetRequest :
    (inPower (deskIn (.repairing ⟨1, 1, 1, 1⟩)) .entering).takes .b ∧
      (inPower (deskIn (.repairing ⟨1, 1, 1, 1⟩)) .entering).loader.stage = .idle ∧
      (inPower (deskIn (.repairing ⟨1, 1, 1, 1⟩)) .entering).power.state = .entering ∧
      (deskWith (deskIn (.repairing ⟨1, 1, 1, 1⟩))).takes .b := by
  unfold State.takes; decide +kernel

theorem witness_ProfileQuery :
    calm.ready .b ∧ (15 : Byte).toNat ≤ 15 ∧ 15 < (16 : Byte).toNat ∧ booting.takes .a ∧
      booting.power.state = .active ∧ booting.loader.stage ≠ .idle := by
  unfold State.ready State.takes; decide +kernel

theorem witness_ReloadAndProfileWrite :
    calm.ready .a ∧ calm.loader.write = .idle ∧
      ({ calm with loader := { calm.loader with write := .spacing } } : State).ready .b ∧
      WriteStage.spacing ≠ .idle ∧
      1023 ≤ 1023 ∧ 1 ≤ ([5] : List Byte).length ∧ 1023 % 16 + ([5] : List Byte).length ≤ 16 := by
  unfold State.ready; decide +kernel

/-! ### Witnesses: mounts -/

/-- The desk with drive 1 holding every map record, or every page. -/
def fullDesk (u pages : Nat) : State := { desk .mounted with
  mounts := ⟨none, some { disk .mounted with u := u, pages := pages }, none, none⟩ }

theorem witness_MountRefusals :
    (desk .mounted).ready .a ∧ (2 : Byte).toNat ≤ 15 ∧ (desk .mounted).mounts.get .d0 ≠ none ∧
      calm.ready .b ∧ calm.mounts.get .d3 = none ∧ (calm.drives.get .d3).link ≠ .online ∧
      (desk .mounted).mounts.get .d1 = none ∧ ((desk .mounted).drives.get .d1).link = .online ∧
      ((desk .mounted).drives.get .d1).medium = true ∧
      ((desk .mounted).drives.get .d1).kind ≠ some (Profile.ofBytes
        (match (desk .mounted).table.getD 3 .empty with | .valid _ b => b | _ => [])).kind ∧
      ((desk .mounted).drives.get .d1).kind = some (Profile.ofBytes fd40.toBytes).kind ∧
      (desk .mounted).table.getD 2 .empty = .valid .builtin fd40.toBytes := by
  unfold State.ready; decide +kernel

theorem witness_MountRefusals_empty (src : Source) (bytes : List Byte) :
    (desk .mounted).table.getD (15 : Byte).toNat .empty ≠ .valid src bytes := by
  intro h; exact absurd h (by simp [desk, calm, builtinTable, builtinProfiles])

theorem witness_MountRefusals_space :
    (fullDesk 32768 57).ready .a ∧
      (∀ r, freeRun 32768 (fullDesk 32768 57).mapExtents r (Profile.ofBytes fd40.toBytes).units = false) ∧
      (fullDesk 800 16128).ready .a ∧
      (∃ r, freeRun 32768 (fullDesk 800 16128).mapExtents r (Profile.ofBytes fd40.toBytes).units = true) ∧
      ∀ q, freeRun 16128 (fullDesk 800 16128).storeExtents q (Profile.ofBytes fd40.toBytes).pages = false := by
  have hu : (Profile.ofBytes fd40.toBytes).units = 800 := by decide +kernel
  have hp : (Profile.ofBytes fd40.toBytes).pages = 57 := by decide +kernel
  have e1 : (fullDesk 32768 57).mapExtents = [(0, 32768)] := by decide +kernel
  have e2 : (fullDesk 800 16128).mapExtents = [(0, 800)] := by decide +kernel
  have e3 : (fullDesk 800 16128).storeExtents = [(0, 16128)] := by decide +kernel
  rw [hu, hp, e1, e2, e3]
  refine ⟨by unfold State.ready; decide +kernel, fun r => ?_, by unfold State.ready; decide +kernel,
    ⟨800, by decide⟩, fun q => ?_⟩ <;> simp [freeRun, disjointRun] <;> omega

theorem witness_MountSucceeds :
    (desk .mounted).ready .a ∧ (2 : Byte).toNat ≤ 15 ∧ (desk .mounted).mounts.get .d1 = none ∧
      ((desk .mounted).drives.get .d1).link = .online ∧ ((desk .mounted).drives.get .d1).medium = true ∧
      (desk .mounted).table.getD (2 : Byte).toNat .empty = .valid .builtin fd40.toBytes ∧
      ((desk .mounted).drives.get .d1).kind = some (Profile.ofBytes fd40.toBytes).kind ∧
      freeRun 32768 (desk .mounted).mapExtents 800 (Profile.ofBytes fd40.toBytes).units = true ∧
      (∀ r', r' < 800 → freeRun 32768 (desk .mounted).mapExtents r' (Profile.ofBytes fd40.toBytes).units = false) ∧
      freeRun 16128 (desk .mounted).storeExtents 57 (Profile.ofBytes fd40.toBytes).pages = true ∧
      ∀ q', q' < 57 → freeRun 16128 (desk .mounted).storeExtents q' (Profile.ofBytes fd40.toBytes).pages = false := by
  have hu : (Profile.ofBytes fd40.toBytes).units = 800 := by decide +kernel
  have hp : (Profile.ofBytes fd40.toBytes).pages = 57 := by decide +kernel
  have e1 : (desk .mounted).mapExtents = [(0, 800)] := by decide +kernel
  have e3 : (desk .mounted).storeExtents = [(0, 57)] := by decide +kernel
  rw [hu, hp, e1, e3]
  refine ⟨by unfold State.ready; decide +kernel, by decide +kernel, by decide +kernel, by decide +kernel,
    by decide +kernel, by decide +kernel, by decide +kernel, by decide, fun r h => ?_, by decide, fun q h => ?_⟩ <;>
    simp [freeRun, disjointRun] <;> omega

theorem witness_UnmountRequest :
    (desk .mounted).ready .b ∧ (desk .mounted).openMount .d1 = none ∧
      (desk .mounted).openMount .d0 = some (disk .mounted) ∧ (desk .lost).openMount .d0 = some (disk .lost) := by
  unfold State.ready; decide +kernel

/-- The rows that come about by themselves, each in a state in which it is due or nothing is: no step comes before it
there, and `upTo` leaves that state. -/
def comingRows : List (Instr × State) := [(.unmountComplete .d0, desk .unmounting),
  (.unmountComplete .d0, desk .mounted), (.waitingRequestTaken .a, waiting calm), (.waitingRequestTaken .a, calm),
  (.waitingRequestTaken .a, deskWith (deskIn (.repairing ⟨1, 1, 1, 1⟩))), (.abandonDeferredAnswer .a, calm),
  (.abandonDeferredAnswer .a, deskWith (deskIn (.repairing ⟨1, 1, 1, 1⟩))),
  (.abandonDeferredAnswer .a, deskWith calm), (.abandonDeferredAnswer .a, deskWith (desk .mounted)),
  (.abandonDeferredAnswer .a, deskWith (deskAt .moving)), (.enterSaving, calm), (.enterSaving, inPower calm .entering)]

theorem witness_upTo : ∀ e ∈ comingRows, e.2.upTo e.1 = e.2 := by
  have h : ∀ e ∈ comingRows, e.2.due = some e.1 ∨ e.2.due = none := by decide +kernel
  exact fun e he => State.upTo_of_due (h e he)

theorem witness_UnmountCompletes :
    (∀ e, (desk .unmounting).ctxReq.get e = none ∧ (desk .unmounting).nextTx e = none) ∧
      (desk .unmounting).mounts.get .d0 = some (disk .unmounting) ∧ (disk .unmounting).phase = .unmounting ∧
      (desk .unmounting).attempts.get .d0 = none ∧
      (desk .mounted).mounts.get .d0 = some (disk .mounted) ∧ (disk .mounted).phase ≠ .unmounting := by
  exact ⟨fun e => by cases e <;> decide +kernel, by decide +kernel⟩

/-- R15, R39, R121: a mount with no attempt in flight completes before an ABANDON is answered and before a waiting
request is taken, which so finds the drive unmounted. -/
theorem test_unmount_first :
    (deskWith { desk .unmounting with contexts := Oct.all none }).due = some (.unmountComplete .d0) ∧
      (waiting (desk .unmounting)).due = some (.unmountComplete .d0) ∧
      (((waiting (desk .unmounting)).upTo (.waitingRequestTaken .a)).mounts.get .d0).isSome = false := by
  decide +kernel

theorem witness_ResumeRequest :
    (desk .mounted).ready .a ∧ (desk .mounted).openMount .d2 = none ∧
      (desk .mounted).mounts.get .d0 = some (disk .mounted) ∧ (disk .mounted).phase = .mounted ∧
      (desk .lost).ready .a ∧ (desk .lost).mounts.get .d0 = some (disk .lost) ∧
      ((desk .lost).drives.get .d0).link = .online ∧ ((desk .lost).drives.get .d0).medium = true ∧
      ({ desk .lost with drives := calm.drives } : State).ready .a ∧ (calm.drives.get .d0).medium = false := by
  unfold State.ready; decide +kernel

/-! ### Witnesses: the map and the work lists -/

theorem witness_RecoverRequest :
    (desk .mounted).ready .a ∧ 65535 < 65536 ∧ 1 ≤ 65535 ∧ (desk .mounted).openMount .d1 = none ∧
      (desk .mounted).openMount .d0 = some (disk .mounted) ∧ (disk .mounted).u ≤ 800 ∧ 799 < (disk .mounted).u := by
  unfold State.ready; decide +kernel

/-- The desk with a full list of entries like one, for units from 100 on. -/
def crowded (e : Entry) : State := { desk .mounted with
  works := (desk .mounted).works.set .d0 ((List.range 64).map fun i => { e with unit := 100 + i }) }

theorem witness_DemandOutcomes :
    (desk .mounted).isTerminal .d0 0 = true ∧ (desk .mounted).isTerminal .d0 9 = false ∧
      (desk .mounted).entryOf .d0 9 = some ⟨9, ⟨.none, .ahead⟩, true⟩ ∧
      (desk .mounted).isTerminal .d0 5 = false ∧ (desk .mounted).entryOf .d0 5 = none ∧
      ((desk .mounted).works.get .d0).length < 64 ∧
      64 ≤ ((crowded ⟨0, ⟨.direct, .none⟩, false⟩).works.get .d0).length ∧
      (crowded ⟨0, ⟨.direct, .none⟩, false⟩).victim .d0 (.direct .b) = none ∧
      (crowded ⟨0, ⟨.none, .none⟩, true⟩).isTerminal .d0 5 = false ∧
      (crowded ⟨0, ⟨.none, .none⟩, true⟩).entryOf .d0 5 = none ∧
      64 ≤ ((crowded ⟨0, ⟨.none, .none⟩, true⟩).works.get .d0).length ∧
      (crowded ⟨0, ⟨.none, .none⟩, true⟩).victim .d0 (.ahead .b) = some ⟨163, ⟨.none, .none⟩, true⟩ ∧
      (crowded ⟨0, ⟨.none, .ahead⟩, false⟩).victim .d0 (.direct .b) = some ⟨163, ⟨.none, .ahead⟩, false⟩ ∧
      (crowded ⟨0, ⟨.none, .none⟩, true⟩).mounts.get .d0 = some (disk .mounted) ∧
      (crowded ⟨0, ⟨.none, .none⟩, true⟩).entryOf .d0 100 ≠ none ∧ 100 ≠ 163 ∧
      ({ crowded ⟨0, ⟨.none, .none⟩, true⟩ with ctxReq := Quad.four (some 163) } : State).ctxReq.get .d0 = some 163 ∧
      ({ crowded ⟨0, ⟨.none, .none⟩, true⟩ with ctxReq := Quad.four (some 100) } : State).ctxReq.get .d0 =
        some 100 := by decide +kernel

/-- R29, R116: in QUIET a demand that is added, or raises its entry's class, wakes the part, and one that does not raise
it leaves the part as it is. -/
theorem test_demand_wakes :
    ([5, 9, 2].map fun u => ((inPower (desk .mounted) .quiet).demand .d0 u (.ahead .b)).1.power.state) =
        [.active, .quiet, .quiet] ∧
      ((inPower (desk .mounted) .quiet).demand .d0 9 (.direct .a)).1.power.state = .active := by decide +kernel

/-- The full list, its newest unit waiting for a context, after a READ ahead of unit 5 and a demand on that unit. -/
def displaced : State :=
  (({ crowded ⟨0, ⟨.none, .none⟩, true⟩ with ctxReq := Quad.four (some 163) } : State).demands .d0 (.ahead .b) 5
    1).demands .d0 (.direct .b) 163 1

/-- R30, R83: a request whose unit's entry is displaced and comes back is withdrawn. -/
theorem test_request_withdrawn :
    displaced.ctxReq.get .d0 = none ∧ displaced.entryOf .d0 163 = some ⟨163, ⟨.none, .direct⟩, false⟩ := by
  decide +kernel

theorem witness_SweepRequest :
    (desk .mounted).ready .a ∧ 65535 < 65536 ∧ (desk .mounted).openMount .d1 = none ∧
      (desk .lost).openMount .d0 = some (disk .lost) ∧ (disk .lost).u ≤ 800 ∧ 799 < (disk .lost).u := by
  unfold State.ready; decide +kernel

theorem witness_AbandonRequest :
    (desk .mounted).ready .a ∧ 65535 < 65536 ∧ (desk .mounted).openMount .d1 = none ∧
      (desk .mounted).openMount .d0 = some (disk .mounted) ∧ (disk .mounted).u ≤ 800 ∧ 0 < (disk .mounted).u ∧
      (desk .mounted).isTerminal .d0 0 = true ∧ 799 < (disk .mounted).u ∧
      (desk .mounted).isTerminal .d0 799 = false ∧ (desk .mounted).ctxOf .d0 799 = none ∧
      (desk .mounted).isTerminal .d0 2 = false ∧
      (desk .mounted).ctxOf .d0 2 = some (0, ⟨.collecting, .d0, some 2, 258, [], false⟩) ∧
      (desk .mounted).attempts.get .d0 = none ∧ (deskAt .moving).ready .a ∧
      (deskAt .moving).ctxOf .d0 2 = some (0, ⟨.collecting, .d0, some 2, 258, [], false⟩) ∧
      (deskAt .moving).attempts.get .d0 = some ⟨2, .moving, 0, [0, 2, 2, 1], 258, false⟩ ∧
      (deskIn (.repairing ⟨1, 1, 1, 1⟩)).ready .a ∧
      ((deskIn (.repairing ⟨1, 1, 1, 1⟩)).ctxOf .d0 2).map (fun e => e.2.phase) = some (.repairing ⟨1, 1, 1, 1⟩) ∧
      (desk .mounted).mounts.get .d0 = some (disk .mounted) ∧
      ({ disk .mounted with u := 4 } : MountRec).terminal + 1 = 4 := by
  unfold State.ready; decide +kernel

/-- The desk with Port A's cursor at a unit. -/
def deskCursor (d : DriveId) (u : Nat) : State := { desk .mounted with
  ports := ⟨{ Port.start with cursor := some (d, u) }, Port.start⟩ }

theorem witness_QueryMap :
    (desk .mounted).ready .a ∧ 65535 < 65536 ∧ 1 ≤ (1 : Byte).toNat ∧ (128 : Byte).toNat ≤ 128 ∧
      (desk .mounted).openMount .d1 = none ∧ (desk .mounted).openMount .d0 = some (disk .mounted) ∧
      (disk .mounted).u ≤ 800 ∧ 799 < (disk .mounted).u ∧ ((desk .mounted).ports.get .a).cursor = none ∧
      (deskCursor .d1 0).ready .a ∧ ((deskCursor .d1 0).ports.get .a).cursor = some (.d1, 0) ∧
      (deskCursor .d1 0).openMount .d1 = none ∧ (deskCursor .d0 799).ready .a ∧
      ((deskCursor .d0 799).ports.get .a).cursor = some (.d0, 799) ∧
      (deskCursor .d0 799).openMount .d0 = some (disk .mounted) := by
  unfold State.ready; decide +kernel

/-! ### Witnesses: rests and views -/

theorem witness_HoldRequest :
    calm.ready .a ∧ 4294967295 < 4294967296 ∧ 0 < 4294967296 ∧
      (⟨some 600000, .hold, 0, 0⟩ : Rest) = { calm.rests.get .d0 with
        timer := if 4294967295 = 0 then none else some (min 600000 4294967295)
        cause := if 4294967295 = 0 then .none else .hold } ∧
      (⟨none, .none, 0, 0⟩ : Rest) = { calm.rests.get .d0 with
        timer := if 0 = 0 then none else some (min 600000 0), cause := if 0 = 0 then .none else .hold } := by
  unfold State.ready; decide +kernel

theorem witness_SetAndClearView :
    (desk .mounted).ready .a ∧ 4294901760 < 4294967296 ∧ (16 : Byte).toNat ≤ 16 ∧ 32767 ≤ 32767 ∧
      (8 : Byte).toNat ∈ [0, 1, 2, 4, 8] ∧ (1 : Byte).toNat ≤ 1 ∧ 4294901760 % 2 ^ (16 : Byte).toNat = 0 ∧
      4294967295 < 4294967296 ∧ 4294967295 % 2 ^ (16 : Byte).toNat ≠ 0 ∧
      ((desk .mounted).views.get .a).get .d2 = none ∧ (((desk .mounted).streams.get .a).get .d1).range = none ∧
      ((desk .mounted).views.get .a).get .d0 = some ⟨.d0, 0, 10, 0, 2, true⟩ ∧
      (((desk .mounted).streams.get .a).get .d0).range = some (9, 10) := by
  unfold State.ready; decide +kernel

/-! ### Witnesses: reads -/

/-- The view of Port A that shows drive 0. -/
def window : View := ⟨.d0, 0, 10, 0, 2, true⟩

/-- The translation of a READ through it. -/
def through (m : MountRec) (first n : Nat) : Translation := ⟨.d0, window, m, first, n⟩

theorem witness_ReadTranslation :
    (desk .mounted).ready .a ∧ (desk .mounted).translate .a 2 16 = .ok (through (disk .mounted) 2 16) ∧
      (∀ w v, ((desk .mounted).views.get .a).get w = some v →
        ¬ (v.base ≤ 4294967295 ∧ 4294967295 < v.base + 2 ^ v.k)) ∧
      4294967295 < 4294967296 ∧ 1 ≤ (1 : Byte).toNat ∧ (16 : Byte).toNat ≤ 16 ∧
      (desk .mounted).entryFor .a 4294967295 16 = none ∧
      (desk .mounted).decodeView .a 1024 = some (.d1, ⟨.d1, 1024, 0, 0, 0, false⟩) ∧
      (desk .mounted).openMount .d1 = none ∧ (desk .mounted).decodeView .a 800 = some (.d0, window) ∧
      (desk .mounted).openMount .d0 = some (disk .mounted) ∧
      (disk .mounted).u ≤ window.target + (800 - window.base) := by
  refine ⟨by unfold State.ready; decide +kernel, rfl, fun w v h => ?_, by decide +kernel⟩
  cases w <;> cases h <;> decide

theorem witness_ReadServed :
    ((desk .mounted).ready .a ∧ (desk .lost).ready .a) ∧
      ((desk .mounted).translate .a 0 2 = .ok (through (disk .mounted) 0 2) ∧
        (desk .lost).translate .a 4 1 = .ok (through (disk .lost) 4 1)) ∧
      1 ≤ (2 : Byte).toNat ∧ (2 : Byte).toNat ≤ 16 ∧ (desk .mounted).entryFor .a 0 2 = none ∧
      (∀ i, i < 2 → (desk .mounted).isTerminal .d0 (0 + i) = true) ∧
      (List.range 2).map (fun i => ((desk .mounted).unitRec .d0 (0 + i)).state) = [.recovered, .exhausted] ∧
      (desk .lost).entryFor .a 4 1 = none ∧ (∀ i, i < 1 → (desk .lost).isTerminal .d0 (4 + i) = true) ∧
      (List.range 1).map (fun i => ((desk .lost).unitRec .d0 (4 + i)).state) = [.abandoned] :=
  ⟨by unfold State.ready; decide +kernel, ⟨rfl, rfl⟩, by decide +kernel⟩

/-- The desk with a deferred read table of Port A. -/
def deferring (ph : MountPhase) (es : List Deferred) : State := { desk ph with deferred := ⟨es, []⟩ }

/-- Eight entries of other addresses. -/
def eightEntries : List Deferred := (List.range 8).map fun i => ⟨100 + i, 1, .d0, 100 + i, 1, 0, .pending⟩

theorem witness_ReadDeferred :
    ((desk .lost).ready .a ∧ (deferring .mounted eightEntries).ready .a ∧
        (deferring .mounted (eightEntries.drop 1)).ready .a) ∧
      ((desk .lost).translate .a 2 16 = .ok (through (disk .lost) 2 16) ∧
        ∀ es, (deferring .mounted es).translate .a 2 16 = .ok (through (disk .mounted) 2 16)) ∧
      (desk .lost).entryFor .a 2 16 = none ∧ (disk .lost).phase = .lost ∧
      (desk .lost).isTerminal .d0 (2 + 0) = false ∧ (deferring .mounted eightEntries).entryFor .a 2 16 = none ∧
      (deferring .mounted eightEntries).isTerminal .d0 (2 + 0) = false ∧ (disk .mounted).phase ≠ .lost ∧
      8 ≤ ((deferring .mounted eightEntries).deferred.get .a).length ∧
      (deferring .mounted (eightEntries.drop 1)).entryFor .a 2 16 = none ∧
      (deferring .mounted (eightEntries.drop 1)).isTerminal .d0 (2 + 0) = false ∧
      ((deferring .mounted (eightEntries.drop 1)).deferred.get .a).length < 8 :=
  ⟨by unfold State.ready; decide +kernel, ⟨rfl, fun _ => rfl⟩, by decide +kernel⟩

/-- A deferred read of unit 5. -/
def entry5 (retries : Nat) (st : DeferState) : Deferred := ⟨5, 1, .d0, 5, 1, retries, st⟩

/-- A deferred read of unit 5 that names drive 1. -/
def entryMoved : Deferred := ⟨5, 1, .d1, 5, 1, 0, .pending⟩

/-- A part with an entry of Port A and no view. -/
def viewless : State := { calm with deferred := ⟨[entry5 0 .pending], []⟩ }

theorem witness_ReadReissued :
    (∀ st retries, (deferring .mounted [entry5 retries st]).entryFor .a 5 1 = some (entry5 retries st) ∧
      (deferring .mounted [entry5 retries st]).ready .a ∧
      (deferring .mounted [entry5 retries st]).translate .a 5 1 = .ok (through (disk .mounted) 5 1)) ∧
      (deferring .lost [entry5 0 .pending]).entryFor .a 5 1 = some (entry5 0 .pending) ∧
      (deferring .lost [entry5 0 .pending]).ready .a ∧
      (deferring .lost [entry5 0 .pending]).translate .a 5 1 = .ok (through (disk .lost) 5 1) ∧
      viewless.ready .a ∧ viewless.entryFor .a 5 1 = some (entry5 0 .pending) ∧
      viewless.translate .a 5 1 = .error .noView ∧
      (deferring .mounted [entryMoved]).ready .a ∧ (deferring .mounted [entryMoved]).entryFor .a 5 1 = some entryMoved ∧
      (deferring .mounted [entryMoved]).translate .a 5 1 = .ok (through (disk .mounted) 5 1) ∧
      entryMoved.drive ≠ (through (disk .mounted) 5 1).view.drive ∧
      (entry5 0 .ready).drive = (through (disk .mounted) 5 1).view.drive ∧
      (entry5 0 .ready).first = (through (disk .mounted) 5 1).first ∧
      (entry5 0 .ready).n = (through (disk .mounted) 5 1).n ∧
      ((deferring .mounted []).options.get .a).deferLimit = 32 ∧ 32 ≤ (entry5 32 .pending).retries ∧
      (entry5 31 .pending).retries < 32 := by
  have hr : ∀ ph es, (deferring ph es).ready .a ↔ (desk ph).ready .a := fun _ _ => Iff.rfl
  refine ⟨fun st retries => ⟨rfl, (hr _ _).2 ?_, rfl⟩, rfl, ?_, rfl, ?_, rfl, rfl, ?_, rfl, rfl, ?_⟩
  all_goals first | decide | (unfold State.ready; decide +kernel)

/-- R138, R143: an entry READY whose unit is terminal, issued again. -/
theorem witness_ReadReissued_ready :
    ({ deferring .mounted [⟨0, 1, .d0, 0, 1, 0, .ready⟩] with served := ⟨0, 0⟩ } : State).entryFor .a 0 1 =
        some ⟨0, 1, .d0, 0, 1, 0, .ready⟩ ∧
      (deferring .mounted [⟨0, 1, .d0, 0, 1, 0, .ready⟩]).translate .a 0 1 = .ok (through (disk .mounted) 0 1) ∧
      (deferring .mounted [⟨0, 1, .d0, 0, 1, 0, .ready⟩]).isTerminal .d0 (0 + 0) = true :=
  ⟨rfl, rfl, by decide +kernel⟩

/-! ### Witnesses: events, captures, statistics, sleep -/

theorem witness_EventRequests :
    calm.ready .a ∧ 8191 < 8192 ∧ 0 < 8192 ∧ 8192 ≤ 8192 ∧ 65535 < 65536 ∧
      (∃ t, exec (.clearEvents .a (Frame.good 0x31 7 (leBytes 2 8192))) calm = .next t) ∧
      ∃ t, exec (.setMask .a (Frame.good 0x32 7 (leBytes 2 65535))) calm = .next t :=
  ⟨by unfold State.ready; decide +kernel, by decide, by decide, by decide, by decide, ⟨_, rfl⟩, ⟨_, rfl⟩⟩

theorem witness_CaptureRequests :
    calm.ready .b ∧ 1 ≤ (1 : Byte).toNat ∧ (3 : Byte).toNat ≤ 3 ∧ (0 : Byte).toNat = 0 ∧ 3 < (4 : Byte).toNat ∧
      (∃ t, exec (.errorRead .b (Frame.good 0x34 7 [0])) calm = .next t) ∧
      ∃ t, exec (.errorRelease .b (Frame.good 0x35 7 [4])) calm = .next t :=
  ⟨by unfold State.ready; decide +kernel, by decide, by decide, by decide, by decide, ⟨_, rfl⟩, ⟨_, rfl⟩⟩

theorem witness_StatsRequests :
    calm.ready .a ∧ 1099511627775 < 1099511627776 ∧ (14 : Byte).toNat ≤ 14 ∧ 4294967295 < 4294967296 ∧
      14 < (15 : Byte).toNat ∧ 4294967296 ≤ 4294967296 ∧ 4294967296 < 1099511627776 ∧ 5 < (6 : Byte).toNat := by
  unfold State.ready; decide +kernel

theorem witness_SleepRequest :
    calm.ready .a ∧ 8 ≤ (8 : Byte).toNat ∧ (0 : Byte).toNat = 0 ∧ (4 : Byte).getLsbD 2 = true ∧
      86400 < 86401 ∧ 86401 < 4294967296 ∧ (7 : Byte).toNat < 8 ∧ 1 ≤ (1 : Byte).toNat ∧
      ((7 : Byte).getLsbD 2 = true → 1 ≤ 86400 ∧ 86400 ≤ 86400) ∧
      ((1 : Byte).getLsbD 2 = true → 1 ≤ 0 ∧ 0 ≤ 86400) ∧
      (0 : BitVec 5) = calm.sleepCauses &&& (BitVec.ofNat 5 (7 : Byte).toNat ||| 0b11000) ∧
      (deskAt .moving).ready .b ∧
      (0 : BitVec 5) = (deskAt .moving).sleepCauses &&& (BitVec.ofNat 5 (0 : Byte).toNat ||| 0b11000) ∧
      (7 : BitVec 5) = (deskAt .moving).sleepCauses &&& (BitVec.ofNat 5 (7 : Byte).toNat ||| 0b11000) ∧
      (deskAt .moving).attempts.get .d0 = some ⟨2, .moving, 0, [0, 2, 2, 1], 258, false⟩ ∧
      (deskAt .moving).attempts.get .d1 = none ∧ (deskAt .pollSent).ready .b ∧
      (0 : BitVec 5) = (deskAt .pollSent).sleepCauses &&& (BitVec.ofNat 5 (0 : Byte).toNat ||| 0b11000) ∧
      (deskAt .pollSent).attempts.get .d0 = some ⟨2, .pollSent, 0, [0, 2, 2, 1], 258, false⟩ ∧
      (deskAt .pollSent).link.exchange = none ∧ (onLine (deskAt .pollSent) .poll true true).ready .b ∧
      (0 : BitVec 5) = (onLine (deskAt .pollSent) .poll true true).sleepCauses &&&
        (BitVec.ofNat 5 (0 : Byte).toNat ||| 0b11000) ∧
      (onLine (deskAt .pollSent) .poll true true).link.exchange =
        some ⟨.d0, .poll, true, [], 258, none, none, true⟩ := by
  unfold State.ready; decide +kernel

/-! ### Witnesses: frames -/

theorem witness_FrameRefusals :
    calm.takes .a ∧ Frame.crcOk 0x01 ⟨7, [], 0⟩ = false ∧ Frame.crcOk 0x01 (Frame.good 0x01 7 [1]) = true ∧
      ReqCode.identify.lengthOk [1] = false ∧ Frame.crcOk 0x10 (Frame.good 0x10 7 [4, 0]) = true ∧
      ReqCode.mount.lengthOk [4, 0] = true ∧ calm.accepts .mount = true ∧ ReqCode.mount.rangesOk [4, 0] = false ∧
      (ReqCode.all.all fun c => c.byte != 0x41) = true ∧ booting.takes .a ∧
      booting.accepts .mount = false ∧ Frame.crcOk 0x10 (Frame.good 0x10 7 [0, 0]) = true ∧
      ReqCode.mount.lengthOk [0, 0] = true := by
  unfold State.takes; decide +kernel

/-- With `witness_upTo`. -/
theorem witness_WaitingRequests :
    (deskWith (deskIn (.repairing ⟨1, 1, 1, 1⟩))).due = none ∧
      (deskWith (deskIn (.repairing ⟨1, 1, 1, 1⟩))).power.state ≠ .dormant ∧
      ((deskWith (deskIn (.repairing ⟨1, 1, 1, 1⟩))).ports.get .a).inProgress ≠ none ∧
      (0x02 : Byte) = ReqCode.status.byte ∧ ((waiting calm).ports.get .a).inProgress = none ∧
      ((waiting calm).ports.get .a).waiting = some (0x02, Frame.good 0x02 7 []) ∧
      (calm.ports.get .a).waiting = none ∧ calm.power.state ≠ .dormant := by decide +kernel

/-- The desk with an ABANDON of unit 2 in progress whose unit has no context, its mount in a phase. -/
def deskFreed (ph : MountPhase) (r : UnitState) : State := deskWith { desk ph with
  contexts := Oct.all none, unitMap := [(2, ⟨r, 9, 0, .none, 0, 0, 0, false⟩)] }

theorem witness_upTo_freed (r : UnitState) (h : r ∈ [UnitState.tried, .blank]) :
    (deskFreed .lost r).upTo (.abandonDeferredAnswer .a) = deskFreed .lost r := by
  have h' : ∀ r ∈ [UnitState.tried, .blank], (deskFreed .lost r).due = some (.abandonDeferredAnswer .a) := by
    decide +kernel
  exact State.upTo_of_due (.inl (h' r h))

theorem witness_AbandonDeferredAnswer :
    (calm.ports.get .a).inProgress = none ∧
      ((deskWith (deskIn (.repairing ⟨1, 1, 1, 1⟩))).ports.get .a).inProgress = some ⟨7, .d0, 2⟩ ∧
      (deskWith (deskIn (.repairing ⟨1, 1, 1, 1⟩))).ctxOf .d0 2 =
        some (0, ⟨.repairing ⟨1, 1, 1, 1⟩, .d0, some 2, 258, [], false⟩) ∧
      ((deskWith calm).ports.get .a).inProgress = some ⟨7, .d0, 2⟩ ∧
      (deskWith calm).openMount .d0 = none ∧ (deskWith calm).ctxOf .d0 2 = none ∧
      ((deskFreed .lost .tried).ports.get .a).inProgress = some ⟨7, .d0, 2⟩ ∧
      (deskFreed .lost .tried).openMount .d0 = some (disk .lost) ∧ 2 < (disk .lost).u ∧
      (deskFreed .lost .tried).isTerminal .d0 2 = false ∧ (deskFreed .lost .tried).ctxOf .d0 2 = none ∧
      ((deskFreed .lost .blank).ports.get .a).inProgress = some ⟨7, .d0, 2⟩ ∧
      (deskFreed .lost .blank).openMount .d0 = some (disk .lost) ∧
      (deskFreed .lost .blank).isTerminal .d0 2 = true ∧
      (deskFreed .lost .blank).ctxOf .d0 2 = none := by decide +kernel

theorem witness_AbandonDeferredAnswer_open :
    (∀ q ∈ [deskWith (desk .mounted), deskWith (deskAt .moving)],
      (q.ports.get .a).inProgress = some ⟨7, .d0, 2⟩ ∧ q.openMount .d0 = some (disk .mounted) ∧
        q.isTerminal .d0 2 = false ∧
        q.ctxOf .d0 2 = some (0, ⟨.collecting, .d0, some 2, 258, [], false⟩)) ∧
      (deskWith (desk .mounted)).attempts.get .d0 = none ∧
      ((deskWith (deskAt .moving)).attempts.get .d0).map Attempt.unit = some 2 := by decide +kernel

theorem witness_ResponseReadAndPartialFrame : calm.due = none ∧ (deskWith (desk .mounted)).due ≠ none := by
  decide +kernel

/-- A DORMANT part that Port A can wake. -/
def asleep : State := { calm with power := ⟨.dormant, none, ⟨true, false⟩, true, 5, some 5000, 0⟩ }

theorem witness_DormantFrame :
    asleep.due = none ∧ asleep.power.state = .dormant ∧ asleep.power.wakePort.get .b = false ∧
      asleep.power.wakePort.get .a = true ∧ calm.due = none ∧ calm.power.state ≠ .dormant ∧
      (0x02 : Byte) = ReqCode.status.byte := by decide +kernel

/-! ### Witnesses: the drive link -/

theorem witness_LinkGrant :
    (∀ q ∈ [calm, probing, deskAt .needRead], q.upTo .linkGrant = q) ∧
      (∀ d, calm.nextTx d = none ∧ probing.ctxReq.get d = none) ∧
      (∀ e, probing.nextTx e ≠ none →
        (probing.settings.driveHigh.get e = true → probing.settings.driveHigh.get .d0 = true) ∧
        (probing.settings.driveHigh.get e = probing.settings.driveHigh.get .d0 →
          ((DriveId.d0).toNat + 3 - probing.link.last.toNat) % 4 ≤
            (e.toNat + 3 - probing.link.last.toNat) % 4)) ∧
      (∀ e, (deskAt .needRead).nextTx e ≠ none →
        ((deskAt .needRead).settings.driveHigh.get e = true → (deskAt .needRead).settings.driveHigh.get .d0 = true) ∧
        ((deskAt .needRead).settings.driveHigh.get e = (deskAt .needRead).settings.driveHigh.get .d0 →
          ((DriveId.d0).toNat + 3 - (deskAt .needRead).link.last.toNat) % 4 ≤
            (e.toNat + 3 - (deskAt .needRead).link.last.toNat) % 4)) ∧
      calm.due = none ∧ (onLine probing .probe false false).due = none ∧
      (onLine probing .probe false false).link.exchange ≠ none ∧
      ({ probing with link := ⟨none, true, .d3⟩ } : State).link.clearing = true ∧
      (deskAt .needRead).attempts.get .d0 = some ⟨2, .needRead, 0, [0, 2, 2, 1], 258, false⟩ ∧
      probing.attempts.get .d0 = none ∧ probing.link.exchange = none ∧ probing.link.clearing = false ∧
      probing.nextTx .d0 = some (.pend .probe) ∧
      (deskAt .needRead).nextTx .d0 = some (.attempt .read ⟨2, .needRead, 0, [0, 2, 2, 1], 258, false⟩) := by
  have h : ∀ q ∈ [calm, probing, deskAt .needRead], q.due = some .linkGrant ∨ q.due = none := by decide +kernel
  exact ⟨fun q hq => State.upTo_of_due (h q hq), fun d => by cases d <;> decide +kernel,
    fun e => by cases e <;> decide +kernel, fun e => by cases e <;> decide +kernel, by decide +kernel⟩

/-- R78, R105: a READ that requests the free link has it before a HOLD of its drive is taken and is not withdrawn. -/
theorem test_grant_before_hold :
    ∃ t, exec (.hold .a (Frame.good 0x14 7 (0 :: leBytes 4 9))) (deskAt .needRead) = .next t ∧
      (t.attempts.get .d0).map Attempt.phase = some .readSent ∧
      (t.link.exchange.map fun x => (x.drive, x.cmd)) = some (.d0, .read) := ⟨_, rfl, by decide +kernel⟩

/-- A PROBE reply: adaptor kind, medium, position 39. -/
def probeOf (kind medium : Byte) : List Byte := let bs := [0x81, kind, medium, 39, 0]; bs ++ [crc8 bs]

/-- A POLL reply: adaptor state, medium, medium-changed, position 39. -/
def pollOf (st medium changed : Byte) : List Byte := let bs := [0x82, st, medium, changed, 39, 0]; bs ++ [crc8 bs]

theorem test_replies :
    parseProbe (probeOf 1 0) = some ⟨.cartridge, false, 39⟩ ∧ parseProbe (probeOf 2 0) = none ∧
      parsePoll (pollOf 2 1 0) = some ⟨.fault, true, false, 39⟩ ∧ parsePoll (pollOf 3 1 0) = none ∧
      parsePoll (pollOf 0 1 0).reverse = none := by decide +kernel

theorem witness_ProbeReply :
    (onLine calm .relax false false).due = none ∧ (onLine calm .probe false false).due = none ∧
      (onLine calm .probe false false).link.exchange = some ⟨.d0, .probe, false, [], 258, none, none, false⟩ ∧
      parseProbe (probeOf 0 1) = some ⟨.floppy, true, 39⟩ ∧ Cmd.relax ≠ .probe ∧
      (onLine (desk .mounted) .probe false false).due = none ∧
      (onLine (desk .mounted) .probe false false).mounts.get .d0 = some (disk .mounted) ∧
      parseProbe (probeOf 1 1) = some ⟨.cartridge, true, 39⟩ ∧ Kind.cartridge ≠ (disk .mounted).snap.kind ∧
      parseProbe (probeOf 0 0) = some ⟨.floppy, false, 39⟩ ∧ Kind.floppy = (disk .mounted).snap.kind := by
  decide +kernel

theorem witness_LostMount :
    (desk .lost).mounts.get .d0 = some (disk .lost) ∧ (disk .lost).phase ≠ .mounted ∧
      (deskIn (.repairing ⟨4, 3, 2, 1⟩)).mounts.get .d0 = some (disk .mounted) ∧ (disk .mounted).phase = .mounted ∧
      (deskIn (.repairing ⟨4, 3, 2, 1⟩)).contexts.get? 0 =
        some (some ⟨.repairing ⟨4, 3, 2, 1⟩, .d0, some 2, 258, [], false⟩) ∧
      (∀ j c', j ≠ 0 → (deskIn (.repairing ⟨4, 3, 2, 1⟩)).contexts.get? j = some (some c') → c'.drive = .d0 →
        c'.unit ≠ some 2) ∧
      (desk .mounted).contexts.get? 0 = some (some ⟨.collecting, .d0, some 2, 258, [], false⟩) ∧
      ∀ c ∈ (desk .mounted).contexts.toList, ∀ c', c = some c' → c'.drive = .d0 → c'.unit ≠ some 3 := by
  refine ⟨rfl, by decide, rfl, rfl, rfl, fun j c' hj h => ?_, rfl, fun c hc c' h => ?_⟩
  · match j with
    | 0 => exact absurd rfl hj
    | 1 | 2 | 3 | 4 | 5 | 6 | 7 => cases h
    | n + 8 => cases h
  · subst h
    simp only [desk, Oct.all, Oct.set, Oct.toList, List.mem_cons, Option.some.injEq, reduceCtorEq, or_false,
      List.not_mem_nil] at hc
    subst hc; intro _; decide

theorem witness_PositioningEvents :
    (∀ ack ∈ [none, some 0, some 2],
      (onWire (deskAt .positionSent) .position true false ack none).due = none ∧
        (onWire (deskAt .positionSent) .position true false ack none).attempts.get .d0 =
          some ⟨2, .positionSent, 0, [0, 2, 2, 1], 258, false⟩) ∧
      (onLine (deskAt .pollSent) .poll true false).due = none ∧
      (onLine (deskAt .pollSent) .poll true false).attempts.get .d0 =
        some ⟨2, .pollSent, 0, [0, 2, 2, 1], 258, false⟩ ∧
      parsePoll (pollOf 0 1 0) = some ⟨.ready, true, false, 39⟩ ∧
      parsePoll (pollOf 1 1 0) = some ⟨.busy, true, false, 39⟩ ∧
      parsePoll (pollOf 2 1 0) = some ⟨.fault, true, false, 39⟩ ∧
      parsePoll (pollOf 0 0 1) = some ⟨.ready, false, true, 39⟩ ∧
      (onLine (deskAt .pollSent) .poll true false).discard.get .d0 = false ∧
      (onLine (deskAt .pollSent) .poll true false).isMounted .d0 = true ∧
      (onLine (deskAt .pollSent) .poll true false).abandonPending .d0 = none ∧
      ((onLine (deskAt .pollSent) .poll true false).rests.get .d0).timer = none ∧
      (onLine (deskAt .pollSent) .poll true false).power.state ≠ .entering ∧
      (onLine (deskAt .pollSent) .poll true false).mounts.get .d0 = some (disk .mounted) ∧
      ({ up with posStart := 5 } : DriveLink).posStart = 5 ∧
      1004 - 5 < (disk .mounted).snap.positionLimit ∧ (disk .mounted).snap.positionLimit ≤ 1005 - 5 := by
  decide +kernel

/-- The desk with an attempt in a phase that ENTERING has abandoned. -/
def deskAbandoned (ph : AttemptPhase) : State := { desk .mounted with
  attempts := ⟨some ⟨2, ph, 0, [0, 2, 2, 1], 258, true⟩, none, none, none⟩ }

theorem witness_PositioningEvents_abandoned :
    (onWire (deskAbandoned .positionSent) .position true false (some 1) none).due = none ∧
      (onWire (deskAbandoned .positionSent) .position true false (some 1) none).attempts.get .d0 =
        some ⟨2, .positionSent, 0, [0, 2, 2, 1], 258, true⟩ ∧
      (onLine (deskAbandoned .pollSent) .poll true false).due = none ∧
      (onLine (deskAbandoned .pollSent) .poll true false).attempts.get .d0 =
        some ⟨2, .pollSent, 0, [0, 2, 2, 1], 258, true⟩ := by decide +kernel

theorem test_positioning_times :
    ∃ t, exec (.positionPollReply (.frame (pollOf 1 1 0))) { onLine (deskAt .pollSent) .poll true false with
        now := 1005, drives := (Quad.four up).set .d0 { up with posStart := 5 } } = .next t ∧
      t.linkFault = some ⟨false, .d0, .poll, some 2, .positionTimeout⟩ := ⟨_, rfl, by decide +kernel⟩

theorem witness_ReadReply :
    (onLine (deskAt .readSent) .read true false).due = none ∧
      (onLine (deskAt .readSent) .read true false).attempts.get .d0 =
        some ⟨2, .readSent, 0, [0, 2, 2, 1], 258, false⟩ ∧
      (onLine (deskAt .readSent) .poll true false).due = none ∧ Cmd.poll ≠ .read ∧
      parseRead 2 [0x83, 1, 0xAA, 0x55, 7, 0, crc8 [0x83, 1, 0xAA, 0x55, 7, 0]] =
        some (.data ⟨[0xAA, 0x55], [7, 0], true⟩) ∧
      parseRead 2 [0x83, 1, 0xAA, 0x55, 8, 0, crc8 [0x83, 1, 0xAA, 0x55, 8, 0]] = none ∧
      parseRead 258 [0x84, crc8 [0x84]] = some .fault := by decide +kernel

theorem witness_PresenceAndRelax :
    (∀ ack ∈ [none, some 0, some 2], (onWire (desk .mounted) .relax false false ack none).due = none) ∧
      (onLine (desk .mounted) .poll false false).due = none ∧
      parsePoll (pollOf 2 1 0) = some ⟨.fault, true, false, 39⟩ ∧
      parsePoll (pollOf 1 1 1) = some ⟨.busy, true, true, 39⟩ ∧
      (onLine (desk .mounted) .poll false false).mounts.get .d0 = some (disk .mounted) := by decide +kernel

theorem witness_LinkTimers :
    (∀ j ∈ [TimerId.poll .d0, .presence .d0, .reprobe .d0],
      (timed none).timer j = none ∧ (timed (some 0)).timer j = some 0 ∧ (timed (some 9)).timer j = some 9 ∧
        (inPower (timed (some 9)) .saving).timer j = none) ∧
      (timed none).due = none ∧ (timed (some 0)).due = none ∧ (timed (some 9)).due = none ∧
      (∀ j m, (timed (some 0)).timer j = some m → 0 ≤ m) ∧
      (timed (some 9)).noneBefore 9 = true ∧
      (resting (timed (some 9)) 8).due = none ∧
      (resting (timed (some 9)) 8).timer (.rest .d0) = some 8 :=
  ⟨by decide +kernel, by decide +kernel, by decide +kernel, by decide +kernel, fun _ _ _ => Nat.zero_le _,
    by decide +kernel⟩

/-- R93: an acknowledge, a hold of DLCK and its end, and each where it cannot come. -/
theorem witness_LinkTimers_signals :
    ∀ w ∈ [(some 2, none), (some 0, none), (none, none), (none, some 100), (none, some 0)],
      (onWire calm .probe false false w.1 w.2).due = none ∧
        (onWire calm .probe false false w.1 w.2).link.exchange =
          some ⟨.d0, .probe, false, [], 258, w.1, w.2, false⟩ := by decide +kernel

/-- R93: the acknowledge of a PROBE opens its reply frame, and a hold waits STRETCH_LIMIT, 50 ms by default. -/
theorem test_signals :
    ∃ q t, exec (.probeReply .ack) (onWire calm .probe false false (some 2) none) = .next q ∧
      exec (.probeReply .hold) q = .next t ∧ t.link.exchange.bind Exchange.hold = some 50 :=
  ⟨_, _, rfl, rfl, by decide +kernel⟩

/-- R96: a poll timer that starts at 10 ms runs out 10 ms later. -/
theorem test_poll_time :
    ∃ t, exec (.pollTimerExpiry .d0) { timed none with drives := (Quad.four up).set .d0 { up with poll := some 10 } }
      = .next t ∧ t.now = 10 ∧ (t.drives.get .d0).presence = some 490 := ⟨_, rfl, by decide +kernel⟩

theorem witness_LinkFaults :
    (∀ w ∈ [(some 2, none), (none, some 100)],
      (onWire (deskAt .pollSent) .poll true false w.1 w.2).due = none ∧
        (onWire (deskAt .pollSent) .poll true false w.1 w.2).noneBefore 2 = true ∧
        (onWire (desk .mounted) .relax false true w.1 w.2).noneBefore (w.1.getD 100) = true) ∧
      (onWire calm .probe false false none (some 100)).noneBefore 100 = true ∧
      (onLine calm .probe false false).due = none ∧ parseProbe (probeOf 2 1) = none ∧
      (onLine (deskAt .pollSent) .poll true false).due = none ∧ parsePoll (pollOf 3 1 0) = none ∧
      (onLine (deskAt .readSent) .read true false).due = none ∧ parseRead 258 [0x84, 0] = none ∧
      (onLine (deskAt .readSent) .read true false).mounts.get .d0 = some (disk .mounted) := by decide +kernel

theorem witness_LinkFaults_rest :
    calm.due = none ∧ calm.timer .ack = none ∧ calm.timer .hold = none ∧ calm.link.clearing = false ∧
      ({ calm with link := ⟨none, true, .d3⟩ } : State).due = none ∧
      (resting (onWire calm .probe false false (some 2) none) 1).timer (.rest .d0) = some 1 ∧
      (resting (onWire calm .probe false false none (some 100)) 99).timer (.rest .d0) = some 99 ∧
      (onLine (desk .mounted) .poll false false).due = none ∧
      (onWire (deskAt .positionSent) .position true true (some 1) none).due = none ∧
      (onWire calm .relax false true (some 1) none).due = none ∧ (onLine calm .read true true).due = none := by
  decide +kernel

/-- R100: the third miss in a row of an ONLINE drive makes it OFFLINE and its mount LOST. -/
theorem test_third_miss :
    ∃ t, exec .noAck { onWire (desk .mounted) .poll false false (some 2) none with
        drives := (Quad.four up).set .d0 { up with miss := 2 } } = .next t ∧
      (t.drives.get .d0).link = .offline ∧ (t.mounts.get .d0).map MountRec.phase = some .lost :=
  ⟨_, rfl, by decide +kernel, by decide +kernel⟩

/-! ### Witnesses: read combining -/

theorem witness_VotesAndCandidates :
    7 < (List.replicate 8 (0 : Int)).length ∧ 7 < 8 * ([0x40] : List Byte).length ∧ 7 < 8 * ([7] : List Nat).length ∧
      (List.replicate 8 (0 : Int)).length % 8 = 0 ∧ [3, 9] ∈ candidates 2 [3, 9] ∧
      (List.replicate 64 (0 : Int)).length % 8 = 0 ∧ 8 % 8 = 0 ∧ 8 ≤ (List.replicate 64 (0 : Int)).length / 8 := by
  decide

/-- R52: of sixteen bytes of which the third has a weak bit, the mask of the first eight has its third bit from the top
set. -/
theorem test_weak_mask :
    weakMask 2 8 (List.replicate 20 9 ++ [-2] ++ List.replicate 43 9 ++ List.replicate 64 0) = [0x20] := by
  decide +kernel

/-- A profile of one 8-byte unit size, for small votes: C16, no repair, attempt limit 2. -/
def small : Profile := { fd40 with unitSize := 8, attemptLimit := 2, minReads := 1, repairAfter := 1 }

/-- A part whose drive 0 holds a context of unit 2 in a phase, with votes for 10 bytes. -/
def combining (p : Profile) (ph : CtxPhase) (votes : List Int) (r : UnitRec) : State := { desk .mounted with
  mounts := ⟨some { disk .mounted with snap := p }, none, none, none⟩
  unitMap := [(2, r)]
  contexts := (Oct.all none).set 0 (some ⟨ph, .d0, some 2, 10, votes, false⟩) }

/-- The bytes 00h to 07h with their C16 of seed FFFFh. -/
def unitBytes : List Byte :=
  let data := [0, 1, 2, 3, 4, 5, 6, 7]
  data ++ [BitVec.ofNat 8 ((c16 0xFFFF data).toNat / 256), BitVec.ofNat 8 (c16 0xFFFF data).toNat]

/-- A result with sync of one quality. -/
def resultOf (q : Nat) : Result := ⟨unitBytes, List.replicate 10 q, true⟩

/-- Votes that spell the bytes, with magnitude 5 but for bit 0, which has magnitude `k` and the sign of the bit. -/
def votesOf (k : Int) : List Int := (0 - k) :: ((unitBytes.flatMap bitsMsb).drop 1).map fun b => if b then 5 else -5

theorem witness_EvaluateResult :
    (combining small .collecting (List.replicate 80 0) ⟨.active, 0, 0, .none, 0, 0, 0, false⟩).discard.get .d0 = false ∧
      (combining small .collecting (List.replicate 80 0) ⟨.active, 0, 0, .none, 0, 0, 0, false⟩).ctxOf .d0 2 =
        some (0, ⟨.collecting, .d0, some 2, 10, List.replicate 80 0, false⟩) ∧
      (combining small .collecting (List.replicate 80 0) ⟨.active, 0, 0, .none, 0, 0, 0, false⟩).mounts.get .d0 =
        some { disk .mounted with snap := small } ∧
      (desk .mounted).ctxOf .d0 7 = none ∧
      small.passes (consensus (addVotes (List.replicate 80 0) (resultOf 5))) = true ∧
      small.passes (consensus (addVotes (List.replicate 80 0) (resultOf 0))) = false ∧
      weakCount 4 (addVotes (List.replicate 80 0) (resultOf 0)) = 80 ∧ small.repairLimit < 80 ∧
      weakCount 4 (votesOf (-1)) = 1 ∧ small.passes (consensus (votesOf (-1))) = false ∧
      small.passes (consensus (votesOf 1)) = true := by decide +kernel

/-- R57, R62: a first result with sync that passes goes to the store, one without sync at the limit is BLANK. -/
theorem test_evaluate :
    (((combining small .collecting (List.replicate 80 0) ⟨.active, 0, 0, .none, 0, 0, 0, false⟩).takeResult .d0 2
        (resultOf 5)).contexts.c0.map fun c => c.phase) =
        some (.storing ⟨.recovered, .clean, 0, [0, 1, 2, 3, 4, 5, 6, 7], [0]⟩) ∧
      ((combining small .collecting (List.replicate 80 0) ⟨.active, 1, 0, .none, 0, 0, 0, false⟩).takeResult .d0 2
        { resultOf 5 with sync := false }).unitRec .d0 2 = ⟨.blank, 2, 0, .none, 0, 0, 0, false⟩ := by decide +kernel

theorem witness_RepairSearchEnd :
    (desk .mounted).due = none ∧
      (∀ c v, (desk .mounted).contexts.get? 0 = some (some c) → c.phase ≠ .repairing v) ∧
      (combining small (.repairing ⟨1, 1, 5, 1⟩) (votesOf (-1)) ⟨.active, 0, 0, .none, 0, 0, 0, false⟩).due = none ∧
      passing small (votesOf (-1)) = [[0]] ∧
      (passing small (List.replicate 80 5)).length ≠ 1 ∧ small.attemptLimit ≠ 0 ∧
      ({ small with attemptLimit := 0 } : Profile).attemptLimit = 0 :=
  ⟨by decide +kernel, fun c v h => by cases h; simp, by decide +kernel, by decide +kernel, by decide +kernel,
    by decide, rfl⟩

/-- The work of a store write of unit 2 of FD40D10. -/
def work2 : StoreWork := ⟨.recovered, .voted, 0, List.replicate 256 7, List.replicate 32 0⟩

/-- The desk with a store write of unit 2 under way, whose entry is the last and whose deferred read waits for it. -/
def storing2 : State := { deskIn (.storing work2) with
  works := (Quad.four []).set .d0 [⟨2, ⟨.direct, .none⟩, false⟩]
  deferred := ⟨[⟨2, 1, .d0, 2, 1, 0, .pending⟩], []⟩ }

theorem witness_StoreWriteComplete :
    (desk .mounted).due = none ∧
      (∀ c w, (desk .mounted).contexts.get? 0 = some (some c) → c.phase ≠ .storing w) ∧
      storing2.due = none ∧
      storing2.contexts.get? 0 = some (some ⟨.storing work2, .d0, some 2, 258, [], false⟩) ∧
      storing2.mounts.get .d0 = some (disk .mounted) ∧ work2.data.length + work2.mask.length = 288 ∧
      0 * 4096 + 2 * (256 + 256 / 8) + 288 ≤ 67108864 ∧ 67108864 < 16384 * 4096 + 2 * (256 + 256 / 8) + 288 ∧
      ({ disk .mounted with u := 4 } : MountRec).terminal + 1 = 4 ∧ storing2.works.get .d0 ≠ [] ∧
      (∀ e ∈ storing2.works.get .d0, e.unit = 2) ∧ storing2.sweepOn .d0 = false := by
  refine ⟨by decide +kernel, fun c w h => by cases h; simp, ?_⟩
  decide +kernel

/-- R34, R145: it raises WORK_IDLE and DEFER_READY and makes the deferred read READY. -/
theorem test_store_write :
    (match exec (.storeWriteComplete 0) storing2 with
      | .next t => some (t.events.a.raw, t.deferred.a)
      | _ => none) = some (Event.workIdle.bit ||| Event.deferReady.bit, [⟨2, 1, .d0, 2, 1, 0, .ready⟩]) := by
  decide +kernel

/-! ### Witnesses: contexts and choices -/

theorem witness_ContextGrant :
    (desk .mounted).ctxReq = Quad.four none ∧
      ({ desk .mounted with contexts := Oct.all (some ⟨.collecting, .d0, some 2, 258, [], false⟩) } : State).freeCtx
        = none ∧
      asking.freeCtx = some 1 ∧ asking.ctxReq.get .d0 = some 9 ∧ asking.mounts.get .d0 = some (disk .mounted) ∧
      ∀ rank : DriveId → Nat, ∀ e x, asking.ctxReq.get e = some x → rank e ≤ rank .d0 ∧
        (rank e = rank .d0 →
          ((DriveId.d0).toNat + 3 - asking.ctxLast.toNat) % 4 ≤ (e.toNat + 3 - asking.ctxLast.toNat) % 4) := by
  refine ⟨rfl, rfl, rfl, rfl, rfl, fun rank e x h => ?_⟩
  cases e <;> first | cases h; done | skip
  exact ⟨Nat.le_refl _, fun _ => Nat.le_refl _⟩

/-- R82: a STATUS that waits on a port does not keep a free context from the drive that asks for it. -/
theorem test_grant_first : (waiting asking).due = some .contextGrant := by decide +kernel

/-- The desk with a scheduler and a list. -/
def choosing (c : Sched) (w : List Entry) : State := { desk .mounted with
  scheds := (Quad.four Sched.start).set .d0 c, works := (Quad.four []).set .d0 w }

/-- An entry of unit 9 and one of unit 2, which is ACTIVE. -/
def entry9 : Entry := ⟨9, ⟨.direct, .none⟩, false⟩
def entry2 : Entry := ⟨2, ⟨.none, .none⟩, false⟩

/-- R173: a scheduler that has an ACTIVE unit whose votes were saved still to begin with. -/
def restored : State := choosing ⟨.idle, none, 0, none, false, [2]⟩ [entry9, entry2]

theorem witness_SchedulerChoice_saved :
    restored.mounts.get .d0 = some (disk .mounted) ∧ restored.lastEvaluating .d0 = false ∧
      restored.burstUnit .d0 (disk .mounted) = none ∧
      (restored.eligibles .d0).filter (fun e =>
        (restored.scheds.get .d0).savedUnits.contains e.unit && restored.isActive .d0 e.unit) = [] ++ entry2 :: [] ∧
      lexLt (restored.rankKey .d0 (disk .mounted) entry9) (restored.rankKey .d0 (disk .mounted) entry2) = true := by
  decide +kernel

/-- R72, R173: the unit whose votes were saved has its choice over a higher class, and then the class decides. -/
theorem test_saved_first :
    ((restored.choose .d0).attempts.q0.map Attempt.unit, ((restored.choose .d0).scheds.get .d0).savedUnits) =
        (some 2, []) ∧
      ((choosing ⟨.idle, none, 0, none, false, []⟩ [entry9, entry2]).choose .d0).attempts.q0.map Attempt.unit =
        some 9 := by decide +kernel

theorem witness_SchedulerChoice :
    (deskIn (.repairing ⟨1, 1, 1, 1⟩)).mounts.get .d0 = some (disk .mounted) ∧
      ({ deskIn (.repairing ⟨1, 1, 1, 1⟩) with
        scheds := (Quad.four Sched.start).set .d0 ⟨.waiting, some 2, 1, none, false, []⟩ } : State).lastEvaluating .d0
        = true ∧
      (choosing ⟨.idle, some 2, 2, none, false, []⟩ [entry2]).lastEvaluating .d0 = false ∧
      (choosing ⟨.idle, some 2, 2, none, false, []⟩ [entry2]).isActive .d0 2 = true ∧
      (choosing ⟨.idle, some 2, 2, none, false, []⟩ [entry2]).ctxOf .d0 2 =
        some (0, ⟨.collecting, .d0, some 2, 258, [], false⟩) ∧
      2 < (disk .mounted).snap.burst ∧
      (choosing ⟨.idle, some 2, 3, none, false, []⟩ []).burstUnit .d0 (disk .mounted) = none ∧
      ((choosing ⟨.idle, some 2, 3, none, false, []⟩ []).sweepStep .d0).eligibles .d0 = [] := by
  decide +kernel

/-- A choice between an ACTIVE unit and a higher one that has no context, with a context free, with none free, with a
request of another drive, and with the quota used up; the fallback of R76 then finds the ACTIVE unit or none. -/
theorem witness_SchedulerChoice_contexts (q : State)
    (h : q = (choosing ⟨.idle, none, 0, none, false, []⟩ [entry2, entry9]).sweepStep .d0) :
    (choosing ⟨.idle, none, 0, none, false, []⟩ [entry2, entry9]).burstUnit .d0 (disk .mounted) = none ∧
      q.eligibles .d0 = [entry2] ++ entry9 :: [] ∧ q.isActive .d0 9 = false ∧
      q.openCount .d0 < q.settings.quota.get .d0 ∧
      q.freeCtx = some 1 ∧ (∀ x, q.ctxReq.get x = none) ∧
      lexLt (q.rankKey .d0 (disk .mounted) entry9) (q.rankKey .d0 (disk .mounted) entry2) = true ∧
      (q.eligibles .d0).filter (fun x => q.isActive .d0 x.unit) = [] ++ entry2 :: [] ∧
      ({ q with ctxReq := ⟨none, some 1, none, none⟩ } : State).ctxReq.get .d1 ≠ none ∧
      ({ q with settings := { q.settings with quota := Quad.four 1 } } : State).settings.quota.get .d0 ≤
        q.openCount .d0 ∧
      (∀ x ∈ ([entry9] : List Entry), q.isActive .d0 x.unit = false) := by
  subst h
  refine ⟨by decide +kernel, by decide +kernel, by decide +kernel, by decide +kernel, by decide +kernel,
    fun x => by cases x <;> decide +kernel, ?_⟩
  decide +kernel

/-- The desk with a sweep on at a cursor, its record as it stands. -/
def sweeping (cursor : Nat) : MountRec := { disk .mounted with sweepOn := true, cursor := cursor }

def deskSweep (cursor : Nat) : State := { choosing Sched.start [] with
  mounts := ⟨some (sweeping cursor), none, none, none⟩ }

/-- R36: the sweep candidate is the first open unit from the cursor on; it is placed, or nothing is left, or another
entry is above SWEEP. -/
theorem witness_SchedulerChoice_sweep :
    (sweeping 0).sweepOn = true ∧ (deskSweep 0).mounts.get .d0 = some (sweeping 0) ∧
      (∀ e ∈ (deskSweep 0).eligibles .d0, effRank ((deskSweep 0).effOf .d0 e) ≤ 2) ∧
      (deskSweep 0).isTerminal .d0 2 = false ∧ (∀ w < 2, (deskSweep 0).isTerminal .d0 w = true) ∧
      ((deskSweep 0).demand .d0 2 .sweep).2 = .inserted ∧
      (∀ w, (sweeping 800).cursor ≤ w → w < (sweeping 800).u → (deskSweep 800).isTerminal .d0 w = true) ∧
      (∃ e ∈ (desk .mounted).eligibles .d0, 2 < effRank ((desk .mounted).effOf .d0 e)) := by
  refine ⟨rfl, rfl, by decide +kernel, by decide +kernel, by decide +kernel, by decide +kernel, fun w h1 h2 => ?_, ?_⟩
  · exact absurd h2 (Nat.not_lt_of_le h1)
  · decide +kernel

theorem test_sweep_choice :
    ((deskSweep 0).choose .d0).works.q0 = [⟨2, ⟨.none, .none⟩, true⟩] ∧
      (((deskSweep 0).choose .d0).mounts.q0.map fun m => (m.cursor, m.sweepOn)) = some (3, true) ∧
      (((deskSweep 0).choose .d0).attempts.q0.map Attempt.unit) = some 2 := by decide +kernel

/-! ### Witnesses: rests and power -/

theorem witness_RestsAndQuiet :
    (∀ d, ((resting (desk .mounted) 9).elapse 8).timer (.rest d) ≠ some 0) ∧
      0 < fd40.shedQuality ∧ fd40.shedQuality ≤ 3 ∧ (⟨none, .none, 0, 3⟩ : Rest).weakRun + 1 = fd40.shedCount ∧
      (⟨none, .none, 0, 2⟩ : Rest).weakRun + 1 ≠ fd40.shedCount ∧ calm.due = none ∧ calm.timer (.rest .d0) = none ∧
      calm.timer .quiet = none ∧
      (∀ k ∈ [0, 9], (resting calm k).due = none ∧ (resting calm k).timer (.rest .d0) = some k ∧
        (resting (desk .mounted) k).noneBefore k = true ∧ (resting (desk .mounted) k).due = none ∧
        (resting (desk .mounted) k).timer (.rest .d0) = some k ∧
        ({ resting calm 8 with power := { calm.power with quiet := some k } } : State).due = none ∧
        ({ resting calm 8 with power := { calm.power with quiet := some k } } : State).timer .quiet = some k) ∧
      ({ resting calm 8 with power := { calm.power with quiet := some 9 } } : State).timer (.rest .d0) = some 8 ∧
      (resting (onWire calm .probe false false (some 2) none) 9).due = none ∧
      (resting (onWire calm .probe false false (some 2) none) 9).timer .ack = some 2 ∧
      ({ calm with power := { calm.power with quiet := some 2 } } : State).noneBefore 2 = true :=
  ⟨fun d => by cases d <;> decide +kernel, by decide +kernel⟩

/-- R110: a shed at level 3 rests 16,000 ms for a base of 2,000, and a longer HOLD stays in charge. -/
theorem test_shed :
    (({ desk .mounted with rests := Quad.four ⟨none, .none, 3, 3⟩ } : State).reportQuality .d0 (disk .mounted)
        0).rests.q0 =
        ⟨some 16000, .shed, 3, 0⟩ ∧
      (({ desk .mounted with rests := Quad.four ⟨some 50000, .hold, 0, 3⟩ } : State).reportQuality .d0 (disk .mounted)
        0).rests.q0 = ⟨some 50000, .hold, 1, 0⟩ := by decide +kernel

/-- A part that is SAVING with an image. -/
def savingPart : State := { inPower calm .saving with saved := some calm.image }

theorem witness_SavingAndWaking :
    (inPower calm .entering).power.state = .entering ∧ (inPower calm .entering).settled = true ∧
      (inPower calm .entering).due = some .enterSaving ∧
      (inPower (desk .unmounting) .entering).due ≠ some .enterSaving ∧
      calm.power.state ≠ .entering ∧ calm.due = none ∧ calm.power.state ≠ .saving ∧ savingPart.due = none ∧
      savingPart.power.state = .saving ∧ savingPart.saved = some calm.image ∧
      66060288 + calm.image.body.length + 8 ≤ 67108864 ∧ asleep.power.state = .dormant ∧
      asleep.power.wakeTimer = some 5000 ∧ asleep.noneBefore 5000 = true ∧
      calm.power.wakeTimer = none := by
  decide +kernel

/-- R170: a fault whose link-clear pattern is still to be sent keeps the part in ENTERING. -/
theorem test_clearing_unsettled :
    ({ inPower calm .entering with link := ⟨none, true, .d3⟩ } : State).settled = false := by decide +kernel

/-- A part that restores, its save area holding an image of no bytes and the CRC-32 of its length field. -/
def restoring : State := { inPower savingPart .restoring with
  store := [(66060292, 0x1C), (66060293, 0xDF), (66060294, 0x44), (66060295, 0x21)] }

theorem witness_RestoreCheck :
    calm.power.state ≠ .restoring ∧ restoring.power.state = .restoring ∧
      (∃ c ∈ ([(67108864, 1)] : List Host.Cell), 67108864 ≤ c.1) ∧
      (∀ c ∈ ([] : List Host.Cell), c.1 < 67108864) ∧ restoring.saved = some calm.image ∧
      imageMatches restoring.store = true ∧ imageMatches (restoring.store.drop 1) = false ∧
      imageMatches [(66060288, 0xF9), (66060289, 0xFF), (66060290, 0x0F)] = false := by
  refine ⟨by decide, rfl, ⟨_, .head _, Nat.le_refl _⟩, by simp, rfl, by decide +kernel, by decide +kernel,
    by decide +kernel⟩

/-! ### Witnesses: the profile bus -/

/-- A part whose loader stands at a stage. -/
def loading (g : LoadStage) : State := { calm with loader := { calm.loader with stage := g, records := 1, m := 2 } }

theorem witness_LoaderReads :
    (∀ g ∈ [LoadStage.marker, .count, .record 0, .settingsMarker, .settingsCount, .setting 1, .idle],
      (loading g).due = none ∧ (loading g).loader.stage = g) ∧
      settingRange 0x26 = some (1, 3600) ∧ settingRange 0x27 = none ∧
      (∀ i, (loading .marker).loader.stage ≠ .record i) ∧ ∀ j, (loading .marker).loader.stage ≠ .setting j :=
  ⟨by decide +kernel, by decide +kernel, by decide +kernel, by simp [loading], by simp [loading]⟩

/-- A part whose profile write stands at a stage, its last acknowledge at time 5. -/
def writing (g : WriteStage) (now : Nat) : State := { calm with
  now := now, loader := { calm.loader with write := g, writeAcked := 5 } }

theorem witness_ProfileWriteRows :
    (writing .transfer 9).due = none ∧ (writing .polling 29).due = none ∧ (writing .spacing 9).due = none ∧
      (writing .idle 9).due = none ∧ (writing .polling 30).due = none ∧
      25 ≤ (writing .polling 30).now - (writing .polling 30).loader.writeAcked ∧
      (writing .polling 29).now - (writing .polling 29).loader.writeAcked < 25 := by decide +kernel

/-! ### Witnesses: every step -/

/-- The desk with a RST waiting. -/
def resetNext : State := { desk .mounted with pending := [.rstPin], store := [(5, 1)] }

theorem witness_CanonicalStep : resetNext.canonical = true ∧ ∃ t, step resetNext = .next t :=
  ⟨by decide +kernel, _, rfl⟩

theorem witness_SoundStep :
    resetNext.restsSound = true ∧ resetNext.listsBounded = true ∧ resetNext.tablesBounded = true ∧
      resetNext.linkSound = true ∧ ∃ t, step resetNext = .next t :=
  ⟨by decide +kernel, by decide +kernel, by decide +kernel, by decide +kernel, _, rfl⟩

theorem witness_StoreKept :
    (∃ t, exec .rstPin resetNext = .next t) ∧ Instr.rstPin ≠ .powerOn ∧ (∀ k, Instr.rstPin ≠ .storeWriteComplete k) ∧
      Instr.rstPin ≠ .saveImageWriteComplete ∧ ∀ lost, Instr.rstPin ≠ .restoreCheckEnd lost :=
  ⟨⟨_, rfl⟩, by simp, by simp, by simp, by simp⟩

end Sys2Proof.Tests
end

section
/-! R5: PROFILE QUERY. First the refusals of R123 and R124 that a frame with a good check can still meet, for every
request; then the answer of a ready port; then the statement. -/
namespace Sys2Proof.Machine

variable (s : State)

/-! ### Refusals after the frame check -/

/-- R123, test 4: a request of the right length that the state of the moment does not accept. -/
theorem State.validate_notReady {c : ReqCode} {tag : Byte} {ps : List Byte} (hl : c.lengthOk ps = true)
    (ha : s.accepts c = false) : s.validate c.byte (Frame.good c.byte tag ps) = .error .notReady := by
  have hp : (Frame.good c.byte tag ps).params = ps := rfl
  simp [State.validate, Frame.good_crcOk, ReqCode.ofByte?_byte, hp, hl, ha]

/-- R123, test 5: an accepted request with a parameter out of its range. -/
theorem State.validate_badParam {c : ReqCode} {tag : Byte} {ps : List Byte} (hl : c.lengthOk ps = true)
    (ha : s.accepts c = true) (hr : c.rangesOk ps = false) :
    s.validate c.byte (Frame.good c.byte tag ps) = .error .badParam := by
  have hp : (Frame.good c.byte tag ps).params = ps := rfl
  simp [State.validate, Frame.good_crcOk, ReqCode.ofByte?_byte, hp, hl, ha, hr]

/-- R124: while a loader run goes on, a part in ACTIVE or QUIET accepts IDENTIFY and STATUS alone. -/
theorem State.accepts_eq_false_of_run {s : State} (hp : s.power.state = .active ∨ s.power.state = .quiet)
    (hl : s.loader.stage ≠ .idle) {c : ReqCode} (hi : c ≠ .identify) (ht : c ≠ .status) : s.accepts c = false := by
  rcases hp with hp | hp <;> simp [State.accepts, hp, hl, hi, ht]

/-- A request that the state of the moment does not accept is answered NOT_READY, and nothing else changes. -/
theorem State.frame_notReady {s : State} {p : PortId} (h : s.takes p) {c : ReqCode} (tag : Byte) {ps : List Byte}
    (hl : c.lengthOk ps = true) (ha : s.accepts c = false) :
    s.catchUp.frameArrives p c.byte (Frame.good c.byte tag ps) = s.answered p ps.length .notReady tag [] := by
  rw [State.frame_refused h (s.validate_notReady hl ha)]
  exact s.framed_answer p _ _ _ rfl []

/-- On a port that is ready a parameter out of its range is answered BAD_PARAM. -/
theorem State.frame_badParam {s : State} {p : PortId} (h : s.ready p) {c : ReqCode} (tag : Byte) {ps : List Byte}
    (hl : c.lengthOk ps = true) (hr : c.rangesOk ps = false) :
    s.catchUp.frameArrives p c.byte (Frame.good c.byte tag ps) =
      (s.framed p ps.length).answer p c.byte (Frame.good c.byte tag ps) .badParam [] :=
  State.frame_refused (State.ready_takes h) (s.validate_badParam hl (State.ready_accepts h c) hr)

/-- An answer, captured or not, leaves the Profile Table alone. -/
@[simp] theorem State.answer_table (p : PortId) (code : Byte) (f : Frame) (st : Status) (payload : List Byte) :
    (s.answer p code f st payload).table = s.table := by
  unfold State.answer State.respond
  rw [State.setPort_table]
  split
  · rw [State.captureRefusal_frame]
  · rfl

/-! ### PROFILE QUERY -/

theorem exec_profileQuery_good (p : PortId) (tag : Byte) (ps : List Byte) :
    exec (.profileQuery p (Frame.good 0x08 tag ps)) s =
      .next (s.catchUp.frameArrives p ReqCode.profileQuery.byte
        (Frame.good ReqCode.profileQuery.byte tag ps)) := rfl

theorem profileQuery_rangesOk (b : Byte) : ReqCode.profileQuery.rangesOk [b] = decide (b.toNat ≤ 15) := rfl

/-- On a port that is ready, a slot from 0 to 15 is answered with its contents, and nothing else changes. -/
theorem State.profileQuery_ready {s : State} {p : PortId} (h : s.ready p) (tag : Byte) {b : Byte}
    (hb : b.toNat ≤ 15) :
    exec (.profileQuery p (Frame.good 0x08 tag [b])) s =
      .next (s.answered p 1 .ok tag (s.table.getD b.toNat .empty).payload) := by
  have hr : ReqCode.profileQuery.rangesOk [b] = true := by rw [profileQuery_rangesOk]; exact decide_eq_true hb
  have hc : (s.framed p 1).carry p .profileQuery [b] =
      (s.framed p 1, .reply .ok (s.table.getD b.toNat .empty).payload) := rfl
  rw [exec_profileQuery_good, State.frame_ready h tag rfl hr, List.length_singleton, hc, Handled.deliver_reply,
    State.framed_answer _ _ _ _ _ rfl]
  rfl

end Sys2Proof.Machine

namespace Sys2Proof.Proofs
open Sys2Proof.Machine

/-- Settles O10: the three cases of R123's tests for PROFILE QUERY. The parameter is in range, it is not, or the request
comes while a loader run goes on. -/
theorem profileQuery : Obligations.ProfileQuery := by
  unfold Obligations.ProfileQuery
  intro p tag b s
  refine ⟨fun h hb => ?inRange, fun h hb => ?outOfRange, fun h hp hl => ?loaderRun⟩
  case inRange =>
    rw [State.profileQuery_ready h tag hb]
    cases s.table.getD b.toNat .empty <;> rfl
  case outOfRange =>
    have hr : ReqCode.profileQuery.rangesOk [b] = false := by
      rw [profileQuery_rangesOk]; exact decide_eq_false (Nat.not_le_of_lt hb)
    rw [exec_profileQuery_good, State.frame_badParam h tag rfl hr]
    refine ⟨_, rfl, s.answer_ports p _ _ _ _ _, ?_⟩
    rw [State.answer_table]
    rfl
  case loaderRun =>
    have ha := State.accepts_eq_false_of_run hp hl (c := .profileQuery) (by decide) (by decide)
    rw [exec_profileQuery_good, State.frame_notReady h tag rfl ha]
    rfl

end Sys2Proof.Proofs
end

section
/-! R128 and R127: IDENTIFY and SET PORT OPTIONS. For each the request's own facts, its answer where it is accepted,
and the statement; the refusals are those of R123 and R124 proved above for every request. -/
namespace Sys2Proof.Machine

variable (s : State)

/-! ### One byte of a payload -/

@[simp] theorem leBytes_one (n : Nat) : leBytes 1 n = [BitVec.ofNat 8 n] := rfl

theorem leBytes_one_toNat (b : Byte) : leBytes 1 b.toNat = [b] := by simp

/-! ### IDENTIFY -/

theorem exec_identify_good (p : PortId) (tag : Byte) (ps : List Byte) :
    exec (.identify p (Frame.good 0x01 tag ps)) s =
      .next (s.catchUp.frameArrives p ReqCode.identify.byte (Frame.good ReqCode.identify.byte tag ps)) := rfl

/-- R124: IDENTIFY is accepted in every power state but DORMANT, a loader run or not. -/
theorem State.accepts_identify {s : State} (h : s.power.state ≠ .dormant) : s.accepts .identify = true := by
  unfold State.accepts
  cases hp : s.power.state with
  | dormant => exact absurd hp h
  | active | quiet | entering | saving | restoring => simp

/-- The payload of IDENTIFY byte by byte: the three codes, the count of VALID slots, the four link states. -/
theorem State.identifyPayload_eq :
    s.identifyPayload =
      [0x2E, 0x30, 0x00, 1, BitVec.ofNat 8 (s.table.filter Slot.isValid).length,
        BitVec.ofNat 8 (s.drives.get .d0).link.code, BitVec.ofNat 8 (s.drives.get .d1).link.code,
        BitVec.ofNat 8 (s.drives.get .d2).link.code, BitVec.ofNat 8 (s.drives.get .d3).link.code] := rfl

/-- IDENTIFY is answered with its payload, and nothing but the port changes. -/
theorem State.identify_takes {s : State} {p : PortId} (h : s.takes p) (tag : Byte) :
    exec (.identify p (Frame.good 0x01 tag [])) s = .next (s.answered p 0 .ok tag s.identifyPayload) := by
  have hc : (s.framed p 0).carry p .identify [] = (s.framed p 0, .reply .ok s.identifyPayload) := rfl
  rw [exec_identify_good, State.frame_accepted h tag rfl (State.accepts_identify h.2.1) rfl, List.length_nil, hc,
    Handled.deliver_reply, State.framed_answer _ _ _ _ _ rfl]
  rfl

/-! ### SET PORT OPTIONS -/

theorem exec_setPortOptions_good (p : PortId) (tag : Byte) (ps : List Byte) :
    exec (.setPortOptions p (Frame.good 0x03 tag ps)) s =
      .next (s.catchUp.frameArrives p ReqCode.setPortOptions.byte
        (Frame.good ReqCode.setPortOptions.byte tag ps)) := rfl

theorem setPortOptions_rangesOk (prio limit : Byte) :
    ReqCode.setPortOptions.rangesOk [prio, limit] = decide (prio.toNat ≤ 1) := rfl

theorem toNat_beq_one (b : Byte) : (b.toNat == 1) = decide (b = 1) := by
  rw [Bool.beq_eq_decide_eq]
  exact decide_eq_decide.mpr (BitVec.toNat_inj (y := 1))

/-- A priority of 0 or 1 is the byte of its own flag. -/
theorem ofNat_flag_eq_one {b : Byte} (h : b.toNat ≤ 1) : BitVec.ofNat 8 (flag (decide (b = 1))) = b := by
  obtain rfl | rfl : b = 0 ∨ b = 1 := by bv_omega
  · rfl
  · rfl

/-- SET PORT OPTIONS sets both options of its port, lets the schedulers follow, and answers with the two bytes. -/
theorem State.carry_setPortOptions (p : PortId) {prio : Byte} (limit : Byte) (hp : prio.toNat ≤ 1) :
    s.carry p .setPortOptions [prio, limit] =
      ((s.setOptions p ⟨decide (prio = 1), limit.toNat⟩).settle s, .reply .ok [prio, limit]) := by
  have hc : s.carry p .setPortOptions [prio, limit] =
      s.doSetPortOptions p (prio.toNat == 1) limit.toNat := rfl
  rw [hc, State.doSetPortOptions, toNat_beq_one, leBytes_one, ofNat_flag_eq_one hp, leBytes_one_toNat]
  rfl

/-- On a port that is ready a priority of 0 or 1 is taken: the options are set and the answer is pending. -/
theorem State.setPortOptions_ready {s : State} {p : PortId} (h : s.ready p) (tag limit : Byte) {prio : Byte}
    (hp : prio.toNat ≤ 1) :
    exec (.setPortOptions p (Frame.good 0x03 tag [prio, limit])) s =
      .next ((((s.framed p 2).setOptions p ⟨decide (prio = 1), limit.toNat⟩).settle (s.framed p 2)).respond p .ok tag
        [prio, limit]) := by
  have hr : ReqCode.setPortOptions.rangesOk [prio, limit] = true := by
    rw [setPortOptions_rangesOk]; exact decide_eq_true hp
  have hn : [prio, limit].length = 2 := rfl
  rw [exec_setPortOptions_good, State.frame_ready h tag rfl hr, hn, State.carry_setPortOptions _ p limit hp,
    Handled.deliver_reply, State.answer_uncaptured _ _ _ _ rfl]
  rfl

/-- What the schedulers do once options are set shows in no field of the host view: only the port and its options
change there. -/
theorem State.setOptions_settle_respond_host (p : PortId) (n : Nat) (o : PortOptions) (b : State) (st : Status)
    (tag : Byte) (payload : List Byte) :
    ((((s.framed p n).setOptions p o).settle b).respond p st tag payload).host =
      { (s.answered p n st tag payload).host with options := s.options.set p o } := by
  rw [State.respond_host, State.settle_host, State.settle_ports, ← State.framed_respond]
  rfl

/-- An answer, captured or not, leaves the options of both ports alone. -/
@[simp] theorem State.answer_options (p : PortId) (code : Byte) (f : Frame) (st : Status) (payload : List Byte) :
    (s.answer p code f st payload).options = s.options := by
  unfold State.answer State.respond
  rw [State.setPort_options]
  split
  · rw [State.captureRefusal_frame]
  · rfl

end Sys2Proof.Machine

namespace Sys2Proof.Proofs
open Sys2Proof.Machine

/-- Settles O6: a part that takes the request accepts IDENTIFY in any state, and its payload is the bytes of R128. -/
theorem identifyAnswer : Obligations.IdentifyAnswer := by
  unfold Obligations.IdentifyAnswer
  intro p tag s h
  rw [State.identify_takes h tag, State.identifyPayload_eq]

/-- Settles O8: the three cases of R123's tests for SET PORT OPTIONS. The priority is in range, it is not, or the
request comes while a loader run goes on. -/
theorem setPortOptions : Obligations.SetPortOptions := by
  unfold Obligations.SetPortOptions
  intro p tag prio limit s
  refine ⟨fun h hp => ?inRange, fun h hp => ?outOfRange, fun h hs hl => ?loaderRun⟩
  case inRange =>
    exact ⟨_, State.setPortOptions_ready h tag limit hp, s.setOptions_settle_respond_host p 2 _ _ _ _ _, rfl⟩
  case outOfRange =>
    have hr : ReqCode.setPortOptions.rangesOk [prio, limit] = false := by
      rw [setPortOptions_rangesOk]; exact decide_eq_false (Nat.not_le_of_lt hp)
    rw [exec_setPortOptions_good, State.frame_badParam h tag rfl hr]
    exact ⟨_, rfl, s.answer_ports p _ _ _ _ _, State.answer_options _ _ _ _ _ _⟩
  case loaderRun =>
    have ha := State.accepts_eq_false_of_run hs hl (c := .setPortOptions) (by decide) (by decide)
    rw [exec_setPortOptions_good, State.frame_notReady h tag rfl ha]
    rfl

end Sys2Proof.Proofs
end

section
/-! R153: READ EVENTS, CLEAR EVENTS and SET MASK. First what holds of every request that is answered at once and of
every refusal that is captured; then the three requests; then the statement. -/
namespace Sys2Proof.Machine

variable (s : State)

/-! ### Requests on a ready port -/

/-- The frame of any request with a good check completes on its port. -/
theorem exec_command_good (c : ReqCode) (p : PortId) (tag : Byte) (ps : List Byte) :
    exec (c.command p (Frame.good c.byte tag ps)) s =
      .next (s.catchUp.frameArrives p c.byte (Frame.good c.byte tag ps)) := by
  cases c <;> rfl

/-- A request whose owning block takes the part to `v` and replies OK with a payload, on a port that is ready. -/
theorem State.command_replies {s v : State} {p : PortId} (h : s.ready p) {c : ReqCode} (tag : Byte)
    {ps payload : List Byte} (hl : c.lengthOk ps = true) (hr : c.rangesOk ps = true)
    (hc : (s.framed p ps.length).carry p c ps = (v.framed p ps.length, .reply .ok payload)) :
    exec (c.command p (Frame.good c.byte tag ps)) s = .next (v.answered p ps.length .ok tag payload) := by
  rw [exec_command_good, State.frame_ready h tag hl hr, hc, Handled.deliver_reply, State.framed_answer _ _ _ _ _ rfl]
  rfl

/-- A request with a parameter out of its range, on a port that is ready. -/
theorem State.command_badParam {s : State} {p : PortId} (h : s.ready p) {c : ReqCode} (tag : Byte) {ps : List Byte}
    (hl : c.lengthOk ps = true) (hr : c.rangesOk ps = false) :
    exec (c.command p (Frame.good c.byte tag ps)) s =
      .next ((s.framed p ps.length).answer p c.byte (Frame.good c.byte tag ps) .badParam []) := by
  rw [exec_command_good, State.frame_badParam h tag hl hr]

/-! ### The event flags after a refusal -/

/-- R154: a capture raises PORT_ERROR on its port where the record was free, and no other flag. -/
theorem State.captureRefusal_events (p : PortId) (st : Status) (code tag : Byte) (ps : List Byte) :
    (s.captureRefusal p st code tag ps).events =
      s.events.set p { s.events.get p with
        raw := (s.events.get p).raw ||| (if s.errors.get p = none then Event.portError.bit else 0) } := by
  unfold State.captureRefusal
  cases hc : s.errors.get p with
  | none => rfl
  | some c => exact (Pair.set_self s.events p _ (by simp)).symm

/-- The event flags after a refusal with one of the five captured statuses. -/
theorem State.answer_captured_events (p : PortId) (code : Byte) (f : Frame) {st : Status} (h : st.captured = true)
    (payload : List Byte) :
    (s.answer p code f st payload).events =
      s.events.set p { s.events.get p with
        raw := (s.events.get p).raw ||| (if s.errors.get p = none then Event.portError.bit else 0) } := by
  rw [← State.captureRefusal_events s p st code f.tag f.params, State.answer, if_pos h]
  rfl

/-! ### READ EVENTS, CLEAR EVENTS, SET MASK -/

/-- READ EVENTS answers with the flags and the enabled flags, and nothing else changes. -/
theorem State.readEvents_ready {s : State} {p : PortId} (h : s.ready p) (tag : Byte) :
    exec (.readEvents p (Frame.good 0x30 tag [])) s =
      .next (s.answered p 0 .ok tag (leBytes 2 (s.events.get p).raw.toNat ++
        leBytes 2 ((s.events.get p).raw &&& (s.events.get p).mask).toNat)) :=
  State.command_replies h (c := .readEvents) tag rfl rfl rfl

/-- The set that CLEAR EVENTS or SET MASK carries reads back. -/
theorem leField_leBytes2_self {set : Nat} (h : set < 65536) : leField (leBytes 2 set) 2 0 = set := by
  simpa using leField_leBytes2 set h []

theorem clearEvents_rangesOk {set : Nat} (h : set < 65536) :
    ReqCode.clearEvents.rangesOk (leBytes 2 set) = decide (set < 8192) := by
  rw [ReqCode.rangesOk, leField_leBytes2_self h]

theorem setMask_rangesOk {set : Nat} (h : set < 65536) :
    ReqCode.setMask.rangesOk (leBytes 2 set) = decide (set < 8192) := by
  rw [ReqCode.rangesOk, leField_leBytes2_self h]

/-- CLEAR EVENTS with a set of known positions clears those flags of its port. -/
theorem State.clearEvents_ready {s : State} {p : PortId} (h : s.ready p) (tag : Byte) {set : Nat} (hs : set < 8192) :
    exec (.clearEvents p (Frame.good 0x31 tag (leBytes 2 set))) s =
      .next ((s.setEvents p
        { s.events.get p with raw := (s.events.get p).raw &&& ~~~(BitVec.ofNat 13 set) }).answered p 2 .ok tag
          (leBytes 2 ((s.events.get p).raw &&& ~~~(BitVec.ofNat 13 set)).toNat)) := by
  have hw : set < 65536 := by omega
  refine State.command_replies h (c := .clearEvents) tag rfl ?_ ?_
  · rw [clearEvents_rangesOk hw]; exact decide_eq_true hs
  · rw [State.carry, leField_leBytes2_self hw]; rfl

/-- SET MASK with a set of known positions replaces the mask of its port. -/
theorem State.setMask_ready {s : State} {p : PortId} (h : s.ready p) (tag : Byte) {set : Nat} (hs : set < 8192) :
    exec (.setMask p (Frame.good 0x32 tag (leBytes 2 set))) s =
      .next ((s.setEvents p { s.events.get p with mask := BitVec.ofNat 13 set }).answered p 2 .ok tag
        (leBytes 2 set)) := by
  have hw : set < 65536 := by omega
  have hn : (BitVec.ofNat 13 set).toNat = set := (BitVec.toNat_ofNat set 13).trans (Nat.mod_eq_of_lt hs)
  refine State.command_replies h (c := .setMask) tag rfl ?_ ?_
  · rw [setMask_rangesOk hw]; exact decide_eq_true hs
  · rw [State.carry, leField_leBytes2_self hw, State.doSetMask, hn]; rfl

end Sys2Proof.Machine

namespace Sys2Proof.Proofs
open Sys2Proof.Machine

/-- Settles O28: R153's three answers, and the refusal of a set with a position above 12, whose capture touches no flag
but PORT_ERROR of the requesting port. -/
theorem eventRequests : Obligations.EventRequests := by
  unfold Obligations.EventRequests
  intro p tag set s h hw
  refine ⟨State.readEvents_ready h tag, fun hs => ⟨State.clearEvents_ready h tag hs, State.setMask_ready h tag hs⟩,
    fun hs t ht => ?refused⟩
  case refused =>
    have hb : decide (set < 8192) = false := decide_eq_false (Nat.not_lt_of_le hs)
    have hc := State.command_badParam h (c := .clearEvents) tag rfl ((clearEvents_rangesOk hw).trans hb)
    have hm := State.command_badParam h (c := .setMask) tag rfl ((setMask_rangesOk hw).trans hb)
    obtain ⟨code, f, hf, rfl⟩ : ∃ (code : Byte) (f : Frame), f.tag = tag ∧
        (s.framed p 2).answer p code f .badParam [] = t := by
      rcases ht with ht | ht
      · exact ⟨_, _, rfl, Host.Outcome.next.inj (hc.symm.trans ht)⟩
      · exact ⟨_, _, rfl, Host.Outcome.next.inj (hm.symm.trans ht)⟩
    have he := State.answer_captured_events (s.framed p 2) p code f (st := .badParam) rfl []
    refine ⟨by rw [State.answer_ports, hf], ?_, ?_, ?_⟩
    · rw [he, Pair.get_set]; rfl
    · rw [he, Pair.get_set_other]; rfl
    · rw [he, Pair.get_set]; rfl

end Sys2Proof.Proofs
end

section
/-! R158: STATS READ and STATS WRITE. First the bytes of the counters and one counter written; then the two requests;
then the statement. -/
namespace Sys2Proof.Machine

variable (s : State)

/-! ### The bytes of all counters -/

/-- A field within one of a list of records of `m` bytes each. -/
theorem leField_flatMap {α : Type} {f : α → List Byte} {m : Nat} (hf : ∀ x, (f x).length = m) {n i : Nat}
    (hi : i + n ≤ m) (l : List α) {k : Nat} (hk : k < l.length) :
    leField (l.flatMap f) n (m * k + i) = leField (f l[k]) n i := by
  induction l generalizing k with
  | nil => exact absurd hk (Nat.not_lt_zero k)
  | cons x l ih =>
    rw [List.flatMap_cons]
    cases k with
    | zero => rw [Nat.mul_zero, Nat.zero_add, leField_append_left _ _ _ _ (by rw [hf]; exact hi)]; rfl
    | succ k =>
      have hm : m * (k + 1) + i = (f x).length + (m * k + i) := by rw [hf, Nat.mul_succ]; omega
      rw [hm, leField_append_right, ih (Nat.lt_of_succ_lt_succ hk)]
      rfl

theorem Quad.toList_getElem {α : Type} (x : Quad α) (d : DriveId) (h : d.toNat < x.toList.length) :
    x.toList[d.toNat] = x.get d := by
  cases d <;> rfl

theorem driveStats_bytes_length (x : Quad DriveStats) : (x.toList.flatMap DriveStats.bytes).length = 240 := by
  simp only [Quad.toList, List.flatMap_cons, List.flatMap_nil, List.length_append, List.length_nil,
    DriveStats.bytes_length]

theorem statsBytes_length (x : Quad DriveStats) (y : Pair (BitVec 40)) : (statsBytes x y).length = 250 := by
  rw [statsBytes, List.length_append, List.length_append, driveStats_bytes_length, leBytes_length, leBytes_length]

/-- Counter `i` of drive `d` stands at byte `60 * d + 4 * i`. -/
theorem leField_statsBytes_drive (x : Quad DriveStats) (y : Pair (BitVec 40)) (d : DriveId) {i : Nat} (hi : i < 15) :
    leField (statsBytes x y) 4 (60 * d.toNat + 4 * i) = ((x.get d).toList.getD i 0).toNat := by
  have hd4 : d.toNat < 4 := by cases d <;> decide
  have hd : d.toNat < x.toList.length := hd4
  rw [statsBytes, List.append_assoc,
    leField_append_left _ _ _ _ (by rw [driveStats_bytes_length]; omega),
    leField_flatMap DriveStats.bytes_length (by omega) _ hd, Quad.toList_getElem, DriveStats.leField_bytes _ _ hi]

/-- The bytes served to the two ports follow the counters of the drives. -/
theorem leField_statsBytes_served (x : Quad DriveStats) (y : Pair (BitVec 40)) :
    leField (statsBytes x y) 5 240 = y.a.toNat ∧ leField (statsBytes x y) 5 245 = y.b.toNat := by
  have hl := driveStats_bytes_length x
  constructor
  · have h := leField_append_right (x.toList.flatMap DriveStats.bytes)
      (leBytes 5 y.a.toNat ++ leBytes 5 y.b.toNat) 5 0
    rw [hl, leField_leBytes5 _ y.a.isLt] at h
    rw [statsBytes, List.append_assoc]
    exact h
  · have h := leField_append_right (x.toList.flatMap DriveStats.bytes ++ leBytes 5 y.a.toNat)
      (leBytes 5 y.b.toNat ++ []) 5 0
    rw [List.length_append, hl, leBytes_length, leField_leBytes5 _ y.b.isLt, List.append_nil] at h
    exact h

/-! ### One counter written -/

/-- R158: a write replaces the counter of that number in the order of R157's table. -/
theorem DriveStats.write_toList (t : DriveStats) (i : Nat) (v : BitVec 32) :
    (t.write i v).toList = t.toList.set i v := by
  rcases i with _ | _ | _ | _ | _ | _ | _ | _ | _ | _ | _ | _ | _ | _ | _ | i <;> rfl

/-- What each counter reads after a write of counter `k`. -/
theorem DriveStats.write_getD (t : DriveStats) {k : Nat} (hk : k ≤ 14) (v : BitVec 32) (i : Nat) :
    (t.write k v).toList.getD i 0 = if i = k then v else t.toList.getD i 0 := by
  have hl : k < t.toList.length := Nat.lt_succ_of_le hk
  rw [DriveStats.write_toList, List.getD_eq_getElem?_getD, List.getD_eq_getElem?_getD]
  by_cases h : i = k
  · subst h; simp [List.getElem?_set_self hl]
  · rw [List.getElem?_set_ne (Ne.symm h), if_neg h]

/-! ### STATS READ and STATS WRITE -/

/-- STATS READ answers with the bytes of all counters, and nothing else changes. -/
theorem State.statsRead_ready {s : State} {p : PortId} (h : s.ready p) (tag : Byte) :
    exec (.statsRead p (Frame.good 0x38 tag [])) s =
      .next (s.answered p 0 .ok tag (statsBytes s.stats s.served)) :=
  State.command_replies h (c := .statsRead) tag rfl rfl rfl

/-- The value that STATS WRITE carries reads back. -/
theorem leField_statsWrite (sel counter : Byte) {value : Nat} (hv : value < 1099511627776) :
    leField (sel :: counter :: leBytes 5 value) 5 2 = value := by
  rw [leField_cons, leField_cons]
  simpa using leField_leBytes5 value hv []

/-- R158: STATS WRITE names a port, or a drive with one of its counters and a value of 32 bits. -/
theorem statsWrite_rangesOk (sel counter : Byte) {value : Nat} (hv : value < 1099511627776) :
    ReqCode.statsWrite.rangesOk (sel :: counter :: leBytes 5 value) =
      decide (sel.toNat ≤ 5 ∧ (4 ≤ sel.toNat ∨ (counter.toNat ≤ 14 ∧ value < 4294967296))) := by
  have hr : ReqCode.statsWrite.rangesOk (sel :: counter :: leBytes 5 value) =
      (decide (sel.toNat ≤ 5) && (decide (4 ≤ sel.toNat) || (decide (counter.toNat ≤ 14) &&
        decide (leField (sel :: counter :: leBytes 5 value) 5 2 < 4294967296)))) := rfl
  rw [hr, leField_statsWrite sel counter hv, Bool.decide_and, Bool.decide_or, Bool.decide_and]

theorem State.carry_statsWrite (p : PortId) (sel counter : Byte) {value : Nat} (hv : value < 1099511627776) :
    s.carry p .statsWrite (sel :: counter :: leBytes 5 value) = s.doStatsWrite sel.toNat counter.toNat value := by
  rw [State.carry, leField_statsWrite sel counter hv]
  rfl

theorem DriveId.param_toNat (d : DriveId) : d.param.toNat = d.toNat := by cases d <;> rfl

theorem State.doStatsWrite_drive (d : DriveId) (counter v : Nat) :
    s.doStatsWrite d.param.toNat counter v =
      (s.setStats d ((s.stats.get d).write counter (BitVec.ofNat 32 v)), .reply .ok (leBytes 5 v)) := by
  rw [State.doStatsWrite, DriveId.param_toNat, DriveId.ofNat?_toNat]

/-- The parameter byte by which STATS WRITE names a port. -/
theorem State.doStatsWrite_port (q : PortId) (counter v : Nat) :
    s.doStatsWrite (if q = .a then 4 else 5 : Byte).toNat counter v =
      (s.setServed q v, .reply .ok (leBytes 5 v)) := by
  cases q <;> rfl

/-- STATS WRITE to a counter of a drive, with a value that fits. -/
theorem State.statsWrite_drive_ready {s : State} {p : PortId} (h : s.ready p) (tag : Byte) (d : DriveId)
    {counter : Byte} (hc : counter.toNat ≤ 14) {value : Nat} (hv : value < 4294967296) :
    exec (.statsWrite p (Frame.good 0x39 tag (d.param :: counter :: leBytes 5 value))) s =
      .next ((s.setStats d ((s.stats.get d).write counter.toNat (BitVec.ofNat 32 value))).answered p 7 .ok tag
        (leBytes 5 value)) := by
  have hw : value < 1099511627776 := by omega
  have hd : d.param.toNat ≤ 5 := by cases d <;> decide
  refine State.command_replies h (c := .statsWrite) tag rfl ?_ ?_
  · rw [statsWrite_rangesOk _ _ hw]; exact decide_eq_true ⟨hd, Or.inr ⟨hc, hv⟩⟩
  · rw [State.carry_statsWrite _ _ _ _ hw, State.doStatsWrite_drive]; rfl

/-- STATS WRITE to the bytes served to a port, whatever the counter byte. -/
theorem State.statsWrite_port_ready {s : State} {p : PortId} (h : s.ready p) (tag : Byte) (q : PortId)
    (counter : Byte) {value : Nat} (hv : value < 1099511627776) :
    exec (.statsWrite p (Frame.good 0x39 tag ((if q = .a then 4 else 5) :: counter :: leBytes 5 value))) s =
      .next ((s.setServed q value).answered p 7 .ok tag (leBytes 5 value)) := by
  refine State.command_replies h (c := .statsWrite) tag rfl ?_ ?_
  · rw [statsWrite_rangesOk _ _ hv]
    exact decide_eq_true (by cases q <;> exact ⟨by decide, Or.inl (by decide)⟩)
  · rw [State.carry_statsWrite _ _ _ _ hv, State.doStatsWrite_port]; rfl

/-- An answer, captured or not, leaves the counters and the bytes served alone. -/
theorem State.answer_stats_served (p : PortId) (code : Byte) (f : Frame) (st : Status) (payload : List Byte) :
    (s.answer p code f st payload).stats = s.stats ∧ (s.answer p code f st payload).served = s.served := by
  unfold State.answer State.respond
  rw [State.setPort_stats, State.setPort_served]
  split
  · rw [State.captureRefusal_frame]; exact ⟨rfl, rfl⟩
  · exact ⟨rfl, rfl⟩

/-- STATS WRITE that names no counter, or whose value does not fit, is answered BAD_PARAM and writes no counter. -/
theorem State.statsWrite_refused {s : State} {p : PortId} (h : s.ready p) (tag : Byte) {sel counter : Byte}
    {value : Nat} (hv : value < 1099511627776)
    (hr : ¬(sel.toNat ≤ 5 ∧ (4 ≤ sel.toNat ∨ (counter.toNat ≤ 14 ∧ value < 4294967296)))) :
    ∃ t : State, exec (.statsWrite p (Frame.good 0x39 tag (sel :: counter :: leBytes 5 value))) s = .next t ∧
      t.ports = s.ports.set p ((s.ports.get p).answered 7 .badParam tag []) ∧ t.stats = s.stats ∧
      t.served = s.served :=
  ⟨_, State.command_badParam h (c := .statsWrite) tag rfl
      ((statsWrite_rangesOk sel counter hv).trans (decide_eq_false hr)),
    State.answer_ports s p _ _ _ _ _, State.answer_stats_served _ _ _ _ _ _⟩

end Sys2Proof.Machine

namespace Sys2Proof.Proofs
open Sys2Proof.Machine

/-- Settles O31: the bytes of STATS READ, STATS WRITE to a drive's counter and to a port's, and its refusals, for a
drive and for a selection that names nothing. -/
theorem statsRequests : Obligations.StatsRequests := by
  unfold Obligations.StatsRequests
  intro p tag counter value s h hv
  refine ⟨?read, fun d hc hf => ?driveCounter, fun q => State.statsWrite_port_ready h tag q counter hv,
    fun d hx => ?driveRefused, fun sel hx => State.statsWrite_refused h tag hv fun ⟨hs, _⟩ => Nat.not_lt_of_le hs hx⟩
  case read =>
    exact ⟨_, State.statsRead_ready h tag, statsBytes_length _ _,
      fun d _ hi => leField_statsBytes_drive s.stats s.served d hi, leField_statsBytes_served s.stats s.served⟩
  case driveCounter =>
    exact ⟨_, State.statsWrite_drive_ready h tag d hc hf, DriveStats.write_getD _ hc _⟩
  case driveRefused =>
    have hd : d.param.toNat < 4 := by cases d <;> decide
    obtain ⟨t, ht, hp, hs, -⟩ := State.statsWrite_refused h tag (sel := d.param) (counter := counter) hv (by omega)
    exact ⟨t, ht, hp, hs⟩

end Sys2Proof.Proofs
end

section
/-! Every step: the canonical form (R171), the bounds of the lists and tables (R27, R142), the rests (R108, R112), the
link (R93, R105) and the image store (R64, R171, R173). First what each kind of outcome keeps, then the commands that
leave the store alone, then the four that write it. -/
namespace Sys2Proof.Machine

/-! ### Outcomes -/

/-- The next state of an outcome, where it has one, keeps what `Keeps` names. -/
def OutKeeps (s : State) (o : Out) : Prop := ∀ t, o = .next t → Keeps s t

theorem OutKeeps.next {s t : State} (h : Keeps s t) : OutKeeps s (.next t) := by
  rintro u ⟨⟩; exact h

theorem OutKeeps.refused (s : State) (r : Refusal) : OutKeeps s (.refused r) := fun _ h => by cases h

theorem OutKeeps.fault (s : State) (r : Fault) : OutKeeps s (.fault r) := fun _ h => by cases h

theorem OutKeeps.after {s t : State} {o : Out} (h : Keeps s t) (ho : OutKeeps t o) : OutKeeps s o :=
  fun u hu => h.trans (ho u hu)

theorem OutKeeps.stepOut {s : State} {o : Option State} (h : KeepsStep s o) : OutKeeps s (stepOut o) := by
  cases o with
  | none => exact OutKeeps.refused s _
  | some t => exact OutKeeps.next (h t rfl)

/-- A row that comes about by itself, after the steps that are due before it. -/
theorem OutKeeps.upTo (s : State) (c : Instr) {f : State → Option State} (h : ∀ u, KeepsStep u (f u)) :
    OutKeeps s (Machine.stepOut (f (s.upTo c))) :=
  .after (State.upTo_keeps c s) (.stepOut (h _))

theorem State.onExchange_keeps (s : State) (ok : Exchange → Bool) {f : Exchange → State}
    (h : ∀ x, s.link.exchange = some x → Keeps s (f x)) : OutKeeps s (s.onExchange ok f) := by
  unfold State.onExchange
  split
  next x hx =>
    split
    · exact .next (h x hx)
    · exact .refused s _
  next => exact .refused s _

theorem State.onReply_keeps (s : State) (ok : Exchange → Bool) (g : LinkSignal) {take : Exchange → List Byte → State}
    (h : ∀ x b, Keeps s (take x b)) : OutKeeps s (s.onReply ok g take) := by
  have hset : ∀ x y, s.link.exchange = some x → Keeps s (s.setExchange y) := fun x y hx =>
    State.setExchange_keeps s y (by rw [hx]; rfl)
  cases g with
  | ack => exact s.onExchange_keeps _ fun x hx => hset x _ hx
  | hold => exact s.onExchange_keeps _ fun x hx => hset x _ hx
  | resume => exact s.onExchange_keeps _ fun x hx => hset x _ hx
  | frame b => exact s.onExchange_keeps _ fun x _ => h x b

theorem State.onTimer_keeps (s : State) (i : TimerId) {f : State → State} (h : ∀ u, Keeps u (f u)) :
    OutKeeps s (s.onTimer i f) := by
  unfold State.onTimer
  split
  next left _ =>
    split
    · exact .next ((s.pass_keeps left).trans (h _))
    · exact .refused s _
  next => exact .refused s _

theorem State.onStage_keeps (s : State) {f : LoadStage → Option State} (h : ∀ g, KeepsStep s (f g)) :
    OutKeeps s (s.onStage f) := by
  unfold State.onStage
  split
  next u hu => exact .next ((h _ u hu).trans (u.settle_keeps s))
  next => exact .refused s _

theorem State.onWrite_keeps (s : State) (g : WriteStage) {u : State} (h : Keeps s u) : OutKeeps s (s.onWrite g u) := by
  unfold State.onWrite
  split
  · exact .next (h.trans (u.settle_keeps s))
  · exact .refused s _

/-! ### The commands that leave the store alone -/

theorem State.reset_keeps (s : State) : Keeps s { State.reset with pending := s.pending, store := s.store } where
  map _ := ⟨rfl, fun _ h => by cases h⟩
  lists _ := ⟨fun d => by cases d <;> exact Nat.zero_le _, fun _ h => by cases h⟩
  tables _ := ⟨fun p => by cases p <;> exact Nat.zero_le _, fun _ h => by cases h⟩
  rests _ := fun d => by cases d <;> rfl
  link _ := fun _ => rfl
  store := rfl

theorem State.frame_keeps (s : State) (p : PortId) (c : Byte) (f : Frame) :
    OutKeeps s (.next (s.catchUp.frameArrives p c f)) :=
  .next (s.catchUp_keeps.trans (State.frameArrives_keeps _ _ _ _))

theorem State.responseRead_keeps (s : State) (p : PortId) (n : Nat) : Keeps s (s.responseRead p n) := by
  unfold State.responseRead; exact State.setPort_keeps _ _ _

theorem State.partialFrame_keeps (s : State) (p : PortId) (n : Nat) : Keeps s (s.partialFrame p n) := by
  unfold State.partialFrame; exact State.setPort_keeps _ _ _

theorem State.linkClearPatternSent_keeps (s : State) : OutKeeps s (execLinkClearPatternSent s) := by
  unfold execLinkClearPatternSent
  refine .after s.catchUp_keeps ?_
  dsimp only
  split
  · exact .next ⟨id, id, id, id, fun _ => nofun, rfl⟩
  · exact .refused _ _

theorem State.repairSearchEnd_keeps (s : State) (i : Nat) : OutKeeps s (execRepairSearchEnd i s) := by
  unfold execRepairSearchEnd
  refine .after s.catchUp_keeps ?_
  dsimp only
  split
  · split
    · exact .next ((State.endSearch_keeps _ _ _ _ _ _).trans (State.settle_keeps _ _))
    all_goals exact .refused _ _
  · exact .refused _ _

/-- Every command but the four that write the store keeps the invariants and the store. -/
theorem exec_keeps (i : Instr) (s : State) (h1 : i ≠ .powerOn) (h2 : ∀ k, i ≠ .storeWriteComplete k)
    (h3 : i ≠ .saveImageWriteComplete) (h4 : ∀ lost, i ≠ .restoreCheckEnd lost) : OutKeeps s (exec i s) := by
  have up := s.catchUp_keeps
  cases i with
  | powerOn => exact absurd rfl h1
  | storeWriteComplete k => exact absurd rfl (h2 k)
  | saveImageWriteComplete => exact absurd rfl h3
  | restoreCheckEnd lost => exact absurd rfl (h4 lost)
  | rstPin => exact .next s.reset_keeps
  | responseRead p n => exact .next (up.trans (State.responseRead_keeps _ _ _))
  | partialFrame p b => exact .next (up.trans (State.partialFrame_keeps _ _ _))
  | waitingRequestTaken p => exact .upTo s _ fun u => u.waitingStep_keeps p
  | abandonDeferredAnswer p => exact .upTo s _ fun u => u.abandonStep_keeps p
  | unmountComplete d => exact .upTo s _ fun u => u.unmountStep_keeps d
  | linkGrant => exact .upTo s _ fun u => u.linkStep_keeps
  | enterSaving => exact .upTo s _ fun u => u.savingStep_keeps
  | contextGrant => exact .stepOut s.grantStep_keeps
  | probeReply g => exact .after up (State.onReply_keeps _ _ g (State.probeReply_keeps _))
  | positionPollReply g => exact .after up (State.onReply_keeps _ _ g (State.positionPollReply_keeps _))
  | readReply g => exact .after up (State.onReply_keeps _ _ g (State.readReply_keeps _))
  | presencePollReply g => exact .after up (State.onReply_keeps _ _ g (State.presenceReply_keeps _))
  | positionAck => exact .after up (State.onExchange_keeps _ _ fun x _ => State.positionAck_keeps _ x)
  | relaxAck => exact .after up (State.onExchange_keeps _ _ fun x _ => State.relaxAck_keeps _ x)
  | pollTimerExpiry d => exact .after up (State.onTimer_keeps _ _ fun u => u.pollDue_keeps d)
  | presenceTimerExpiry d => exact .after up (State.onTimer_keeps _ _ fun u => u.presenceDue_keeps d)
  | reprobeTimerExpiry d => exact .after up (State.onTimer_keeps _ _ fun u => u.reprobeDue_keeps d)
  | noAck => exact .after up (State.onTimer_keeps _ _ State.ackOut_keeps)
  | stretchTimeout => exact .after up (State.onTimer_keeps _ _ State.holdOut_keeps)
  | linkClearPatternSent => exact s.linkClearPatternSent_keeps
  | repairSearchEnd k => exact s.repairSearchEnd_keeps k
  | restExpiry d => exact .after up (State.onTimer_keeps _ _ Keeps.refl)
  | quietTimerExpiry => exact .after up (State.onTimer_keeps _ _ State.enterQuiet_keeps)
  | wakeTimerExpiry => exact State.onTimer_keeps _ _ State.wake_keeps
  | loaderMarkerRead b =>
    unfold exec execLoaderMarkerRead
    refine .after up (State.onStage_keeps _ fun g u hu => ?_)
    cases g <;> cases hu
    exact State.markerRead_keeps _ b
  | loaderCountRead b =>
    unfold exec execLoaderCountRead
    refine .after up (State.onStage_keeps _ fun g u hu => ?_)
    cases g <;> cases hu
    exact State.countRead_keeps _ b
  | profileRecordRead bytes =>
    unfold exec execProfileRecordRead
    refine .after up (State.onStage_keeps _ fun g u hu => ?_)
    cases g <;> cases hu
    exact State.recordRead_keeps _ _ bytes
  | settingsMarkerRead b =>
    unfold exec execSettingsMarkerRead
    refine .after up (State.onStage_keeps _ fun g u hu => ?_)
    cases g <;> cases hu
    exact State.settingsMarkerRead_keeps _ b
  | settingsCountRead b =>
    unfold exec execSettingsCountRead
    refine .after up (State.onStage_keeps _ fun g u hu => ?_)
    cases g <;> cases hu
    exact State.settingsCountRead_keeps _ b
  | settingRecordRead id lo hi =>
    unfold exec execSettingRecordRead
    refine .after up (State.onStage_keeps _ fun g u hu => ?_)
    cases g <;> cases hu
    exact State.settingRead_keeps _ _ id lo hi
  | profileBusNoAck =>
    unfold exec execProfileBusNoAck
    refine .after up (State.onStage_keeps _ fun g u hu => ?_)
    cases g <;> cases hu
    all_goals exact State.busNoAck_keeps _
  | profileWriteTransferEnd a => exact .after up (State.onWrite_keeps _ _ (State.transferEnd_keeps _ a))
  | writePollEnd a => exact .after up (State.onWrite_keeps _ _ (State.writePollEnd_keeps _ a))
  | writePollSpacingExpiry => exact .after up (State.onWrite_keeps _ _ (State.nextWritePoll_keeps _))
  | _ => exact s.frame_keeps _ _ _

/-! ### The commands that write the store -/

/-- What `Keeps` says, with the store kept in its canonical form and not as it was. -/
structure KeepsForm (s t : State) : Prop where
  map : MapOk s → MapOk t
  lists : ListsOk s → ListsOk t
  tables : TablesOk s → TablesOk t
  rests : RestsOk s → RestsOk t
  link : LinkOk s → LinkOk t
  store : Memory.wf s.store = true → Memory.wf t.store = true

theorem Keeps.form {s t : State} (h : Keeps s t) : KeepsForm s t :=
  ⟨h.map, h.lists, h.tables, h.rests, h.link, fun w => by rw [h.store]; exact w⟩

theorem KeepsForm.trans {s t u : State} (h : KeepsForm s t) (g : KeepsForm t u) : KeepsForm s u :=
  ⟨g.map ∘ h.map, g.lists ∘ h.lists, g.tables ∘ h.tables, g.rests ∘ h.rests, g.link ∘ h.link, g.store ∘ h.store⟩

/-- The store replaced by one in canonical form. -/
theorem State.withStore_keepsForm (s : State) {m : Memory} (h : Memory.wf s.store = true → Memory.wf m = true) :
    KeepsForm s { s with store := m } :=
  ⟨id, id, id, id, id, h⟩

theorem State.completeStore_keepsForm (s : State) (i : Nat) (c : OpenCtx) (u : Nat) (m : MountRec) (w : StoreWork) :
    KeepsForm s (s.completeStore i c u m w) := by
  unfold State.completeStore
  dsimp only
  refine (s.withStore_keepsForm fun h => Memory.wf_writeBytes (w.data ++ w.mask) h (m.slotAddr u)).trans
    (Keeps.form ?_)
  have hcount := fun (t : State) r n =>
    ((t.enterTerminal_keeps c.drive u r).trans (State.release_keeps _ i)).trans (State.count_keeps _ c.drive n)
  split
  · split
    · exact (hcount _ _ _).trans (State.count_keeps _ _ _)
    · exact hcount _ _ _
  · exact hcount _ _ _

theorem State.imageWritten_keepsForm (s : State) (im : SaveImage) : KeepsForm s (s.imageWritten im) := by
  refine (s.withStore_keepsForm fun h => Memory.wf_writeBytes (imageBytes im.body) h Config.saveBase).trans
    (Keeps.form ?_)
  exact Keeps.frame rfl rfl rfl rfl rfl rfl rfl

theorem State.restore_keeps (s : State) {im : SaveImage} (h : s.saved = some im) : Keeps s (s.restore im) where
  map i := ⟨i.2 im h, i.2⟩
  lists i := ⟨i.2 im h, i.2⟩
  tables i := ⟨i.2 im h, i.2⟩
  rests _ := fun d => by cases d <;> rfl
  link := id
  store := rfl

theorem State.restoreCheck_keeps (s : State) : Keeps s s.restoreCheck := by
  unfold State.restoreCheck
  split
  next im h =>
    split
    · exact s.restore_keeps h
    · exact s.clearAll_keeps _
  next => exact s.clearAll_keeps _

theorem State.powerOn_keepsForm (s : State) : KeepsForm s { State.reset with pending := s.pending } :=
  s.reset_keeps.form.trans (State.withStore_keepsForm _ fun _ => rfl)

theorem State.storeWriteComplete_keepsForm {s t : State} {k : Nat} (h : execStoreWriteComplete k s = .next t) :
    KeepsForm s t := by
  unfold execStoreWriteComplete at h
  dsimp only at h
  split at h
  next c u m _ =>
    split at h
    · split at h
      · cases h
        exact (s.catchUp_keeps.form.trans (State.completeStore_keepsForm _ k c u m _)).trans (State.settle_keeps _ _).form
      · cases h
    all_goals cases h
  next => cases h

theorem State.saveImageWriteComplete_keepsForm {s t : State} (h : execSaveImageWriteComplete s = .next t) :
    KeepsForm s t := by
  unfold execSaveImageWriteComplete at h
  dsimp only at h
  split at h
  · split at h
    · cases h; exact s.catchUp_keeps.form.trans (State.imageWritten_keepsForm _ _)
    · cases h
  · cases h

theorem State.restoreCheckEnd_keepsForm {s t : State} {lost : List Host.Cell}
    (h : execRestoreCheckEnd lost s = .next t) : KeepsForm s t := by
  unfold execRestoreCheckEnd at h
  dsimp only at h
  split at h
  · split at h
    · cases h
      exact (s.withStore_keepsForm (Memory.wf_writeCells lost)).trans
        ((State.restoreCheck_keeps _).trans (State.settle_keeps _ _)).form
    · cases h
  · cases h

/-! ### Every command, and every step -/

/-- Every command keeps the invariants and the canonical form of the store. -/
theorem exec_keepsForm {i : Instr} {s t : State} (h : exec i s = .next t) : KeepsForm s t := by
  by_cases h1 : i = .powerOn
  · subst h1; cases h; exact s.powerOn_keepsForm
  by_cases h2 : ∃ k, i = .storeWriteComplete k
  · obtain ⟨k, rfl⟩ := h2; exact State.storeWriteComplete_keepsForm h
  by_cases h3 : i = .saveImageWriteComplete
  · subst h3; exact State.saveImageWriteComplete_keepsForm h
  by_cases h4 : ∃ lost, i = .restoreCheckEnd lost
  · obtain ⟨lost, rfl⟩ := h4; exact State.restoreCheckEnd_keepsForm h
  exact (exec_keeps i s h1 (not_exists.mp h2) h3 (not_exists.mp h4) t h).form

theorem State.setPending_keeps (s : State) (q : List Instr) : Keeps s { s with pending := q } :=
  Keeps.frame rfl rfl rfl rfl rfl rfl rfl

theorem State.idle_keeps (s : State) : Keeps s s.idle := by
  unfold State.idle
  split
  · exact s.setPending_keeps _
  · exact s.setPending_keeps _
  · exact s.pass_keeps 1

/-- Every step keeps the invariants and the canonical form of the store. -/
theorem step_keepsForm {s t : State} (h : step s = .next t) : KeepsForm s t := by
  unfold step at h
  split at h
  next c rest _ => exact (s.setPending_keeps rest).form.trans (exec_keepsForm h)
  next => cases h; exact s.idle_keeps.form

end Sys2Proof.Machine

namespace Sys2Proof.Proofs
open Sys2Proof.Machine

/-- Settles O58: the store and the Recovery Map, each by what every step keeps. -/
theorem canonicalStep : Obligations.CanonicalStep := by
  unfold Obligations.CanonicalStep
  intro s t hs hstep
  have k := step_keepsForm hstep
  obtain ⟨hstore, hmap⟩ := (canonical_iff s).mp hs
  exact (canonical_iff t).mpr ⟨k.store hstore, k.map hmap⟩

/-- Settles O59: the four invariants, each by what every step keeps. -/
theorem soundStep : Obligations.SoundStep := by
  unfold Obligations.SoundStep
  simp only [restsSound_iff, listsBounded_iff, tablesBounded_iff, linkSound_iff]
  intro s t hrests hlists htables hlink hstep
  have k := step_keepsForm hstep
  exact ⟨k.rests hrests, k.lists hlists, k.tables htables, k.link hlink⟩

/-- Settles O60: every command but the four keeps the store. -/
theorem storeKept : Obligations.StoreKept := by
  unfold Obligations.StoreKept
  intro i s t h h1 h2 h3 h4
  exact (exec_keeps i s h1 h2 h3 h4 t h).store

end Sys2Proof.Proofs
end

section
/-! R129 with section 12.4: STATUS. First the bytes of the part and of one drive, then where a drive's bytes stand in
the payload, then the statement. -/
namespace Sys2Proof.Machine

variable (s : State)

/-! ### Fields of a payload -/

theorem flag_le (b : Bool) : flag b ≤ 1 := by cases b <;> decide

/-- A field of two bytes reads back the low 16 bits of its value. -/
theorem leField_leBytes2_mod (v : Nat) (l : List Byte) : leField (leBytes 2 v ++ l) 2 0 = v % 65536 := by
  simp [leBytes, leField]; omega

/-- A field of four bytes reads back the low 32 bits of its value. -/
theorem leField_leBytes4_mod (v : Nat) (l : List Byte) : leField (leBytes 4 v ++ l) 4 0 = v % 4294967296 := by
  simp [leBytes, leField]; omega

/-- The field of 2 bytes behind `i` others. -/
theorem leField_at_leBytes2 {pre : List Byte} {i : Nat} (h : pre.length = i) (post : List Byte) (v : Nat) :
    leField (pre ++ (leBytes 2 v ++ post)) 2 i = v % 65536 := by
  rw [← leField_leBytes2_mod v post, ← leField_append_right pre (leBytes 2 v ++ post) 2 0, Nat.add_zero, h]

/-- The field of 4 bytes behind `i` others. -/
theorem leField_at_leBytes4 {pre : List Byte} {i : Nat} (h : pre.length = i) (post : List Byte) (v : Nat) :
    leField (pre ++ (leBytes 4 v ++ post)) 4 i = v % 4294967296 := by
  rw [← leField_leBytes4_mod v post, ← leField_append_right pre (leBytes 4 v ++ post) 4 0, Nat.add_zero, h]

/-- The field after it. -/
theorem leField_after_leBytes2 {pre : List Byte} {i : Nat} (h : pre.length = i) (post : List Byte) (v w : Nat) :
    leField (pre ++ (leBytes 2 v ++ (leBytes 2 w ++ post))) 2 (i + 2) = w % 65536 := by
  subst h
  rw [leField_append_right]
  exact leField_leBytes2_mod w post

/-- A one-byte field reads back what fits in a byte. -/
theorem ofNat8_toNat {n : Nat} (h : n < 256) : (BitVec.ofNat 8 n).toNat = n :=
  (BitVec.toNat_ofNat n 8).trans (Nat.mod_eq_of_lt h)

theorem ofNat8_toNat_mod (n : Nat) : (BitVec.ofNat 8 n).toNat = n % 256 := BitVec.toNat_ofNat n 8

theorem State.freeCount_le : s.freeCount ≤ 8 := List.length_filter_le _ s.contexts.toList

theorem State.openCount_le (d : DriveId) : s.openCount d ≤ 8 := List.length_filter_le _ s.contexts.toList

/-! ### The payload of STATUS -/

/-- The 14 bytes of the part one by one. -/
theorem State.partStatus_eq : s.partStatus =
    [BitVec.ofNat 8 s.power.state.code, BitVec.ofNat 8 (flagSet [s.loader.stage != .idle, s.loader.write != .idle]),
      BitVec.ofNat 8 (PortId.code s.loader.writePort), BitVec.ofNat 8 s.loader.outcome.code,
      BitVec.ofNat 8 (flagSet [s.loader.noMemory, s.loader.badMarker, s.loader.busFault, s.loader.noSettings,
        s.loader.overflow]),
      BitVec.ofNat 8 s.loader.records, BitVec.ofNat 8 s.loader.unknown, BitVec.ofNat 8 s.loader.clamped,
      BitVec.ofNat 8 s.freeCount] ++ leBytes 2 (largestRun 32768 s.mapExtents) ++
      leBytes 2 (largestRun 16128 s.storeExtents) ++ leBytes 1 s.power.reject.toNat := rfl

/-- The 15 bytes of a drive one by one. -/
theorem State.driveStatus_eq (d : DriveId) : s.driveStatus d =
    [BitVec.ofNat 8 (s.drives.get d).link.code, BitVec.ofNat 8 (flag (s.drives.get d).medium),
      BitVec.ofNat 8 (mountCode (s.mounts.get d)), BitVec.ofNat 8 (s.rests.get d).cause.code] ++
      leBytes 4 (s.rests.get d).left ++
      [BitVec.ofNat 8 (s.openCount d), BitVec.ofNat 8 (s.works.get d).length] ++
      leBytes 2 (((s.mounts.get d).map MountRec.terminal).getD 0) ++
      leBytes 2 (((s.mounts.get d).map MountRec.u).getD 0) ++
      [BitVec.ofNat 8 (((s.mounts.get d).map MountRec.slot).getD 255)] := rfl

/-- The two runs of free records and pages follow nine single bytes. -/
theorem State.partStatus_runs : ∃ pre : List Byte, s.partStatus = pre ++ (leBytes 2 (largestRun 32768 s.mapExtents) ++
      (leBytes 2 (largestRun 16128 s.storeExtents) ++ leBytes 1 s.power.reject.toNat)) ∧ pre.length = 9 := by
  rw [s.partStatus_eq]
  rw [List.append_assoc, List.append_assoc]
  exact ⟨_, rfl, rfl⟩

/-- What a rest has left follows four single bytes of its drive, and the terminal count and U follow ten. -/
theorem State.driveStatus_fields (d : DriveId) : (∃ pre post : List Byte,
      s.driveStatus d = pre ++ (leBytes 4 (s.rests.get d).left ++ post) ∧ pre.length = 4) ∧
    ∃ pre post : List Byte, s.driveStatus d = pre ++ (leBytes 2 (((s.mounts.get d).map MountRec.terminal).getD 0) ++
      (leBytes 2 (((s.mounts.get d).map MountRec.u).getD 0) ++ post)) ∧ pre.length = 10 := by
  rw [s.driveStatus_eq]
  constructor
  · rw [List.append_assoc, List.append_assoc, List.append_assoc, List.append_assoc]
    exact ⟨_, _, rfl, rfl⟩
  · rw [List.append_assoc, List.append_assoc]
    exact ⟨_, _, rfl, rfl⟩

theorem State.partStatus_length : s.partStatus.length = 14 := by rw [s.partStatus_eq]; rfl

theorem State.driveStatus_length (d : DriveId) : (s.driveStatus d).length = 15 := by rw [s.driveStatus_eq]; rfl

theorem State.statusPayload_length : s.statusPayload.length = 74 := by
  simp [State.statusPayload, DriveId.all, s.partStatus_length, s.driveStatus_length]

/-- The bytes of the part stand first. -/
theorem State.leField_status_part {n i : Nat} (h : i + n ≤ 14) :
    leField s.statusPayload n i = leField s.partStatus n i :=
  leField_append_left _ _ _ _ (by rw [s.partStatus_length]; exact h)

/-- The bytes of drive `d` begin at byte `14 + 15 * d`. -/
theorem State.leField_status_drive (d : DriveId) {n i : Nat} (h : i + n ≤ 15) :
    leField s.statusPayload n (14 + (15 * d.toNat + i)) = leField (s.driveStatus d) n i := by
  have hk : d.toNat < DriveId.all.length := by cases d <;> decide
  have hd : DriveId.all[d.toNat] = d := by cases d <;> rfl
  calc leField s.statusPayload n (14 + (15 * d.toNat + i))
      = leField (DriveId.all.flatMap s.driveStatus) n (15 * d.toNat + i) :=
        by rw [← s.partStatus_length]; exact leField_append_right s.partStatus _ _ _
    _ = leField (s.driveStatus d) n i := by rw [leField_flatMap s.driveStatus_length h _ hk, hd]

theorem State.byteAt_status_drive (d : DriveId) {i : Nat} (h : i < 15) :
    byteAt s.statusPayload (14 + i + 15 * d.toNat) = byteAt (s.driveStatus d) i := by
  rw [show 14 + i + 15 * d.toNat = 14 + (15 * d.toNat + i) by omega]
  exact s.leField_status_drive d (n := 1) h

theorem State.byteAt_status_part {i : Nat} (h : i < 14) : byteAt s.statusPayload i = byteAt s.partStatus i :=
  s.leField_status_part (n := 1) h

theorem State.leField_status_drive_at (d : DriveId) {n i : Nat} (h : i + n ≤ 15) :
    leField s.statusPayload n (14 + i + 15 * d.toNat) = leField (s.driveStatus d) n i := by
  rw [show 14 + i + 15 * d.toNat = 14 + (15 * d.toNat + i) by omega]
  exact s.leField_status_drive d h

theorem PowerState.code_lt (x : PowerState) : x.code < 256 := by cases x <;> decide

theorem portCode_lt (x : PortId) : PortId.code x < 256 := by cases x <;> decide

theorem WriteOutcome.code_lt (x : WriteOutcome) : x.code < 256 := by cases x <;> decide

theorem LinkState.code_lt (x : LinkState) : x.code < 256 := by cases x <;> decide

theorem RestCause.code_lt (x : RestCause) : x.code < 256 := by cases x <;> decide

theorem mountCode_lt (m : Option MountRec) : mountCode m < 256 := by
  cases m with
  | none => decide
  | some m =>
    have hp : ∀ x : MountPhase, x.code < 256 := fun x => by cases x <;> decide
    exact hp m.phase

theorem flagSet_two (a b : Bool) : flagSet [a, b] = flag a + 2 * flag b := rfl

theorem flagSet_five (a b c d e : Bool) :
    flagSet [a, b, c, d, e] = flag a + 2 * flag b + 4 * flag c + 8 * flag d + 16 * flag e := by
  simp only [flagSet]; omega

/-- STATUS is accepted in every power state but DORMANT (R124). -/
theorem State.accepts_status {s : State} (h : s.power.state ≠ .dormant) : s.accepts .status = true := by
  unfold State.accepts
  cases hp : s.power.state with
  | dormant => exact absurd hp h
  | active | quiet | entering | saving | restoring => simp

theorem State.status_takes {s : State} {p : PortId} (h : s.takes p) (tag : Byte) :
    exec (.status p (Frame.good 0x02 tag [])) s = .next (s.answered p 0 .ok tag s.statusPayload) := by
  have hc : (s.framed p 0).carry p .status [] = (s.framed p 0, .reply .ok s.statusPayload) := rfl
  have he : exec (.status p (Frame.good 0x02 tag [])) s =
      .next (s.catchUp.frameArrives p ReqCode.status.byte (Frame.good ReqCode.status.byte tag [])) := rfl
  rw [he, State.frame_accepted h tag rfl (State.accepts_status h.2.1) rfl, List.length_nil, hc,
    Handled.deliver_reply, State.framed_answer _ _ _ _ _ rfl]
  rfl

end Sys2Proof.Machine

namespace Sys2Proof.Proofs
open Sys2Proof.Machine

/-- Settles O7: the part's 14 bytes, then the 15 bytes of each drive, each field at its offset. -/
theorem statusAnswer : Obligations.StatusAnswer := by
  unfold Obligations.StatusAnswer
  intro p tag s h
  refine ⟨_, State.status_takes h tag, s.statusPayload_length, ?_⟩
  have part := fun i (hi : i < 14) => s.byteAt_status_part hi
  rw [s.partStatus_eq] at part
  refine ⟨?power, ?busy, ?writePort, ?outcome, ?faults, ?records, ?unknown, ?clamped, ?free, ?mapRun, ?storeRun,
    ?reject, fun d => ?drive⟩
  case power => exact (part 0 (by omega)).trans (ofNat8_toNat s.power.state.code_lt)
  case busy =>
    have h1 := flag_le (s.loader.stage != .idle)
    have h2 := flag_le (s.loader.write != .idle)
    exact (part 1 (by omega)).trans (ofNat8_toNat (by rw [flagSet_two]; omega))
  case writePort => exact (part 2 (by omega)).trans (ofNat8_toNat (portCode_lt s.loader.writePort))
  case outcome => exact (part 3 (by omega)).trans (ofNat8_toNat s.loader.outcome.code_lt)
  case faults =>
    have h1 := flag_le s.loader.noMemory
    have h2 := flag_le s.loader.badMarker
    have h3 := flag_le s.loader.busFault
    have h4 := flag_le s.loader.noSettings
    have h5 := flag_le s.loader.overflow
    rw [← flagSet_five]
    exact (part 4 (by omega)).trans (ofNat8_toNat (by rw [flagSet_five]; omega))
  case records => exact (part 5 (by omega)).trans (ofNat8_toNat_mod _)
  case unknown => exact (part 6 (by omega)).trans (ofNat8_toNat_mod _)
  case clamped => exact (part 7 (by omega)).trans (ofNat8_toNat_mod _)
  case free =>
    have := s.freeCount_le
    exact (part 8 (by omega)).trans (ofNat8_toNat (by omega))
  case mapRun =>
    obtain ⟨pre, hs, hl⟩ := s.partStatus_runs
    rw [s.leField_status_part (by omega), hs, leField_at_leBytes2 hl]
  case storeRun =>
    obtain ⟨pre, hs, hl⟩ := s.partStatus_runs
    rw [s.leField_status_part (by omega), hs, ← List.append_nil (leBytes 1 _), leField_after_leBytes2 hl]
  case reject =>
    have := s.power.reject.isLt
    exact (part 13 (by omega)).trans (ofNat8_toNat (by omega))
  case drive =>
    have byte := fun i (hi : i < 15) => s.byteAt_status_drive d hi
    rw [s.driveStatus_eq] at byte
    have hopen := s.openCount_le d
    obtain ⟨⟨pre, post, hrest, hpre⟩, pre', post', hunits, hpre'⟩ := s.driveStatus_fields d
    refine ⟨(byte 0 (by omega)).trans (ofNat8_toNat (s.drives.get d).link.code_lt),
      (byte 1 (by omega)).trans (ofNat8_toNat (by have := flag_le (s.drives.get d).medium; omega)),
      (byte 2 (by omega)).trans (ofNat8_toNat (mountCode_lt _)),
      (byte 3 (by omega)).trans (ofNat8_toNat (s.rests.get d).cause.code_lt), ?restLeft,
      (byte 8 (by omega)).trans (ofNat8_toNat (by omega)),
      (byte 9 (by omega)).trans (ofNat8_toNat_mod (s.works.get d).length), ?terminal, ?units,
      (byte 14 (by omega)).trans (ofNat8_toNat_mod _)⟩
    case restLeft => rw [s.leField_status_drive_at d (i := 4) (by omega), hrest, leField_at_leBytes4 hpre]
    case terminal => rw [s.leField_status_drive_at d (i := 10) (by omega), hunits, leField_at_leBytes2 hpre']
    case units =>
      rw [s.leField_status_drive_at d (i := 12) (by omega), hunits, leField_after_leBytes2 hpre']

end Sys2Proof.Proofs
end

section
/-! R130, R131 and R107: RESET. First `settle` on a part on which nothing is mounted and nothing waits, which leaves all
but the quiet timer alone; then the request and the statement. -/
namespace Sys2Proof.Machine

variable (s : State)

/-! ### A part with nothing for the schedulers to do -/

theorem State.eachDrive_of_fixed {s : State} {f : State → DriveId → State} (h : ∀ d, f s d = s) :
    s.eachDrive f = s := by
  simp only [State.eachDrive, h]

/-- Nothing is mounted, no context is asked for, no ABANDON waits, every scheduler is as R67 has it at power-on, and no
attempt waits for the link. -/
structure State.Unused (s : State) : Prop where
  mounts : ∀ d, s.mounts.get d = none
  requests : ∀ d, s.ctxReq.get d = none
  ports : ∀ p, (s.ports.get p).inProgress = none
  scheds : ∀ d, s.scheds.get d = Sched.start
  attempts : ∀ d a, s.attempts.get d = some a → a.phase.inExchange = true

theorem State.Unused.withdrawRead {s : State} (h : s.Unused) (d : DriveId) : s.withdrawRead d = s := by
  unfold State.withdrawRead
  split
  next a ha =>
    have hx := h.attempts d a ha
    have hb : s.blocked d a.phase = false := by
      cases hp : a.phase with
      | needRead | needPosition => rw [hp] at hx; cases hx
      | positionSent | moving | needPoll | pollSent | readSent => rfl
    rw [if_neg (by rw [hb]; decide)]
  next => rfl

theorem State.Unused.withdrawRequest {s : State} (h : s.Unused) (d : DriveId) : s.withdrawRequest d = s := by
  unfold State.withdrawRequest
  rw [h.requests d]

theorem State.setSched_self (d : DriveId) : s.setSched d (s.scheds.get d) = s := by
  unfold State.setSched
  rw [Quad.set_get]

theorem State.Unused.noteChoice {s : State} (h : s.Unused) (b : State) (d : DriveId) : State.noteChoice b s d = s := by
  have hr : s.runnable d = false := by simp [State.runnable, State.isMounted, h.mounts d]
  have hs : ({ s.scheds.get d with state := .stopped, owed := false } : Sched) = s.scheds.get d := by
    rw [h.scheds d]; rfl
  unfold State.noteChoice
  dsimp only
  rw [h.mounts d, hr, hs]
  simp only [Option.isSome_none, Bool.and_false, Bool.false_and, Bool.false_eq_true, if_false, Bool.not_false,
    if_true, State.setSched_self]

theorem State.Unused.makeChoice {s : State} (h : s.Unused) (d : DriveId) : s.makeChoice d = s := by
  have ho : (s.scheds.get d).owed = false := by rw [h.scheds d]; rfl
  unfold State.makeChoice
  dsimp only
  rw [if_neg (by rw [ho]; decide)]

theorem State.Unused.quietTimer {s : State} (h : s.Unused) : s.quietTimer.Unused := by
  rw [State.quietTimer_eq]
  exact ⟨h.mounts, h.requests, h.ports, h.scheds, h.attempts⟩

/-- On such a part `settle` sets the quiet timer and nothing else. -/
theorem State.Unused.settle {s : State} (h : s.Unused) (b : State) : s.settle b = s.quietTimer := by
  have hq := h.quietTimer
  unfold State.settle
  dsimp only
  rw [State.eachDrive_of_fixed hq.withdrawRead, State.eachDrive_of_fixed hq.withdrawRequest,
    State.eachDrive_of_fixed (hq.noteChoice b), State.eachDrive_of_fixed hq.makeChoice, ite_self,
    State.quietTimer_idem]

/-! ### RESET -/

theorem keptAttempt_inExchange {a : Option Attempt} {x : Attempt} (h : keptAttempt a = some x) :
    x.phase.inExchange = true := by
  unfold keptAttempt at h
  split at h
  next a =>
    split at h
    next hx => cases h; exact hx
    next => cases h
  next => cases h

/-- R124: a part in ACTIVE or QUIET with its loader idle, or in ENTERING, accepts a RESET. -/
theorem State.accepts_reset {s : State} (hl : s.loader.stage = .idle)
    (h : s.power.state = .active ∨ s.power.state = .quiet ∨ s.power.state = .entering) :
    s.accepts .reset = true := by
  rcases h with h | h | h <;> simp [State.accepts, h, hl]

/-- The part as a RESET by port `p` leaves it, before the answer and the quiet timer. -/
def State.resetBy (s : State) (p : PortId) : State :=
  (s.clearAll EventRegs.afterReset).setPort p.other (((s.clearAll EventRegs.afterReset).ports.get p.other).resetByOther)

theorem Port.resetByOther_inProgress (q : Port) : q.resetByOther.inProgress = none := by
  unfold Port.resetByOther
  split
  · assumption
  · rfl

theorem State.resetBy_unused {s : State} {p : PortId} (h : (s.ports.get p).inProgress = none) :
    (s.resetBy p).Unused where
  mounts d := by cases d <;> rfl
  requests d := by cases d <;> rfl
  ports q := by
    have hc : (((s.clearAll EventRegs.afterReset).ports).get p).inProgress = none := by
      cases p <;> exact h
    cases p <;> cases q <;> first | exact hc | exact Port.resetByOther_inProgress _
  scheds d := by cases d <;> rfl
  attempts d a ha := by
    have hk : (s.resetBy p).attempts.get d = keptAttempt (s.attempts.get d) := by cases d <;> rfl
    exact keptAttempt_inExchange (hk ▸ ha)

/-- RESET is carried out, the quiet timer follows, and OK is answered. -/
theorem State.reset_takes {s : State} {p : PortId} (h : s.takes p) (tag : Byte) (hl : s.loader.stage = .idle)
    (hp : s.power.state = .active ∨ s.power.state = .quiet ∨ s.power.state = .entering) :
    exec (.reset p (Frame.good 0x04 tag [])) s =
      .next ((((s.framed p 0).resetBy p).quietTimer).respond p .ok tag []) := by
  have hi : ((s.framed p 0).ports.get p).inProgress = none := by
    cases p <;> exact h.2.2
  have hc : (s.framed p 0).carry p .reset [] = (((s.framed p 0).resetBy p).quietTimer, .reply .ok []) := by
    rw [← (State.resetBy_unused hi).settle (s.framed p 0)]
    rfl
  have he : exec (.reset p (Frame.good 0x04 tag [])) s =
      .next (s.catchUp.frameArrives p ReqCode.reset.byte (Frame.good ReqCode.reset.byte tag [])) := rfl
  rw [he, State.frame_accepted h tag rfl (State.accepts_reset hl hp) rfl, List.length_nil, hc,
    Handled.deliver_reply, State.answer_uncaptured _ _ _ _ rfl]
  rfl

theorem EventRegs.afterReset_attention : EventRegs.afterReset.attention = true := by decide

/-- R131: the other port's response after a RESET by this one. -/
theorem Port.resetByOther_response (q : Port) : q.resetByOther.response =
    match q.inProgress, q.waiting with
    | some ip, none => some ⟨.notReady, ip.tag, []⟩
    | _, _ => q.response := by
  unfold Port.resetByOther
  cases q.inProgress <;> cases q.waiting <;> rfl

theorem Port.resetByOther_waiting (q : Port) : q.resetByOther.waiting = q.waiting := by
  unfold Port.resetByOther; split <;> rfl

theorem Port.resetByOther_cursor (q : Port) : q.resetByOther.cursor = q.cursor := by
  unfold Port.resetByOther; split <;> rfl

end Sys2Proof.Machine

namespace Sys2Proof.Proofs
open Sys2Proof.Machine

/-- Settles O9: the state after a RESET is known field by field. -/
theorem resetRequest : Obligations.ResetRequest := by
  unfold Obligations.ResetRequest
  intro p tag s h hl hp
  rw [State.reset_takes h tag hl hp, State.quietTimer_eq]
  refine ⟨_, rfl, ?_⟩
  have hr := Port.resetByOther_response (s.ports.get p.other).noCursor
  have hw := Port.resetByOther_waiting (s.ports.get p.other).noCursor
  have hi := Port.resetByOther_inProgress (s.ports.get p.other).noCursor
  have hc := Port.resetByOther_cursor (s.ports.get p.other).noCursor
  cases p <;> exact
    ⟨rfl, rfl, hc, hi, hw, hr, rfl, rfl,
      fun d => by cases d <;> exact ⟨rfl, rfl, rfl, rfl, rfl, rfl, rfl, rfl⟩,
      rfl, rfl, rfl, rfl, rfl, fun q w => by cases q <;> cases w <;> exact ⟨rfl, rfl⟩,
      fun q => by cases q <;> exact ⟨rfl, rfl, rfl, EventRegs.afterReset_attention⟩, rfl, rfl, rfl, rfl, rfl, rfl, rfl, rfl⟩

end Sys2Proof.Proofs
end

section
/-! The queue and the clock (logs 1, 3 and 5), power-on and RST (R168, R132), and the attention lines (R151, R152). -/
namespace Sys2Proof.Machine

variable (s : State)

/-! ### Rows that are due -/

/-- What is due is one of six rows, and its own condition holds. -/
theorem State.due_cases {s : State} {c : Instr} (h : s.due = some c) :
    (c = .contextGrant ∧ s.grantDue = true) ∨ (c = .linkGrant ∧ s.grantOf.isSome = true) ∨
    (∃ d, c = .unmountComplete d ∧ s.unmountDue d = true) ∨
    (∃ p, c = .abandonDeferredAnswer p ∧ s.abandonDue p = true) ∨
    (∃ p, c = .waitingRequestTaken p ∧ (s.ports.get p).waitingDue.isSome = true) ∨
    (c = .enterSaving ∧ s.savingDue = true) := by
  unfold State.due at h
  split at h
  next hg => cases h; exact .inl ⟨rfl, hg⟩
  split at h
  next hl => cases h; exact .inr (.inl ⟨rfl, hl⟩)
  split at h
  next d hd => cases h; exact .inr (.inr (.inl ⟨d, rfl, List.find?_some hd⟩))
  split at h
  next ha => cases h; exact .inr (.inr (.inr (.inl ⟨.a, rfl, ha⟩)))
  split at h
  next hb => cases h; exact .inr (.inr (.inr (.inl ⟨.b, rfl, hb⟩)))
  split at h
  next ha => cases h; exact .inr (.inr (.inr (.inr (.inl ⟨.a, rfl, ha⟩))))
  split at h
  next hb => cases h; exact .inr (.inr (.inr (.inr (.inl ⟨.b, rfl, hb⟩))))
  split at h
  next hs => cases h; exact .inr (.inr (.inr (.inr (.inr ⟨rfl, hs⟩))))
  cases h

/-- A row that is next is the step of its own kind. -/
theorem State.exec_of_due {s : State} {c : Instr} (h : s.due = some c) : exec c s = stepOut s.runDue := by
  have hup : s.upTo c = s := State.upTo_of_due (.inl h)
  unfold State.runDue
  rw [h]
  rcases State.due_cases h with ⟨rfl, -⟩ | ⟨rfl, -⟩ | ⟨d, rfl, -⟩ | ⟨p, rfl, -⟩ | ⟨p, rfl, -⟩ | ⟨rfl, -⟩
  · rfl
  · exact congrArg (fun q : State => stepOut q.linkStep) hup
  · exact congrArg (fun q : State => stepOut (q.unmountStep d)) hup
  · exact congrArg (fun q : State => stepOut (q.abandonStep p)) hup
  · exact congrArg (fun q : State => stepOut (q.waitingStep p)) hup
  · exact congrArg (fun q : State => stepOut q.savingStep) hup

/-- The commands from outside, which carry out the steps that are due before they are taken. -/
def Instr.outside : Instr → Prop
  | .powerOn | .rstPin | .contextGrant | .linkGrant | .unmountComplete _ | .abandonDeferredAnswer _
  | .waitingRequestTaken _ | .enterSaving | .wakeTimerExpiry | .restoreCheckEnd _ => False
  | _ => True

/-- A command from outside finds the part with nothing due, where catching up comes to an end. -/
theorem State.exec_catchUp {s : State} {c : Instr} (h : s.catchUp.due = none) (hc : Instr.outside c) :
    exec c s = exec c s.catchUp := by
  have hs : s.catchUp.catchUp = s.catchUp := State.catchUp_of_due_none h
  cases c with
  | powerOn | rstPin | contextGrant | linkGrant | unmountComplete | abandonDeferredAnswer | waitingRequestTaken
  | enterSaving | wakeTimerExpiry | restoreCheckEnd => exact hc.elim
  | _ =>
    simp only [exec, execIdentify, execStatus, execSetPortOptions, execReset, execProfileQuery, execReload,
      execProfileWrite, execMount, execUnmount, execResume, execRecover, execSweep, execAbandon, execQueryMap,
      execQueryMapNext, execHold, execSetView, execClearView, execRead, execReadEvents, execClearEvents,
      execSetMask, execErrorRead, execErrorRelease, execStatsRead, execStatsWrite, execSleep,
      execUnknownRequest, execWaitingRequest, execResponseRead, execPartialFrame, execDormantRequestFrame,
      execProbeReply, execPositionAck, execPollTimerExpiry, execPositionPollReply, execReadReply, execRelaxAck,
      execPresenceTimerExpiry, execPresencePollReply, execReprobeTimerExpiry, execNoAck, execStretchTimeout,
      execLinkClearPatternSent, execRepairSearchEnd, execStoreWriteComplete, execRestExpiry,
      execQuietTimerExpiry, execSaveImageWriteComplete, execLoaderMarkerRead, execLoaderCountRead,
      execProfileRecordRead, execSettingsMarkerRead, execSettingsCountRead, execSettingRecordRead,
      execProfileBusNoAck, execProfileWriteTransferEnd, execWritePollEnd, execWritePollSpacingExpiry, hs]

/-! ### An empty queue -/

theorem State.runOut_spec {s : State} {i : TimerId} (h : s.runOut = some i) : s.timer i = some 0 := by
  unfold State.runOut at h
  exact beq_iff_eq.mp (List.find?_some (p := fun i => s.timer i == some 0) h)

theorem State.runOut_eq_none_iff : s.runOut = none ↔ ∀ i, s.timer i ≠ some 0 := by
  unfold State.runOut
  rw [List.find?_eq_none]
  exact ⟨fun h i hi => h i i.mem_all (beq_iff_eq.mpr hi), fun h i _ hi => h i (beq_iff_eq.mp hi)⟩

/-- Where no rest runs out, the passing of time is the fall of the timers alone. -/
theorem State.pass_eq_elapse {s : State} {k : Nat} (h : ∀ d, (s.elapse k).timer (.rest d) ≠ some 0) :
    s.pass k = s.elapse k := by
  rcases s.pass_cases k with ⟨-, he⟩ | ⟨r, he, hr⟩
  · exact he
  · have hn : DriveId.all.any (s.elapse k).rested = false := by
      simp only [List.any_eq_false, State.rested, beq_iff_eq]
      exact fun d _ => h d
    unfold State.pass State.restsOver
    rw [hn]
    rfl

theorem step_of_empty {s : State} (h : s.pending = []) : step s = .next s.idle := by
  unfold step
  rw [h]

/-! ### Power-on and RST -/

/-- R151: at power-on RESET_DONE and LOAD_DONE are enabled. -/
theorem EventRegs.start_mask (e : Event) :
    EventRegs.start.mask.getLsbD e.pos = (e == .resetDone || e == .loadDone) := by
  cases e <;> decide

/-- Both leave every block as R168 has it, whatever waits in the queue and lies in the store. -/
theorem State.reset_atPowerOn (q : List Instr) (m : Memory) :
    ({ State.reset with pending := q, store := m } : State).AtPowerOn where
  power := ⟨rfl, rfl, rfl, rfl, rfl, rfl⟩
  ports p := by cases p <;> exact ⟨rfl, rfl, rfl, rfl, rfl⟩
  options p := by cases p <;> rfl
  views p w := by cases p <;> cases w <;> exact ⟨rfl, rfl⟩
  tables p := by cases p <;> rfl
  events p := by cases p <;> exact ⟨rfl, EventRegs.start_mask⟩
  captures := ⟨fun p => by cases p <;> rfl, rfl⟩
  mounts d := by cases d <;> exact ⟨rfl, rfl, rfl⟩
  contexts := ⟨rfl, fun d => by cases d <;> rfl, rfl⟩
  scheds d := by cases d <;> exact ⟨rfl, rfl, rfl, rfl, rfl⟩
  drives d := by cases d <;> exact ⟨rfl, rfl, rfl, rfl, rfl, rfl, rfl, rfl, rfl, rfl⟩
  link := ⟨rfl, rfl, rfl⟩
  rests d := by cases d <;> rfl
  stats := ⟨fun d => by cases d <;> rfl, fun p => by cases p <;> rfl⟩
  table := rfl
  loader := ⟨rfl, rfl, rfl, rfl, rfl, rfl, rfl, rfl, rfl, rfl, rfl, rfl⟩
  settings := ⟨fun d => by cases d <;> exact ⟨rfl, rfl⟩, rfl, rfl, rfl, rfl, rfl, rfl, rfl,
    fun p => by cases p <;> exact ⟨rfl, rfl⟩⟩

theorem State.reset_attention (q : List Instr) (m : Memory) (p : PortId) :
    ({ State.reset with pending := q, store := m } : State).attention p = false := by
  have h : EventRegs.start.attention = false := by decide
  cases p <;> exact h

/-! ### Events -/

/-- R151: the line is asserted exactly where a raised flag is enabled. -/
theorem EventRegs.attention_iff (r : EventRegs) : r.attention = true ↔
    ∃ x : Event, r.raw.getLsbD x.pos = true ∧ r.mask.getLsbD x.pos = true := by
  unfold EventRegs.attention
  rw [bne_iff_ne]
  constructor
  · intro h
    by_contra hn
    push Not at hn
    refine h (BitVec.eq_of_getLsbD_eq fun i hi => ?_)
    obtain ⟨x, rfl⟩ := Event.exists_pos i hi
    have hx := hn x
    rw [BitVec.getLsbD_and]
    cases hr : r.raw.getLsbD x.pos <;> simp_all
  · rintro ⟨x, hr, hm⟩ h
    have hb := congrArg (fun v : BitVec 13 => v.getLsbD x.pos) h
    simp [hr, hm] at hb

/-- The set of one event holds that event alone. -/
theorem Event.bit_getLsbD (e x : Event) : e.bit.getLsbD x.pos = decide (x = e) := by
  cases e <;> cases x <;> rfl

end Sys2Proof.Machine

namespace Sys2Proof.Proofs
open Sys2Proof.Machine

/-- Settles O1. -/
theorem stepTakesFront : Obligations.StepTakesFront := by
  unfold Obligations.StepTakesFront
  intro c rest s h
  unfold step
  rw [h]

/-- Settles O2: what is due, then the expiries, then the time. -/
theorem idleStep : Obligations.IdleStep := by
  unfold Obligations.IdleStep
  refine ⟨fun s c => ⟨State.exec_of_due, State.catchUp_of_due_none, fun n t h => ?caught, State.upTo_of_due,
    fun n t hc h => ?up, fun h hc => ?outside⟩, fun s hs => ⟨fun c hc => ?due, fun i hd hi => ?expiry,
    fun hd hi => ?time, fun k => State.pass_eq_elapse, fun i => State.runOut_spec, s.runOut_eq_none_iff,
    fun k => ⟨rfl, s.elapse_timer k, fun hp => ?still, rfl⟩⟩⟩
  case caught => rw [State.catchUpN, h]
  case up => rw [State.upToN, if_neg hc, h]
  case outside =>
    refine State.exec_catchUp h ?_
    cases c <;> exact hc
  case due => rw [step_of_empty hs, State.idle, hc]
  case expiry => rw [step_of_empty hs, State.idle, hd, hi]
  case time => rw [step_of_empty hs, State.idle, hd, hi]
  case still =>
    unfold State.elapse
    rw [hp]
    exact ⟨rfl, rfl⟩

/-- Settles O3. -/
theorem powerOnAndRst : Obligations.PowerOnAndRst := by
  unfold Obligations.PowerOnAndRst
  intro s
  exact ⟨⟨_, rfl, State.reset_atPowerOn s.pending [], rfl, rfl, State.reset_attention s.pending []⟩,
    ⟨_, rfl, State.reset_atPowerOn s.pending s.store, rfl, rfl, State.reset_attention s.pending s.store⟩⟩

/-- Settles O4. -/
theorem resetMeetsInvariants : Obligations.ResetMeetsInvariants := by
  unfold Obligations.ResetMeetsInvariants
  exact ⟨rfl, rfl, rfl, rfl, rfl⟩

/-- Settles O29. -/
theorem attentionAndRaise : Obligations.AttentionAndRaise := by
  unfold Obligations.AttentionAndRaise
  intro s p e
  refine ⟨EventRegs.attention_iff _, fun x => ?raw, by simp [State.raise], by simp [State.raise]⟩
  case raw => simp [State.raise, Event.bit_getLsbD, Bool.or_comm]

end Sys2Proof.Proofs
end

section
/-! The Profile Loader (chapter 10): RELOAD and PROFILE WRITE (R164, R166), the reads of a run (R161 to R163), and the
rows of a write (R166, R167). -/
namespace Sys2Proof.Machine

variable (s : State)

/-! ### RELOAD and PROFILE WRITE -/

/-- R116: new work makes a part in ACTIVE or QUIET ACTIVE. -/
theorem State.newWork_eq {s : State} (h : s.power.state = .active ∨ s.power.state = .quiet) :
    s.newWork = { s with power := { s.power with state := .active } } := by
  unfold State.newWork
  rcases h with h | h
  · have hp : s.power = { s.power with state := .active } := by rw [← h]
    rw [if_neg (by rw [h]; decide), ← hp]
  · rw [if_pos (by rw [h]; rfl)]

/-- A request whose owning block lets the schedulers follow and replies OK, on a port that is ready. -/
theorem State.command_settles {s v : State} {p : PortId} (h : s.ready p) {c : ReqCode} (tag : Byte)
    {ps payload : List Byte} (hl : c.lengthOk ps = true) (hr : c.rangesOk ps = true)
    (hc : (s.framed p ps.length).carry p c ps = (v, .reply .ok payload)) :
    exec (c.command p (Frame.good c.byte tag ps)) s = .next (v.respond p .ok tag payload) := by
  rw [exec_command_good, State.frame_ready h tag hl hr, hc, Handled.deliver_reply, State.answer_uncaptured _ _ _ _ rfl]
  rfl

/-- A request that its owning block refuses with a status that is not captured, on a port that is ready. -/
theorem State.command_refuses {s : State} {p : PortId} (h : s.ready p) {c : ReqCode} (tag : Byte)
    {ps payload : List Byte} {st : Status} (hst : st.captured = false) (hl : c.lengthOk ps = true)
    (hr : c.rangesOk ps = true)
    (hc : (s.framed p ps.length).carry p c ps = (s.framed p ps.length, .reply st payload)) :
    exec (c.command p (Frame.good c.byte tag ps)) s = .next (s.answered p ps.length st tag payload) := by
  rw [exec_command_good, State.frame_ready h tag hl hr, hc, Handled.deliver_reply, State.framed_answer _ _ _ _ _ hst]
  rfl

theorem State.doReload_idle {s : State} (h : s.loader.write = .idle) :
    s.doReload = (s.newWork.startRun.settle s, .reply .ok []) := by
  unfold State.doReload
  rw [if_neg (by rw [h]; decide)]

theorem State.doReload_writing {s : State} (h : s.loader.write ≠ .idle) : s.doReload = (s, .reply .busy []) := by
  unfold State.doReload
  rw [if_pos (bne_iff_ne.mpr h)]
  rfl

theorem State.doProfileWrite_idle {s : State} (h : s.loader.write = .idle) (p : PortId) (addr : Nat)
    (data : List Byte) :
    s.doProfileWrite p addr data = ((s.newWork.startWrite p addr data).settle s, .reply .ok []) := by
  unfold State.doProfileWrite
  rw [if_neg (by rw [h]; decide)]

theorem State.doProfileWrite_writing {s : State} (h : s.loader.write ≠ .idle) (p : PortId) (addr : Nat)
    (data : List Byte) : s.doProfileWrite p addr data = (s, .reply .busy []) := by
  unfold State.doProfileWrite
  rw [if_pos (bne_iff_ne.mpr h)]
  rfl

/-- The bytes of a PROFILE WRITE: the address, the count, the data. -/
def profileWriteParams (addr : Nat) (data : List Byte) : List Byte :=
  leBytes 2 addr ++ BitVec.ofNat 8 data.length :: data

theorem profileWriteParams_length (addr : Nat) (data : List Byte) :
    (profileWriteParams addr data).length = 3 + data.length := by
  simp [profileWriteParams, leBytes]; omega

theorem profileWriteParams_count (addr : Nat) {data : List Byte} (h : data.length ≤ 16) :
    byteAt (profileWriteParams addr data) 2 = data.length := ofNat8_toNat (by omega)

theorem profileWrite_lengthOk (addr : Nat) {data : List Byte} (h : data.length ≤ 16) :
    ReqCode.profileWrite.lengthOk (profileWriteParams addr data) = true := by
  simp only [ReqCode.lengthOk, profileWriteParams_length, profileWriteParams_count addr h, Config.keptParams]
  simp; omega

theorem profileWrite_rangesOk {addr : Nat} {data : List Byte} (ha : addr ≤ 1023) (h1 : 1 ≤ data.length)
    (h : addr % 16 + data.length ≤ 16) : ReqCode.profileWrite.rangesOk (profileWriteParams addr data) = true := by
  have hf : leField (profileWriteParams addr data) 2 0 = addr := leField_leBytes2 addr (by omega) _
  simp only [ReqCode.rangesOk, profileWriteParams_count addr (show data.length ≤ 16 by omega), hf]
  simp; omega

theorem State.carry_profileWrite (p : PortId) {addr : Nat} (ha : addr ≤ 1023) (data : List Byte) :
    s.carry p .profileWrite (profileWriteParams addr data) = s.doProfileWrite p addr data := by
  have hf : leField (profileWriteParams addr data) 2 0 = addr := leField_leBytes2 addr (by omega) _
  simp only [State.carry, hf]
  rfl

/-! ### The reads of a run -/

theorem byte_toNat_eq_zero_iff (b : Byte) : b.toNat = 0 ↔ b = 0 := by bv_omega

theorem State.onStage_some {s u : State} {f : LoadStage → Option State} (h : f s.loader.stage = some u) :
    s.onStage f = .next (u.settle s) := by
  unfold State.onStage; rw [h]

theorem State.onStage_none {s : State} {f : LoadStage → Option State} (h : f s.loader.stage = none) :
    s.onStage f = .refused .cannotOccur := by
  unfold State.onStage; rw [h]

/-- R163: a value outside a range is one below or above it. -/
theorem outside_iff (v lo hi : Nat) : outside v lo hi = true ↔ v < lo ∨ hi < v := by
  simp [outside]

theorem exec_loaderMarkerRead_called {s : State} (hd : s.due = none) (h : s.loader.stage = .marker) (b : Byte) :
    exec (.loaderMarkerRead b) s = .next ((s.markerRead b).settle s) := by
  unfold exec execLoaderMarkerRead
  rw [State.catchUp_of_due_none hd]
  exact State.onStage_some (by rw [h])

theorem exec_loaderMarkerRead_uncalled {s : State} (hd : s.due = none) (h : s.loader.stage ≠ .marker) (b : Byte) :
    exec (.loaderMarkerRead b) s = .refused .cannotOccur := by
  unfold exec execLoaderMarkerRead
  rw [State.catchUp_of_due_none hd]
  refine State.onStage_none ?_
  split
  next hs => exact absurd hs h
  next => rfl

theorem exec_loaderCountRead_called {s : State} (hd : s.due = none) (h : s.loader.stage = .count) (b : Byte) :
    exec (.loaderCountRead b) s = .next ((s.countRead b).settle s) := by
  unfold exec execLoaderCountRead
  rw [State.catchUp_of_due_none hd]
  exact State.onStage_some (by rw [h])

theorem exec_loaderCountRead_uncalled {s : State} (hd : s.due = none) (h : s.loader.stage ≠ .count) (b : Byte) :
    exec (.loaderCountRead b) s = .refused .cannotOccur := by
  unfold exec execLoaderCountRead
  rw [State.catchUp_of_due_none hd]
  refine State.onStage_none ?_
  split
  next hs => exact absurd hs h
  next => rfl

theorem exec_profileRecordRead_called {s : State} (hd : s.due = none) {i : Nat} (h : s.loader.stage = .record i) (bytes : List Byte) :
    exec (.profileRecordRead bytes) s = .next ((s.recordRead i bytes).settle s) := by
  unfold exec execProfileRecordRead
  rw [State.catchUp_of_due_none hd]
  exact State.onStage_some (by rw [h])

theorem exec_profileRecordRead_uncalled {s : State} (hd : s.due = none) (h : ∀ i, s.loader.stage ≠ .record i) (bytes : List Byte) :
    exec (.profileRecordRead bytes) s = .refused .cannotOccur := by
  unfold exec execProfileRecordRead
  rw [State.catchUp_of_due_none hd]
  refine State.onStage_none ?_
  split
  next hs => exact absurd hs (h _)
  next => rfl

theorem exec_settingsMarkerRead_called {s : State} (hd : s.due = none) (h : s.loader.stage = .settingsMarker) (b : Byte) :
    exec (.settingsMarkerRead b) s = .next ((s.settingsMarkerRead b).settle s) := by
  unfold exec execSettingsMarkerRead
  rw [State.catchUp_of_due_none hd]
  exact State.onStage_some (by rw [h])

theorem exec_settingsMarkerRead_uncalled {s : State} (hd : s.due = none) (h : s.loader.stage ≠ .settingsMarker) (b : Byte) :
    exec (.settingsMarkerRead b) s = .refused .cannotOccur := by
  unfold exec execSettingsMarkerRead
  rw [State.catchUp_of_due_none hd]
  refine State.onStage_none ?_
  split
  next hs => exact absurd hs h
  next => rfl

theorem exec_settingsCountRead_called {s : State} (hd : s.due = none) (h : s.loader.stage = .settingsCount) (b : Byte) :
    exec (.settingsCountRead b) s = .next ((s.settingsCountRead b).settle s) := by
  unfold exec execSettingsCountRead
  rw [State.catchUp_of_due_none hd]
  exact State.onStage_some (by rw [h])

theorem exec_settingsCountRead_uncalled {s : State} (hd : s.due = none) (h : s.loader.stage ≠ .settingsCount) (b : Byte) :
    exec (.settingsCountRead b) s = .refused .cannotOccur := by
  unfold exec execSettingsCountRead
  rw [State.catchUp_of_due_none hd]
  refine State.onStage_none ?_
  split
  next hs => exact absurd hs h
  next => rfl

theorem exec_settingRecordRead_called {s : State} (hd : s.due = none) {j : Nat} (h : s.loader.stage = .setting j) (id lo hi : Byte) :
    exec (.settingRecordRead id lo hi) s = .next ((s.settingRead j id lo hi).settle s) := by
  unfold exec execSettingRecordRead
  rw [State.catchUp_of_due_none hd]
  exact State.onStage_some (by rw [h])

theorem exec_settingRecordRead_uncalled {s : State} (hd : s.due = none) (h : ∀ j, s.loader.stage ≠ .setting j) (id lo hi : Byte) :
    exec (.settingRecordRead id lo hi) s = .refused .cannotOccur := by
  unfold exec execSettingRecordRead
  rw [State.catchUp_of_due_none hd]
  refine State.onStage_none ?_
  split
  next hs => exact absurd hs (h _)
  next => rfl

theorem exec_profileBusNoAck_called {s : State} (hd : s.due = none) (h : s.loader.stage ≠ .idle) :
    exec .profileBusNoAck s = .next (s.busNoAck.settle s) := by
  unfold exec execProfileBusNoAck
  rw [State.catchUp_of_due_none hd]
  refine State.onStage_some ?_
  split
  next hs => exact absurd hs h
  all_goals rfl

theorem exec_profileBusNoAck_uncalled {s : State} (hd : s.due = none) (h : s.loader.stage = .idle) :
    exec .profileBusNoAck s = .refused .cannotOccur := by
  unfold exec execProfileBusNoAck
  rw [State.catchUp_of_due_none hd]
  exact State.onStage_none (by rw [h])

/-- R164: the end of a run, field by field. -/
theorem State.endRun_eq (q : State) : q.endRun = { q with
    options := ⟨⟨q.settings.portHigh.a, q.settings.deferLimit.a⟩, ⟨q.settings.portHigh.b, q.settings.deferLimit.b⟩⟩
    loader := { q.loader with stage := .idle }
    events := q.events.map fun r => { r with raw := r.raw ||| Event.loadDone.bit } } := rfl

/-- R163: what follows a setting record, or the count of them. -/
theorem State.toSetting_eq (q : State) (j : Nat) : q.toSetting j =
    if q.loader.m ≤ j then q.endRun
    else if 1023 < 4 + 48 * q.loader.records + 3 * j + 2 then
      { q with loader := { q.loader with overflow := true } }.endRun
    else { q with loader := { q.loader with stage := .setting j } } := rfl

/-- R163: applying a record leaves the counts of the run alone. -/
theorem State.applySetting_loader (id v : Nat) : (s.applySetting id v).loader.m = s.loader.m ∧
    (s.applySetting id v).loader.records = s.loader.records := by
  unfold State.applySetting
  split
  · dsimp only; split <;> exact ⟨rfl, rfl⟩
  · exact ⟨rfl, rfl⟩

/-- R163: a known id takes its value, clamped to the range; a value outside it is counted. -/
theorem State.applySetting_known {id x y : Nat} (h : settingRange id = some (x, y)) (v : Nat) :
    s.applySetting id v = { s with
      settings := s.settings.put id (max x (min y v))
      loader := { s.loader with
        clamped := if v < x ∨ y < v then min 255 (s.loader.clamped + 1) else s.loader.clamped } } := by
  unfold State.applySetting
  rw [h]
  dsimp only
  by_cases ho : v < x ∨ y < v
  · rw [if_pos ((outside_iff v x y).mpr ho), if_pos ho]; rfl
  · rw [if_neg (fun hc => ho ((outside_iff v x y).mp hc)), if_neg ho]; rfl

theorem State.applySetting_unknown {id : Nat} (h : settingRange id = none) (v : Nat) : s.applySetting id v =
    { s with loader := { s.loader with unknown := min 255 (s.loader.unknown + 1) } } := by
  unfold State.applySetting
  rw [h]

/-! ### The rows of a write -/

theorem State.onWrite_at {s : State} {g : WriteStage} (h : s.loader.write = g) (u : State) :
    s.onWrite g u = .next (u.settle s) := if_pos h

theorem State.onWrite_not {s : State} {g : WriteStage} (h : s.loader.write ≠ g) (u : State) :
    s.onWrite g u = .refused .cannotOccur := if_neg h

theorem exec_profileWriteTransferEnd {s : State} (hd : s.due = none) (acked : Bool) :
    exec (.profileWriteTransferEnd acked) s = s.onWrite .transfer (s.transferEnd acked) := by
  unfold exec execProfileWriteTransferEnd
  rw [State.catchUp_of_due_none hd]

theorem exec_writePollEnd {s : State} (hd : s.due = none) (acked : Bool) :
    exec (.writePollEnd acked) s = s.onWrite .polling (s.writePollEnd acked) := by
  unfold exec execWritePollEnd
  rw [State.catchUp_of_due_none hd]

theorem exec_writePollSpacingExpiry {s : State} (hd : s.due = none) :
    exec .writePollSpacingExpiry s = s.onWrite .spacing s.nextWritePoll := by
  unfold exec execWritePollSpacingExpiry
  rw [State.catchUp_of_due_none hd]

/-! ### ERROR READ and ERROR RELEASE -/

/-- The two records as a selection of 1 to 3 takes them. -/
theorem State.capturePayload_eq (p : PortId) {sel : Byte} (h1 : 1 ≤ sel.toNat) (h3 : sel.toNat ≤ 3) :
    s.capturePayload p sel.toNat = (if sel = 1 ∨ sel = 3 then portCaptureBytes (s.errors.get p) else []) ++
      (if sel = 2 ∨ sel = 3 then linkCaptureBytes s.linkFault else []) := by
  obtain rfl | rfl | rfl : sel = 1 ∨ sel = 2 ∨ sel = 3 := by bv_omega
  all_goals rfl

/-- A release clears the records of its selection and nothing else. -/
theorem State.doErrorRelease_eq (p : PortId) {sel : Byte} (h1 : 1 ≤ sel.toNat) (h3 : sel.toNat ≤ 3) :
    s.doErrorRelease p sel.toNat = ({ s with
      errors := if sel = 1 ∨ sel = 3 then s.errors.set p none else s.errors
      linkFault := if sel = 2 ∨ sel = 3 then none else s.linkFault }, .reply .ok (s.capturePayload p sel.toNat)) := by
  obtain rfl | rfl | rfl : sel = 1 ∨ sel = 2 ∨ sel = 3 := by bv_omega
  all_goals rfl

theorem errorRead_rangesOk (sel : Byte) :
    ReqCode.errorRead.rangesOk [sel] = (decide (1 ≤ sel.toNat) && decide (sel.toNat ≤ 3)) := rfl

/-- An answer, captured or not, leaves the link-fault record alone. -/
theorem State.answer_linkFault (p : PortId) (code : Byte) (f : Frame) (st : Status) (payload : List Byte) :
    (s.answer p code f st payload).linkFault = s.linkFault := by
  unfold State.answer State.respond
  rw [State.setPort_linkFault]
  split
  · rw [State.captureRefusal_frame]
  · rfl


end Sys2Proof.Machine

namespace Sys2Proof.Proofs
open Sys2Proof.Machine

/-- Settles O11. -/
theorem reloadAndProfileWrite : Obligations.ReloadAndProfileWrite := by
  unfold Obligations.ReloadAndProfileWrite
  intro p tag s h
  have hnew := fun n => State.newWork_eq (s := s.framed p n) h.2.1
  refine ⟨fun hw => ⟨_, ?reload, rfl⟩, fun hw => ?reloadBusy, fun addr data ha h1 h16 =>
    ⟨fun hw => ⟨_, ?write, rfl⟩, fun hw => ?writeBusy⟩⟩
  case reload =>
    have hd := State.doReload_idle (s := s.framed p 0) hw
    rw [hnew] at hd
    exact State.command_settles h (c := .reload) tag rfl rfl hd
  case reloadBusy =>
    exact State.command_refuses h (c := .reload) tag rfl rfl rfl (State.doReload_writing (s := s.framed p 0) hw)
  case write =>
    have hn := profileWriteParams_length addr data
    have hd := State.doProfileWrite_idle (s := s.framed p (3 + data.length)) hw p addr data
    rw [hnew, ← State.carry_profileWrite _ p ha, ← hn] at hd
    rw [← hn]
    exact State.command_settles h (c := .profileWrite) tag (profileWrite_lengthOk addr (by omega))
      (profileWrite_rangesOk ha h1 h16) hd
  case writeBusy =>
    have hn := profileWriteParams_length addr data
    have hd := State.doProfileWrite_writing (s := s.framed p (3 + data.length)) hw p addr data
    rw [← State.carry_profileWrite _ p ha, ← hn] at hd
    rw [← hn]
    exact State.command_refuses h (c := .profileWrite) tag rfl (profileWrite_lengthOk addr (by omega))
      (profileWrite_rangesOk ha h1 h16) hd

/-- Settles O57. -/
theorem profileWriteRows : Obligations.ProfileWriteRows := by
  unfold Obligations.ProfileWriteRows
  intro s acked hd ended hended
  have hend : ∀ o, s.endWrite o = ended o := fun o => (hended o).symm
  refine ⟨fun h => ⟨?acked, ?unacked⟩, fun h => ?notTransfer, fun h => ⟨?done, fun hl => ?timeout, fun hl => ?again⟩,
    fun h => ?notPolling, fun h => ?next, fun h => ?notSpacing⟩
  case acked => exact (exec_profileWriteTransferEnd hd true).trans (State.onWrite_at h _)
  case unacked =>
    rw [exec_profileWriteTransferEnd hd, State.onWrite_at h, ← hend]
    rfl
  case notTransfer => exact (exec_profileWriteTransferEnd hd acked).trans (State.onWrite_not h _)
  case done =>
    rw [exec_writePollEnd hd, State.onWrite_at h, ← hend]
    rfl
  case timeout =>
    rw [exec_writePollEnd hd, State.onWrite_at h, ← hend, State.writePollEnd, if_neg Bool.false_ne_true]
    exact congrArg (fun q : State => Host.Outcome.next (q.settle s)) (if_pos hl)
  case again =>
    rw [exec_writePollEnd hd, State.onWrite_at h, State.writePollEnd, if_neg Bool.false_ne_true]
    exact congrArg (fun q : State => Host.Outcome.next (q.settle s)) (if_neg (Nat.not_le_of_lt hl))
  case notPolling => exact (exec_writePollEnd hd acked).trans (State.onWrite_not h _)
  case next => exact (exec_writePollSpacingExpiry hd).trans (State.onWrite_at h _)
  case notSpacing => exact (exec_writePollSpacingExpiry hd).trans (State.onWrite_not h _)

/-- Settles O56. -/
theorem loaderReads : Obligations.LoaderReads := by
  unfold Obligations.LoaderReads
  intro s hd ended hended next hnext
  have hend : ∀ q : State, q.endRun = ended q := fun q => (hended q).symm
  refine ⟨?address, fun b lo hi => ⟨fun h => ⟨fun hb => ?marker, fun hb => ?badMarker, ?noMemory⟩,
    fun h => ⟨exec_loaderMarkerRead_uncalled hd h b, fun hi => ?busFault⟩, exec_profileBusNoAck_uncalled hd,
    fun h => ?count, fun h => exec_loaderCountRead_uncalled hd h b, fun i bytes h => ?record,
    fun bytes h => exec_profileRecordRead_uncalled hd h bytes, fun h => ⟨fun hb => ?settingsMarker,
      fun hb => ?noSettings⟩, fun h => exec_settingsMarkerRead_uncalled hd h b, fun h => ?settingsCount,
    fun h => exec_settingsCountRead_uncalled hd h b, fun j q h hq => ?setting,
    fun h => exec_settingRecordRead_uncalled hd h b lo hi, fun id v => ⟨fun x y h => ⟨_, rfl, ?known⟩,
      fun h => s.applySetting_unknown h v⟩⟩⟩
  case address =>
    unfold Loader.address
    cases s.loader.stage <;> rfl
  case marker =>
    rw [exec_loaderMarkerRead_called hd h, State.markerRead, if_pos hb, hnext]
    rfl
  case badMarker => rw [exec_loaderMarkerRead_called hd h, State.markerRead, if_neg hb, State.fallBack, hend]
  case noMemory =>
    rw [exec_profileBusNoAck_called hd (by rw [h]; decide), State.busNoAck, if_pos h, State.fallBack, hend]
  case busFault => rw [exec_profileBusNoAck_called hd hi, State.busNoAck, if_neg h, hend]
  case count =>
    have hz : min 16 b.toNat = 0 ↔ b = 0 := by rw [← byte_toNat_eq_zero_iff]; omega
    simp only [exec_loaderCountRead_called hd h, State.countRead, hnext, State.setStage, hz]
  case record =>
    rw [exec_profileRecordRead_called hd h, hnext]
    rfl
  case settingsMarker =>
    rw [exec_settingsMarkerRead_called hd h, State.settingsMarkerRead, if_pos hb, hnext]
    rfl
  case noSettings => rw [exec_settingsMarkerRead_called hd h, State.settingsMarkerRead, if_neg hb, hend]
  case settingsCount =>
    rw [exec_settingsCountRead_called hd h, State.settingsCountRead, State.toSetting_eq]
    by_cases hb : b = 0
    · subst hb
      rw [if_pos rfl, ← hend]
      rfl
    · have hm : ¬b.toNat ≤ 0 := by rw [← byte_toNat_eq_zero_iff] at hb; omega
      rw [if_neg hb, if_neg hm, hend, hnext]
  case setting =>
    obtain ⟨hm, hrec⟩ := s.applySetting_loader b.toNat (lo.toNat + 256 * hi.toNat)
    rw [exec_settingRecordRead_called hd h, State.settingRead, State.toSetting_eq, ← hq, hend, hend, hnext, hq, hm,
      hrec]
  case known =>
    rw [s.applySetting_known h v]
    exact ⟨rfl, rfl⟩

/-- Settles O30: the selections 1 to 3, the others, and the bytes of the records. -/
theorem captureRequests : Obligations.CaptureRequests := by
  unfold Obligations.CaptureRequests
  intro p tag sel s h
  refine ⟨fun h1 h3 payload hp => ?selected, fun hs t ht => ?refused, fun c => ?bytes, rfl, rfl⟩
  case selected =>
    have hr : ReqCode.errorRead.rangesOk [sel] = true := by
      rw [errorRead_rangesOk, decide_eq_true h1, decide_eq_true h3]; rfl
    have hpay : (s.framed p 1).capturePayload p sel.toNat = payload := by
      rw [State.capturePayload_eq _ p h1 h3, hp]; rfl
    constructor
    · refine State.command_replies h (c := .errorRead) tag rfl hr ?_
      exact congrArg (fun b => (s.framed p 1, Answer.reply .ok b)) hpay
    · refine State.command_replies h (c := .errorRelease) tag rfl hr ?_
      exact ((s.framed p 1).doErrorRelease_eq p h1 h3).trans (by rw [hpay]; rfl)
  case refused =>
    have hr : ReqCode.errorRead.rangesOk [sel] = false := by
      rw [errorRead_rangesOk, Bool.and_eq_false_iff, decide_eq_false_iff_not, decide_eq_false_iff_not]; omega
    have hread := State.command_badParam h (c := .errorRead) tag rfl hr
    have hrel := State.command_badParam h (c := .errorRelease) tag rfl hr
    rcases ht with ht | ht
    · cases hread.symm.trans ht
      exact ⟨State.answer_ports s p _ _ _ _ _, State.answer_linkFault _ _ _ _ _ _⟩
    · cases hrel.symm.trans ht
      exact ⟨State.answer_ports s p _ _ _ _ _, State.answer_linkFault _ _ _ _ _ _⟩
  case bytes => rfl

end Sys2Proof.Proofs
end

section
/-! Frames (chapter 7): the refusals of R123 and R124 with their captures (R154), frames that wait and are taken (R121),
an ABANDON that waited (R39), response reads and partial frames (R119, R122), and frames in DORMANT (R172). -/
namespace Sys2Proof.Machine

variable (s : State)

/-! ### Refusals -/

/-- A frame of any listed request completes on its port. -/
theorem exec_command (c : ReqCode) (p : PortId) (f : Frame) :
    exec (c.command p f) s = .next (s.catchUp.frameArrives p c.byte f) := by
  cases c <;> rfl

theorem Frame.crcOk_iff (code : Byte) (f : Frame) : Frame.crcOk code f = true ↔
    crc16 (code :: f.tag :: (leBytes 2 f.params.length ++ f.params)) = f.crc := by
  unfold Frame.crcOk Frame.body
  exact beq_iff_eq

/-- R123, test 1: a wrong CRC-16. -/
theorem State.validate_frameError {code : Byte} {f : Frame}
    (h : crc16 (code :: f.tag :: (leBytes 2 f.params.length ++ f.params)) ≠ f.crc) :
    s.validate code f = .error .frameError := by
  have hc : Frame.crcOk code f = false := by rw [Bool.eq_false_iff, ne_eq, Frame.crcOk_iff]; exact h
  simp [State.validate, hc]

/-- R123, tests 3 to 5: a frame with a right CRC-16 and a listed code. -/
theorem State.validate_listed {c : ReqCode} {f : Frame}
    (h : crc16 (c.byte :: f.tag :: (leBytes 2 f.params.length ++ f.params)) = f.crc) :
    s.validate c.byte f = if c.lengthOk f.params = false then .error .badRequest
      else if s.accepts c = false then .error .notReady
      else if c.rangesOk f.params = false then .error .badParam else .ok c := by
  simp [State.validate, (Frame.crcOk_iff _ _).mpr h, ReqCode.ofByte?_byte]

theorem ReqCode.ofByte?_eq_none {code : Byte} (h : ∀ c : ReqCode, c.byte ≠ code) : ReqCode.ofByte? code = none := by
  unfold ReqCode.ofByte?
  rw [List.find?_eq_none]
  exact fun c _ hc => h c (beq_iff_eq.mp hc)

/-- R123, test 2: a code that chapter 12 does not list. -/
theorem State.validate_unlisted {code : Byte} {f : Frame} (hc : ∀ c : ReqCode, c.byte ≠ code) :
    s.validate code f =
      .error (if crc16 (code :: f.tag :: (leBytes 2 f.params.length ++ f.params)) = f.crc then .badRequest
        else .frameError) := by
  by_cases h : crc16 (code :: f.tag :: (leBytes 2 f.params.length ++ f.params)) = f.crc
  · rw [if_pos h]
    simp [State.validate, (Frame.crcOk_iff _ _).mpr h, ReqCode.ofByte?_eq_none hc]
  · rw [if_neg h]
    exact s.validate_frameError h

/-- R154: the first four parameter bytes, 00h beyond the last. -/
theorem captureParams_eq (ps : List Byte) :
    captureParams ps = [ps.getD 0 0, ps.getD 1 0, ps.getD 2 0, ps.getD 3 0] := by
  rcases ps with _ | ⟨a, _ | ⟨b, _ | ⟨c, _ | ⟨d, l⟩⟩⟩⟩ <;> simp [captureParams]

/-- R154: the capture record after a refusal. -/
theorem State.captureRefusal_errors (p : PortId) (st : Status) (code tag : Byte) (ps : List Byte) :
    (s.captureRefusal p st code tag ps).errors = s.errors.set p (some (match s.errors.get p with
      | some r => { r with multiple := true }
      | none => ⟨false, st, code, tag, [ps.getD 0 0, ps.getD 1 0, ps.getD 2 0, ps.getD 3 0]⟩)) := by
  rw [← captureParams_eq]
  unfold State.captureRefusal
  cases s.errors.get p <;> rfl

theorem State.answer_captured_errors (p : PortId) (code : Byte) (f : Frame) {st : Status} (h : st.captured = true)
    (payload : List Byte) :
    (s.answer p code f st payload).errors = (s.captureRefusal p st code f.tag f.params).errors := by
  rw [State.answer, if_pos h]
  rfl

/-- An answer changes its port, the capture records and the flags, and nothing else. -/
theorem State.framed_answer_frame (p : PortId) (code : Byte) (f : Frame) (n : Nat) (st : Status)
    (payload : List Byte) :
    (s.framed p n).answer p code f st payload = { s with
      ports := s.ports.set p ((s.ports.get p).answered n st f.tag payload)
      errors := ((s.framed p n).answer p code f st payload).errors
      events := ((s.framed p n).answer p code f st payload).events } := by
  rw [← State.answer_ports s p code f n st payload]
  unfold State.answer State.respond
  split
  · rw [State.captureRefusal_frame]; rfl
  · rfl

/-- A refused frame leaves the state that the statement about refusals describes. -/
theorem State.frame_captured {s : State} {p : PortId} (h : s.takes p) {code : Byte} {f : Frame} {st : Status}
    (hv : s.validate code f = .error st) (hst : st.captured = true) : ∃ t : State,
      .next (s.catchUp.frameArrives p code f) = (.next t : Out) ∧
      t = { s with
        ports := s.ports.set p ((s.ports.get p).answered f.params.length st f.tag [])
        errors := t.errors, events := t.events } ∧
      t.errors = s.errors.set p (some (match s.errors.get p with
        | some r => { r with multiple := true }
        | none => ⟨false, st, code, f.tag,
          [f.params.getD 0 0, f.params.getD 1 0, f.params.getD 2 0, f.params.getD 3 0]⟩)) ∧
      t.events.get p.other = s.events.get p.other ∧ (t.events.get p).mask = (s.events.get p).mask ∧
      (t.events.get p).raw = (s.events.get p).raw |||
        (if s.errors.get p = none then Event.portError.bit else 0) := by
  have he := (s.framed p f.params.length).answer_captured_events p code f hst []
  refine ⟨_, congrArg _ (State.frame_refused h hv), s.framed_answer_frame p code f _ st [], ?_, ?_, ?_, ?_⟩
  · rw [State.answer_captured_errors _ _ _ _ hst, State.captureRefusal_errors]; rfl
  · rw [he, Pair.get_set_other]; rfl
  · rw [he, Pair.get_set]; rfl
  · rw [he, Pair.get_set]; rfl

/-- R124 in words. -/
theorem State.accepts_iff (c : ReqCode) : s.accepts c = true ↔
    ((s.power.state = .active ∨ s.power.state = .quiet) ∧
      (s.loader.stage = .idle ∨ c = .identify ∨ c = .status)) ∨
    (s.power.state = .entering ∧ (c = .identify ∨ c = .status ∨ c = .reset)) ∨
    ((s.power.state = .saving ∨ s.power.state = .restoring) ∧ (c = .identify ∨ c = .status)) := by
  unfold State.accepts
  cases s.power.state <;> simp [or_assoc]

/-! ### Frames that wait -/

theorem Port.busy_iff (q : Port) : q.busy = true ↔ q.inProgress ≠ none ∨ q.waiting ≠ none := by
  simp [Port.busy, Option.isSome_iff_ne_none]

/-- R121: a frame that finds its port busy waits. -/
theorem State.frameArrives_busy {s : State} {p : PortId} (code : Byte) (f : Frame) (hp : s.power.state ≠ .dormant)
    (hb : (s.ports.get p).busy = true) : s.frameArrives p code f = s.setPort p
      { s.ports.get p with
        receiver := [], dataOut := List.replicate (6 + f.params.length) 0xFF, waiting := some (code, f) } := by
  have hd : ((s.sends p (List.replicate (6 + f.params.length) padding)).power.state == .dormant) = false := by
    rw [State.sends_power]; simpa using hp
  have hb' : ((s.sends p (List.replicate (6 + f.params.length) padding)).ports.get p).busy = true := by
    rw [State.sends_busy]; exact hb
  unfold State.frameArrives
  dsimp only
  rw [if_neg (by rw [hd]; decide), if_pos hb']
  simp [State.sends, State.setPort, padding]

/-- R121: where a request waits and none is in progress, the step takes it. -/
theorem State.waitingStep_eq {s : State} {p : PortId} {w : Byte × Frame} (hi : (s.ports.get p).inProgress = none)
    (hw : (s.ports.get p).waiting = some w) : s.waitingStep p = some (s.takeWaiting p w) := by
  simp [State.waitingStep, Port.waitingDue, hi, hw]

theorem State.waitingStep_eq_none {s : State} {p : PortId}
    (h : (s.ports.get p).inProgress ≠ none ∨ (s.ports.get p).waiting = none) : s.waitingStep p = none := by
  have hd : (s.ports.get p).waitingDue = none := by
    unfold Port.waitingDue
    rcases h with h | h
    · rw [if_pos (Option.isSome_iff_ne_none.mpr h)]
    · rw [h, ite_self]
  simp [State.waitingStep, hd]

/-- IDENTIFY taken from any state but DORMANT answers on its port. -/
theorem State.takeRequest_identify {s : State} (h : s.power.state ≠ .dormant) (p : PortId) (tag : Byte) :
    s.takeRequest p 0x01 (Frame.good 0x01 tag []) =
      s.setPort p { s.ports.get p with response := some ⟨.ok, tag, s.identifyPayload⟩ } := by
  have hv : s.validate 0x01 (Frame.good 0x01 tag []) = .ok .identify :=
    s.validate_good (c := .identify) rfl (State.accepts_identify h) rfl
  rw [State.takeRequest, hv]
  rfl

end Sys2Proof.Machine

namespace Sys2Proof.Proofs
open Sys2Proof.Machine

/-- Settles O33: each test of R123 in its order, and R124's table. -/
theorem frameRefusals : Obligations.FrameRefusals := by
  unfold Obligations.FrameRefusals
  intro p f s h
  refine ⟨fun i code st hi => ?captured, fun c hcrc hl ha => ?notReady, s.accepts_iff⟩
  case captured =>
    rcases hi with ⟨c, rfl, rfl, ⟨hcrc, rfl⟩ | ⟨hcrc, hl, rfl⟩ | ⟨hcrc, hl, ha, hr, rfl⟩⟩ | ⟨rfl, hc, rfl⟩
    · rw [exec_command]
      exact State.frame_captured h (s.validate_frameError hcrc) rfl
    · rw [exec_command]
      exact State.frame_captured h (by rw [s.validate_listed hcrc, if_pos hl]) rfl
    · rw [exec_command]
      exact State.frame_captured h (by simp [s.validate_listed hcrc, hl, ha, hr]) rfl
    · refine State.frame_captured h (s.validate_unlisted hc) ?_
      split <;> rfl
  case notReady =>
    rw [exec_command, State.frame_refused h (st := .notReady) (by simp [s.validate_listed hcrc, hl, ha])]
    exact congrArg _ (s.framed_answer p _ _ _ rfl [])

/-- Settles O34. -/
theorem waitingRequests : Obligations.WaitingRequests := by
  unfold Obligations.WaitingRequests
  intro p code f s g hg
  have hexec : exec (.waitingRequestTaken p) s = stepOut (g.waitingStep p) := by rw [hg]; rfl
  refine ⟨fun hd hp hi => ?waits, fun c hc => ?listed, fun hi hw => ⟨?taken, fun tag hc hf hp => ?identify⟩,
    fun hn => ?cannotOccur⟩
  case waits =>
    have he : exec (.waitingRequest p code f) s = .next (s.catchUp.frameArrives p code f) := rfl
    rw [he, State.catchUp_of_due_none hd, State.frameArrives_busy code f hp ((Port.busy_iff _).mpr (.inl hi))]
  case listed => rw [hc, exec_command]; rfl
  case taken => rw [hexec, State.waitingStep_eq hi hw]; rfl
  case identify =>
    subst hc hf
    rw [hexec, State.waitingStep_eq hi hw, State.takeWaiting, State.takeRequest_identify (by exact hp)]
    simp [State.setPort, stepOut, State.identifyPayload]
  case cannotOccur => rw [hexec, State.waitingStep_eq_none hn]; rfl

/-- Settles O36. -/
theorem responseReadAndPartialFrame : Obligations.ResponseReadAndPartialFrame := by
  unfold Obligations.ResponseReadAndPartialFrame
  intro p n bytes s hd
  have hc : s.catchUp = s := State.catchUp_of_due_none hd
  refine ⟨fun sent hs => ?read, ?partialFrame⟩
  case read =>
    have hsent : (s.ports.get p).readBytes = sent := by
      rw [hs, Port.readBytes]
      simp only [Port.busy_iff]
      cases (s.ports.get p).response <;> rfl
    have he : exec (.responseRead p n) s = .next (s.catchUp.responseRead p n) := rfl
    rw [he, hc, State.responseRead, hsent]
    rfl
  case partialFrame =>
    have he : exec (.partialFrame p bytes) s = .next (s.catchUp.partialFrame p bytes.length) := rfl
    rw [he, hc]
    rfl

/-- Settles O37. -/
theorem dormantFrame : Obligations.DormantFrame := by
  unfold Obligations.DormantFrame
  intro p code f s hd
  have he : exec (.dormantRequestFrame p code f) s = .next (s.frameArrives p code f) := by
    have hc : s.catchUp = s := State.catchUp_of_due_none hd
    exact congrArg (fun q : State => Host.Outcome.next (q.frameArrives p code f)) hc
  have hf : s.power.state = .dormant → s.frameArrives p code f = if s.power.wakePort.get p then
      (s.answered p f.params.length .notReady f.tag []).wake else s.answered p f.params.length .notReady f.tag [] := by
    intro hp
    rw [← State.framed_respond]
    exact if_pos (beq_iff_eq.mpr hp)
  refine ⟨fun hp hw => ?noSource, fun hp hw => ⟨?source, rfl⟩, fun hp c hc => ?listed⟩
  case noSource => rw [he, hf hp, hw]; rfl
  case source => rw [he, hf hp, hw]; rfl
  case listed =>
    rw [hc, exec_command]
    rfl

end Sys2Proof.Proofs
end

section
/-! Mounts (chapter 1): MOUNT (R10 to R13), UNMOUNT and its completion (R14, R15), RESUME (R19). First when the steps
come that are due before an unmount completes. -/
namespace Sys2Proof.Machine

variable (s : State)

/-! ### What is due -/

theorem DriveId.mem_after (d e : DriveId) : e ∈ d.after := by cases d <;> cases e <;> decide

theorem DriveId.mem_all (d : DriveId) : d ∈ DriveId.all := by cases d <;> decide

/-- R82: a grant is due where a context is FREE and a request waits. -/
theorem State.grantDue_iff : s.grantDue = true ↔ s.freeCtx ≠ none ∧ ∃ d, s.ctxReq.get d ≠ none := by
  have h : s.noneWaiting = false ↔ ∃ d, s.ctxReq.get d ≠ none := by
    rw [Bool.eq_false_iff, ne_eq, State.noneWaiting_iff, not_forall]
  unfold State.grantDue
  rw [Bool.and_eq_true, Bool.not_eq_true', h, Option.isSome_iff_ne_none]

/-- R105: the link is granted where it is free and requested. -/
theorem State.grantOf_isSome_iff : s.grantOf.isSome = true ↔
    s.link.exchange = none ∧ s.link.clearing = false ∧ ∃ d, s.nextTx d ≠ none := by
  unfold State.grantOf
  cases hx : s.link.exchange with
  | some x => simp
  | none =>
    cases hc : s.link.clearing with
    | true => simp
    | false =>
      simp only [Option.isSome_none, Bool.or_self, Bool.false_eq_true, if_false, true_and, Option.isSome_or,
        Bool.or_eq_true, List.find?_isSome, Bool.and_eq_true]
      constructor
      · rintro (⟨d, -, hd, -⟩ | ⟨d, -, hd⟩) <;> exact ⟨d, Option.isSome_iff_ne_none.mp hd⟩
      · rintro ⟨d, hd⟩
        exact .inr ⟨d, DriveId.mem_after _ _, Option.isSome_iff_ne_none.mpr hd⟩

theorem State.unmountDue_iff (d : DriveId) : s.unmountDue d = true ↔
    (∃ m, s.mounts.get d = some m ∧ m.phase = .unmounting) ∧ s.attempts.get d = none := by
  unfold State.unmountDue
  cases s.mounts.get d <;> simp

/-- R15: with no grant due the lowest drive whose unmount can complete comes next. -/
theorem State.due_of_unmountDue {s : State} {d : DriveId} (hg : s.grantDue = false) (hl : s.grantOf.isSome = false)
    (h : s.unmountDue d = true) : ∃ e, s.due = some (.unmountComplete e) ∧ e.toNat ≤ d.toNat := by
  obtain ⟨e, he, hle⟩ : ∃ e, DriveId.all.find? s.unmountDue = some e ∧ e.toNat ≤ d.toNat := by
    unfold DriveId.all
    rw [List.find?_cons, List.find?_cons, List.find?_cons, List.find?_cons]
    cases h0 : s.unmountDue .d0 <;> cases h1 : s.unmountDue .d1 <;> cases h2 : s.unmountDue .d2 <;>
      cases h3 : s.unmountDue .d3 <;> cases d <;> simp_all [DriveId.toNat]
  refine ⟨e, ?_, hle⟩
  unfold State.due
  rw [if_neg (by rw [hg]; decide), if_neg (by rw [hl]; decide), he]

/-! ### MOUNT -/

/-- A drive's number passes every range test on it. -/
theorem driveParam_le (d : DriveId) : d.param.toNat ≤ 3 := by cases d <;> decide

/-- A request whose first parameter names a drive is handed on with that drive. -/
theorem State.withDrive_param (d : DriveId) (l : List Byte) (f : DriveId → Handled) :
    s.withDrive (d.param :: l) 0 f = f d := by
  unfold State.withDrive
  rw [driveAt_param_zero]

theorem mount_rangesOk (d : DriveId) {slot : Byte} (h : slot.toNat ≤ 15) :
    ReqCode.mount.rangesOk [d.param, slot] = true := by
  have hr : ReqCode.mount.rangesOk [d.param, slot] = (decide (d.param.toNat ≤ 3) && decide (slot.toNat ≤ 15)) := rfl
  rw [hr, decide_eq_true (driveParam_le d), decide_eq_true h]
  rfl

theorem State.carry_mount (p : PortId) (d : DriveId) (slot : Byte) :
    s.carry p .mount [d.param, slot] = s.doMount d slot.toNat := s.withDrive_param d _ _

/-- A MOUNT of which a test fails is answered with that test's status and payload. -/
theorem State.mount_refused {s : State} {p : PortId} (h : s.ready p) (tag : Byte) (d : DriveId) {slot : Byte}
    (hslot : slot.toNat ≤ 15) {st : Status} {payload : List Byte} (hst : st.captured = false)
    (ht : s.mountTests d slot.toNat = .error (st, payload)) :
    exec (.mount p (Frame.good 0x10 tag [d.param, slot])) s = .next (s.answered p 2 st tag payload) := by
  refine State.command_refuses h (c := .mount) tag hst rfl (mount_rangesOk d hslot) ?_
  have ht' : (s.framed p [d.param, slot].length).mountTests d slot.toNat = .error (st, payload) := ht
  exact (State.carry_mount _ p d slot).trans (by rw [State.doMount, ht'])

/-- R10, tests 1 and 2 passed: the drive has no mount and a medium in an ONLINE drive. -/
theorem State.mountTests_present {s : State} {d : DriveId} (hm : s.mounts.get d = none)
    (ho : (s.drives.get d).link = .online) (hp : (s.drives.get d).medium = true) (slot : Nat) :
    s.mountTests d slot = match s.table.getD slot .empty with
      | .empty | .invalid _ _ _ => .error (.profileInvalid, [])
      | .valid _ bytes =>
        if (s.drives.get d).kind ≠ some (Profile.ofBytes bytes).kind then .error (.kindMismatch, [])
        else match firstFit 32768 (Profile.ofBytes bytes).units s.mapExtents with
          | none => .error (.noSpace, [0])
          | some r =>
            match firstFit 16128 (Profile.ofBytes bytes).pages s.storeExtents with
            | none => .error (.noSpace, [1])
            | some q => .ok (Profile.ofBytes bytes, r, q) := by
  unfold State.mountTests
  simp only [hm, ho, hp, Option.isSome_none, Bool.false_eq_true, if_false, bne_self_eq_false, Bool.not_true,
    Bool.or_self, bne_iff_ne, ne_eq]
  rfl

/-- R13: all that a MOUNT whose tests pass does. -/
theorem State.mountOn_eq {s : State} (h : s.power.state = .active ∨ s.power.state = .quiet) (d : DriveId)
    (m : MountRec) : s.mountOn d m = { s with
      mounts := s.mounts.set d (some m)
      unitMap := Sparse.clear s.unitMap m.mapFirst m.u
      works := s.works.set d []
      scheds := s.scheds.set d { s.scheds.get d with last := none, burst := 0 }
      rests := s.rests.set d { s.rests.get d with level := 0, weakRun := 0 }
      power := { s.power with state := .active } } := by
  unfold State.mountOn
  exact State.newWork_eq h

/-! ### UNMOUNT -/

/-- The setter where a flag is set, or the state where it stays. -/
theorem State.discard_eq (d : DriveId) :
    (if (s.attempts.get d).isSome = true then s.setDiscard d true else s) =
      { s with discard := s.discard.set d ((s.attempts.get d).isSome || s.discard.get d) } := by
  cases h : s.attempts.get d with
  | some x => rfl
  | none =>
    simp only [Option.isSome_none, Bool.false_eq_true, if_false, Bool.false_or, Quad.set_get]

/-- R14: the steps of an UNMOUNT, one after the other. -/
theorem State.unmountOf_eq (d : DriveId) (m : MountRec) :
    s.unmountOf d m = ((((((((((State.releaseDrive { s with
      discard := s.discard.set d ((s.attempts.get d).isSome || s.discard.get d) } false d).setCtxReq d none).setMount d
        (some { m with phase := .unmounting, sweepOn := false })).setWork d []).setSched d (s.scheds.get d).forget).goneOn
          d .a).goneOn d .b).emptyStreams d .a).emptyStreams d .b).dropCursor d .a).dropCursor d .b := by
  unfold State.unmountOf
  dsimp only
  rw [State.discard_eq]
  simp

/-- R14: all that the taking down of a mount does. -/
theorem State.unmountOf_frame (d : DriveId) (m : MountRec) : s.unmountOf d m = { s with
    ports := (s.unmountOf d m).ports
    streams := (s.unmountOf d m).streams
    deferred := (s.unmountOf d m).deferred
    events := (s.unmountOf d m).events
    unitMap := (s.releaseDrive false d).unitMap
    mounts := s.mounts.set d (some { m with phase := .unmounting, sweepOn := false })
    discard := s.discard.set d ((s.attempts.get d).isSome || s.discard.get d)
    works := s.works.set d []
    contexts := s.contexts.map (freedFor d)
    ctxReq := s.ctxReq.set d none
    scheds := s.scheds.set d { s.scheds.get d with last := none, burst := 0 } } := by
  have hmap : (State.releaseDrive { s with
      discard := s.discard.set d ((s.attempts.get d).isSome || s.discard.get d) } false d).unitMap
        = (s.releaseDrive false d).unitMap :=
    State.releaseFold_map false d _ _ s rfl rfl (fun m' h => ⟨m', h, rfl⟩) id
  apply State.ext_fields <;>
    simp [State.unmountOf_eq, State.goneOn_eq, State.dropCursor_eq, State.emptyStreams, State.releaseDrive_contexts,
      hmap, Sched.forget]

/-- R41: a cursor that names the drive becomes absent. -/
theorem State.unmountOf_ports (d : DriveId) (m : MountRec) (q : PortId) : (s.unmountOf d m).ports.get q =
    { s.ports.get q with
      cursor := if (s.ports.get q).cursor.any (fun c => c.1 == d) then none else (s.ports.get q).cursor } := by
  rw [State.unmountOf_eq, State.dropCursor_eq, State.dropCursor_eq]
  cases q <;> simp [State.goneOn_eq, State.emptyStreams, Pair.set, Pair.get] <;> rfl

/-- R147: the streams of the views that show the drive are emptied. -/
theorem State.unmountOf_streams (d : DriveId) (m : MountRec) (q : PortId) (w : ViewId) :
    ((s.unmountOf d m).streams.get q).get w =
      if ((s.views.get q).get w).any (fun x => x.drive == d) then ⟨none, none⟩ else (s.streams.get q).get w := by
  rw [State.unmountOf_eq, State.dropCursor_eq, State.dropCursor_eq]
  cases q <;> simp [State.goneOn_eq, State.emptyStreams, Pair.set, Pair.get, Stream.empty] <;> rfl

/-- R146: the entries that name the drive become GONE. -/
theorem State.unmountOf_deferred (d : DriveId) (m : MountRec) (q : PortId) : (s.unmountOf d m).deferred.get q =
    (s.deferred.get q).map fun e => if e.drive == d then { e with state := .gone } else e := by
  rw [State.unmountOf_eq, State.dropCursor_eq, State.dropCursor_eq]
  cases q <;> simp [State.goneOn_eq, State.emptyStreams, Pair.set, Pair.get]

/-- R146: DEFER_READY is raised where an entry was not GONE. -/
theorem State.unmountOf_events (d : DriveId) (m : MountRec) (q : PortId) : (s.unmountOf d m).events.get q =
    { s.events.get q with
      raw := if (s.deferred.get q).any (fun e => e.drive == d && e.state != .gone)
        then (s.events.get q).raw ||| Event.deferReady.bit else (s.events.get q).raw } := by
  rw [State.unmountOf_eq, State.dropCursor_eq, State.dropCursor_eq]
  cases q <;> simp [State.goneOn_eq, State.emptyStreams, Pair.set, Pair.get]

theorem State.carry_unmount (p : PortId) (d : DriveId) : s.carry p .unmount [d.param] = s.doUnmount d :=
  s.withDrive_param d _ _

/-- R8: a parameter that names a drive is in range. -/
theorem decide_driveParam (d : DriveId) : decide (d.param.toNat ≤ 3) = true := decide_eq_true (driveParam_le d)

theorem unmount_rangesOk (d : DriveId) : ReqCode.unmount.rangesOk [d.param] = true := by
  have hr : ReqCode.unmount.rangesOk [d.param] = decide (d.param.toNat ≤ 3) := rfl
  rw [hr, decide_driveParam]

theorem State.doUnmount_open {s : State} {d : DriveId} {m : MountRec} (h : s.openMount d = some m) :
    s.doUnmount d = ((s.unmountOf d m).settle s, .reply .ok []) := by
  unfold State.doUnmount
  rw [h]

theorem State.doUnmount_closed {s : State} {d : DriveId} (h : s.openMount d = none) :
    s.doUnmount d = (s, .reply .notMounted []) := by
  unfold State.doUnmount
  rw [h]
  rfl

theorem State.mount_of_openMount {s : State} {d : DriveId} {m : MountRec} (h : s.openMount d = some m) :
    s.mounts.get d = some m := by
  unfold State.openMount at h
  split at h
  next m' hm =>
    split at h
    · cases h
    · rw [hm, h]
  next => cases h

/-! ### The completion of an UNMOUNT -/

theorem State.unmountStep_due {s : State} {d : DriveId} (h : s.unmountDue d = true) :
    s.unmountStep d = some (s.completeUnmount d) := if_pos h

theorem State.unmountStep_notDue {s : State} {d : DriveId} (h : s.unmountDue d = false) :
    s.unmountStep d = none := if_neg (by rw [h]; decide)

/-- R15: all that a completion does. -/
theorem State.completeUnmount_eq {s : State} {d : DriveId} {m : MountRec} (h : s.mounts.get d = some m) :
    s.completeUnmount d = State.settle { s with
      mounts := s.mounts.set d none
      unitMap := Sparse.clear s.unitMap m.mapFirst m.u
      drives := s.drives.set d { s.drives.get d with
        pend := if (s.drives.get d).link = .online ∧ PendTx.relax ∉ (s.drives.get d).pend
          then (s.drives.get d).pend ++ [.relax] else (s.drives.get d).pend } } s := by
  unfold State.completeUnmount
  rw [h]
  dsimp only
  rw [State.request_eq]
  congr 1
  show (if ((s.drives.get d).link == .online) = true then _ else _) = _
  by_cases ho : (s.drives.get d).link = .online
  · rw [if_pos (beq_iff_eq.mpr ho)]
    by_cases hr : PendTx.relax ∈ (s.drives.get d).pend
    · simp [hr, withTx, State.setDrive, State.setMount]
    · simp [hr, ho, withTx, State.setDrive, State.setMount]
  · rw [if_neg (by simpa using ho), if_neg (fun h => ho h.1)]
    exact State.ext_fields rfl rfl rfl rfl rfl rfl rfl rfl rfl rfl rfl rfl rfl rfl rfl rfl rfl rfl rfl
      (Quad.set_get _ _).symm rfl rfl rfl rfl rfl rfl rfl rfl rfl rfl

/-! ### RESUME -/

theorem State.carry_resume (p : PortId) (d : DriveId) : s.carry p .resume [d.param] = s.doResume d :=
  s.withDrive_param d _ _

theorem resume_rangesOk (d : DriveId) : ReqCode.resume.rangesOk [d.param] = true := by
  have hr : ReqCode.resume.rangesOk [d.param] = decide (d.param.toNat ≤ 3) := rfl
  rw [hr, decide_driveParam]

/-- A RESUME that its owning block refuses. -/
theorem State.resume_refused {s : State} {p : PortId} (h : s.ready p) (tag : Byte) (d : DriveId) {st : Status}
    (hst : st.captured = false) (hd : (s.framed p 1).doResume d = (s.framed p 1, .reply st [])) :
    exec (.resume p (Frame.good 0x12 tag [d.param])) s = .next (s.answered p 1 st tag []) :=
  State.command_refuses h (c := .resume) tag hst rfl (resume_rangesOk d) ((State.carry_resume _ p d).trans hd)

theorem State.doResume_closed {s : State} {d : DriveId} (h : s.openMount d = none) :
    s.doResume d = (s, .reply .notMounted []) := by
  unfold State.doResume
  unfold State.openMount at h
  cases hm : s.mounts.get d with
  | none => rfl
  | some m =>
    rw [hm] at h
    cases hp : m.phase <;> simp [hp] at h ⊢
    rfl

theorem State.doResume_mounted {s : State} {d : DriveId} {m : MountRec} (h : s.mounts.get d = some m)
    (hp : m.phase = .mounted) : s.doResume d = (s, .reply .alreadyMounted []) := by
  unfold State.doResume
  rw [h]
  dsimp only
  rw [hp]
  rfl

theorem State.doResume_absent {s : State} {d : DriveId} {m : MountRec} (h : s.mounts.get d = some m)
    (hp : m.phase = .lost) (ha : (s.drives.get d).link ≠ .online ∨ (s.drives.get d).medium = false) :
    s.doResume d = (s, .reply .noMedium []) := by
  unfold State.doResume
  rw [h]
  dsimp only
  rw [hp]
  exact if_pos (by simpa using ha)

/-- R19: all that a RESUME that is carried out does. -/
theorem State.doResume_lost {s : State} {d : DriveId} {m : MountRec} (h : s.mounts.get d = some m)
    (hp : m.phase = .lost) (ho : (s.drives.get d).link = .online) (hmed : (s.drives.get d).medium = true)
    (hw : s.power.state = .active ∨ s.power.state = .quiet) : s.doResume d = (State.settle { s with
      mounts := s.mounts.set d (some { m with phase := .mounted })
      scheds := s.scheds.set d { s.scheds.get d with last := none, burst := 0 }
      power := { s.power with state := .active } } s, .reply .ok []) := by
  unfold State.doResume
  rw [h]
  dsimp only
  rw [hp]
  refine (if_neg (by simp [ho, hmed])).trans ?_
  rw [State.newWork_eq (by exact hw)]
  rfl

end Sys2Proof.Machine


namespace Sys2Proof.Proofs
open Sys2Proof.Machine

/-- Settles O12: the six tests of R10 in their order. -/
theorem mountRefusals : Obligations.MountRefusals := by
  unfold Obligations.MountRefusals
  intro p tag slot d s h hslot
  refine ⟨fun hm => ?mounted, fun hm hl => ?noMedium, fun hm ho hp => ⟨fun hv => ?noProfile,
    fun src bytes hv => ⟨fun hk => ?kind, fun hk hr => ?noRecords, fun hk hr hq => ?noPages⟩⟩⟩
  case mounted =>
    refine State.mount_refused h tag d hslot rfl ?_
    rw [State.mountTests, if_pos (Option.isSome_iff_ne_none.mpr hm)]
  case noMedium =>
    refine State.mount_refused h tag d hslot rfl ?_
    have hl' : ((s.drives.get d).link != .online || !(s.drives.get d).medium) = true := by simpa using hl
    rw [State.mountTests, if_neg (by rw [hm]; decide), if_pos hl']
  case noProfile =>
    refine State.mount_refused h tag d hslot rfl ?_
    rw [State.mountTests_present hm ho hp]
    cases ht : s.table.getD slot.toNat .empty with
    | valid src bytes => exact absurd ht (hv src bytes)
    | empty | invalid => rfl
  case kind =>
    refine State.mount_refused h tag d hslot rfl ?_
    rw [State.mountTests_present hm ho hp, hv]
    exact if_pos hk
  case noRecords =>
    refine State.mount_refused h tag d hslot rfl ?_
    rw [State.mountTests_present hm ho hp, hv]
    dsimp only
    rw [if_neg (not_not.mpr hk), firstFit_none.mpr hr]
  case noPages =>
    obtain ⟨r, hr⟩ := exists_least hr
    have hr' := firstFit_some.mpr ⟨hr.1, fun r' h' => Bool.eq_false_iff.mpr (hr.2 r' h')⟩
    refine State.mount_refused h tag d hslot rfl ?_
    rw [State.mountTests_present hm ho hp, hv]
    dsimp only
    rw [if_neg (not_not.mpr hk), hr', firstFit_none.mpr hq]

/-- Settles O13. -/
theorem mountSucceeds : Obligations.MountSucceeds := by
  unfold Obligations.MountSucceeds
  intro p tag slot d s src bytes r q h hslot hm ho hp hv hk hr hr' hq hq'
  have hon := State.mountOn_eq (s := s.framed p 2) h.2.1 d (newMount slot.toNat (Profile.ofBytes bytes) r q)
  refine ⟨(s.framed p 2).mountOn d (newMount slot.toNat (Profile.ofBytes bytes) r q), ?taken, ?state,
    fun u hu => ?fresh, fun k hk => ?others⟩
  case state => rw [hon]; rfl
  case taken =>
    have ht : (s.framed p 2).mountTests d slot.toNat = .ok (Profile.ofBytes bytes, r, q) := by
      show s.mountTests d slot.toNat = _
      rw [State.mountTests_present hm ho hp, hv]
      dsimp only
      rw [if_neg (not_not.mpr hk), firstFit_some.mpr ⟨hr, hr'⟩]
      dsimp only
      rw [firstFit_some.mpr ⟨hq, hq'⟩]
    refine State.command_settles h (c := .mount) tag rfl (mount_rangesOk d hslot) ?_
    refine (State.carry_mount _ p d slot).trans ?_
    show State.doMount (s.framed p 2) d slot.toNat = _
    rw [State.doMount, ht]
    dsimp only
    rw [MountRec.payload, newMount, leBytes_one_toNat]
    rfl
  case fresh =>
    rw [State.unitRec_of (m := newMount slot.toNat (Profile.ofBytes bytes) r q) (by rw [hon]; exact Quad.get_set _ _ _),
      hon]
    exact (Sparse.get_clear _ _ _ _).trans (if_pos ⟨Nat.le_add_right _ _, Nat.add_lt_add_left hu _⟩)
  case others =>
    rw [hon]
    exact (Sparse.get_clear _ _ _ _).trans (if_neg fun h => by
      obtain ⟨h1, h2⟩ := h
      rcases hk with hk | hk
      · exact absurd h1 (by exact Nat.not_le.mpr hk)
      · exact absurd h2 (Nat.not_lt.mpr hk))

/-- Settles O14. -/
theorem unmountRequest : Obligations.UnmountRequest := by
  unfold Obligations.UnmountRequest
  intro p tag d s h
  refine ⟨fun hm => ?closed, fun m hm => ⟨(s.framed p 1).unmountOf d m, ?openMount, ?state,
    fun q => ?ports, State.unmountOf_streams _ d m, State.unmountOf_deferred _ d m,
    State.unmountOf_events _ d m, fun u => ?unit, fun k hk => ?others⟩⟩
  case closed =>
    exact State.command_refuses h (c := .unmount) tag rfl rfl (unmount_rangesOk d)
      ((State.carry_unmount _ p d).trans (State.doUnmount_closed (s := s.framed p 1) hm))
  case openMount =>
    exact State.command_settles h (c := .unmount) tag rfl (unmount_rangesOk d)
      ((State.carry_unmount _ p d).trans (State.doUnmount_open (s := s.framed p 1) hm))
  case state =>
    have hmap : ((s.framed p 1).unmountOf d m).unitMap = ((s.framed p 1).releaseDrive false d).unitMap := by
      rw [State.unmountOf_frame]
    rw [hmap]
    exact State.unmountOf_frame (s.framed p 1) d m
  case ports =>
    rw [State.unmountOf_ports]
    cases p <;> cases q <;> rfl
  case unit =>
    have hget := State.mount_of_openMount hm
    rw [State.unitRec_of (m := { m with phase := .unmounting, sweepOn := false })
      (by rw [State.unmountOf_frame]; exact Quad.get_set _ _ _), State.unmountOf_frame]
    have hr := State.releaseDrive_unit (s.framed p 1) d (m := m) hget u
    rw [State.unitRec_of (m := m) (by rw [State.releaseDrive_mounts]; exact hget)] at hr
    exact hr
  case others =>
    rw [State.unmountOf_frame]
    exact State.releaseDrive_map (s.framed p 1) false d k fun m' hm' c hc x hx hd u hu => by
      have hmm : m' = m := Option.some.inj (hm'.symm.trans (State.mount_of_openMount hm))
      rw [hmm]
      exact hk c hc x u hx hd hu

/-- Settles O15. -/
theorem unmountCompletes : Obligations.UnmountCompletes := by
  unfold Obligations.UnmountCompletes
  rintro d s g rfl
  refine ⟨fun hc hl m hm hp ha => ?due, fun m hm hp ha => ⟨_, ?completes, rfl⟩, fun h => ?refused⟩
  case due =>
    refine State.due_of_unmountDue (Bool.eq_false_iff.mpr fun hg => ?_) (Bool.eq_false_iff.mpr fun hg => ?_)
      ((s.unmountDue_iff d).mpr ⟨⟨m, hm, hp⟩, ha⟩)
    · obtain ⟨hf, e, he⟩ := s.grantDue_iff.mp hg
      exact hc.elim hf fun h => he (h e)
    · obtain ⟨hx, hcl, e, he⟩ := s.grantOf_isSome_iff.mp hg
      rcases hl with h | h | h
      · exact h hx
      · rw [hcl] at h; cases h
      · exact he (h e)
  case completes =>
    have hd := ((s.upTo (.unmountComplete d)).unmountDue_iff d).mpr ⟨⟨m, hm, hp⟩, ha⟩
    show stepOut ((s.upTo (.unmountComplete d)).unmountStep d) = _
    rw [State.unmountStep_due hd, State.completeUnmount_eq hm]
    rfl
  case refused =>
    have hd : (s.upTo (.unmountComplete d)).unmountDue d = false := Bool.eq_false_iff.mpr fun hd => by
      obtain ⟨⟨m, hm, hp⟩, ha⟩ := ((s.upTo (.unmountComplete d)).unmountDue_iff d).mp hd
      exact (h m hm).elim (· hp) (· ha)
    show stepOut ((s.upTo (.unmountComplete d)).unmountStep d) = _
    rw [State.unmountStep_notDue hd]
    rfl

/-- Settles O16. -/
theorem resumeRequest : Obligations.ResumeRequest := by
  unfold Obligations.ResumeRequest
  intro p tag d s h
  refine ⟨fun hm => ?closed, fun m hm => ⟨fun hp => ?mounted, fun hp ha => ?absent, fun hp ho hmed => ⟨_, ?lost, rfl⟩⟩⟩
  case closed => exact State.resume_refused h tag d rfl (State.doResume_closed (s := s.framed p 1) hm)
  case mounted => exact State.resume_refused h tag d rfl (State.doResume_mounted (s := s.framed p 1) hm hp)
  case absent => exact State.resume_refused h tag d rfl (State.doResume_absent (s := s.framed p 1) hm hp ha)
  case lost =>
    exact State.command_settles h (c := .resume) tag rfl (resume_rangesOk d)
      ((State.carry_resume _ p d).trans (State.doResume_lost (s := s.framed p 1) hm hp ho hmed h.2.1))

end Sys2Proof.Proofs
end

section
/-! Requests on the map, the lists, the rests and the views: RECOVER (R37), SWEEP (R35), QUERY MAP and QUERY MAP NEXT
(R40, R41, R177), HOLD (R111), SET VIEW and CLEAR VIEW (R135, R136, R149). -/
namespace Sys2Proof.Machine

variable (s : State)

/-! ### Refusals and parameters -/

/-- A request whose owning block refuses a parameter is answered BAD_PARAM and captured, on a port that is ready. -/
theorem State.command_refusesParam {s : State} {p : PortId} (h : s.ready p) {c : ReqCode} (tag : Byte)
    {ps : List Byte} (hl : c.lengthOk ps = true) (hr : c.rangesOk ps = true)
    (hc : (s.framed p ps.length).carry p c ps = (s.framed p ps.length, .reply .badParam [])) : ∃ t : State,
    exec (c.command p (Frame.good c.byte tag ps)) s = .next t ∧ t = { s with
      ports := s.ports.set p ((s.ports.get p).answered ps.length .badParam tag [])
      errors := t.errors, events := t.events } := by
  refine ⟨_, ?_, s.framed_answer_frame p c.byte (Frame.good c.byte tag ps) ps.length .badParam []⟩
  rw [exec_command_good, State.frame_ready h tag hl hr, hc, Handled.deliver_reply]

/-- The first field of two bytes behind a drive. -/
theorem leField_param_first (d : DriveId) {v : Nat} (h : v < 65536) (l : List Byte) :
    leField (d.param :: (leBytes 2 v ++ l)) 2 1 = v :=
  (leField_cons _ _ 2 0).trans (leField_leBytes2 v h l)

/-- The second field of two bytes behind a drive. -/
theorem leField_param_second (d : DriveId) (v : Nat) {w : Nat} (h : w < 65536) (l : List Byte) :
    leField (d.param :: (leBytes 2 v ++ (leBytes 2 w ++ l))) 2 3 = w :=
  (leField_cons _ _ 2 2).trans (leField_leBytes2 w h l)

/-! ### RECOVER -/

def recoverParams (d : DriveId) (first count : Nat) : List Byte := d.param :: (leBytes 2 first ++ leBytes 2 count)

theorem recover_rangesOk (d : DriveId) (first : Nat) {count : Nat} (h1 : 1 ≤ count) (h2 : count < 65536) :
    ReqCode.recover.rangesOk (recoverParams d first count) = true := by
  have hf : leField (recoverParams d first count) 2 3 = count := by
    rw [recoverParams, ← List.append_nil (leBytes 2 count)]
    exact leField_param_second d first h2 []
  have hr : ReqCode.recover.rangesOk (recoverParams d first count) =
    (decide (d.param.toNat ≤ 3) && decide (1 ≤ leField (recoverParams d first count) 2 3)) := rfl
  rw [hr, hf, decide_driveParam, decide_eq_true h1]
  rfl

theorem State.carry_recover (p : PortId) (d : DriveId) {first count : Nat} (h1 : first < 65536) (h2 : count < 65536) :
    s.carry p .recover (recoverParams d first count) = s.doRecover p d first count := by
  have hf : leField (recoverParams d first count) 2 1 = first := leField_param_first d h1 _
  have hc : leField (recoverParams d first count) 2 3 = count := by
    rw [recoverParams, ← List.append_nil (leBytes 2 count)]
    exact leField_param_second d first h2 []
  refine (s.withDrive_param d _ _).trans ?_
  show s.doRecover p d (leField (recoverParams d first count) 2 1) (leField (recoverParams d first count) 2 3) = _
  rw [hf, hc]

/-- R37: the demands that a run of RECOVER makes, and the one that is Refused after them. -/
theorem State.recoverRun_spec (d : DriveId) (p : PortId) : ∀ (n u k : Nat) (s : State), ∃ j, j ≤ n ∧
    s.recoverRun d p u n k = (s.demands d (.direct p) u j, k + j) ∧
    (∀ i, i < j → ((s.demands d (.direct p) u i).demand d (u + i) (.direct p)).2 ≠ .refused) ∧
    (j < n → ((s.demands d (.direct p) u j).demand d (u + j) (.direct p)).2 = .refused)
  | 0, u, k, s => ⟨0, le_rfl, rfl, nofun, nofun⟩
  | n + 1, u, k, s => by
    by_cases hr : (s.demand d u (.direct p)).2 = .refused
    · refine ⟨0, Nat.zero_le _, ?_, nofun, fun _ => hr⟩
      unfold State.recoverRun
      split
      next => rfl
      next s' o hne heq => rw [heq] at hr; exact absurd hr hne
    · obtain ⟨j, hj, hrun, hacc, hstop⟩ := State.recoverRun_spec d p n (u + 1) (k + 1) (s.demand d u (.direct p)).1
      refine ⟨j + 1, Nat.succ_le_succ hj, ?_, fun i hi => ?_, fun hlt => ?_⟩
      · unfold State.recoverRun
        split
        next s' heq => rw [heq] at hr; exact absurd rfl hr
        next s' o hne heq =>
          rw [heq] at hrun
          rw [hrun, State.demands, heq]
          congr 1
          omega
      · cases i with
        | zero => exact hr
        | succ i =>
          have := hacc i (Nat.lt_of_succ_lt_succ hi)
          rwa [Nat.add_assoc, Nat.add_comm 1 i] at this
      · have := hstop (Nat.lt_of_succ_lt_succ hlt)
        rwa [Nat.add_assoc, Nat.add_comm 1 j] at this

theorem State.doRecover_closed {s : State} {d : DriveId} (h : s.openMount d = none) (p : PortId) (first count : Nat) :
    s.doRecover p d first count = (s, .reply .notMounted []) := by
  unfold State.doRecover
  rw [h]
  rfl

theorem State.doRecover_beyond {s : State} {d : DriveId} {m : MountRec} (h : s.openMount d = some m) (p : PortId)
    {first : Nat} (hu : m.u ≤ first) (count : Nat) : s.doRecover p d first count = (s, .reply .badParam []) := by
  unfold State.doRecover
  rw [h]
  exact if_pos hu

theorem State.doRecover_run {s : State} {d : DriveId} {m : MountRec} (h : s.openMount d = some m) (p : PortId)
    {first : Nat} (hu : first < m.u) (count : Nat) {t : State} {k : Nat}
    (hr : s.recoverRun d p first (min count (m.u - first)) 0 = (t, k)) : s.doRecover p d first count =
      if 1 ≤ k then (t.settle s, .reply .ok (leBytes 2 k ++ leBytes 2 (min count (m.u - first))))
      else (s, .reply .busy (leBytes 2 k ++ leBytes 2 (min count (m.u - first)))) := by
  unfold State.doRecover
  rw [h]
  dsimp only
  rw [if_neg (Nat.not_le.mpr hu), hr]

/-! ### SWEEP -/

def sweepParams (d : DriveId) (on : Bool) (start : Nat) : List Byte :=
  d.param :: BitVec.ofNat 8 (flag on) :: leBytes 2 start

theorem sweep_rangesOk (d : DriveId) (on : Bool) (start : Nat) :
    ReqCode.sweep.rangesOk (sweepParams d on start) = true := by
  have hr : ReqCode.sweep.rangesOk (sweepParams d on start) =
    (decide (d.param.toNat ≤ 3) && decide ((BitVec.ofNat 8 (flag on)).toNat ≤ 1)) := rfl
  rw [hr, decide_driveParam]
  cases on <;> rfl

theorem State.carry_sweep (p : PortId) (d : DriveId) (on : Bool) {start : Nat} (h : start < 65536) :
    s.carry p .sweep (sweepParams d on start) = s.doSweep d on start := by
  have hs : leField (sweepParams d on start) 2 2 = start := by
    rw [sweepParams, leField_cons, leField_cons, ← List.append_nil (leBytes 2 start), leField_leBytes2 start h]
  have ho : (byteAt (sweepParams d on start) 1 == 1) = on := by cases on <;> rfl
  refine (s.withDrive_param d _ _).trans ?_
  show s.doSweep d (byteAt (sweepParams d on start) 1 == 1) (leField (sweepParams d on start) 2 2) = _
  rw [hs, ho]

theorem State.doSweep_closed {s : State} {d : DriveId} (h : s.openMount d = none) (on : Bool) (start : Nat) :
    s.doSweep d on start = (s, .reply .notMounted []) := by
  unfold State.doSweep
  rw [h]
  rfl

theorem State.doSweep_beyond {s : State} {d : DriveId} {m : MountRec} (h : s.openMount d = some m) {start : Nat}
    (hu : m.u ≤ start) : s.doSweep d true start = (s, .reply .badParam []) := by
  unfold State.doSweep
  rw [h]
  exact if_pos hu

/-- R35, R116: all that a SWEEP turned on does. -/
theorem State.doSweep_on {s : State} {d : DriveId} {m : MountRec} (h : s.openMount d = some m) {start : Nat}
    (hu : start < m.u) (hw : s.power.state = .active ∨ s.power.state = .quiet) :
    s.doSweep d true start = (State.settle { s with
      mounts := s.mounts.set d (some { m with sweepOn := true, cursor := start })
      power := if m.phase = .mounted then { s.power with state := .active } else s.power } s,
      .reply .ok (1 :: leBytes 2 start)) := by
  unfold State.doSweep
  rw [h]
  dsimp only
  rw [if_pos rfl, if_neg (Nat.not_le.mpr hu), State.newWork_eq (by exact hw)]
  by_cases hp : m.phase = .mounted
  · rw [if_pos (beq_iff_eq.mpr hp), if_pos hp]
    rfl
  · rw [if_neg (by simpa using hp), if_neg hp]
    rfl

/-- R33: the entries that remain when a sweep is turned off. -/
theorem State.unswept_eq (d : DriveId) : s.unswept d = (s.works.get d).filterMap fun e =>
    if e.cls = ⟨.none, .none⟩ ∧ s.isActive d e.unit = false then none else some { e with sweep := false } := by
  unfold State.unswept
  refine congrFun (congrArg _ (funext fun e => ?_)) _
  obtain ⟨u, ⟨a, b⟩, sw⟩ := e
  cases a <;> cases b <;> cases s.isActive d u <;> rfl

/-- The state that a SWEEP turned off leaves before the schedulers follow. -/
def State.sweptOff (d : DriveId) (m : MountRec) : State :=
  if (s.unswept d).isEmpty then
    ((s.setMount d (some { m with sweepOn := false })).leaveWork d (s.unswept d)).raiseBoth .workIdle
  else (s.setMount d (some { m with sweepOn := false })).leaveWork d (s.unswept d)

theorem State.doSweep_off {s : State} {d : DriveId} {m : MountRec} (h : s.openMount d = some m) (start : Nat) :
    s.doSweep d false start = ((s.sweptOff d m).settle s, .reply .ok (0 :: leBytes 2 m.cursor)) := by
  unfold State.doSweep
  rw [h]
  rfl

theorem State.sweptOff_works (d : DriveId) (m : MountRec) : (s.sweptOff d m).works = s.works.set d (s.unswept d) := by
  unfold State.sweptOff
  rw [State.leaveWork_eq]
  split <;> rfl

/-- R34, R35: all that a SWEEP turned off does. -/
theorem State.sweptOff_eq (d : DriveId) (m : MountRec) : s.sweptOff d m = { s with
    mounts := s.mounts.set d (some { m with sweepOn := false })
    works := (s.sweptOff d m).works
    events := (s.sweptOff d m).events
    ctxReq := s.ctxReq.set d ((s.ctxReq.get d).filter fun u => ((s.sweptOff d m).entryOf d u).isSome) } := by
  have he : ∀ u, (s.sweptOff d m).entryOf d u = (s.unswept d).find? fun e => e.unit == u := by
    intro u
    rw [State.entryOf, State.sweptOff_works, Quad.get_set]
  simp only [he]
  rw [State.sweptOff_works]
  unfold State.sweptOff
  rw [State.leaveWork_eq]
  split <;> rfl

theorem State.sweptOff_events (d : DriveId) (m : MountRec) (q : PortId) : (s.sweptOff d m).events.get q =
    { s.events.get q with
      raw := if (s.sweptOff d m).works.get d = [] then (s.events.get q).raw ||| Event.workIdle.bit
        else (s.events.get q).raw } := by
  rw [State.sweptOff_works, Quad.get_set]
  unfold State.sweptOff
  rw [State.leaveWork_eq]
  by_cases h : s.unswept d = []
  · rw [if_pos h, if_pos (List.isEmpty_iff.mpr h)]
    cases q <;> rfl
  · rw [if_neg h, if_neg (by simpa using h)]
    rfl

/-! ### QUERY MAP -/

def queryParams (d : DriveId) (first : Nat) (count : Byte) : List Byte := d.param :: (leBytes 2 first ++ [count])

theorem query_rangesOk (d : DriveId) (first : Nat) {count : Byte} (h1 : 1 ≤ count.toNat) (h2 : count.toNat ≤ 128) :
    ReqCode.queryMap.rangesOk (queryParams d first count) = true := by
  have hr : ReqCode.queryMap.rangesOk (queryParams d first count) =
    (decide (d.param.toNat ≤ 3) && decide (1 ≤ count.toNat) && decide (count.toNat ≤ 128)) := rfl
  rw [hr, decide_driveParam, decide_eq_true h1, decide_eq_true h2]
  rfl

theorem queryNext_rangesOk {count : Byte} (h1 : 1 ≤ count.toNat) (h2 : count.toNat ≤ 128) :
    ReqCode.queryMapNext.rangesOk [count] = true := by
  have hr : ReqCode.queryMapNext.rangesOk [count] = (decide (1 ≤ count.toNat) && decide (count.toNat ≤ 128)) := rfl
  rw [hr, decide_eq_true h1, decide_eq_true h2]
  rfl

theorem State.carry_queryMap (p : PortId) (d : DriveId) {first : Nat} (h : first < 65536) (count : Byte) :
    s.carry p .queryMap (queryParams d first count) = s.doQueryMap p d first count.toNat := by
  have hf : leField (queryParams d first count) 2 1 = first := leField_param_first d h _
  refine (s.withDrive_param d _ _).trans ?_
  show s.doQueryMap p d (leField (queryParams d first count) 2 1) count.toNat = _
  rw [hf]

theorem State.doQueryMap_closed {s : State} {d : DriveId} (h : s.openMount d = none) (p : PortId) (first count : Nat) :
    s.doQueryMap p d first count = (s, .reply .notMounted []) := by
  unfold State.doQueryMap
  rw [h]
  rfl

theorem State.doQueryMap_beyond {s : State} {d : DriveId} {m : MountRec} (h : s.openMount d = some m) (p : PortId)
    {first : Nat} (hu : m.u ≤ first) (count : Nat) : s.doQueryMap p d first count = (s, .reply .badParam []) := by
  unfold State.doQueryMap
  rw [h]
  exact if_pos hu

/-- R40: the summaries of the clipped run, and the cursor behind it. -/
theorem State.doQueryMap_run {s : State} {d : DriveId} {m : MountRec} (h : s.openMount d = some m) (p : PortId)
    {first : Nat} (hu : first < m.u) {count n : Nat} (hn : n = min count (m.u - first)) :
    s.doQueryMap p d first count =
      (s.setPort p { s.ports.get p with cursor := some (d, if first + n = m.u then 0 else first + n) },
        .reply .ok (d.param :: (leBytes 2 first ++ [BitVec.ofNat 8 n]
          ++ (List.range n).flatMap fun i => s.summary d (first + i)))) := by
  subst hn
  unfold State.doQueryMap
  rw [h]
  dsimp only
  rw [if_neg (Nat.not_le.mpr hu)]
  rfl

/-- The answer of a query, on a port that is ready. -/
theorem State.query_answers {s : State} {p : PortId} (h : s.ready p) {c : ReqCode} (tag : Byte)
    {ps payload : List Byte} {cur : Option (DriveId × Nat)} (hl : c.lengthOk ps = true) (hr : c.rangesOk ps = true)
    (hc : (s.framed p ps.length).carry p c ps =
      ((s.framed p ps.length).setPort p { (s.framed p ps.length).ports.get p with cursor := cur },
        .reply .ok payload)) :
    exec (c.command p (Frame.good c.byte tag ps)) s =
      .next (s.setPort p { (s.ports.get p).answered ps.length .ok tag payload with cursor := cur }) := by
  rw [State.command_settles h tag hl hr hc]
  cases p <;> rfl

/-! ### HOLD -/

def holdParams (d : DriveId) (duration : Nat) : List Byte := d.param :: leBytes 4 duration

theorem hold_rangesOk (d : DriveId) (duration : Nat) : ReqCode.hold.rangesOk (holdParams d duration) = true :=
  decide_driveParam d

theorem State.carry_hold (p : PortId) (d : DriveId) {duration : Nat} (h : duration < 4294967296) :
    s.carry p .hold (holdParams d duration) = s.doHold d duration := by
  have hf : leField (holdParams d duration) 4 1 = duration := by
    rw [holdParams, leField_cons, ← List.append_nil (leBytes 4 duration), leField_leBytes4 duration h]
  refine (s.withDrive_param d _ _).trans ?_
  show s.doHold d (leField (holdParams d duration) 4 1) = _
  rw [hf]

/-- R111: what a HOLD makes of a rest. -/
theorem Rest.hold_eq (r : Rest) (duration : Nat) : r.hold duration = { r with
    timer := if duration = 0 then none else some (min 600000 duration)
    cause := if duration = 0 then .none else .hold } := by
  have h0 : min 600000 duration = 0 ↔ duration = 0 := by omega
  unfold Rest.hold restTimer
  dsimp only
  simp only [Config.restMax, h0]

/-- R111: the payload of HOLD. -/
theorem Rest.hold_payload (r : Rest) (duration : Nat) : (r.hold duration).payload =
    leBytes 4 (min 600000 duration) ++
      [BitVec.ofNat 8 (if duration = 0 then 0 else 2), BitVec.ofNat 8 r.level, BitVec.ofNat 8 r.weakRun] := by
  rw [Rest.hold_eq, Rest.payload]
  by_cases h : duration = 0
  · subst h; rfl
  · simp only [if_neg h]
    rfl

/-! ### Views -/

/-- R34: WORK_IDLE after the last entry has left while the sweep is off. -/
theorem State.shrinkWork_empties {d : DriveId} {w : List Entry} (h : s.works.get d ≠ []) (hw : w = [])
    (ho : s.sweepOn d = false) (q : PortId) :
    ((s.shrinkWork d w).events.get q).raw.getLsbD Event.workIdle.pos = true := by
  subst hw
  exact State.shrinkWork_idle s d h ho q

/-- R149: what the tearing down of a stream without a range does. -/
theorem State.tearDown_idle {p : PortId} {w : ViewId}
    (h : (s.views.get p).get w = none ∨ ((s.streams.get p).get w).range = none) :
    s.tearDown p w = s.setStream p w ⟨none, none⟩ := by
  unfold State.tearDown
  rcases h with h | h
  · rw [h]; rfl
  · cases hv : (s.views.get p).get w with
    | none => rfl
    | some v => rw [h]; rfl

/-- R149: what the tearing down of a stream with a range does. -/
theorem State.tearDown_range {p : PortId} {w : ViewId} {v : View} {lo hi : Nat}
    (hv : (s.views.get p).get w = some v) (hr : ((s.streams.get p).get w).range = some (lo, hi)) :
    s.tearDown p w = (s.withdrawClass v.drive p .ahead lo hi).setStream p w ⟨none, none⟩ := by
  unfold State.tearDown
  rw [hv]
  dsimp only
  rw [hr]
  rfl

/-- R33: the entries that remain when a class of a port is withdrawn on a range. -/
theorem State.withdrawClass_works (d : DriveId) (p : PortId) {c : PortClass} (hc : c ≠ .none) (lo hi : Nat) :
    (s.withdrawClass d p c lo hi).works = s.works.set d ((s.works.get d).filterMap fun e =>
      if lo ≤ e.unit ∧ e.unit ≤ hi ∧ e.cls.get p = c then
        if e.cls.get p.other = .none ∧ e.sweep = false ∧ s.isActive d e.unit = false then none
        else some { e with cls := e.cls.set p .none }
      else if lo ≤ e.unit ∧ e.unit ≤ hi ∧ e.cls = ⟨.none, .none⟩ ∧ e.sweep = false ∧
        s.isActive d e.unit = false then none
      else some e) := by
  unfold State.withdrawClass
  rw [State.shrinkWork_eq]
  refine congrArg (s.works.set d) (congrFun (congrArg _ (funext fun e => ?_)) _)
  by_cases hlo : lo ≤ e.unit ∧ e.unit ≤ hi
  · obtain ⟨h1, h2⟩ := hlo
    obtain ⟨u, ⟨a, b⟩, sw⟩ := e
    simp only [h1, h2, and_self, if_true, true_and]
    generalize s.isActive d u = act
    cases c with
    | none => exact absurd rfl hc
    | ahead | direct => cases p <;> cases a <;> cases b <;> cases sw <;> cases act <;> rfl
  · rw [if_neg hlo, if_neg fun h => hlo ⟨h.1, h.2.1⟩, if_neg fun h => hlo ⟨h.1, h.2.1⟩]

def setViewParams (w : ViewId) (d : DriveId) (base : Nat) (k : Byte) (target : Nat) (ra dp : Byte) : List Byte :=
  w.param :: d.param :: (leBytes 4 base ++ k :: (leBytes 2 target ++ [ra, dp]))

theorem setViewParams_base (w : ViewId) (d : DriveId) {base : Nat} (h : base < 4294967296) (k : Byte) (target : Nat)
    (ra dp : Byte) : leField (setViewParams w d base k target ra dp) 4 2 = base := by
  rw [setViewParams, leField_cons, leField_cons, leField_leBytes4 base h]

theorem setViewParams_target (w : ViewId) (d : DriveId) (base : Nat) (k : Byte) {target : Nat} (h : target ≤ 32767)
    (ra dp : Byte) : leField (setViewParams w d base k target ra dp) 2 7 = target :=
  (leField_at_leBytes2 (pre := w.param :: d.param :: (leBytes 4 base ++ [k])) rfl [ra, dp] target).trans
    (Nat.mod_eq_of_lt (by omega))

/-- R135: the base must be a multiple of the window's length; the other ranges are met. -/
theorem setView_rangesOk (w : ViewId) (d : DriveId) {base : Nat} (hb : base < 4294967296) {k : Byte}
    (hk : k.toNat ≤ 16) {target : Nat} (ht : target ≤ 32767) {ra dp : Byte} (hra : ra.toNat ∈ [0, 1, 2, 4, 8])
    (hdp : dp.toNat ≤ 1) :
    ReqCode.setView.rangesOk (setViewParams w d base k target ra dp) = (base % 2 ^ k.toNat == 0) := by
  have hr : ReqCode.setView.rangesOk (setViewParams w d base k target ra dp) =
    (decide (w.param.toNat ≤ 3) && decide (d.param.toNat ≤ 3) && decide (k.toNat ≤ 16)
      && leField (setViewParams w d base k target ra dp) 4 2 % 2 ^ k.toNat == 0
      && decide (leField (setViewParams w d base k target ra dp) 2 7 ≤ 32767)
      && [0, 1, 2, 4, 8].contains ra.toNat && decide (dp.toNat ≤ 1)) := rfl
  rw [hr, setViewParams_base w d hb, setViewParams_target w d base k ht, decide_driveParam, decide_driveParam,
    decide_eq_true hk, decide_eq_true ht, decide_eq_true hdp, List.contains_iff_mem.mpr hra]
  simp

theorem State.carry_setView (p : PortId) (w : ViewId) (d : DriveId) {base : Nat} (hb : base < 4294967296) (k : Byte)
    {target : Nat} (ht : target ≤ 32767) (ra dp : Byte) :
    s.carry p .setView (setViewParams w d base k target ra dp) =
      s.doSetView p w ⟨d, base, k.toNat, target, ra.toNat, dp.toNat == 1⟩ (setViewParams w d base k target ra dp) := by
  refine (s.withDrive_param w _ _).trans ?_
  have hv : viewOf (setViewParams w d base k target ra dp) d =
      ⟨d, base, k.toNat, target, ra.toNat, dp.toNat == 1⟩ := by
    rw [viewOf, setViewParams_base w d hb, setViewParams_target w d base k ht]
    rfl
  rw [← hv]
  have hd : driveAt (setViewParams w d base k target ra dp) 1 = some d := driveAt_param_one _ _ _
  unfold State.withDrive
  rw [hd]

theorem State.carry_clearView (p : PortId) (w : ViewId) : s.carry p .clearView [w.param] = s.doClearView p w :=
  s.withDrive_param w _ _

end Sys2Proof.Machine

namespace Sys2Proof.Proofs
open Sys2Proof.Machine

/-- Settles O17. -/
theorem recoverRequest : Obligations.RecoverRequest := by
  unfold Obligations.RecoverRequest
  intro p tag d first count s h hf h1 h2
  have hcarry := State.carry_recover (s.framed p 5) p d hf h2
  have hr := recover_rangesOk d first h1 h2
  refine ⟨fun hm => ?closed, fun m hm => ⟨fun hu => ?beyond, fun hu => ?run⟩⟩
  case closed =>
    exact State.command_refuses h (c := .recover) tag rfl rfl hr
      (hcarry.trans (State.doRecover_closed (s := s.framed p 5) hm p first count))
  case beyond =>
    obtain ⟨t, he, ht⟩ := State.command_refusesParam h (c := .recover) tag rfl hr
      (hcarry.trans (State.doRecover_beyond (s := s.framed p 5) hm p hu count))
    exact ⟨t, he, (congrArg State.ports ht).trans rfl, (congrArg State.works ht).trans rfl⟩
  case run =>
    obtain ⟨k, hk, hrun, hacc, hstop⟩ :=
      State.recoverRun_spec d p (min count (m.u - first)) first 0 (s.framed p 5)
    rw [Nat.zero_add] at hrun
    have hdo := State.doRecover_run (s := s.framed p 5) hm p hu count hrun
    refine ⟨_, k, ?_, hk, rfl, hacc, hstop⟩
    by_cases hk1 : 1 ≤ k
    · rw [if_pos hk1] at hdo ⊢
      exact State.command_settles h (c := .recover) tag rfl hr (hcarry.trans hdo)
    · have hk0 : k = 0 := by omega
      rw [if_neg hk1, hk0] at hdo
      rw [if_neg hk1]
      exact State.command_refuses h (c := .recover) tag rfl rfl hr (hcarry.trans hdo)

/-- Settles O19. -/
theorem sweepRequest : Obligations.SweepRequest := by
  unfold Obligations.SweepRequest
  intro p tag d start s h hs
  have hcarry := fun on => State.carry_sweep (s.framed p 4) p d on hs
  refine ⟨fun hm on => ?closed, fun m hm => ⟨fun hu => ?beyond, fun hu => ⟨_, ?on, rfl⟩,
    (s.framed p 4).sweptOff d m, ?off, (s.framed p 4).sweptOff_eq d m, ?works, fun q => ?events⟩⟩
  case closed =>
    exact State.command_refuses h (c := .sweep) tag rfl rfl (sweep_rangesOk d on start)
      ((hcarry on).trans (State.doSweep_closed (s := s.framed p 4) hm on start))
  case beyond =>
    obtain ⟨t, he, ht⟩ := State.command_refusesParam h (c := .sweep) tag rfl (sweep_rangesOk d true start)
      ((hcarry true).trans (State.doSweep_beyond (s := s.framed p 4) hm hu))
    exact ⟨t, he, (congrArg State.ports ht).trans rfl, (congrArg State.mounts ht).trans rfl⟩
  case on =>
    exact State.command_settles h (c := .sweep) tag rfl (sweep_rangesOk d true start)
      ((hcarry true).trans (State.doSweep_on (s := s.framed p 4) hm hu h.2.1))
  case off =>
    exact State.command_settles h (c := .sweep) tag rfl (sweep_rangesOk d false start)
      ((hcarry false).trans (State.doSweep_off (s := s.framed p 4) hm start))
  case works =>
    rw [State.sweptOff_works, State.unswept_eq]
    rfl
  case events => exact (s.framed p 4).sweptOff_events d m q

/-- Settles O21. -/
theorem queryMap : Obligations.QueryMap := by
  unfold Obligations.QueryMap
  refine ⟨fun p tag count d first s h hf h1 h2 => ?query, fun p tag count s h h1 h2 => ?next⟩
  case query =>
    have hcarry := State.carry_queryMap (s.framed p 4) p d hf count
    have hr := query_rangesOk d first h1 h2
    refine ⟨fun hm => ?closed, fun m hm => ⟨fun hu => ?beyond, fun hu n hn => ?run, fun u => ?summary⟩⟩
    case closed =>
      exact State.command_refuses h (c := .queryMap) tag rfl rfl hr
        (hcarry.trans (State.doQueryMap_closed (s := s.framed p 4) hm p first _))
    case beyond =>
      obtain ⟨t, he, ht⟩ := State.command_refusesParam h (c := .queryMap) tag rfl hr
        (hcarry.trans (State.doQueryMap_beyond (s := s.framed p 4) hm p hu _))
      exact ⟨t, he, (congrArg State.ports ht).trans rfl⟩
    case run =>
      exact State.query_answers h (c := .queryMap) tag rfl hr
        (hcarry.trans (State.doQueryMap_run (s := s.framed p 4) hm p hu hn))
    case summary =>
      unfold State.summary
      simp only [leBytes_one, List.append_assoc, List.cons_append, List.nil_append]
  case next =>
    have hr := queryNext_rangesOk h1 h2
    have hcarry : ∀ cur, (s.ports.get p).cursor = cur → (s.framed p 1).carry p .queryMapNext [count] =
        match cur with
        | none => (s.framed p 1).refuse .notMounted
        | some (d, u) => (s.framed p 1).doQueryMap p d u count.toNat := by
      rintro cur rfl
      cases p <;> rfl
    refine ⟨fun hc => ?absent, fun d u hc => ⟨fun hm => ?closed, fun m n hm hu hn => ?run⟩⟩
    case absent =>
      exact State.command_refuses h (c := .queryMapNext) tag rfl rfl hr (hcarry _ hc)
    case closed =>
      exact State.command_refuses h (c := .queryMapNext) tag rfl rfl hr
        ((hcarry _ hc).trans (State.doQueryMap_closed (s := s.framed p 1) hm p u _))
    case run =>
      exact State.query_answers h (c := .queryMapNext) tag rfl hr
        ((hcarry _ hc).trans (State.doQueryMap_run (s := s.framed p 1) hm p hu hn))

/-- Settles O22. -/
theorem holdRequest : Obligations.HoldRequest := by
  unfold Obligations.HoldRequest
  rintro p tag d duration s h hd r rfl
  refine State.command_settles h (c := .hold) tag rfl (hold_rangesOk d duration) ?_
  refine (State.carry_hold _ p d hd).trans ?_
  show State.doHold (s.framed p 5) d duration = _
  rw [State.doHold, Rest.hold_payload, Rest.hold_eq]
  rfl

/-- Settles O23. -/
theorem setAndClearView : Obligations.SetAndClearView := by
  unfold Obligations.SetAndClearView
  rintro p tag k ra dp w d base target s h hbase hk ht hra hdp ps rfl
  refine ⟨fun hb => ?set, fun hb => ?misaligned, ?clear, fun hi => State.tearDown_idle s hi,
    fun v lo hi hv hr => ⟨?stream, ?works, fun hne he ho q => ?idle⟩⟩
  case set =>
    exact State.command_settles h (c := .setView) tag rfl
      ((setView_rangesOk w d hbase hk ht hra hdp).trans (beq_iff_eq.mpr hb))
      ((State.carry_setView _ p w d hbase k ht ra dp).trans rfl)
  case misaligned =>
    have hr := (setView_rangesOk w d hbase hk ht hra hdp).trans (beq_eq_false_iff_ne.mpr hb)
    have hframe := s.framed_answer_frame p ReqCode.setView.byte
      (Frame.good ReqCode.setView.byte tag (setViewParams w d base k target ra dp)) 11 .badParam []
    exact ⟨_, State.command_badParam h (c := .setView) tag rfl hr, State.answer_ports _ _ _ _ _ _ _,
      (congrArg State.views hframe).trans rfl⟩
  case clear =>
    exact State.command_settles h (c := .clearView) tag rfl (decide_driveParam w)
      ((State.carry_clearView _ p w).trans rfl)
  case stream =>
    rw [State.tearDown_range s hv hr]
    cases p <;> cases w <;> rfl
  case works =>
    rw [State.tearDown_range s hv hr]
    exact s.withdrawClass_works v.drive p (c := .ahead) nofun lo hi
  case idle =>
    rw [State.tearDown_range s hv hr] at he ⊢
    refine State.shrinkWork_empties s hne ?_ ho q
    have hw : ((s.withdrawClass v.drive p .ahead lo hi).works.get v.drive) = [] := he
    unfold State.withdrawClass at hw
    rw [State.shrinkWork_eq] at hw
    exact (Quad.get_set _ _ _).symm.trans hw

end Sys2Proof.Proofs
end

section
/-! Demands (R29 to R32, R69, R116). -/
namespace Sys2Proof.Machine

variable (s : State)

/-! ### What one demand does -/

theorem State.demand_terminal {s : State} {d : DriveId} {u : Nat} (h : s.isTerminal d u = true) (k : Demand) :
    s.demand d u k = (s, .satisfied) := by
  unfold State.demand
  rw [if_pos h]

/-- R29, outcome 2. -/
theorem State.demand_merged {s : State} {d : DriveId} {u : Nat} (h : s.isTerminal d u = false) {e : Entry}
    (he : s.entryOf d u = some e) (k : Demand) : s.demand d u k = ({ s with
      works := s.works.set d ((s.works.get d).map fun e' => if e'.unit == u then e'.merge k else e')
      power := if effRank (s.effOf d e) < effRank (s.effOf d (e.merge k)) then s.woken d else s.power
      scheds := s.owing d k }, .merged) := by
  unfold State.demand
  rw [if_neg (by rw [h]; decide), he]
  dsimp only
  rw [State.placed_eq]
  unfold State.woken State.newWork
  by_cases hr : effRank (s.effOf d e) < effRank (s.effOf d (e.merge k)) <;> by_cases hm : s.isMounted d = true <;>
    by_cases hq : s.power.state = .quiet <;> simp [hr, hm, hq, State.setWork, State.owing]

/-- R29, outcome 3, in a list with room. -/
theorem State.demand_inserted {s : State} {d : DriveId} {u : Nat} (h : s.isTerminal d u = false)
    (he : s.entryOf d u = none) (hl : (s.works.get d).length < 64) (k : Demand) : s.demand d u k = ({ s with
      works := s.works.set d (s.works.get d ++ [Entry.new u k])
      power := s.woken d
      scheds := s.owing d k }, .inserted) := by
  unfold State.demand
  rw [if_neg (by rw [h]; decide), he]
  dsimp only
  rw [if_pos (show _ < Config.workListSize from hl), State.placed_eq, State.insertEntry_eq]
  rfl

/-- R30, R31: in a full list without a victim the demand is turned away. -/
theorem State.demand_turnedAway {s : State} {d : DriveId} {u : Nat} (h : s.isTerminal d u = false)
    (he : s.entryOf d u = none) (hl : 64 ≤ (s.works.get d).length) (k : Demand) : s.victim d k = none →
    s.demand d u k = (s, match k with | .direct _ => .refused | .ahead _ | .sweep => .dropped) := by
  intro hv
  unfold State.demand
  rw [if_neg (by rw [h]; decide), he]
  dsimp only
  rw [if_neg (show ¬ _ < Config.workListSize from Nat.not_lt.mpr hl)]
  cases k <;> rw [hv]

/-- R29, outcome 3, in a full list: the victim leaves and the new entry is added. -/
theorem State.demand_displaces {s : State} {d : DriveId} {u : Nat} (h : s.isTerminal d u = false)
    (he : s.entryOf d u = none) (hl : 64 ≤ (s.works.get d).length) {k : Demand} {e : Entry}
    (hv : s.victim d k = some e) : s.demand d u k = ({ s.displace d e with
      works := s.works.set d ((s.works.get d).filter (fun e' => e'.unit != e.unit) ++ [Entry.new u k])
      power := s.woken d
      scheds := s.owing d k }, .inserted) := by
  unfold State.demand
  rw [if_neg (by rw [h]; decide), he]
  dsimp only
  rw [if_neg (show ¬ _ < Config.workListSize from Nat.not_lt.mpr hl), hv]
  dsimp only
  rw [State.placed_eq, State.insertEntry_eq, State.displace_woken]
  simp only [State.displace_eq, Quad.get_set, Quad.set_set]
  rfl

/-! ### The victim of a full list -/

theorem newest_cons (test : Entry → Bool) (x : Entry) (w : List Entry) :
    newest test (x :: w) = if test x then some ((newest test w).getD x) else newest test w := by
  unfold newest
  rw [List.filter_cons]
  by_cases h : test x = true
  · rw [if_pos h, if_pos h, List.getLast?_cons]
  · rw [if_neg h, if_neg h]

theorem newest_none {test : Entry → Bool} {w : List Entry} :
    newest test w = none ↔ ∀ e ∈ w, test e = false := by
  unfold newest
  rw [List.getLast?_eq_none_iff, List.filter_eq_nil_iff]
  simp only [Bool.not_eq_true]

/-- The newest entry that passes a test: none after it passes. -/
theorem newest_some {test : Entry → Bool} {e : Entry} : ∀ {w : List Entry}, newest test w = some e →
    test e = true ∧ ∃ before after, w = before ++ e :: after ∧ ∀ x ∈ after, test x = false
  | [], h => by cases h
  | x :: w, h => by
    rw [newest_cons] at h
    cases hw : newest test w with
    | none =>
      rw [hw] at h
      split at h
      next hx =>
        cases h
        exact ⟨hx, [], w, rfl, newest_none.mp hw⟩
      next => cases h
    | some y =>
      have hy : y = e := by
        rw [hw] at h
        split at h <;> exact Option.some.inj h
      subst hy
      obtain ⟨ht, before, after, hwa, ha⟩ := newest_some hw
      exact ⟨ht, x :: before, after, by rw [hwa]; rfl, ha⟩

/-- R30: an entry of a class whose unit is not ACTIVE. -/
def State.movable (s : State) (d : DriveId) (c : EffClass) (e : Entry) : Bool :=
  !s.isActive d e.unit && s.effOf d e == some c

theorem State.movable_iff (d : DriveId) (c : EffClass) (e : Entry) :
    s.movable d c e = true ↔ s.isActive d e.unit = false ∧ s.effOf d e = some c := by
  unfold State.movable
  rw [Bool.and_eq_true, Bool.not_eq_true', beq_iff_eq]

theorem State.movable_eq_false_iff (d : DriveId) (c : EffClass) (e : Entry) :
    s.movable d c e = false ↔ ¬ (s.isActive d e.unit = false ∧ s.effOf d e = some c) := by
  rw [← State.movable_iff, Bool.not_eq_true]

/-- R30, R31: the entries that a demand can displace. -/
def State.candidate (s : State) (d : DriveId) (k : Demand) (e : Entry) : Prop :=
  s.isActive d e.unit = false ∧
    ((s.effOf d e = some .sweep ∧ k ≠ .sweep) ∨ (s.effOf d e = some .ahead ∧ ∃ q, k = .direct q))

/-- R30, R31: the newest of the lowest class among the candidates. -/
def State.IsVictim (s : State) (d : DriveId) (k : Demand) (e : Entry) : Prop :=
  s.candidate d k e ∧ ∃ before after, s.works.get d = before ++ e :: after ∧
    (∀ x ∈ before, s.candidate d k x → effRank (s.effOf d e) ≤ effRank (s.effOf d x)) ∧
    ∀ x ∈ after, s.candidate d k x → effRank (s.effOf d e) < effRank (s.effOf d x)

theorem State.candidate_rank {s : State} {d : DriveId} {k : Demand} {e : Entry} (h : s.candidate d k e) :
    (s.effOf d e = some .sweep ∧ effRank (s.effOf d e) = 2) ∨ (s.effOf d e = some .ahead ∧ effRank (s.effOf d e) = 3) := by
  rcases h.2 with ⟨h, -⟩ | ⟨h, -⟩
  · exact .inl ⟨h, by rw [h]; rfl⟩
  · exact .inr ⟨h, by rw [h]; rfl⟩

/-- A SWEEP entry found newest is the victim of a demand that is none. -/
theorem State.isVictim_sweep {s : State} {d : DriveId} {k : Demand} {e : Entry} (hk : k ≠ .sweep)
    (h : newest (s.movable d .sweep) (s.works.get d) = some e) : s.IsVictim d k e := by
  obtain ⟨he, before, after, hw, ha⟩ := newest_some h
  obtain ⟨hact, heff⟩ := (s.movable_iff d .sweep e).mp he
  have hr : effRank (s.effOf d e) = 2 := by rw [heff]; rfl
  refine ⟨⟨hact, .inl ⟨heff, hk⟩⟩, before, after, hw, fun x _ hx => ?_, fun x hx hc => ?_⟩
  · rcases State.candidate_rank hx with ⟨-, h⟩ | ⟨-, h⟩ <;> omega
  · rcases State.candidate_rank hc with ⟨h, -⟩ | ⟨-, h⟩
    · exact absurd ⟨hc.1, h⟩ ((s.movable_eq_false_iff d .sweep x).mp (ha x hx))
    · omega

/-- An AHEAD entry found newest is the victim of a DIRECT demand where there is no SWEEP candidate. -/
theorem State.isVictim_ahead {s : State} {d : DriveId} {q : PortId} {e : Entry}
    (hn : newest (s.movable d .sweep) (s.works.get d) = none)
    (h : newest (s.movable d .ahead) (s.works.get d) = some e) : s.IsVictim d (.direct q) e := by
  obtain ⟨he, before, after, hw, ha⟩ := newest_some h
  obtain ⟨hact, heff⟩ := (s.movable_iff d .ahead e).mp he
  have hr : effRank (s.effOf d e) = 3 := by rw [heff]; rfl
  have hahead : ∀ x ∈ s.works.get d, s.candidate d (.direct q) x → s.effOf d x = some .ahead := fun x hx hc =>
    (State.candidate_rank hc).elim
      (fun h => absurd ⟨hc.1, h.1⟩ ((s.movable_eq_false_iff d .sweep x).mp (newest_none.mp hn x hx))) And.left
  refine ⟨⟨hact, .inr ⟨heff, q, rfl⟩⟩, before, after, hw, fun x hx hc => ?_, fun x hx hc => ?_⟩
  · have := hahead x (by rw [hw]; exact List.mem_append_left _ hx) hc
    rw [this, heff]
  · have := hahead x (by rw [hw]; exact List.mem_append_right _ (List.mem_cons_of_mem _ hx)) hc
    exact absurd ⟨hc.1, this⟩ ((s.movable_eq_false_iff d .ahead x).mp (ha x hx))

theorem State.victim_some {s : State} {d : DriveId} {k : Demand} {e : Entry} (h : s.victim d k = some e) :
    s.IsVictim d k e := by
  cases k with
  | direct q =>
    have h' : (newest (s.movable d .sweep) (s.works.get d)).or (newest (s.movable d .ahead) (s.works.get d)) = some e :=
      h
    cases hs : newest (s.movable d .sweep) (s.works.get d) with
    | some x =>
      rw [hs] at h'
      cases h'
      exact State.isVictim_sweep nofun hs
    | none =>
      rw [hs] at h'
      exact State.isVictim_ahead hs h'
  | ahead q => exact State.isVictim_sweep nofun h
  | sweep => cases h

theorem State.victim_none {s : State} {d : DriveId} {k : Demand} :
    s.victim d k = none ↔ ∀ e ∈ s.works.get d, ¬ s.candidate d k e := by
  refine ⟨fun h e he hc => ?_, fun h => ?_⟩
  · have hno : ∀ c, newest (s.movable d c) (s.works.get d) = none → s.effOf d e ≠ some c := fun c hn hx =>
      (s.movable_eq_false_iff d c e).mp (newest_none.mp hn e he) ⟨hc.1, hx⟩
    cases k with
    | direct q =>
      obtain ⟨h1, h2⟩ := Option.or_eq_none_iff.mp h
      exact hc.2.elim (fun hx => hno _ h1 hx.1) (fun hx => hno _ h2 hx.1)
    | ahead q => exact hc.2.elim (fun hx => hno _ h hx.1) (fun hx => by obtain ⟨-, q', hq⟩ := hx; cases hq)
    | sweep => exact hc.2.elim (fun hx => hx.2 rfl) (fun hx => by obtain ⟨-, q', hq⟩ := hx; cases hq)
  · cases hv : s.victim d k with
    | none => rfl
    | some e =>
      obtain ⟨hc, before, after, hw, -⟩ := State.victim_some hv
      exact absurd hc (h e (by rw [hw]; exact List.mem_append_right _ List.mem_cons_self))

/-! ### The request and the mount after a displacement -/

theorem State.displace_ctxReq (d : DriveId) (e : Entry) : (s.displace d e).ctxReq =
    s.ctxReq.set d ((s.ctxReq.get d).filter fun u =>
      (((s.works.get d).filter fun e' => e'.unit != e.unit).find? fun e' => e'.unit == u).isSome) := by
  rw [State.displace_eq]

/-- R83: the request made for the unit of the entry that leaves is withdrawn. -/
theorem State.displace_withdraws {s : State} {d : DriveId} {e : Entry} (h : s.ctxReq.get d = some e.unit) :
    (s.displace d e).ctxReq = s.ctxReq.set d none := by
  rw [State.displace_ctxReq, h, Option.filter_some, if_neg]
  rw [Bool.not_eq_true, Option.isSome_eq_false_iff, Option.isNone_iff_eq_none, List.find?_eq_none]
  intro x hx
  have := (List.mem_filter.mp hx).2
  simpa using this

/-- A request made for another unit stays. -/
theorem State.displace_keepsRequest {s : State} {d : DriveId} {e : Entry} {u : Nat} (h : s.ctxReq.get d = some u)
    (hu : u ≠ e.unit) (he : s.entryOf d u ≠ none) : (s.displace d e).ctxReq = s.ctxReq := by
  rw [State.displace_ctxReq, h, Option.filter_some, if_pos, ← h, Quad.set_get]
  rw [List.find?_isSome]
  obtain ⟨x, hx⟩ := Option.ne_none_iff_exists'.mp he
  have hm := List.mem_of_find?_eq_some hx
  have hxu : x.unit = u := by simpa using List.find?_some hx
  exact ⟨x, List.mem_filter.mpr ⟨hm, by rw [hxu]; simpa using hu⟩, by rw [hxu]; exact beq_self_eq_true u⟩

/-- R32: a swept entry that leaves moves the cursor back. -/
theorem State.displace_mounts {s : State} {d : DriveId} {e : Entry} (h : e.sweep = true) {m : MountRec}
    (hm : s.mounts.get d = some m) : (s.displace d e).mounts =
      s.mounts.set d (some { m with cursor := min m.cursor e.unit, sweepOn := true }) := by
  rw [State.displace_eq]
  dsimp only
  rw [if_pos h, hm]
  rfl

/-! ### ABANDON (R38, R39) -/

def abandonParams (d : DriveId) (u : Nat) : List Byte := d.param :: leBytes 2 u

theorem abandon_rangesOk (d : DriveId) (u : Nat) : ReqCode.abandon.rangesOk (abandonParams d u) = true :=
  decide_driveParam d

theorem State.carry_abandon (p : PortId) (d : DriveId) {u : Nat} (h : u < 65536) :
    s.carry p .abandon (abandonParams d u) = s.doAbandon d u := by
  have hu : leField (abandonParams d u) 2 1 = u := by
    rw [abandonParams, ← List.append_nil (leBytes 2 u)]
    exact leField_param_first d h []
  refine (s.withDrive_param d _ _).trans ?_
  show s.doAbandon d (leField (abandonParams d u) 2 1) = _
  rw [hu]

theorem State.doAbandon_closed {s : State} {d : DriveId} (h : s.openMount d = none) (u : Nat) :
    s.doAbandon d u = (s, .reply .notMounted []) := by
  unfold State.doAbandon
  rw [h]
  rfl

theorem State.doAbandon_beyond {s : State} {d : DriveId} {m : MountRec} (h : s.openMount d = some m) {u : Nat}
    (hu : m.u ≤ u) : s.doAbandon d u = (s, .reply .badParam []) := by
  unfold State.doAbandon
  rw [h]
  exact if_pos hu

theorem State.doAbandon_terminal {s : State} {d : DriveId} {m : MountRec} (h : s.openMount d = some m) {u : Nat}
    (hu : u < m.u) (ht : s.isTerminal d u = true) :
    s.doAbandon d u = (s, .reply .ok [BitVec.ofNat 8 (s.unitRec d u).state.code]) := by
  unfold State.doAbandon
  rw [h]
  dsimp only
  rw [if_neg (Nat.not_le.mpr hu), if_pos ht]
  rfl

theorem State.doAbandon_free {s : State} {d : DriveId} {m : MountRec} (h : s.openMount d = some m) {u : Nat}
    (hu : u < m.u) (ht : s.isTerminal d u = false) (hc : s.ctxOf d u = none) :
    s.doAbandon d u = ((s.abandonUnit d u).settle s, .reply .ok [6]) := by
  unfold State.doAbandon
  rw [h]
  dsimp only
  rw [if_neg (Nat.not_le.mpr hu), if_neg (by rw [ht]; decide), hc]
  rfl

theorem OpenCtx.inEvaluation_iff (c : OpenCtx) : c.inEvaluation = true ↔ c.phase ≠ .collecting := by
  unfold OpenCtx.inEvaluation
  cases c.phase <;> simp

/-- R38: a unit whose context is not in evaluation is abandoned; the context is freed, or waits for the attempt that
is on the link. -/
theorem State.doAbandon_held {s : State} {d : DriveId} {m : MountRec} (h : s.openMount d = some m) {u : Nat}
    (hu : u < m.u) (ht : s.isTerminal d u = false) {i : Nat} {c : OpenCtx} (hc : s.ctxOf d u = some (i, c))
    (hp : c.phase = .collecting) : s.doAbandon d u =
      ((if (s.attempts.get d).any (fun a => a.unit == u) then
          (s.abandonUnit d u).setCtx i (some { c with unit := none, abandonPending := true })
        else (s.abandonUnit d u).release i).settle s, .reply .ok [6]) := by
  have he : c.inEvaluation = false := Bool.eq_false_iff.mpr fun he => c.inEvaluation_iff.mp he hp
  unfold State.doAbandon
  rw [h]
  dsimp only
  rw [if_neg (Nat.not_le.mpr hu), if_neg (by rw [ht]; decide), hc]
  dsimp only
  rw [if_neg (by rw [he]; decide)]
  rfl

theorem State.doAbandon_evaluating {s : State} {d : DriveId} {m : MountRec} (h : s.openMount d = some m) {u : Nat}
    (hu : u < m.u) (ht : s.isTerminal d u = false) {i : Nat} {c : OpenCtx} (hc : s.ctxOf d u = some (i, c))
    (hp : c.phase ≠ .collecting) : s.doAbandon d u = (s, .waits d u) := by
  unfold State.doAbandon
  rw [h]
  dsimp only
  rw [if_neg (Nat.not_le.mpr hu), if_neg (by rw [ht]; decide), hc]
  dsimp only
  rw [if_pos (c.inEvaluation_iff.mpr hp)]

/-- The drive's attempt is one on the unit. -/
theorem State.attemptOn_iff (d : DriveId) (u : Nat) :
    (s.attempts.get d).any (fun a => a.unit == u) = true ↔ ∃ a, s.attempts.get d = some a ∧ a.unit = u := by
  cases s.attempts.get d <;> simp

theorem State.doAbandon_idle {s : State} {d : DriveId} {m : MountRec} (h : s.openMount d = some m) {u : Nat}
    (hu : u < m.u) (ht : s.isTerminal d u = false) {i : Nat} {c : OpenCtx} (hc : s.ctxOf d u = some (i, c))
    (hp : c.phase = .collecting) (ha : ∀ a, s.attempts.get d = some a → a.unit ≠ u) :
    s.doAbandon d u = (((s.abandonUnit d u).release i).settle s, .reply .ok [6]) := by
  rw [State.doAbandon_held h hu ht hc hp, if_neg]
  rw [State.attemptOn_iff]
  rintro ⟨a, h1, h2⟩
  exact ha a h1 h2

theorem State.doAbandon_linked {s : State} {d : DriveId} {m : MountRec} (h : s.openMount d = some m) {u : Nat}
    (hu : u < m.u) (ht : s.isTerminal d u = false) {i : Nat} {c : OpenCtx} (hc : s.ctxOf d u = some (i, c))
    (hp : c.phase = .collecting) (ha : ∃ a, s.attempts.get d = some a ∧ a.unit = u) :
    s.doAbandon d u = (((s.abandonUnit d u).setCtx i (some { c with unit := none, abandonPending := true })).settle s,
      .reply .ok [6]) := by
  rw [State.doAbandon_held h hu ht hc hp, if_pos ((s.attemptOn_iff d u).mpr ha)]

/-- A request whose answer waits is in progress on its port. -/
theorem State.command_waits {s : State} {p : PortId} (h : s.ready p) {c : ReqCode} (tag : Byte) {ps : List Byte}
    {d : DriveId} {u : Nat} (hl : c.lengthOk ps = true) (hr : c.rangesOk ps = true)
    (hc : (s.framed p ps.length).carry p c ps = (s.framed p ps.length, .waits d u)) :
    exec (c.command p (Frame.good c.byte tag ps)) s = .next ((s.framed p ps.length).setPort p
      { (s.framed p ps.length).ports.get p with inProgress := some ⟨tag, d, u⟩ }) := by
  rw [exec_command_good, State.frame_ready h tag hl hr, hc]
  rfl

/-! ### ABANDON that waited (R39, R121) -/

theorem State.abandonDue_iff (p : PortId) : s.abandonDue p = true ↔ ∃ ip, (s.ports.get p).inProgress = some ip ∧
    ∀ i c, s.ctxOf ip.drive ip.unit = some (i, c) → c.phase = .collecting := by
  unfold State.abandonDue
  cases hip : (s.ports.get p).inProgress with
  | none => simp
  | some ip =>
    have hc : ∀ c : OpenCtx, c.inEvaluation = false ↔ c.phase = .collecting := fun c => by
      rw [← Bool.not_eq_true, c.inEvaluation_iff, not_not]
    cases hx : s.ctxOf ip.drive ip.unit with
    | none => simp [hx]
    | some e =>
      obtain ⟨i, c⟩ := e
      simp [hx, hc]

theorem State.abandonStep_notDue {s : State} {p : PortId} (h : s.abandonDue p = false) : s.abandonStep p = none := by
  unfold State.abandonStep
  split
  · rw [if_neg (by rw [h]; decide)]
  · rfl

theorem State.abandonStep_due {s : State} {p : PortId} {ip : InProgress} (hi : (s.ports.get p).inProgress = some ip)
    (h : ∀ i c, s.ctxOf ip.drive ip.unit = some (i, c) → c.phase = .collecting) :
    s.abandonStep p = some (s.answerAbandon p ip) := by
  unfold State.abandonStep
  rw [hi]
  exact if_pos ((s.abandonDue_iff p).mpr ⟨ip, hi, h⟩)

/-- R121: the part while the request of a port that was in progress acts. -/
def State.acting (s : State) (p : PortId) : State := s.setPort p { s.ports.get p with inProgress := none }

/-- R39, R85, R121: what follows the action of an ABANDON that waited. -/
theorem State.answerAbandon_eq {s : State} {p : PortId} {ip : InProgress} {v : State} {st : Status}
    {payload : List Byte}
    (h : (s.acting p).doAbandon ip.drive ip.unit = (v, .reply st payload)) :
    s.answerAbandon p ip = (v.settle v).setPort p { (v.settle v).ports.get p with
      inProgress := none
      response := if (v.ports.get p).waiting.isSome then (v.ports.get p).response
        else some ⟨st, ip.tag, payload⟩ } := by
  unfold State.answerAbandon
  rw [← State.acting, h]
  dsimp only
  rw [Port.lateAnswer, State.settle_ports]

end Sys2Proof.Machine

namespace Sys2Proof.Proofs
open Sys2Proof.Machine

/-- Settles O18. -/
theorem demandOutcomes : Obligations.DemandOutcomes := by
  unfold Obligations.DemandOutcomes
  rintro s d u k woken rfl
  refine ⟨fun h => State.demand_terminal h k, fun h => (s.demand_scheds d u k h).trans (by cases k <;> rfl),
    fun h e he => ?merged, fun h he hl => ?inserted, fun h he hl hv => ?turnedAway, fun cand hcand => ?victim,
    fun h he hl e hv => ?displaces⟩
  case merged =>
    rw [State.demand_merged h he k]
    exact ⟨rfl, rfl, rfl⟩
  case inserted =>
    rw [State.demand_inserted h he hl k]
    exact ⟨rfl, rfl, rfl, rfl⟩
  case turnedAway =>
    rw [State.demand_turnedAway h he hl k hv]
    exact ⟨rfl, rfl⟩
  case victim =>
    have hc : cand = s.candidate d k := funext fun e => propext (hcand e)
    subst hc
    exact ⟨State.victim_none, fun e he => State.victim_some he⟩
  case displaces =>
    rw [State.demand_displaces h he hl hv]
    exact ⟨rfl, rfl, rfl, State.displace_withdraws, fun x hx hne hent => State.displace_keepsRequest hx hne hent,
      fun hs m hm => State.displace_mounts hs hm⟩

/-- Settles O20. -/
theorem abandonRequest : Obligations.AbandonRequest := by
  unfold Obligations.AbandonRequest
  refine ⟨fun p tag d u s h hu => ?request, fun s d u m hm => ?unit⟩
  case request =>
    have hcarry := State.carry_abandon (s.framed p 3) p d hu
    have hr := abandon_rangesOk d u
    refine ⟨fun hm => ?closed, fun m hm => ⟨fun hb => ?beyond, fun hb ht => ?terminal, fun hb ht hc => ?free,
      fun i c hb ht hc => ⟨fun hp ha => ?idle, fun hp ha => ?linked, fun hp => ?evaluating⟩⟩⟩
    case closed =>
      exact State.command_refuses h (c := .abandon) tag rfl rfl hr
        (hcarry.trans (State.doAbandon_closed (s := s.framed p 3) hm u))
    case beyond =>
      obtain ⟨t, he, ht⟩ := State.command_refusesParam h (c := .abandon) tag rfl hr
        (hcarry.trans (State.doAbandon_beyond (s := s.framed p 3) hm hb))
      exact ⟨t, he, (congrArg State.ports ht).trans rfl, (congrArg State.unitMap ht).trans rfl⟩
    case terminal =>
      exact State.command_refuses h (c := .abandon) tag rfl rfl hr
        (hcarry.trans (State.doAbandon_terminal (s := s.framed p 3) hm hb ht))
    case free =>
      exact State.command_settles h (c := .abandon) tag rfl hr
        (hcarry.trans (State.doAbandon_free (s := s.framed p 3) hm hb ht hc))
    case idle =>
      exact State.command_settles h (c := .abandon) tag rfl hr
        (hcarry.trans (State.doAbandon_idle (s := s.framed p 3) hm hb ht hc hp ha))
    case linked =>
      exact State.command_settles h (c := .abandon) tag rfl hr
        (hcarry.trans (State.doAbandon_linked (s := s.framed p 3) hm hb ht hc hp ha))
    case evaluating =>
      exact State.command_waits h (c := .abandon) tag rfl hr
        (hcarry.trans (State.doAbandon_evaluating (s := s.framed p 3) hm hb ht hc hp))
  case unit =>
    have he := s.enterTerminal_spec d u m { s.unitRec d u with state := .abandoned } hm
    refine ⟨he.unit, he.units, he.map, he.works, he.mounts, he.raw, ?_, he.ready, he.store, he.contexts⟩
    have hcount := State.stats_count (s.enterTerminal d u { s.unitRec d u with state := .abandoned }) d 12 12 (by decide)
    rw [he.stats, if_pos rfl] at hcount
    exact hcount

/-- Settles O35. -/
theorem abandonDeferredAnswer : Obligations.AbandonDeferredAnswer := by
  unfold Obligations.AbandonDeferredAnswer
  rintro p s g rfl
  have hstep : exec (.abandonDeferredAnswer p) s =
    stepOut ((s.upTo (.abandonDeferredAnswer p)).abandonStep p) := rfl
  rw [hstep]
  generalize s.upTo (.abandonDeferredAnswer p) = g
  have refused : g.abandonDue p = false → stepOut (g.abandonStep p) = .refused .cannotOccur := fun h => by
    rw [State.abandonStep_notDue h]
    rfl
  refine ⟨fun hi => ?none, fun ip hi => ⟨fun hc => ?evaluating, fun late hlate q hq => ?acts⟩⟩
  case none =>
    refine refused (Bool.eq_false_iff.mpr fun h => ?_)
    obtain ⟨ip, hip, -⟩ := (g.abandonDue_iff p).mp h
    rw [hi] at hip
    cases hip
  case evaluating =>
    obtain ⟨i, c, hc, hp⟩ := hc
    refine refused (Bool.eq_false_iff.mpr fun h => ?_)
    obtain ⟨ip', hip, hall⟩ := (g.abandonDue_iff p).mp h
    rw [hi] at hip
    cases hip
    exact hp (hall i c hc)
  case acts =>
    subst hq
    have acts : ∀ {v st payload}, (∀ i c, g.ctxOf ip.drive ip.unit = some (i, c) → c.phase = .collecting) →
        (g.acting p).doAbandon ip.drive ip.unit = (v, .reply st payload) →
        stepOut (g.abandonStep p) = .next (late v st payload) := fun hc hd => by
      rw [State.abandonStep_due hi hc, State.answerAbandon_eq hd, hlate]
      rfl
    have open_of_none : g.ctxOf ip.drive ip.unit = none →
        ∀ i c, g.ctxOf ip.drive ip.unit = some (i, c) → c.phase = .collecting := fun h i c hc => by
      rw [h] at hc
      cases hc
    refine ⟨fun hm hc => acts (open_of_none hc) (State.doAbandon_closed (s := g.acting p) hm _), fun m hm hu =>
      ⟨fun ht hc => acts (open_of_none hc) (State.doAbandon_terminal (s := g.acting p) hm hu ht),
      fun ht hc => acts (open_of_none hc) (State.doAbandon_free (s := g.acting p) hm hu ht hc), fun i c ht hc hp => ?_⟩⟩
    have hall : ∀ i c, g.ctxOf ip.drive ip.unit = some (i, c) → c.phase = .collecting := fun i' c' hc' => by
      rw [hc] at hc'
      cases hc'
      exact hp
    exact ⟨fun ha => acts hall (State.doAbandon_idle (s := g.acting p) hm hu ht hc hp ha),
      fun ha => acts hall (State.doAbandon_linked (s := g.acting p) hm hu ht hc hp ha)⟩

end Sys2Proof.Proofs
end

section
/-! READ (R137 to R148). -/
namespace Sys2Proof.Machine

variable (s : State)

/-! ### The translation -/

/-- R137, R138: what a READ translates to. -/
theorem State.translate_iff (p : PortId) (a count : Nat) (t : Translation) : s.translate p a count = .ok t ↔
    s.decodeView p a = some (t.id, t.view) ∧ s.openMount t.view.drive = some t.mount ∧
      t.first = t.view.target + (a - t.view.base) ∧ t.first < t.mount.u ∧
      t.n = min (min count (t.view.base + 2 ^ t.view.k - a))
        (min (t.mount.u - t.first) (16384 / t.mount.snap.unitSize)) := by
  unfold State.translate
  constructor
  · intro h
    cases hv : s.decodeView p a with
    | none => rw [hv] at h; cases h
    | some wv =>
      obtain ⟨w, v⟩ := wv
      rw [hv] at h
      dsimp only at h
      cases hm : s.openMount v.drive with
      | none => rw [hm] at h; cases h
      | some m =>
        rw [hm] at h
        dsimp only at h
        split at h
        · cases h
        next hu =>
          cases h
          exact ⟨rfl, hm, rfl, Nat.not_le.mp hu, rfl⟩
  · rintro ⟨hv, hm, hf, hu, hn⟩
    rw [hv]
    dsimp only
    rw [hm]
    dsimp only
    rw [← hf, if_neg (Nat.not_le.mpr hu)]
    obtain ⟨w, v, m, f, n⟩ := t
    dsimp only at *
    subst hn
    rfl

theorem State.translate_noView {s : State} {p : PortId} {a : Nat} (h : s.decodeView p a = none) (count : Nat) :
    s.translate p a count = .error .noView := by
  unfold State.translate
  rw [h]

theorem State.translate_notMounted {s : State} {p : PortId} {a : Nat} {w : ViewId} {v : View}
    (h : s.decodeView p a = some (w, v)) (hm : s.openMount v.drive = none) (count : Nat) :
    s.translate p a count = .error .notMounted := by
  unfold State.translate
  rw [h]
  dsimp only
  rw [hm]

theorem State.translate_beyond {s : State} {p : PortId} {a : Nat} {w : ViewId} {v : View} {m : MountRec}
    (h : s.decodeView p a = some (w, v)) (hm : s.openMount v.drive = some m) (hu : m.u ≤ v.target + (a - v.base))
    (count : Nat) : s.translate p a count = .error .badParam := by
  unfold State.translate
  rw [h]
  dsimp only
  rw [hm]
  exact if_pos hu

/-! ### A READ on a port that is ready -/

def readParams (a : Nat) (count : Byte) : List Byte := leBytes 4 a ++ [count]

theorem readParams_address {a : Nat} (h : a < 4294967296) (count : Byte) : leField (readParams a count) 4 0 = a :=
  leField_leBytes4 a h _

theorem read_rangesOk {count : Byte} (h1 : 1 ≤ count.toNat) (h2 : count.toNat ≤ 16) (a : Nat) :
    ReqCode.read.rangesOk (readParams a count) = true := by
  have hr : ReqCode.read.rangesOk (readParams a count) = (decide (1 ≤ count.toNat) && decide (count.toNat ≤ 16)) := rfl
  rw [hr, decide_eq_true h1, decide_eq_true h2]
  rfl

theorem exec_read {s : State} {p : PortId} (h : s.ready p) (tag : Byte) {a : Nat} (ha : a < 4294967296) {count : Byte}
    (h1 : 1 ≤ count.toNat) (h2 : count.toNat ≤ 16) :
    exec (.read p (Frame.good 0x2A tag (leBytes 4 a ++ [count]))) s =
      .next (((s.framed p 5).doRead p a count.toNat).deliver p 0x2A (Frame.good 0x2A tag (readParams a count))) := by
  show exec (ReqCode.read.command p (Frame.good ReqCode.read.byte tag (readParams a count))) s = _
  rw [exec_command_good, State.frame_ready h tag rfl (read_rangesOk h1 h2 a)]
  show Host.Outcome.next (((s.framed p 5).doRead p (leField (readParams a count) 4 0) count.toNat).deliver p 0x2A
    (Frame.good 0x2A tag (readParams a count))) = _
  rw [readParams_address ha]

theorem exec_read_delivers {s : State} {p : PortId} (h : s.ready p) (tag : Byte) {a : Nat} (ha : a < 4294967296)
    {count : Byte} (h1 : 1 ≤ count.toNat) (h2 : count.toNat ≤ 16) {x : Handled}
    (hd : (s.framed p 5).doRead p a count.toNat = x) :
    exec (.read p (Frame.good 0x2A tag (leBytes 4 a ++ [count]))) s =
      .next (x.deliver p 0x2A (Frame.good 0x2A tag (readParams a count))) := by
  rw [exec_read h tag ha h1 h2, hd]

/-- A READ that its owning block answers without a capture. -/
theorem exec_read_responds {s : State} {p : PortId} (h : s.ready p) (tag : Byte) {a : Nat} (ha : a < 4294967296)
    {count : Byte} (h1 : 1 ≤ count.toNat) (h2 : count.toNat ≤ 16) {v : State} {st : Status} {payload : List Byte}
    (hst : st.captured = false) (hd : (s.framed p 5).doRead p a count.toNat = (v, .reply st payload)) :
    exec (.read p (Frame.good 0x2A tag (leBytes 4 a ++ [count]))) s = .next (v.respond p st tag payload) := by
  rw [exec_read h tag ha h1 h2, hd, Handled.deliver_reply, State.answer_uncaptured _ _ _ _ hst]
  rfl

/-- A READ that is refused with a state `r` left behind, whose status may be captured. -/
theorem exec_read_refused {s : State} {p : PortId} (h : s.ready p) (tag : Byte) {a : Nat} (ha : a < 4294967296)
    {count : Byte} (h1 : 1 ≤ count.toNat) (h2 : count.toNat ≤ 16) {r : State} {st : Status}
    (hd : (s.framed p 5).doRead p a count.toNat = (r.framed p 5, .reply st [])) : ∃ t : State,
    exec (.read p (Frame.good 0x2A tag (leBytes 4 a ++ [count]))) s = .next t ∧
    t = { r.answered p 5 st tag [] with errors := t.errors, events := t.events } := by
  refine ⟨_, ?_, r.framed_answer_frame p 0x2A (Frame.good 0x2A tag (readParams a count)) 5 st []⟩
  rw [exec_read h tag ha h1 h2, hd, Handled.deliver_reply]

/-! ### The branches of a READ -/

theorem State.doRead_refused {s : State} {p : PortId} {a count : Nat} {st : Status} (he : s.entryFor p a count = none)
    (ht : s.translate p a count = .error st) : s.doRead p a count = (s, .reply st []) := by
  unfold State.doRead
  rw [he]
  dsimp only
  rw [ht]
  rfl

theorem State.doRead_new {s : State} {p : PortId} {a count : Nat} {t : Translation} (he : s.entryFor p a count = none)
    (ht : s.translate p a count = .ok t) : s.doRead p a count = s.readNew p t a count := by
  unfold State.doRead
  rw [he]
  dsimp only
  rw [ht]

theorem State.doRead_gone {s : State} {p : PortId} {a count : Nat} {e : Deferred}
    (he : s.entryFor p a count = some e) (hg : e.state = .gone) :
    s.doRead p a count = (s.freeEntry p a count, .reply .gone []) := by
  unfold State.doRead
  rw [he]
  exact if_pos (beq_iff_eq.mpr hg)

/-- R143: an entry that is not GONE and whose address still translates. -/
theorem State.doRead_entry {s : State} {p : PortId} {a count : Nat} {e : Deferred} {t : Translation}
    (he : s.entryFor p a count = some e) (hg : e.state ≠ .gone) (ht : s.translate p a count = .ok t) :
    s.doRead p a count =
      if e.drive ≠ t.view.drive ∨ e.first ≠ t.first ∨ e.n ≠ t.n then (s.freeEntry p a count).readNew p t a count
      else if e.state = .ready then (s.freeEntry p a count).serveRead p t a
      else s.readPending p t a count e := by
  unfold State.doRead
  rw [he]
  dsimp only
  rw [if_neg (by simpa using hg), ht]
  simp [or_assoc]

theorem State.doRead_entryRefused {s : State} {p : PortId} {a count : Nat} {e : Deferred} {st : Status}
    (he : s.entryFor p a count = some e) (hg : e.state ≠ .gone) (ht : s.translate p a count = .error st) :
    s.doRead p a count = (s.freeEntry p a count, .reply st []) := by
  unfold State.doRead
  rw [he]
  dsimp only
  rw [if_neg (by simpa using hg), ht]
  rfl

theorem State.allTerminal_iff (t : Translation) :
    s.allTerminal t = true ↔ ∀ i, i < t.n → s.isTerminal t.view.drive (t.first + i) = true := by
  unfold State.allTerminal Translation.units
  simp only [List.all_map, List.all_eq_true, List.mem_range, Function.comp]

theorem State.readNew_served {s : State} {t : Translation}
    (h : ∀ i, i < t.n → s.isTerminal t.view.drive (t.first + i) = true) (p : PortId) (a count : Nat) :
    s.readNew p t a count = s.serveRead p t a := by
  unfold State.readNew
  rw [if_pos ((s.allTerminal_iff t).mpr h)]

theorem State.not_allTerminal {s : State} {t : Translation}
    (h : ∃ i, i < t.n ∧ s.isTerminal t.view.drive (t.first + i) = false) : ¬ s.allTerminal t = true := by
  rw [State.allTerminal_iff]
  obtain ⟨i, hi, hf⟩ := h
  intro hall
  have := hall i hi
  rw [hf] at this
  cases this

/-- R141: a first READ with a unit that is not terminal. -/
theorem State.readNew_open {s : State} {t : Translation}
    (h : ∃ i, i < t.n ∧ s.isTerminal t.view.drive (t.first + i) = false) (p : PortId) (a count : Nat) :
    s.readNew p t a count =
      if t.mount.phase = .lost then (s, .reply .noMedium [])
      else if 8 ≤ (s.deferred.get p).length then (s, .reply .busy [])
      else (((s.demandRead p t).setDeferred p ((s.demandRead p t).deferred.get p ++
        [⟨a, count, t.view.drive, t.first, t.n, 0, .pending⟩])).settle s, .reply .defer t.head) := by
  unfold State.readNew
  rw [if_neg (State.not_allTerminal h)]
  simp only [beq_iff_eq]
  rfl

/-! ### The demands of a READ -/

/-- A run of demands touches the list, the power state, the mount's sweep, the waiting request and the choice owed. -/
theorem State.demands_frame (d : DriveId) (k : Demand) : ∀ (n u : Nat) (s : State), s.demands d k u n = { s with
    works := (s.demands d k u n).works, power := (s.demands d k u n).power, ctxReq := (s.demands d k u n).ctxReq
    mounts := (s.demands d k u n).mounts, scheds := (s.demands d k u n).scheds }
  | 0, _, _ => rfl
  | n + 1, u, s => by
    rw [State.demands, State.demands_frame d k n, State.demand_frame]

theorem Translation.head_eq (t : Translation) :
    t.head = t.view.drive.param :: (leBytes 2 t.first ++ [BitVec.ofNat 8 t.n]) := rfl

/-! ### Serving -/

/-- The states of the units of a READ, in ascending order. -/
def State.statesOf (s : State) (t : Translation) : List UnitState :=
  (List.range t.n).map fun i => (s.unitRec t.view.drive (t.first + i)).state

theorem State.units_states (t : Translation) : t.units.map (s.stateAt t) = s.statesOf t := by
  rw [Translation.units, List.map_map]
  rfl

theorem State.servedStatus_eq (t : Translation) : s.servedStatus t =
    if t.view.deliverPartial = true ∧ .exhausted ∈ s.statesOf t then .partialData
    else if .recovered ∈ s.statesOf t then .ok
    else if ∀ x ∈ s.statesOf t, x = .abandoned then .abandoned else .blank := by
  unfold State.servedStatus
  dsimp only
  rw [State.units_states]
  simp only [Bool.and_eq_true, List.contains_iff_mem, List.all_eq_true, beq_iff_eq]

theorem State.servedStatus_captured (t : Translation) : (s.servedStatus t).captured = false := by
  rw [State.servedStatus_eq]
  split
  · rfl
  · split
    · rfl
    · split <;> rfl

/-- R139: the bytes that a served READ counts. -/
theorem State.servedBytes_eq (t : Translation) : s.servedBytes t = t.mount.snap.unitSize *
    (s.statesOf t).countP fun x => x == .recovered || (x == .exhausted && t.view.deliverPartial) := by
  unfold State.servedBytes
  rw [← State.units_states, List.countP_map, List.countP_eq_length_filter]
  congr 3
  funext u
  show (match s.stateAt t u with
    | .recovered => true
    | .exhausted => t.view.deliverPartial
    | .unread | .active | .tried | .blank | .abandoned => false) =
    (s.stateAt t u == .recovered || (s.stateAt t u == .exhausted && t.view.deliverPartial))
  cases s.stateAt t u <;> cases t.view.deliverPartial <;> rfl

/-- R139: the unit records of a served READ. -/
theorem State.unitRecords_eq (t : Translation) : s.unitRecords t = (List.range t.n).flatMap fun i =>
    BitVec.ofNat 8 (s.unitRec t.view.drive (t.first + i)).state.code ::
      (match (s.unitRec t.view.drive (t.first + i)).state with
        | .recovered => Memory.readBytes s.store (t.mount.slotAddr (t.first + i)) t.mount.snap.unitSize
        | .exhausted =>
          if t.view.deliverPartial then
            Memory.readBytes s.store (t.mount.slotAddr (t.first + i)) t.mount.snap.unitSize ++
              Memory.readBytes s.store (t.mount.slotAddr (t.first + i) + t.mount.snap.unitSize)
                (t.mount.snap.unitSize / 8)
          else []
        | .unread | .active | .tried | .blank | .abandoned => []) := by
  unfold State.unitRecords Translation.units
  rw [List.flatMap_map]
  refine congrArg (fun f => List.flatMap f (List.range t.n)) (funext fun i => ?_)
  unfold State.unitData
  dsimp only
  rw [leBytes_one, List.append_assoc, List.singleton_append]
  congr 1
  cases (s.unitRec t.view.drive (t.first + i)).state <;> cases t.view.deliverPartial <;> simp

/-- The state that a served READ leaves before the schedulers follow. -/
def State.afterServe (s : State) (p : PortId) (t : Translation) (a : Nat) : State :=
  match s.servedStatus t with
  | .ok | .partialData => (s.serve p (s.servedBytes t)).moveStream p t a
  | _ => s.serve p (s.servedBytes t)

theorem State.serveRead_eq (p : PortId) (t : Translation) (a : Nat) : s.serveRead p t a =
    ((s.afterServe p t a).settle s, .reply (s.servedStatus t) (t.head ++ s.unitRecords t)) := rfl

/-- A READ's status is OK or PARTIAL where a unit delivers data. -/
theorem State.afterServe_delivers {s : State} {t : Translation}
    (h : .recovered ∈ s.statesOf t ∨ (.exhausted ∈ s.statesOf t ∧ t.view.deliverPartial = true)) (p : PortId)
    (a : Nat) : s.afterServe p t a = (s.serve p (s.servedBytes t)).moveStream p t a := by
  unfold State.afterServe
  rw [State.servedStatus_eq]
  by_cases hp : t.view.deliverPartial = true ∧ .exhausted ∈ s.statesOf t
  · rw [if_pos hp]
  · rw [if_neg hp, if_pos (h.resolve_right fun h => hp h.symm)]

theorem State.afterServe_empty {s : State} {t : Translation} (h1 : .recovered ∉ s.statesOf t)
    (h2 : .exhausted ∉ s.statesOf t ∨ t.view.deliverPartial = false) (p : PortId) (a : Nat) :
    s.afterServe p t a = s.serve p (s.servedBytes t) := by
  unfold State.afterServe
  have hp : ¬ (t.view.deliverPartial = true ∧ .exhausted ∈ s.statesOf t) := fun h =>
    h2.elim (fun hx => hx h.2) (fun hx => by rw [hx] at h; cases h.1)
  rw [State.servedStatus_eq, if_neg hp, if_neg h1]
  split_ifs <;> rfl

/-- R148, R149: the state after the AHEAD class has been taken off the range of a stream that is broken. -/
def State.unstreamed (s : State) (p : PortId) (t : Translation) (a : Nat) : State :=
  if (s.streams.get p).get t.id = ⟨none, none⟩ ∨ ((s.streams.get p).get t.id).expected = some a then s
  else match ((s.streams.get p).get t.id).range with
    | some (lo, hi) => s.withdrawClass t.view.drive p .ahead lo hi
    | none => s

/-- R148: a READ served OK or PARTIAL moves its view's stream. -/
theorem State.moveStream_eq (p : PortId) (t : Translation) (a : Nat) : s.moveStream p t a =
    ((s.unstreamed p t a).demands t.view.drive (.ahead p) (t.first + t.n) t.aheadCount).setStream p t.id
      ⟨some (a + t.n),
        if t.aheadCount = 0 then none else some (t.first + t.n, t.first + t.n + t.aheadCount - 1)⟩ := by
  unfold State.moveStream State.unstreamed
  dsimp only
  have hc : ((s.streams.get p).get t.id == Stream.empty || ((s.streams.get p).get t.id).expected == some a) = true ↔
      (s.streams.get p).get t.id = ⟨none, none⟩ ∨ ((s.streams.get p).get t.id).expected = some a := by
    rw [Bool.or_eq_true, beq_iff_eq, beq_iff_eq]
    rfl
  congr 2
  by_cases h : (s.streams.get p).get t.id = ⟨none, none⟩ ∨ ((s.streams.get p).get t.id).expected = some a
  · rw [if_pos (hc.mpr h), if_pos h]
  · rw [if_neg (mt hc.mp h), if_neg h]
    cases ((s.streams.get p).get t.id).range <;> rfl

/-- What a served READ leaves as it was. -/
theorem State.afterServe_keeps (p : PortId) (t : Translation) (a : Nat) :
    (s.afterServe p t a).unitMap = s.unitMap ∧ (s.afterServe p t a).store = s.store ∧
      (s.afterServe p t a).deferred = s.deferred ∧
      (s.afterServe p t a).served = s.served.set p (s.served.get p + BitVec.ofNat 40 (s.servedBytes t)) := by
  have hmove : ∀ q : State, (q.moveStream p t a).unitMap = q.unitMap ∧ (q.moveStream p t a).store = q.store ∧
      (q.moveStream p t a).deferred = q.deferred ∧ (q.moveStream p t a).served = q.served := fun q => by
    rw [State.moveStream_eq, State.demands_frame]
    unfold State.unstreamed
    split
    · exact ⟨rfl, rfl, rfl, rfl⟩
    · split
      · unfold State.withdrawClass
        rw [State.shrinkWork_eq]
        exact ⟨rfl, rfl, rfl, rfl⟩
      · exact ⟨rfl, rfl, rfl, rfl⟩
  unfold State.afterServe
  split
  · exact hmove _
  · exact hmove _
  · exact ⟨rfl, rfl, rfl, rfl⟩

/-! ### Entries (R143, R144, R146) -/

/-- R144: a PENDING entry counts a retry. -/
def Deferred.retried (a count : Nat) (e : Deferred) : Deferred :=
  if e.address = a ∧ e.count = count then { e with retries := min 255 (e.retries + 1) } else e

theorem State.readPending_lost {s : State} {t : Translation} (h : t.mount.phase = .lost) (p : PortId) (a count : Nat)
    (e : Deferred) : s.readPending p t a count e = (s, .reply .noMedium []) := by
  unfold State.readPending
  exact if_pos (beq_iff_eq.mpr h)

theorem State.readPending_timeout {s : State} {p : PortId} {t : Translation} {e : Deferred}
    (h : t.mount.phase ≠ .lost) (hl : (s.options.get p).deferLimit ≠ 0) (hr : (s.options.get p).deferLimit ≤ e.retries)
    (a count : Nat) : s.readPending p t a count e =
      (((s.freeEntry p a count).withdrawClass e.drive p .direct e.first (e.first + e.n - 1)).settle s,
        .reply .timeout []) := by
  unfold State.readPending
  exact (if_neg (by simpa using h)).trans (if_pos ⟨hl, hr⟩)

theorem State.readPending_retry {s : State} {p : PortId} {t : Translation} {e : Deferred} (h : t.mount.phase ≠ .lost)
    (hr : (s.options.get p).deferLimit = 0 ∨ e.retries < (s.options.get p).deferLimit) (a count : Nat) :
    s.readPending p t a count e =
      ((((s.setDeferred p ((s.deferred.get p).map (Deferred.retried a count))).demandRead p t).settle s),
        .reply .defer t.head) := by
  have hmap : (fun e' : Deferred => if (e'.address == a && e'.count == count) = true
      then { e' with retries := min 255 (e'.retries + 1) } else e') = Deferred.retried a count := by
    funext e'
    simp only [Bool.and_eq_true, beq_iff_eq, Deferred.retried]
  unfold State.readPending
  refine (if_neg (by simpa using h)).trans ((if_neg (by omega)).trans ?_)
  rw [hmap]

theorem State.entryFor_freed (s : State) (p : PortId) (a count : Nat) :
    (s.freeEntry p a count).entryFor p a count = none := by
  unfold State.entryFor State.freeEntry
  rw [State.setDeferred_deferred, Pair.get_set, List.find?_eq_none]
  intro e he
  have hne := (List.mem_filter.mp he).2
  rw [Bool.not_eq_true'] at hne
  rw [Bool.not_eq_true, hne]

/-- R33: all that the withdrawal of a class does. -/
theorem State.withdrawClass_eq (d : DriveId) (p : PortId) (c : PortClass) (lo hi : Nat) :
    s.withdrawClass d p c lo hi = { s with
      works := (s.withdrawClass d p c lo hi).works
      events := (s.withdrawClass d p c lo hi).events
      ctxReq := s.ctxReq.set d ((s.ctxReq.get d).filter fun u => ((s.withdrawClass d p c lo hi).entryOf d u).isSome) } := by
  have he : ∀ (w : List Entry) u, (s.shrinkWork d w).entryOf d u = w.find? fun e => e.unit == u := fun w u => by
    rw [State.entryOf, State.shrinkWork_eq, Quad.get_set]
  unfold State.withdrawClass
  simp only [he]
  rw [State.shrinkWork_eq]

theorem State.withdrawClass_frame (d : DriveId) (p : PortId) (c : PortClass) (lo hi : Nat) :
    s.withdrawClass d p c lo hi = { s with
      works := (s.withdrawClass d p c lo hi).works
      events := (s.withdrawClass d p c lo hi).events
      ctxReq := (s.withdrawClass d p c lo hi).ctxReq } := by
  unfold State.withdrawClass
  rw [State.shrinkWork_eq]

theorem State.withdrawClass_ports (d : DriveId) (p : PortId) (c : PortClass) (lo hi : Nat) :
    (s.withdrawClass d p c lo hi).ports = s.ports := congrArg HostView.ports (s.withdrawClass_host d p c lo hi)

theorem State.withdrawClass_errors (d : DriveId) (p : PortId) (c : PortClass) (lo hi : Nat) :
    (s.withdrawClass d p c lo hi).errors = s.errors := congrArg HostView.errors (s.withdrawClass_host d p c lo hi)

theorem State.withdrawClass_idle {s : State} {d : DriveId} {p : PortId} {c : PortClass} {lo hi : Nat}
    (h : s.works.get d ≠ []) (he : (s.withdrawClass d p c lo hi).works.get d = []) (ho : s.sweepOn d = false)
    (q : PortId) : ((s.withdrawClass d p c lo hi).events.get q).raw.getLsbD Event.workIdle.pos = true := by
  unfold State.withdrawClass at he ⊢
  rw [State.shrinkWork_eq] at he
  exact State.shrinkWork_empties s h ((Quad.get_set _ _ _).symm.trans he) ho q

theorem State.settle_served (b : State) : (s.settle b).served = s.served :=
  congrArg HostView.served (s.settle_host b)

theorem State.settle_errors (b : State) : (s.settle b).errors = s.errors :=
  congrArg HostView.errors (s.settle_host b)

/-- A captured refusal leaves the other port's record, and its own valid. -/
theorem State.answer_captures (p : PortId) (code : Byte) (f : Frame) {st : Status} (h : st.captured = true)
    (payload : List Byte) : ((s.answer p code f st payload).errors.get p).isSome = true ∧
      (s.answer p code f st payload).errors.get p.other = s.errors.get p.other := by
  rw [State.answer_captured_errors _ _ _ _ h, State.captureRefusal_errors, Pair.get_set, Pair.get_set_other]
  exact ⟨rfl, rfl⟩

/-- An answer changes its port, the capture records and the flags, and nothing else. -/
theorem State.answer_frame (p : PortId) (code : Byte) (f : Frame) (st : Status) (payload : List Byte) :
    s.answer p code f st payload = { s with
      ports := s.ports.set p { s.ports.get p with response := some ⟨st, f.tag, payload⟩ }
      errors := (s.answer p code f st payload).errors
      events := (s.answer p code f st payload).events } := by
  unfold State.answer State.respond
  split
  · rw [State.captureRefusal_frame]; rfl
  · rfl

end Sys2Proof.Machine

namespace Sys2Proof.Proofs
open Sys2Proof.Machine

/-- Settles O24. -/
theorem readTranslation : Obligations.ReadTranslation := by
  unfold Obligations.ReadTranslation
  refine ⟨fun s p a count t => ?translation, fun p tag count a s h ha h1 h2 he => ⟨fun hv => ?noView,
    fun w v hv => ⟨fun hm => ?notMounted, fun m hm hu => ?beyond⟩⟩⟩
  case translation =>
    rw [State.translate_iff, State.decodeView_some]
    simp only [and_assoc]
  case noView =>
    exact exec_read_refused h tag ha h1 h2 (State.doRead_refused (s := s.framed p 5) he
      (State.translate_noView (s := s.framed p 5) ((s.decodeView_none p a).mpr hv) _))
  case notMounted =>
    exact (exec_read_responds h tag ha h1 h2 rfl (State.doRead_refused (s := s.framed p 5) he
      (State.translate_notMounted (s := s.framed p 5) hv hm _))).trans (congrArg _ (s.framed_respond p 5 _ tag []))
  case beyond =>
    exact exec_read_refused h tag ha h1 h2 (State.doRead_refused (s := s.framed p 5) he
      (State.translate_beyond (s := s.framed p 5) hv hm hu _))

/-- Settles O25. -/
theorem readServed : Obligations.ReadServed := by
  unfold Obligations.ReadServed
  rintro p tag count a s t h ha h1 h2 he ht hterm states rfl
  have hd : (s.framed p 5).doRead p a count.toNat = (s.framed p 5).serveRead p t a :=
    (State.doRead_new (s := s.framed p 5) he ht).trans (State.readNew_served (s := s.framed p 5) hterm p a _)
  obtain ⟨hmap, hstore, hdef, -⟩ := (s.framed p 5).afterServe_keeps p t a
  refine ⟨(s.framed p 5).afterServe p t a, ?exec, hmap, hstore, hdef, ?_⟩
  case exec =>
    rw [exec_read_responds h tag ha h1 h2 ((s.framed p 5).servedStatus_captured t) (hd.trans (State.serveRead_eq _ p t a)),
      State.servedStatus_eq, State.unitRecords_eq]
    rfl
  · rintro base after stream rfl rfl rfl
    have hbase : (s.framed p 5).serve p ((s.framed p 5).servedBytes t) = { s.framed p 5 with
        served := s.served.set p (s.served.get p + BitVec.ofNat 40 (t.mount.snap.unitSize *
          (s.statesOf t).countP fun x => x == .recovered || (x == .exhausted && t.view.deliverPartial))) } := by
      rw [State.servedBytes_eq]
      rfl
    refine ⟨fun hn => ?empty, fun hs k hk => ?moved⟩
    case empty =>
      rw [State.afterServe_empty (s := s.framed p 5) hn.1 hn.2, hbase]
      rfl
    case moved =>
      rw [State.afterServe_delivers (s := s.framed p 5) hs, hbase, State.moveStream_eq]
      subst hk
      rfl

/-- Settles O26. -/
theorem readDeferred : Obligations.ReadDeferred := by
  unfold Obligations.ReadDeferred
  intro p tag count a s t h ha h1 h2 he ht hopen
  have hd : (s.framed p 5).doRead p a count.toNat = _ :=
    (State.doRead_new (s := s.framed p 5) he ht).trans (State.readNew_open (s := s.framed p 5) hopen p a count.toNat)
  refine ⟨fun hp => ?lost, fun hp hf => ?full, fun hp hf => ⟨((s.framed p 5).demandRead p t).setDeferred p
    (((s.framed p 5).demandRead p t).deferred.get p ++ [⟨a, count.toNat, t.view.drive, t.first, t.n, 0, .pending⟩]),
    ?deferred, ?state, ?_⟩⟩
  case lost =>
    rw [if_pos hp] at hd
    exact (exec_read_responds h tag ha h1 h2 rfl hd).trans (congrArg _ (s.framed_respond p 5 _ tag []))
  case full =>
    rw [if_neg hp, if_pos (show 8 ≤ ((s.framed p 5).deferred.get p).length from hf)] at hd
    exact (exec_read_responds h tag ha h1 h2 rfl hd).trans (congrArg _ (s.framed_respond p 5 _ tag []))
  case deferred =>
    rw [if_neg hp, if_neg (show ¬ 8 ≤ ((s.framed p 5).deferred.get p).length from Nat.not_le.mpr hf),
      Translation.head_eq] at hd
    exact exec_read_responds h tag ha h1 h2 rfl hd
  case state =>
    rw [State.demandRead, State.demands_frame]
    rfl
  · rw [State.demandRead, State.demands_frame]
    exact ⟨rfl, rfl⟩

/-- Settles O27. -/
theorem readReissued : Obligations.ReadReissued := by
  unfold Obligations.ReadReissued
  rintro p tag count a s e i h ha h1 h2 he rfl rest rfl freed rfl
  have hready : ∀ l, State.ready { s with deferred := s.deferred.set p l } p := fun l => h
  have hfree := State.entryFor_freed (s.framed p 5) p a count.toNat
  refine ⟨fun hg => ?gone, fun st hg ht => ?refused, fun t hg ht => ?entry⟩
  case gone =>
    exact (exec_read_responds h tag ha h1 h2 rfl (State.doRead_gone (s := s.framed p 5) he hg)).trans
      (congrArg _ (State.framed_respond (s.freeEntry p a count.toNat) p 5 _ tag []))
  case refused =>
    exact exec_read_refused h tag ha h1 h2 (r := s.freeEntry p a count.toNat)
      (State.doRead_entryRefused (s := s.framed p 5) he hg ht)
  case entry =>
    have hd : (s.framed p 5).doRead p a count.toNat = _ := State.doRead_entry (s := s.framed p 5) he hg ht
    have hnew : exec (.read p (Frame.good 0x2A tag (leBytes 4 a ++ [count]))) (s.freeEntry p a count.toNat) =
        .next ((((s.framed p 5).freeEntry p a count.toNat).readNew p t a count.toNat).deliver p 0x2A
          (Frame.good 0x2A tag (readParams a count))) :=
      exec_read_delivers (s := s.freeEntry p a count.toNat) (hready _) tag ha h1 h2
        (State.doRead_new (s := (s.framed p 5).freeEntry p a count.toNat) hfree ht)
    refine ⟨fun hne => ?differs, fun hdr hf hn => ?agrees⟩
    case differs =>
      rw [if_pos hne] at hd
      exact (exec_read_delivers h tag ha h1 h2 hd).trans hnew.symm
    case agrees =>
      rw [if_neg (by rintro (h | h | h); exacts [h hdr, h hf, h hn])] at hd
      refine ⟨fun hr hterm => ?terminal, fun hr => ⟨(((s.framed p 5).freeEntry p a count.toNat).afterServe
        p t a).settle ((s.framed p 5).freeEntry p a count.toNat), _, _, ?ready, ?deferred, rfl, rfl, ?served⟩, fun hpend hl => ?lost,
        fun hpend hl hz hlim => ?timeout, fun hpend hl hlim => ⟨_, ?retry, rfl⟩⟩
      case terminal =>
        rw [if_pos hr, ← State.readNew_served (s := (s.framed p 5).freeEntry p a count.toNat) hterm p a count.toNat] at hd
        exact (exec_read_delivers h tag ha h1 h2 hd).trans hnew.symm
      case ready =>
        rw [if_pos hr, State.serveRead_eq] at hd
        exact exec_read_responds h tag ha h1 h2 (State.servedStatus_captured _ t) hd
      case deferred =>
        rw [State.settle_deferred, (State.afterServe_keeps _ p t a).2.2.1]
        rfl
      case served =>
        rw [State.settle_served, (State.afterServe_keeps _ p t a).2.2.2]
        rfl
      case lost =>
        rw [if_neg (by rw [hpend]; decide), State.readPending_lost hl] at hd
        exact (exec_read_responds h tag ha h1 h2 rfl hd).trans (congrArg _ (s.framed_respond p 5 _ tag []))
      case timeout =>
        rw [if_neg (by rw [hpend]; decide), State.readPending_timeout (s := s.framed p 5) hl hz hlim] at hd
        refine ⟨_, ((s.framed p 5).freeEntry p a count.toNat).withdrawClass e.drive p .direct e.first
          (e.first + e.n - 1), exec_read_delivers h tag ha h1 h2 hd, ?answer, (State.answer_captures _ p _ _ rfl _).1, ?other,
          State.withdrawClass_frame _ _ _ _ _ _, State.withdrawClass_works _ _ _ (c := .direct) nofun _ _,
          fun hne hw ho q => State.withdrawClass_idle (s := (s.framed p 5).freeEntry p a count.toNat) hne hw ho q,
          (congrArg State.ctxReq (State.withdrawClass_eq _ _ _ _ _ _)).trans rfl⟩
        case answer =>
          refine (State.answer_frame _ p _ _ _ _).trans ?_
          rw [State.settle_ports, State.withdrawClass_ports]
          cases p <;> rfl
        case other =>
          refine (State.answer_captures _ p 0x2A (Frame.good 0x2A tag (readParams a count)) (st := .timeout) rfl []).2.trans ?_
          rw [State.settle_errors, State.withdrawClass_errors]
          rfl
      case retry =>
        rw [if_neg (by rw [hpend]; decide), State.readPending_retry hl (by exact hlim), Translation.head_eq] at hd
        exact exec_read_responds h tag ha h1 h2 rfl hd

end Sys2Proof.Proofs
end

section
/-! SLEEP (R104, R169, R170): its causes, the abandonment of the positionings in flight, and the entry into
ENTERING. -/
namespace Sys2Proof.Machine

variable (s : State)

/-! ### The same operation on each drive -/

/-- What an operation on each drive leaves of one drive is what it does there, where it leaves the other drives alone
and reads nothing of them. -/
theorem State.eachDrive_at {α : Type} {f : State → DriveId → State} {o : DriveId → State → α}
    (hother : ∀ s d e, e ≠ d → o d (f s e) = o d s) (hsame : ∀ s t d, o d s = o d t → o d (f s d) = o d (f t d))
    (d : DriveId) : o d (s.eachDrive f) = o d (f s d) := by
  unfold State.eachDrive
  cases d with
  | d0 => rw [hother _ _ _ (by decide), hother _ _ _ (by decide), hother _ _ _ (by decide)]
  | d1 =>
    rw [hother _ _ _ (by decide), hother _ _ _ (by decide)]
    exact hsame _ _ _ (hother _ _ _ (by decide))
  | d2 =>
    rw [hother _ _ _ (by decide)]
    exact hsame _ _ _ ((hother _ _ _ (by decide)).trans (hother _ _ _ (by decide)))
  | d3 =>
    exact hsame _ _ _ ((hother _ _ _ (by decide)).trans ((hother _ _ _ (by decide)).trans (hother _ _ _ (by decide))))

/-- What an operation on each drive leaves alone on every one it leaves alone. -/
theorem State.eachDrive_keeps_field {α : Type} {f : State → DriveId → State} {o : State → α}
    (h : ∀ s d, o (f s d) = o s) : o (s.eachDrive f) = o s := by
  simp only [State.eachDrive, h]

/-! ### The causes -/

theorem flagSet_five_getLsbD (a b c d e : Bool) : ∀ i : Fin 5,
    (BitVec.ofNat 5 (flagSet [a, b, c, d, e])).getLsbD i = [a, b, c, d, e].get i := by
  revert a b c d e
  decide

theorem State.sleepCauses_bit (i : Fin 5) : s.sleepCauses.getLsbD i =
    [s.contexts.toList.any Option.isSome, s.works.toList.any fun w => w.any Entry.direct,
      s.deferred.a.any (fun e => e.state == .pending) || s.deferred.b.any (fun e => e.state == .pending),
      s.loader.write != .idle, s.loader.stage != .idle].get i := flagSet_five_getLsbD _ _ _ _ _ i

theorem State.sleepCauses_contexts :
    s.sleepCauses.getLsbD 0 = true ↔ ∃ c ∈ s.contexts.toList, c ≠ none := by
  rw [show s.sleepCauses.getLsbD 0 = _ from s.sleepCauses_bit 0]
  simp only [List.get, List.any_eq_true, Option.isSome_iff_ne_none]

theorem Entry.direct_iff (e : Entry) : e.direct = true ↔ e.cls.a = .direct ∨ e.cls.b = .direct := by
  rw [Entry.direct, Bool.or_eq_true, beq_iff_eq, beq_iff_eq]

theorem Quad.any_iff {α : Type} (x : Quad α) (f : α → Bool) : x.toList.any f = true ↔ ∃ d, f (x.get d) = true := by
  rw [List.any_eq_true]
  constructor
  · rintro ⟨v, hv, hf⟩
    simp only [Quad.toList, List.mem_cons, List.not_mem_nil, or_false] at hv
    rcases hv with rfl | rfl | rfl | rfl
    exacts [⟨.d0, hf⟩, ⟨.d1, hf⟩, ⟨.d2, hf⟩, ⟨.d3, hf⟩]
  · rintro ⟨d, hf⟩
    exact ⟨_, by cases d <;> simp [Quad.toList, Quad.get], hf⟩

theorem State.sleepCauses_direct : s.sleepCauses.getLsbD 1 = true ↔
    ∃ d, ∃ e ∈ s.works.get d, e.cls.a = .direct ∨ e.cls.b = .direct := by
  rw [show s.sleepCauses.getLsbD 1 = _ from s.sleepCauses_bit 1]
  show s.works.toList.any (fun w => w.any Entry.direct) = true ↔ _
  rw [Quad.any_iff]
  simp only [List.any_eq_true, Entry.direct_iff]

theorem State.sleepCauses_pending : s.sleepCauses.getLsbD 2 = true ↔
    ∃ q, ∃ e ∈ s.deferred.get q, e.state = .pending := by
  rw [show s.sleepCauses.getLsbD 2 = _ from s.sleepCauses_bit 2]
  show (s.deferred.a.any (fun e => e.state == .pending) || s.deferred.b.any fun e => e.state == .pending) = true ↔ _
  simp only [Bool.or_eq_true, List.any_eq_true, beq_iff_eq]
  constructor
  · rintro (h | h)
    exacts [⟨.a, h⟩, ⟨.b, h⟩]
  · rintro ⟨q, h⟩
    cases q
    exacts [.inl h, .inr h]

theorem State.sleepCauses_write : s.sleepCauses.getLsbD 3 = true ↔ s.loader.write ≠ .idle := by
  rw [show s.sleepCauses.getLsbD 3 = _ from s.sleepCauses_bit 3]
  exact bne_iff_ne

theorem State.sleepCauses_loader : s.sleepCauses.getLsbD 4 = true ↔ s.loader.stage ≠ .idle := by
  rw [show s.sleepCauses.getLsbD 4 = _ from s.sleepCauses_bit 4]
  exact bne_iff_ne

/-! ### The abandonment of a positioning (R104) -/

theorem State.orphaned_iff (d : DriveId) : s.orphaned d = true ↔
    ∃ x, s.link.exchange = some x ∧ x.drive = d ∧ x.orphan = true := by
  unfold State.orphaned
  cases s.link.exchange <;> simp

theorem AttemptPhase.positioning_iff (x : AttemptPhase) : x.positioning = true ↔ x ≠ .needRead ∧ x ≠ .readSent := by
  cases x <;> simp [AttemptPhase.positioning]

/-- A drive without a positioning in flight, or with one that a RESET has abandoned, is left as it is. -/
theorem State.abandonPositioning_none {s : State} {d : DriveId}
    (h : (∀ a, s.attempts.get d = some a → a.phase.positioning = false) ∨ s.orphaned d = true) :
    s.abandonPositioning d = s := by
  unfold State.abandonPositioning
  cases ha : s.attempts.get d with
  | none => rfl
  | some a =>
    refine if_neg ?_
    rcases h with h | h
    · rw [h a ha]
      simp
    · rw [h]
      simp

/-- R104: all that the abandonment of a positioning does. -/
theorem State.abandonPositioning_eq {s : State} {d : DriveId} {a : Attempt} (ha : s.attempts.get d = some a)
    (hp : a.phase.positioning = true) (ho : s.orphaned d = false) : s.abandonPositioning d = { s with
      drives := s.drives.set d { s.drives.get d with pend := withTx (s.drives.get d).pend .relax, poll := none }
      scheds := s.scheds.set d { s.scheds.get d with position := none }
      attempts := s.attempts.set d (if a.phase.inExchange then some { a with abandoned := true } else none)
      discard := if a.phase.inExchange then s.discard else s.discard.set d false
      contexts := if a.phase.inExchange then s.contexts
        else match s.abandonPending d with | some i => s.contexts.set i none | none => s.contexts } := by
  unfold State.abandonPositioning
  rw [ha]
  dsimp only
  rw [if_pos (by rw [hp, ho]; rfl), State.request_eq]
  cases he : a.phase.inExchange with
  | true => simp [State.setDrive, State.setPosition, State.setSched, State.setAttempt]
  | false =>
    simp only [Bool.false_eq_true, if_false]
    rw [State.endAttempt_eq]
    simp [State.setDrive, State.setPosition, State.setSched]
    rfl

theorem State.abandonPositioning_cases (d : DriveId) : s.abandonPositioning d = s ∨ ∃ a, s.attempts.get d = some a ∧
    a.phase.positioning = true ∧ s.orphaned d = false := by
  by_cases h : ∃ a, s.attempts.get d = some a ∧ a.phase.positioning = true ∧ s.orphaned d = false
  · exact .inr h
  · refine .inl (State.abandonPositioning_none ?_)
    by_cases ho : s.orphaned d = true
    · exact .inr ho
    · exact .inl fun a ha => Bool.eq_false_iff.mpr fun hp => h ⟨a, ha, hp, Bool.eq_false_iff.mpr ho⟩

/-- What is a drive's own of the things that the abandonment of its positioning touches, with the link. -/
def State.positioningOf (d : DriveId) (s : State) : Option Attempt × Bool × DriveLink × Sched × Link :=
  (s.attempts.get d, s.discard.get d, s.drives.get d, s.scheds.get d, s.link)

theorem State.abandonPositioning_other (d e : DriveId) (h : e ≠ d) :
    State.positioningOf d (s.abandonPositioning e) = State.positioningOf d s := by
  rcases s.abandonPositioning_cases e with he | ⟨a, ha, hp, ho⟩
  · rw [he]
  · rw [State.abandonPositioning_eq ha hp ho]
    unfold State.positioningOf
    simp only [Quad.get_set_ne _ h.symm]
    split <;> simp [Quad.get_set_ne _ h.symm]

/-- R104: what the abandonment makes of a drive. -/
theorem State.positioningOf_abandoned (d : DriveId) : State.positioningOf d (s.abandonPositioning d) =
    match s.attempts.get d with
    | none => State.positioningOf d s
    | some a =>
      if a.phase.positioning && !s.orphaned d then
        (if a.phase.inExchange then some { a with abandoned := true } else none,
          if a.phase.inExchange then s.discard.get d else false,
          { s.drives.get d with pend := withTx (s.drives.get d).pend .relax, poll := none },
          { s.scheds.get d with position := none }, s.link)
      else State.positioningOf d s := by
  cases ha : s.attempts.get d with
  | none => rw [State.abandonPositioning_none (.inl fun a h => by rw [ha] at h; cases h)]
  | some a =>
    by_cases h : a.phase.positioning = true ∧ s.orphaned d = false
    · obtain ⟨hp, ho⟩ := h
      rw [State.abandonPositioning_eq ha hp ho]
      dsimp only
      rw [if_pos (show (a.phase.positioning && !s.orphaned d) = true by rw [hp, ho]; rfl)]
      unfold State.positioningOf
      cases a.phase.inExchange <;> simp
    · have hs : (∀ x, s.attempts.get d = some x → x.phase.positioning = false) ∨ s.orphaned d = true := by
        by_cases ho : s.orphaned d = true
        · exact .inr ho
        · refine .inl fun x hx => Bool.eq_false_iff.mpr fun hp => h ⟨?_, Bool.eq_false_iff.mpr ho⟩
          rw [ha] at hx
          cases hx
          exact hp
      rw [State.abandonPositioning_none hs]
      exact (if_neg (by simpa using h)).symm

theorem State.abandonPositioning_same (s t : State) (d : DriveId)
    (h : State.positioningOf d s = State.positioningOf d t) :
    State.positioningOf d (s.abandonPositioning d) = State.positioningOf d (t.abandonPositioning d) := by
  have h' := h
  simp only [State.positioningOf, Prod.mk.injEq] at h'
  obtain ⟨hat, hdis, hdr, hsc, hlink⟩ := h'
  have hor : s.orphaned d = t.orphaned d := by rw [State.orphaned, State.orphaned, hlink]
  rw [State.positioningOf_abandoned, State.positioningOf_abandoned, h, hat, hdis, hdr, hsc, hlink, hor]

/-! ### The entry into ENTERING -/

theorem State.abandonPositioning_frame (d : DriveId) : s.abandonPositioning d = { s with
    drives := (s.abandonPositioning d).drives, scheds := (s.abandonPositioning d).scheds
    attempts := (s.abandonPositioning d).attempts, discard := (s.abandonPositioning d).discard
    contexts := (s.abandonPositioning d).contexts } := by
  rcases s.abandonPositioning_cases d with he | ⟨a, ha, hp, ho⟩
  · rw [he]
  · rw [State.abandonPositioning_eq ha hp ho]

/-- What the entry into ENTERING makes of a drive is the abandonment of its positioning. -/
theorem State.enter_at (sources wakeTime : Nat) (d : DriveId) :
    State.positioningOf d (s.enter sources wakeTime) = State.positioningOf d (s.abandonPositioning d) := by
  unfold State.enter
  rw [State.eachDrive_at _ (fun s d e h => s.abandonPositioning_other d e h) State.abandonPositioning_same]
  exact State.abandonPositioning_same _ _ _ rfl

theorem State.enter_fields (sources wakeTime : Nat) :
    (s.enter sources wakeTime).power = { s.power with
      state := .entering, quiet := none, wakePort := ⟨sources.testBit 0, sources.testBit 1⟩
      wakeOnTimer := sources.testBit 2, wakeTime := wakeTime, wakeTimer := none, reject := 0 } ∧
    (s.enter sources wakeTime).unitMap = s.unitMap ∧ (s.enter sources wakeTime).works = s.works ∧
    (s.enter sources wakeTime).mounts = s.mounts := by
  unfold State.enter
  refine ⟨State.eachDrive_keeps_field _ fun s d => ?_, State.eachDrive_keeps_field _ fun s d => ?_,
    State.eachDrive_keeps_field _ fun s d => ?_, State.eachDrive_keeps_field _ fun s d => ?_⟩ <;>
  rw [State.abandonPositioning_frame]

/-! ### The request -/

def sleepParams (mask sources : Byte) (time : Nat) : List Byte := mask :: sources :: leBytes 4 time

theorem sleepParams_time (mask sources : Byte) {time : Nat} (h : time < 4294967296) :
    leField (sleepParams mask sources time) 4 2 = time := by
  rw [sleepParams, leField_cons, leField_cons, ← List.append_nil (leBytes 4 time), leField_leBytes4 time h]

/-- R169: the ranges of SLEEP. -/
theorem sleep_rangesOk_iff (mask sources : Byte) {time : Nat} (h : time < 4294967296) :
    ReqCode.sleep.rangesOk (sleepParams mask sources time) = true ↔ mask.toNat < 8 ∧ 1 ≤ sources.toNat ∧
      sources.toNat < 8 ∧ (sources.getLsbD 2 = true → 1 ≤ time ∧ time ≤ 86400) := by
  have hr : ReqCode.sleep.rangesOk (sleepParams mask sources time) =
    (decide (mask.toNat < 8) && decide (1 ≤ sources.toNat) && decide (sources.toNat < 8)
      && (!(sources.getLsbD 2) || (decide (1 ≤ leField (sleepParams mask sources time) 4 2)
        && decide (leField (sleepParams mask sources time) 4 2 ≤ 86400)))) := rfl
  rw [hr, sleepParams_time mask sources h]
  cases sources.getLsbD 2 <;> simp [and_assoc]

theorem State.carry_sleep (p : PortId) (mask sources : Byte) {time : Nat} (h : time < 4294967296) :
    s.carry p .sleep (sleepParams mask sources time) = s.doSleep mask.toNat sources.toNat time := by
  show s.doSleep mask.toNat sources.toNat (leField (sleepParams mask sources time) 4 2) = _
  rw [sleepParams_time mask sources h]

theorem State.doSleep_rejected {s : State} {mask : Nat} (h : s.sleepCauses &&& applyingCauses mask ≠ 0)
    (sources time : Nat) : s.doSleep mask sources time =
      ({ s with power := { s.power with reject := s.sleepCauses &&& applyingCauses mask } },
        .reply .rejected (leBytes 1 (s.sleepCauses &&& applyingCauses mask).toNat)) := if_pos h

theorem State.doSleep_enters {s : State} {mask : Nat} (h : s.sleepCauses &&& applyingCauses mask = 0)
    (sources time : Nat) : s.doSleep mask sources time = ((s.enter sources time).settle s, .reply .ok []) :=
  if_neg (not_not.mpr h)

end Sys2Proof.Machine

namespace Sys2Proof.Proofs
open Sys2Proof.Machine

/-- Settles O32. -/
theorem sleepRequest : Obligations.SleepRequest := by
  unfold Obligations.SleepRequest
  intro p tag mask sources time s h htime
  have hiff := sleep_rangesOk_iff mask sources htime
  have hcarry := (s.framed p 6).carry_sleep p mask sources htime
  refine ⟨fun hbad => ?badParam, fun hm h1 h8 ht causes hcauses => ?ok⟩
  case badParam =>
    have hr : ReqCode.sleep.rangesOk (sleepParams mask sources time) = false := Bool.eq_false_iff.mpr fun hr => by
      obtain ⟨hm, h1, h8, ht⟩ := hiff.mp hr
      rcases hbad with hb | hb | hb | ⟨hb, hb'⟩
      · omega
      · omega
      · omega
      · have := ht hb
        omega
    have hframe := s.framed_answer_frame p ReqCode.sleep.byte
      (Frame.good ReqCode.sleep.byte tag (sleepParams mask sources time)) 6 .badParam []
    exact ⟨_, State.command_badParam h (c := .sleep) tag rfl hr, State.answer_ports _ _ _ _ _ _ _,
      (congrArg State.power hframe).trans rfl⟩
  case ok =>
    have hr := hiff.mpr ⟨hm, h1, h8, ht⟩
    subst hcauses
    refine ⟨fun hc => ?rejected, fun hc => ⟨(s.framed p 6).enter sources.toNat time, ?enters, ?power,
      fun d a ha hn1 hn2 hx => ?abandoned, fun d hd => ?kept, (State.enter_fields _ _ _).2⟩, s.sleepCauses_contexts,
      s.sleepCauses_direct, s.sleepCauses_pending, s.sleepCauses_write, s.sleepCauses_loader⟩
    case rejected =>
      have hd := State.doSleep_rejected (s := s.framed p 6) (mask := mask.toNat) hc sources.toNat time
      show exec (ReqCode.sleep.command p (Frame.good ReqCode.sleep.byte tag (sleepParams mask sources time))) s = _
      rw [exec_command_good, State.frame_ready h tag rfl hr,
        show (s.framed p (sleepParams mask sources time).length).carry p .sleep _ = _ from hcarry.trans hd,
        Handled.deliver_reply]
      rw [State.answer_uncaptured _ _ _ _ rfl]
      exact congrArg _ (State.framed_respond { s with
        power := { s.power with reject := s.sleepCauses &&& applyingCauses mask.toNat } } p 6 _ tag _)
    case enters =>
      exact State.command_settles h (c := .sleep) tag rfl hr
        (hcarry.trans (State.doSleep_enters (s := s.framed p 6) hc sources.toNat time))
    case power => exact (State.enter_fields _ _ _).1
    case abandoned =>
      have hat := (s.framed p 6).enter_at sources.toNat time d
      have ho : (s.framed p 6).orphaned d = false := Bool.eq_false_iff.mpr fun ho => by
        obtain ⟨x, hx1, hx2, hx3⟩ := ((s.framed p 6).orphaned_iff d).mp ho
        rw [hx x hx1 hx2] at hx3
        cases hx3
      rw [State.abandonPositioning_eq (s := s.framed p 6) ha (a.phase.positioning_iff.mpr ⟨hn1, hn2⟩) ho] at hat
      simp only [State.positioningOf, Prod.mk.injEq, Quad.get_set] at hat
      obtain ⟨hat, hdis, hdr, hsc, -⟩ := hat
      rw [hat, hdis, hdr, hsc]
      refine ⟨?_, rfl, rfl, fun hp => ?_, fun hp => ?_⟩
      · unfold withTx
        split
        · assumption
        · simp
      · rcases hp with hp | hp <;> rw [hp] <;> rfl
      · rcases hp with hp | hp | hp <;> rw [hp] <;> exact ⟨rfl, Quad.get_set _ _ _⟩
    case kept =>
      have hat := (s.framed p 6).enter_at sources.toNat time d
      have hn : (s.framed p 6).abandonPositioning d = s.framed p 6 := State.abandonPositioning_none (hd.imp
        (fun hd a ha => Bool.eq_false_iff.mpr fun hp => (hd a ha).elim (a.phase.positioning_iff.mp hp).1
          (a.phase.positioning_iff.mp hp).2) (fun hd => ((s.framed p 6).orphaned_iff d).mpr hd))
      rw [hn] at hat
      simp only [State.positioningOf, Prod.mk.injEq] at hat
      exact ⟨hat.1, hat.2.2.1, hat.2.2.2.1⟩

end Sys2Proof.Proofs
end

section
/-! The drive link: its grants (R94, R105) and the bytes of good replies (R87 to R89). -/
namespace Sys2Proof.Machine

variable (s : State)

/-! ### Grants -/

theorem State.grantOf_eq_none_iff : s.grantOf = none ↔
    s.link.exchange ≠ none ∨ s.link.clearing = true ∨ ∀ d, s.nextTx d = none := by
  have h := s.grantOf_isSome_iff
  rw [← not_iff_not, ← ne_eq, ← Option.isSome_iff_ne_none, h]
  push Not
  rw [ne_eq, Bool.not_eq_true]

/-- R105: a drive of priority HIGH before the others, and then the first in round-robin order. -/
theorem State.grantOf_some {s : State} (hx : s.link.exchange = none) (hc : s.link.clearing = false) {d : DriveId}
    (hd : s.nextTx d ≠ none) (hfirst : ∀ e, s.nextTx e ≠ none →
      (s.settings.driveHigh.get e = true → s.settings.driveHigh.get d = true) ∧
      (s.settings.driveHigh.get e = s.settings.driveHigh.get d →
        (d.toNat + 3 - s.link.last.toNat) % 4 ≤ (e.toNat + 3 - s.link.last.toNat) % 4)) :
    s.grantOf = some d := by
  have hreq : ∀ e, (s.nextTx e).isSome = true → s.nextTx e ≠ none := fun e he => Option.isSome_iff_ne_none.mp he
  unfold State.grantOf
  rw [if_neg (by rw [hx, hc]; decide)]
  dsimp only
  cases hh : s.settings.driveHigh.get d with
  | true =>
    have hfind := DriveId.after_find s.link.last
      (fun e => (s.nextTx e).isSome && s.settings.driveHigh.get e) d
      (by simp only [hh, Option.isSome_iff_ne_none.mpr hd, Bool.and_self])
      (fun e he => by
        obtain ⟨h1, h2⟩ := Bool.and_eq_true_iff.mp he
        exact (hfirst e (hreq e h1)).2 (h2.trans hh.symm))
    rw [hfind]
    rfl
  | false =>
    have hlow : ∀ e, s.nextTx e ≠ none → s.settings.driveHigh.get e = false := fun e he =>
      Bool.eq_false_iff.mpr fun h => by
        have := (hfirst e he).1 h
        rw [hh] at this
        cases this
    have hnone : s.link.last.after.find? (fun e => (s.nextTx e).isSome && s.settings.driveHigh.get e) = none := by
      rw [List.find?_eq_none]
      intro e _ he
      obtain ⟨h1, h2⟩ := Bool.and_eq_true_iff.mp he
      rw [hlow e (hreq e h1)] at h2
      cases h2
    rw [hnone, Option.none_or]
    exact DriveId.after_find s.link.last (fun e => (s.nextTx e).isSome) d (Option.isSome_iff_ne_none.mpr hd)
      fun e he => (hfirst e (hreq e he)).2 ((hlow e (hreq e he)).trans hh.symm)

theorem State.linkStep_none {s : State} (h : s.grantOf = none) : s.linkStep = none := by
  unfold State.linkStep
  rw [h]

theorem State.linkStep_some {s : State} {d : DriveId} {t : LinkTx} (h : s.grantOf = some d) (ht : s.nextTx d = some t) :
    s.linkStep = some (s.grantLink d t) := by
  unfold State.linkStep
  rw [h]
  dsimp only
  rw [ht]
  rfl

theorem State.grantLink_frame (d : DriveId) (t : LinkTx) : s.grantLink d t = { s with
    link := (s.grantLink d t).link, attempts := (s.grantLink d t).attempts, drives := (s.grantLink d t).drives } := by
  cases t <;> rfl

/-- R94: a request that is granted leaves the requests of its drive. -/
theorem DriveLink.drop_one (l : DriveLink) (x : PendTx) :
    l.drop [x] = { l with pend := l.pend.filter fun y => decide (y ≠ x) } := by
  unfold DriveLink.drop
  have h : (fun t => !([x].contains t)) = fun y => decide (y ≠ x) := by
    funext y
    cases x <;> cases y <;> rfl
  rw [h]

theorem PowerState.allows_iff (w : PowerState) (t : PendTx) :
    w.allows t = true ↔ w = .active ∨ w = .quiet ∨ (w = .entering ∧ t = .relax) := by
  cases w <;> cases t <;> simp [PowerState.allows, PowerState.running]

theorem State.due_of_grantOf {s : State} (hg : s.grantDue = false) (h : s.grantOf.isSome = true) :
    s.due = some .linkGrant := by
  unfold State.due
  rw [if_neg (by rw [hg]; decide), if_pos h]

theorem State.grantOf_of_due_none {s : State} (h : s.due = none) : s.grantOf = none := by
  unfold State.due at h
  split at h
  · cases h
  · split at h
    · cases h
    · rename_i hn
      rwa [Bool.not_eq_true, Option.isSome_eq_false_iff, Option.isNone_iff_eq_none] at hn

/-! ### The bytes of replies -/

theorem byte_toNat_eq_iff (b : Byte) {n : Nat} (h : n < 256) : b.toNat = n ↔ b = BitVec.ofNat 8 n := by
  rw [← BitVec.toNat_inj, ofNat8_toNat h]

theorem byte_toNat_bne_zero (b : Byte) : (b.toNat != 0) = decide (b ≠ 0) := by
  rw [Bool.eq_iff_iff, bne_iff_ne, ne_eq, byte_toNat_eq_zero_iff, decide_eq_true_eq]

/-- R89: what a PROBE reply reports. -/
def probeOf (kind medium lo hi : Byte) : ProbeReport :=
  ⟨if kind = 0 then .floppy else .cartridge, decide (medium ≠ 0), lo.toNat + 256 * hi.toNat⟩

theorem parseProbe_good (kind medium lo hi : Byte) (h : kind.toNat ≤ 1) :
    parseProbe [0x81, kind, medium, lo, hi, crc8 [0x81, kind, medium, lo, hi]] = some (probeOf kind medium lo hi) := by
  have hc : replyCrcOk [0x81, kind, medium, lo, hi, crc8 [0x81, kind, medium, lo, hi]] = true :=
    (replyCrcOk_iff _).mpr ⟨[0x81, kind, medium, lo, hi], rfl⟩
  have hk : (byteAt [0x81, kind, medium, lo, hi, crc8 [0x81, kind, medium, lo, hi]] 1 = 0) = (kind = 0) :=
    propext (byte_toNat_eq_zero_iff kind)
  unfold parseProbe
  rw [hc]
  refine (if_pos (decide_eq_true h)).trans ?_
  simp only [hk]
  exact congrArg some (by rw [probeOf, ← byte_toNat_bne_zero]; rfl)

theorem parseProbe_some {bytes : List Byte} {r : ProbeReport} (h : parseProbe bytes = some r) :
    ∃ kind medium lo hi : Byte, kind.toNat ≤ 1 ∧
      bytes = [0x81, kind, medium, lo, hi, crc8 [0x81, kind, medium, lo, hi]] := by
  unfold parseProbe at h
  split at h
  next hg =>
    simp only [Bool.and_eq_true, beq_iff_eq, decide_eq_true_eq] at hg
    obtain ⟨⟨⟨hc, hl⟩, h0⟩, h1⟩ := hg
    obtain ⟨body, rfl⟩ := (replyCrcOk_iff _).mp hc
    have hl : body.length = 5 := by rw [List.length_append, List.length_singleton] at hl; omega
    match body, hl, h0, h1 with
    | [a, kind, medium, lo, hi], _, h0, h1 =>
      have ha : a = 0x81 := (byte_toNat_eq_iff a (by decide)).mp h0
      subst ha
      exact ⟨kind, medium, lo, hi, h1, rfl⟩
  next => cases h

/-- R89: what a POLL reply reports. -/
def pollOf (st medium changed lo hi : Byte) : PollReport :=
  ⟨if st = 0 then .ready else if st = 1 then .busy else .fault, decide (medium ≠ 0), decide (changed ≠ 0),
    lo.toNat + 256 * hi.toNat⟩

theorem parsePoll_good (st medium changed lo hi : Byte) (h : st.toNat ≤ 2) :
    parsePoll [0x82, st, medium, changed, lo, hi, crc8 [0x82, st, medium, changed, lo, hi]] =
      some (pollOf st medium changed lo hi) := by
  have hc : replyCrcOk [0x82, st, medium, changed, lo, hi, crc8 [0x82, st, medium, changed, lo, hi]] = true :=
    (replyCrcOk_iff _).mpr ⟨[0x82, st, medium, changed, lo, hi], rfl⟩
  have h0 : (byteAt [0x82, st, medium, changed, lo, hi, crc8 [0x82, st, medium, changed, lo, hi]] 1 = 0) = (st = 0) :=
    propext (byte_toNat_eq_zero_iff st)
  have h1 : (byteAt [0x82, st, medium, changed, lo, hi, crc8 [0x82, st, medium, changed, lo, hi]] 1 = 1) = (st = 1) :=
    propext (byte_toNat_eq_iff st (by decide))
  unfold parsePoll
  rw [hc]
  refine (if_pos (decide_eq_true h)).trans ?_
  simp only [h0, h1]
  exact congrArg some (by rw [pollOf, ← byte_toNat_bne_zero, ← byte_toNat_bne_zero]; rfl)

theorem parsePoll_some {bytes : List Byte} {r : PollReport} (h : parsePoll bytes = some r) :
    ∃ st medium changed lo hi : Byte, st.toNat ≤ 2 ∧
      bytes = [0x82, st, medium, changed, lo, hi, crc8 [0x82, st, medium, changed, lo, hi]] := by
  unfold parsePoll at h
  split at h
  next hg =>
    simp only [Bool.and_eq_true, beq_iff_eq, decide_eq_true_eq] at hg
    obtain ⟨⟨⟨hc, hl⟩, h0⟩, h1⟩ := hg
    obtain ⟨body, rfl⟩ := (replyCrcOk_iff _).mp hc
    have hl : body.length = 6 := by rw [List.length_append, List.length_singleton] at hl; omega
    match body, hl, h0, h1 with
    | [a, st, medium, changed, lo, hi], _, h0, h1 =>
      have ha : a = 0x82 := (byte_toNat_eq_iff a (by decide)).mp h0
      subst ha
      exact ⟨st, medium, changed, lo, hi, h1, rfl⟩
  next => cases h

/-- The DATA reply to a READ (R88). -/
def dataFrame (sync : Byte) (data quals : List Byte) : List Byte :=
  0x83 :: sync :: (data ++ quals ++ [crc8 (0x83 :: sync :: (data ++ quals))])

theorem dataFrame_crc (sync : Byte) (data quals : List Byte) : replyCrcOk (dataFrame sync data quals) = true :=
  (replyCrcOk_iff _).mpr ⟨0x83 :: sync :: (data ++ quals), rfl⟩

theorem parseRead_good {b : Nat} (sync : Byte) {data quals : List Byte} (hd : data.length = b) (hq : quals.length = b)
    (h7 : ∀ q ∈ quals, q.toNat ≤ 7) :
    parseRead b (dataFrame sync data quals) = some (.data ⟨data, quals.map BitVec.toNat, decide (sync ≠ 0)⟩) := by
  have hdata : ((dataFrame sync data quals).drop 2).take b = data := by
    show (data ++ quals ++ _).take b = data
    rw [List.append_assoc, ← hd, List.take_left]
  have hquals : ((dataFrame sync data quals).drop (2 + b)).take b = quals := by
    rw [← List.drop_drop]
    show ((data ++ quals ++ _).drop b).take b = quals
    rw [List.append_assoc, ← hd, List.drop_left, hd, ← hq, List.take_left]
  have hlen : (dataFrame sync data quals).length = 2 * b + 3 := by
    simp only [dataFrame, List.length_cons, List.length_append, List.length_nil]
    omega
  have hall : quals.all (fun q => decide (q.toNat ≤ 7)) = true := by simpa using h7
  unfold parseRead
  rw [if_pos (dataFrame_crc sync data quals), hdata, hquals, hlen, hall, if_pos (by simp [dataFrame])]
  exact congrArg (fun x => some (ReadReport.data ⟨data, quals.map BitVec.toNat, x⟩)) (byte_toNat_bne_zero sync)

theorem parseRead_some {b : Nat} {bytes : List Byte} {r : ReadReport} (h : parseRead b bytes = some r) :
    (∃ (sync : Byte) (data quals : List Byte), data.length = b ∧ quals.length = b ∧ (∀ q ∈ quals, q.toNat ≤ 7) ∧
      bytes = dataFrame sync data quals) ∨ (r = .fault ∧ bytes = [0x84, crc8 [0x84]]) := by
  unfold parseRead at h
  split at h
  next hc =>
    obtain ⟨body, rfl⟩ := (replyCrcOk_iff _).mp hc
    split at h
    next hg =>
      simp only [Bool.and_eq_true, beq_iff_eq, List.all_eq_true, decide_eq_true_eq] at hg
      obtain ⟨⟨h0, hl⟩, h7⟩ := hg
      rw [List.length_append, List.length_singleton] at hl
      match body, hl, h0, h7 with
      | a :: sync :: rest, hl, h0, h7 =>
        have ha : a = 0x83 := (byte_toNat_eq_iff a (by decide)).mp h0
        subst ha
        simp only [List.length_cons] at hl
        refine .inl ⟨sync, rest.take b, rest.drop b, ?_, ?_, fun q hq => h7 q ?_, ?_⟩
        · rw [List.length_take]; omega
        · rw [List.length_drop]; omega
        · rw [← List.drop_drop]
          show q ∈ ((rest ++ _).drop b).take b
          rw [List.drop_append_of_le_length (by omega), List.take_append_of_le_length (by rw [List.length_drop]; omega)]
          rwa [List.take_of_length_le (by rw [List.length_drop]; omega)]
        · rw [dataFrame, List.take_append_drop]
          rfl
      | [a], hl, _, _ => simp at hl
    next =>
      split at h
      next hg =>
        simp only [Bool.and_eq_true, beq_iff_eq] at hg
        obtain ⟨h0, hl⟩ := hg
        have hl : body.length = 1 := by rw [List.length_append, List.length_singleton] at hl; omega
        match body, hl, h0 with
        | [a], _, h0 =>
          have ha : a = 0x84 := (byte_toNat_eq_iff a (by decide)).mp h0
          subst ha
          cases h
          exact .inr ⟨rfl, rfl⟩
      next => cases h
  next => cases h

theorem parseRead_fault (b : Nat) : parseRead b [0x84, crc8 [0x84]] = some .fault := by
  have hc : replyCrcOk [0x84, crc8 [0x84]] = true := (replyCrcOk_iff _).mpr ⟨[0x84], rfl⟩
  unfold parseRead
  rw [if_pos hc, if_neg (by rw [show (byteAt [0x84, crc8 [0x84]] 0 == 0x83) = false from rfl]; simp)]
  exact if_pos rfl

end Sys2Proof.Machine

namespace Sys2Proof.Proofs
open Sys2Proof.Machine

/-- Settles O39. -/
theorem replyForms : Obligations.ReplyForms := by
  unfold Obligations.ReplyForms
  refine ⟨fun bytes r => ⟨fun h => ?probe, ?probeGood⟩, fun bytes r => ⟨fun h => ?poll, ?pollGood⟩,
    fun b bytes r => ⟨fun h => ?data, ?dataGood⟩, fun b bytes => ⟨fun h => ?fault, ?faultGood⟩⟩
  case probe =>
    obtain ⟨kind, medium, lo, hi, hk, rfl⟩ := parseProbe_some h
    rw [parseProbe_good _ _ _ _ hk] at h
    exact ⟨kind, medium, lo, hi, hk, rfl, (Option.some.inj h).symm⟩
  case probeGood =>
    rintro ⟨kind, medium, lo, hi, hk, rfl, rfl⟩
    exact parseProbe_good _ _ _ _ hk
  case poll =>
    obtain ⟨st, medium, changed, lo, hi, hs, rfl⟩ := parsePoll_some h
    rw [parsePoll_good _ _ _ _ _ hs] at h
    exact ⟨st, medium, changed, lo, hi, hs, rfl, (Option.some.inj h).symm⟩
  case pollGood =>
    rintro ⟨st, medium, changed, lo, hi, hs, rfl, rfl⟩
    exact parsePoll_good _ _ _ _ _ hs
  case data =>
    rcases parseRead_some h with ⟨sync, data, quals, hd, hq, h7, rfl⟩ | ⟨hf, -⟩
    · rw [parseRead_good sync hd hq h7] at h
      exact ⟨sync, data, quals, hd, hq, h7, rfl, (ReadReport.data.inj (Option.some.inj h)).symm⟩
    · cases hf
  case dataGood =>
    rintro ⟨sync, data, quals, hd, hq, h7, rfl, rfl⟩
    exact parseRead_good sync hd hq h7
  case fault =>
    rcases parseRead_some h with ⟨sync, data, quals, hd, hq, h7, rfl⟩ | ⟨-, hb⟩
    · rw [parseRead_good sync hd hq h7] at h
      cases h
    · exact hb
  case faultGood =>
    rintro rfl
    exact parseRead_fault b

/-- Settles O38. -/
theorem linkGrant : Obligations.LinkGrant := by
  unfold Obligations.LinkGrant
  rintro r s rfl
  refine ⟨fun hc hx hcl hd => ?due, fun h => r.grantOf_eq_none_iff.mp (State.grantOf_of_due_none h), fun h => ?refused,
    fun d a ha => ?attempt, fun d ha => ?pend, fun hx hcl d t ht hfirst => ?granted⟩
  case due =>
    refine State.due_of_grantOf (Bool.eq_false_iff.mpr fun hg => ?_) (r.grantOf_isSome_iff.mpr ⟨hx, hcl, hd⟩)
    obtain ⟨hf, e, he⟩ := r.grantDue_iff.mp hg
    exact hc.elim hf fun h => he (h e)
  case refused =>
    show stepOut (r.upTo .linkGrant).linkStep = _
    rw [State.linkStep_none ((State.grantOf_eq_none_iff _).mpr h)]
    rfl
  case attempt =>
    unfold State.nextTx
    rw [ha]
    dsimp only
    cases a.phase <;> rfl
  case pend =>
    unfold State.nextTx
    rw [ha]
    dsimp only
    congr 2
    funext t
    rw [Bool.eq_iff_iff, PowerState.allows_iff, decide_eq_true_eq]
  case granted =>
    rw [show exec .linkGrant r = stepOut (r.upTo .linkGrant).linkStep from rfl]
    generalize r.upTo .linkGrant = s at *
    have hg := State.grantOf_some hx hcl (by rw [ht]; nofun) hfirst
    refine ⟨s.grantLink d t, ?step, s.grantLink_frame d t, ?clearing, ?last, ?attempt, ?pend⟩
    case step =>
      rw [State.linkStep_some hg ht]
      rfl
    case clearing => cases t <;> exact hcl
    case last => cases t <;> rfl
    case attempt =>
      rintro c a rfl params rfl
      refine ⟨?_, ?_, rfl⟩
      · cases c <;> rfl
      · refine congrArg (fun ph => s.attempts.set d (some { a with phase := ph })) (?_ : a.phase.sent = _)
        cases a.phase <;> rfl
    case pend =>
      rintro x rfl
      refine ⟨by cases x <;> rfl, rfl, ?_⟩
      show s.drives.set d ((s.drives.get d).drop [x]) = _
      rw [DriveLink.drop_one]

end Sys2Proof.Proofs
end

section
/-! The loss of a mount (R17, R22, R46) and the medium report of a good reply (R89, R103). -/
namespace Sys2Proof.Machine

variable (s : State)

/-! ### The unit of a released context -/

/-- R22, R46: the record that the release of a context leaves of its unit. -/
def OpenCtx.leaves (c : OpenCtx) (lost : Bool) (r : UnitRec) : UnitRec :=
  match c.phase with
  | .evaluating w | .repairing w =>
    if lost then { r with
      state := .tried, attempts := w.attempts, contributing := w.contributing, best := w.best, weak := w.weak }
    else { r with state := .tried }
  | .collecting | .storing _ => { r with state := .tried }

/-- Context `i` is held for a unit of the drive. -/
def State.holds (s : State) (d : DriveId) (u i : Nat) : Prop :=
  ∃ c, s.contexts.get? i = some (some c) ∧ c.drive = d ∧ c.unit = some u

theorem State.releaseOf_unit_free {s : State} {d : DriveId} {u i : Nat} {m : MountRec} (hm : s.mounts.get d = some m)
    (h : ¬ s.holds d u i) (l : Bool) : (s.releaseOf l d i).unitRec d u = s.unitRec d u := by
  unfold State.releaseOf
  split
  next c hc =>
    split
    next hd =>
      have hd : c.drive = d := beq_iff_eq.mp hd
      show (s.releaseUnit l c).unitRec d u = _
      unfold State.releaseUnit
      split
      · rfl
      next w hw =>
        rw [hd, State.unitRec_setUnit _ _ _ _ hm, if_neg]
        rintro rfl
        exact h ⟨c, hc, hd, hw⟩
    · rfl
  · rfl

theorem State.releaseOf_unit_held {s : State} {d : DriveId} {u i : Nat} {m : MountRec} (hm : s.mounts.get d = some m)
    {c : OpenCtx} (hc : s.contexts.get? i = some (some c)) (hd : c.drive = d) (hu : c.unit = some u) (l : Bool) :
    (s.releaseOf l d i).unitRec d u = c.leaves l (s.unitRec d u) := by
  unfold State.releaseOf
  rw [hc]
  dsimp only
  rw [if_pos (beq_iff_eq.mpr hd)]
  show (s.releaseUnit l c).unitRec d u = _
  unfold State.releaseUnit OpenCtx.leaves
  rw [hu]
  dsimp only
  rw [hd]
  refine (State.unitRec_setUnit _ _ _ _ hm _).trans ((if_pos rfl).trans ?_)
  cases c.phase <;> cases l <;> rfl

theorem State.holds_releaseOf {t : State} {d : DriveId} {u i j : Nat} (l : Bool) (hj : j < 8) (h : i ≠ j) :
    (t.releaseOf l d j).holds d u i ↔ t.holds d u i := by
  rw [State.holds, State.releaseOf_contexts _ _ _ _ hj, Oct.get?_set_ne _ h]
  rfl

/-- Contexts that are not held for the unit leave it as it was. -/
theorem State.releaseFold_unit_free {d : DriveId} {u : Nat} {m : MountRec} (l : Bool) : ∀ (is : List Nat) (t : State),
    is.Nodup → (∀ j ∈ is, j < 8) → t.mounts.get d = some m → (∀ j ∈ is, ¬ t.holds d u j) →
      (is.foldl (fun s i => s.releaseOf l d i) t).unitRec d u = t.unitRec d u
  | [], _, _, _, _, _ => rfl
  | j :: is, t, hn, hlt, hm, hfree => by
    obtain ⟨hj, hn⟩ := List.nodup_cons.mp hn
    have hm' : (t.releaseOf l d j).mounts.get d = some m := by rw [State.releaseOf_eq]; exact hm
    rw [List.foldl_cons, State.releaseFold_unit_free l is _ hn (fun k hk => hlt k (List.mem_cons_of_mem _ hk)) hm'
      fun k hk => ?_, State.releaseOf_unit_free hm (hfree j List.mem_cons_self)]
    rw [State.holds_releaseOf l (hlt j List.mem_cons_self) fun h => hj (h ▸ hk)]
    exact hfree k (List.mem_cons_of_mem _ hk)

/-- R22, R46: the release of contexts one after the other leaves a unit of exactly one of them with what that one
leaves. -/
theorem State.releaseFold_unit {d : DriveId} {u i : Nat} {m : MountRec} {c : OpenCtx} (l : Bool) (hd : c.drive = d)
    (hu : c.unit = some u) : ∀ (is : List Nat) (t : State), is.Nodup → (∀ j ∈ is, j < 8) → t.mounts.get d = some m →
      t.contexts.get? i = some (some c) → (∀ j ∈ is, j ≠ i → ¬ t.holds d u j) →
      (is.foldl (fun s i => s.releaseOf l d i) t).unitRec d u =
        if i ∈ is then c.leaves l (t.unitRec d u) else t.unitRec d u
  | [], t, _, _, _, _, _ => rfl
  | j :: is, t, hn, hlt, hm, hc, hfree => by
    obtain ⟨hj, hn⟩ := List.nodup_cons.mp hn
    have hj8 := hlt j List.mem_cons_self
    have hm' : (t.releaseOf l d j).mounts.get d = some m := by rw [State.releaseOf_eq]; exact hm
    have hlt' : ∀ k ∈ is, k < 8 := fun k hk => hlt k (List.mem_cons_of_mem _ hk)
    have hkeep : ∀ k ∈ is, k ≠ i → ¬ (t.releaseOf l d j).holds d u k := fun k hk hki => by
      rw [State.holds_releaseOf l hj8 fun h => hj (h ▸ hk)]
      exact hfree k (List.mem_cons_of_mem _ hk) hki
    rw [List.foldl_cons]
    by_cases hji : j = i
    · subst hji
      rw [if_pos List.mem_cons_self, State.releaseFold_unit_free l is _ hn hlt' hm'
        (fun k hk => hkeep k hk fun h => hj (h ▸ hk)), State.releaseOf_unit_held hm hc hd hu]
    · rw [State.releaseFold_unit l hd hu is _ hn hlt' hm'
        (by rw [State.releaseOf_contexts _ _ _ _ hj8, Oct.get?_set_ne _ (Ne.symm hji)]; exact hc) hkeep,
        State.releaseOf_unit_free hm (hfree j List.mem_cons_self hji)]
      simp only [List.mem_cons, Ne.symm hji, false_or]

theorem State.releaseDrive_unit_held {s : State} {d : DriveId} {m : MountRec} (hm : s.mounts.get d = some m) {u i : Nat}
    {c : OpenCtx} (hi : i < 8) (hc : s.contexts.get? i = some (some c)) (hd : c.drive = d) (hu : c.unit = some u)
    (hfree : ∀ j, j ≠ i → ¬ s.holds d u j) (l : Bool) :
    (s.releaseDrive l d).unitRec d u = c.leaves l (s.unitRec d u) := by
  have h := State.releaseFold_unit l hd hu (List.range 8) s List.nodup_range (fun j => List.mem_range.mp) hm hc
    fun j _ => hfree j
  rwa [if_pos (List.mem_range.mpr hi)] at h

theorem Oct.get?_eq_none {α : Type} {x : Oct α} {i : Nat} (h : 8 ≤ i) : x.get? i = none := by
  match i, h with
  | n + 8, _ => rfl

end Sys2Proof.Machine

namespace Sys2Proof.Proofs
open Sys2Proof.Machine

/-- Settles O41. -/
theorem lostMount : Obligations.LostMount := by
  unfold Obligations.LostMount
  intro s d m hm
  refine ⟨fun hp => State.loseMount_same s d fun m' hm' => ?other, fun hp => ⟨_, State.loseMount_mounted s d hm hp, rfl,
    fun u hu => ?free, fun k hk => ?map, fun i c u hc hd hu hone => ?held⟩⟩
  case other =>
    rw [hm] at hm'
    cases hm'
    exact hp
  case free =>
    have hget : (State.asLost s d m).mounts.get d = some { m with phase := .lost } := Quad.get_set _ _ _
    rw [State.unitRec_of hget, State.unitRec_of hm]
    exact State.releaseDrive_map s true d _ fun m' hm' c hc x hx hxd w hw => fun heq => by
      rw [hm] at hm'
      cases hm'
      have hwu : u = w := Nat.add_left_cancel heq
      exact hu c hc x hx hxd (hw.trans (congrArg some hwu.symm))
  case map =>
    exact State.releaseDrive_map s true d k fun m' hm' c hc x hx hxd w hw => by
      rw [hm] at hm'
      cases hm'
      exact hk c hc x w hx hxd hw
  case held =>
    have hi : i < 8 := by
      by_contra h
      rw [Oct.get?_eq_none (by omega)] at hc
      cases hc
    have hget : (State.asLost s d m).mounts.get d = some { m with phase := .lost } := Quad.get_set _ _ _
    have hunit : (State.asLost s d m).unitRec d u = c.leaves true (s.unitRec d u) := by
      rw [← State.releaseDrive_unit_held hm hi hc hd hu (fun j hj ⟨c', hc', hd', hu'⟩ => hone j c' hj hc' hd' hu') true,
        State.unitRec_of hget, State.unitRec_of (by rw [State.releaseDrive_mounts]; exact hm)]
      rfl
    rw [hunit]
    refine ⟨?_, ?_⟩
    · rintro (hp | ⟨w, hp⟩) <;> rw [OpenCtx.leaves, hp]
    · rintro w (hp | hp) <;> rw [OpenCtx.leaves, hp] <;> rfl

end Sys2Proof.Proofs
end

section
/-! Good replies and acknowledges (R89, R92, R96, R97, R99, R102 to R104). -/
namespace Sys2Proof.Machine

variable (s : State)

/-! ### The transaction on the link -/

theorem State.onExchange_takes {s : State} {x : Exchange} (hx : s.link.exchange = some x) {ok : Exchange → Bool}
    (hok : ok x = true) (f : Exchange → State) : s.onExchange ok f = .next (f x) := by
  unfold State.onExchange
  rw [hx]
  exact if_pos hok

theorem State.onExchange_refuses {s : State} {x : Exchange} (hx : s.link.exchange = some x) {ok : Exchange → Bool}
    (hok : ok x = false) (f : Exchange → State) : s.onExchange ok f = .refused .cannotOccur := by
  unfold State.onExchange
  rw [hx]
  exact if_neg (by rw [hok]; decide)

theorem Exchange.ackOpen_iff (x : Exchange) : x.ackOpen = true ↔ ∃ n, x.ack = some n ∧ 0 < n := by
  unfold Exchange.ackOpen
  cases x.ack <;> simp

theorem Exchange.holdOpen_iff (x : Exchange) : x.holdOpen = true ↔ ∃ n, x.hold = some n ∧ 0 < n := by
  unfold Exchange.holdOpen
  cases x.hold <;> simp

theorem Exchange.replyOpen_iff (x : Exchange) : x.replyOpen = true ↔ x.ack = none ∧ x.hold = none := by
  rw [Exchange.replyOpen, Bool.and_eq_true, Option.isNone_iff_eq_none, Option.isNone_iff_eq_none]

/-- R92: no acknowledge can be taken. -/
theorem Exchange.ackOpen_eq_false {x : Exchange} (h : x.ack = none ∨ x.ack = some 0) : x.ackOpen = false := by
  rcases h with h | h <;> rw [Exchange.ackOpen, h] <;> rfl

theorem Exchange.holdOpen_eq_false {x : Exchange} (h : x.hold = none ∨ x.hold = some 0) : x.holdOpen = false := by
  rcases h with h | h <;> rw [Exchange.holdOpen, h] <;> rfl

/-- A signal of a transaction that is not the one on the link cannot occur. -/
theorem State.onReply_refuses {s : State} {x : Exchange} (hx : s.link.exchange = some x) {ok : Exchange → Bool}
    (hok : ok x = false) (g : LinkSignal) (take : Exchange → List Byte → State) :
    s.onReply ok g take = .refused .cannotOccur := by
  cases g <;> exact State.onExchange_refuses hx (by simp only [hok, Bool.false_and]) _

/-- R87: the whole reply frame is taken where it is being clocked out. -/
theorem State.onReply_frame {s : State} {x : Exchange} (hx : s.link.exchange = some x) {ok : Exchange → Bool}
    (hok : ok x = true) (ha : x.ack = none) (hh : x.hold = none) (bytes : List Byte)
    (take : Exchange → List Byte → State) : s.onReply ok (.frame bytes) take = .next (take x bytes) := by
  refine State.onExchange_takes hx (ok := fun x => ok x && x.replyOpen) ?_ _
  rw [hok, x.replyOpen_iff.mpr ⟨ha, hh⟩]
  rfl

/-! ### The rows of the link, nothing else being due -/

theorem exec_probeReply {s : State} (h : s.due = none) (g : LinkSignal) :
    exec (.probeReply g) s = s.onReply (fun x => x.cmd == .probe) g s.probeReply := by
  show execProbeReply g s = _
  rw [execProbeReply, State.catchUp_of_due_none h]

theorem exec_positionPollReply {s : State} (h : s.due = none) (g : LinkSignal) :
    exec (.positionPollReply g) s = s.onReply (fun x => x.cmd == .poll && x.ofAttempt) g s.positionPollReply := by
  show execPositionPollReply g s = _
  rw [execPositionPollReply, State.catchUp_of_due_none h]

theorem exec_presencePollReply {s : State} (h : s.due = none) (g : LinkSignal) :
    exec (.presencePollReply g) s = s.onReply (fun x => x.cmd == .poll && !x.ofAttempt) g s.presenceReply := by
  show execPresencePollReply g s = _
  rw [execPresencePollReply, State.catchUp_of_due_none h]

theorem exec_readReply {s : State} (h : s.due = none) (g : LinkSignal) :
    exec (.readReply g) s = s.onReply (fun x => x.cmd == .read) g s.readReply := by
  show execReadReply g s = _
  rw [execReadReply, State.catchUp_of_due_none h]

theorem exec_positionAck {s : State} (h : s.due = none) :
    exec .positionAck s = s.onExchange (fun x => x.cmd == .position && x.ackOpen) s.positionAck := by
  show execPositionAck s = _
  rw [execPositionAck, State.catchUp_of_due_none h]

theorem exec_relaxAck {s : State} (h : s.due = none) :
    exec .relaxAck s = s.onExchange (fun x => x.cmd == .relax && x.ackOpen) s.relaxAck := by
  show execRelaxAck s = _
  rw [execRelaxAck, State.catchUp_of_due_none h]

section
variable {s : State} (hdue : s.due = none) {x : Exchange} (hx : s.link.exchange = some x)
include hdue hx

theorem exec_probeReply_frame (hc : x.cmd = .probe) (hk : x.ack = none) (hh : x.hold = none) (bytes : List Byte) :
    exec (.probeReply (.frame bytes)) s = .next (s.probeReply x bytes) := by
  rw [exec_probeReply hdue, State.onReply_frame hx (ok := fun x => x.cmd == .probe) (beq_iff_eq.mpr hc) hk hh]

theorem exec_positionPollReply_frame (hc : x.cmd = .poll) (hof : x.ofAttempt = true) (hk : x.ack = none)
    (hh : x.hold = none) (bytes : List Byte) :
    exec (.positionPollReply (.frame bytes)) s = .next (s.positionPollReply x bytes) := by
  rw [exec_positionPollReply hdue, State.onReply_frame hx (ok := fun x => x.cmd == .poll && x.ofAttempt)
    (by simp [hc, hof]) hk hh]

theorem exec_presencePollReply_frame (hc : x.cmd = .poll) (hof : x.ofAttempt = false) (hk : x.ack = none)
    (hh : x.hold = none) (bytes : List Byte) :
    exec (.presencePollReply (.frame bytes)) s = .next (s.presenceReply x bytes) := by
  rw [exec_presencePollReply hdue, State.onReply_frame hx (ok := fun x => x.cmd == .poll && !x.ofAttempt)
    (by simp [hc, hof]) hk hh]

theorem exec_readReply_frame (hc : x.cmd = .read) (hk : x.ack = none) (hh : x.hold = none) (bytes : List Byte) :
    exec (.readReply (.frame bytes)) s = .next (s.readReply x bytes) := by
  rw [exec_readReply hdue, State.onReply_frame hx (ok := fun x => x.cmd == .read) (beq_iff_eq.mpr hc) hk hh]

theorem exec_positionAck_taken (hc : x.cmd = .position) {n : Nat} (hn : x.ack = some n) (hpos : 0 < n) :
    exec .positionAck s = .next (s.positionAck x) := by
  rw [exec_positionAck hdue, State.onExchange_takes hx (ok := fun x => x.cmd == .position && x.ackOpen)
    (by simp [hc, x.ackOpen_iff.mpr ⟨n, hn, hpos⟩])]

theorem exec_relaxAck_taken (hc : x.cmd = .relax) {n : Nat} (hn : x.ack = some n) (hpos : 0 < n) :
    exec .relaxAck s = .next (s.relaxAck x) := by
  rw [exec_relaxAck hdue, State.onExchange_takes hx (ok := fun x => x.cmd == .relax && x.ackOpen)
    (by simp [hc, x.ackOpen_iff.mpr ⟨n, hn, hpos⟩])]

end

/-! ### The medium report -/

/-- R103: the drive's mount is MOUNTED and the report takes it away. -/
def State.reportLoses (s : State) (d : DriveId) (present changed : Bool) (kind : Option Kind) : Prop :=
  ∃ m, s.mounts.get d = some m ∧ m.phase = .mounted ∧
    (present = false ∨ changed = true ∨ ∃ k, kind = some k ∧ k ≠ m.snap.kind)

/-- What a report leaves untouched, and what it makes of the drive. -/
theorem State.takeReport_frame (d : DriveId) (p c : Bool) (k : Option Kind) (pos : Nat) :
    s.takeReport d p c k pos = { s with
      drives := s.drives.set d { s.drives.get d with
        miss := 0, medium := p, known := true, kind := k.or (s.drives.get d).kind }
      events := (s.takeReport d p c k pos).events
      mounts := (s.takeReport d p c k pos).mounts, discard := (s.takeReport d p c k pos).discard
      works := (s.takeReport d p c k pos).works, contexts := (s.takeReport d p c k pos).contexts
      unitMap := (s.takeReport d p c k pos).unitMap, ctxReq := (s.takeReport d p c k pos).ctxReq
      scheds := (s.takeReport d p c k pos).scheds } := by
  unfold State.takeReport
  rw [State.takeMedium_frame]
  simp [State.endedWell, State.setPosition, State.setSched, State.setDrive]

theorem State.takeReport_position (d : DriveId) (p c : Bool) (k : Option Kind) (pos : Nat) :
    ((s.takeReport d p c k pos).scheds.get d).position = some pos := by
  unfold State.takeReport
  rw [State.takeMedium_position]
  simp [State.setPosition]

theorem State.takeReport_raw (d : DriveId) (p c : Bool) (k : Option Kind) (pos : Nat) (q : PortId) :
    ((s.takeReport d p c k pos).events.get q).raw = (s.events.get q).raw |||
      (if ((s.drives.get d).known = true ∧ p ≠ (s.drives.get d).medium) ∨ c = true then Event.mediumChanged.bit
        else 0) := by
  unfold State.takeReport
  rw [State.takeMedium_raw]
  simp [State.setPosition, State.setSched, State.setDrive, State.endedWell]

theorem State.takeReport_masks (d : DriveId) (p c : Bool) (k : Option Kind) (pos : Nat) :
    (s.takeReport d p c k pos).events.map EventRegs.mask = s.events.map EventRegs.mask :=
  State.takeMedium_masks _ d p c k

/-- R103: a mount that the report takes away is LOST. -/
theorem State.takeReport_loses {s : State} {d : DriveId} {p c : Bool} {k : Option Kind}
    (h : s.reportLoses d p c k) (pos : Nat) : (s.takeReport d p c k pos).mounts =
      s.mounts.set d ((s.mounts.get d).map fun m => { m with phase := .lost }) :=
  (State.takeMedium_mounts _ d p c k).trans (if_pos h)

/-- R103: a mount that the report leaves stands with its list, its units and its contexts. -/
theorem State.takeReport_keeps' {s : State} {d : DriveId} {p c : Bool} {k : Option Kind}
    (h : ¬ s.reportLoses d p c k) (pos : Nat) : (s.takeReport d p c k pos).mounts = s.mounts ∧
      (s.takeReport d p c k pos).works = s.works ∧ (s.takeReport d p c k pos).unitMap = s.unitMap ∧
      (s.takeReport d p c k pos).contexts = s.contexts ∧ (s.takeReport d p c k pos).discard = s.discard :=
  ⟨(State.takeMedium_mounts _ d p c k).trans (if_neg h), State.takeMedium_keep _ d p c k h⟩

/-- A flag of a register after a report. -/
theorem State.takeReport_changed (d : DriveId) (p c : Bool) (k : Option Kind) (pos : Nat) (q : PortId) :
    ((s.takeReport d p c k pos).events.get q).raw.getLsbD Event.mediumChanged.pos =
      ((s.events.get q).raw.getLsbD Event.mediumChanged.pos ||
        ((s.drives.get d).known && p != (s.drives.get d).medium) || c) := by
  have hbit : Event.mediumChanged.bit.getLsbD Event.mediumChanged.pos = true := by rw [Event.bit_getLsbD, decide_eq_true rfl]
  rw [State.takeReport_raw, BitVec.getLsbD_or, Bool.or_assoc]
  congr 1
  rw [Bool.eq_iff_iff, Bool.or_eq_true, Bool.and_eq_true, bne_iff_ne]
  split
  next h => simp only [hbit, h]
  next h => simpa using h

/-- The report's mount, where it was MOUNTED. -/
theorem State.takeReport_mounted {s : State} {d : DriveId} {m : MountRec} (hm : s.mounts.get d = some m)
    (hp : m.phase = .mounted) (p c : Bool) (pos : Nat) : (s.takeReport d p c none pos).mounts =
      s.mounts.set d (some { m with phase := if p = true ∧ c = false then .mounted else .lost }) := by
  by_cases h : p = true ∧ c = false
  · obtain ⟨rfl, rfl⟩ := h
    rw [(State.takeReport_keeps' (s := s) (d := d) (k := none) (fun ⟨_, _, _, h⟩ => by simp at h) pos).1]
    rw [if_pos ⟨rfl, rfl⟩, ← hp, Quad.set_self _ _ _ hm.symm]
  · rw [State.takeReport_loses ⟨m, hm, hp, by cases p <;> cases c <;> simp_all⟩, hm, if_neg h]
    rfl

/-! ### PROBE -/

theorem State.setDrive_self (d : DriveId) : s.setDrive d (s.drives.get d) = s := by
  show { s with drives := s.drives.set d (s.drives.get d) } = s
  rw [Quad.set_get]

theorem State.pollEnd_online {s : State} {d : DriveId} (h : (s.drives.get d).link = .online) {c : Cmd}
    (hc : c = .probe ∨ c = .poll) (good : Bool) :
    s.pollEnd d c good = s.setDrive d { s.drives.get d with presence := some s.settings.presencePoll } := by
  unfold State.pollEnd
  rcases hc with rfl | rfl <;> exact if_pos (beq_iff_eq.mpr h)

/-- R102: the presence timer starts at the good end of a POLL of an ONLINE drive. -/
theorem State.pollEnd_good (d : DriveId) : s.pollEnd d .poll true = s.setDrive d { s.drives.get d with
    presence := if (s.drives.get d).link = .online then some s.settings.presencePoll
      else (s.drives.get d).presence } := by
  by_cases h : (s.drives.get d).link = .online
  · rw [State.pollEnd_online h (.inr rfl), if_pos h]
  · rw [if_neg h]
    unfold State.pollEnd
    dsimp only
    rw [if_neg (by simpa using h)]
    exact (s.setDrive_self d).symm

/-- R91, R99, R101, R102: what the end of a good PROBE makes of its drive. -/
theorem State.probeEnd_eq (d : DriveId) : (s.goOnline d).pollEnd d .probe true = s.setDrive d { s.drives.get d with
    link := .online
    presence := some s.settings.presencePoll
    reprobe := if (s.drives.get d).link = .online then (s.drives.get d).reprobe else none
    pend := if (s.drives.get d).link = .online then (s.drives.get d).pend
      else withTx ((s.drives.get d).pend.filter fun y => decide (y ≠ .probe)) .relax } := by
  by_cases h : (s.drives.get d).link = .online
  · have hg : s.goOnline d = s := by
      unfold State.goOnline
      exact if_pos (beq_iff_eq.mpr h)
    rw [hg, State.pollEnd_online h (.inl rfl), if_pos h, if_pos h, ← h]
  · rw [if_neg h, if_neg h]
    have hg : s.goOnline d = s.setDrive d { s.drives.get d with
        link := .online, reprobe := none, presence := some s.settings.presencePoll
        pend := withTx ((s.drives.get d).pend.filter fun y => decide (y ≠ .probe)) .relax } := by
      unfold State.goOnline
      dsimp only
      rw [if_neg (by simpa using h), State.request_eq, DriveLink.drop_one]
      simp [State.setDrive]
    rw [hg, State.pollEnd_online (by simp [State.setDrive]) (.inl rfl)]
    simp [State.setDrive]

theorem State.probeReply_good {s : State} {x : Exchange} (ho : x.orphan = false) {bytes : List Byte} {r : ProbeReport}
    (h : parseProbe bytes = some r) : s.probeReply x bytes =
      (((s.endExchange.takeReport x.drive r.medium false (some r.kind) r.position).goOnline x.drive).pollEnd x.drive
        .probe true).settle s := by
  unfold State.probeReply
  rw [ho, h]
  rfl

/-! ### POSITION and its POLLs -/

theorem State.attempt_abandoned {s : State} {d : DriveId} {a : Attempt} (h : s.attempts.get d = some a) :
    (s.attempts.get d).any Attempt.abandoned = a.abandoned := by rw [h]; rfl

theorem State.setAttemptPhase_eq {s : State} {d : DriveId} {a : Attempt} (h : s.attempts.get d = some a)
    (ph : AttemptPhase) : s.setAttemptPhase d ph = s.setAttempt d (some { a with phase := ph }) := by
  unfold State.setAttemptPhase
  rw [h]

theorem State.startPollTimer_eq {s : State} {d : DriveId} {a : Attempt} (h : s.attempts.get d = some a) :
    s.startPollTimer d = { s with
      attempts := s.attempts.set d (some { a with phase := .moving })
      drives := s.drives.set d { s.drives.get d with poll := some s.settings.pollInterval } } := by
  unfold State.startPollTimer
  rw [State.setAttemptPhase_eq h]
  rfl

/-- R96: the acknowledge of a POSITION starts the positioning. -/
theorem State.positionAck_starts {s : State} {x : Exchange} (ho : x.orphan = false) {a : Attempt}
    (ha : s.attempts.get x.drive = some a) (hab : a.abandoned = false) : s.positionAck x = State.settle { s with
      link := { s.link with exchange := none }
      attempts := s.attempts.set x.drive (some { a with phase := .moving })
      drives := s.drives.set x.drive { s.drives.get x.drive with
        miss := 0, posStart := s.now, poll := some s.settings.pollInterval } } s := by
  unfold State.positionAck
  rw [ho, if_neg (by decide)]
  dsimp only
  rw [State.attempt_abandoned ha, hab]
  rw [if_neg (by decide), State.startPollTimer_eq (a := a) (by exact ha)]
  simp [State.endExchange, State.endedWell, State.setDrive, hab]

/-- R104: the acknowledge of an abandoned POSITION ends the attempt. -/
theorem State.positionAck_ends {s : State} {x : Exchange} (ho : x.orphan = false) {a : Attempt}
    (ha : s.attempts.get x.drive = some a) (hab : a.abandoned = true) : s.positionAck x = State.settle { s with
      link := { s.link with exchange := none }
      attempts := s.attempts.set x.drive none
      discard := s.discard.set x.drive false
      drives := s.drives.set x.drive { s.drives.get x.drive with miss := 0, poll := none }
      contexts := match s.abandonPending x.drive with
        | some i => s.contexts.set i none
        | none => s.contexts } s := by
  have hend : (s.endExchange.endedWell x.drive).endAttempt x.drive = { s with
      link := { s.link with exchange := none }
      attempts := s.attempts.set x.drive none
      discard := s.discard.set x.drive false
      drives := s.drives.set x.drive { s.drives.get x.drive with miss := 0, poll := none }
      contexts := match s.abandonPending x.drive with
        | some i => s.contexts.set i none
        | none => s.contexts } := by
    rw [State.endAttempt_eq]
    simp [State.endExchange, State.endedWell, State.setDrive]
    rfl
  unfold State.positionAck
  rw [ho, if_neg (by decide)]
  dsimp only
  rw [State.attempt_abandoned ha, hab]
  exact congrArg (fun v => State.settle v s) hend

/-- The part after the report of a good POLL reply and the start of the presence timer (R102, R103). -/
def State.polled (s : State) (d : DriveId) (r : PollReport) : State :=
  (s.takeReport d r.medium r.changed none r.position).pollEnd d .poll true

theorem State.polled_eq (d : DriveId) (r : PollReport) : s.polled d r =
    { s.takeReport d r.medium r.changed none r.position with drives := s.drives.set d { s.drives.get d with
      miss := 0, medium := r.medium, known := true
      presence := if (s.drives.get d).link = .online then some s.settings.presencePoll
        else (s.drives.get d).presence } } := by
  unfold State.polled
  rw [State.pollEnd_good, State.takeReport_frame]
  simp [State.setDrive]

/-- R96, R98, R104: what becomes of the attempt at a good reply of one of its POLLs. -/
def State.afterPoll (s : State) (d : DriveId) (a : Attempt) (st : AdaptorState) : State :=
  if a.abandoned then s.endAttempt d
  else match st with
    | .ready => if s.noRead d then s.endAttempt d else s.setAttemptPhase d .needRead
    | .busy =>
      if s.limitPassed d then (s.takeFault d .poll (some a.unit) .positionTimeout true).endAttempt d
      else s.startPollTimer d
    | .fault => (s.takeFault d .poll (some a.unit) .adaptorFault true).endAttempt d

theorem State.positionPollReply_good {s : State} {x : Exchange} (ho : x.orphan = false) {a : Attempt}
    (ha : s.attempts.get x.drive = some a) {bytes : List Byte} {r : PollReport} (h : parsePoll bytes = some r) :
    s.positionPollReply x bytes = ((s.endExchange.polled x.drive r).afterPoll x.drive a r.state).settle s := by
  unfold State.positionPollReply State.afterPoll
  rw [ho, if_neg (by decide), h]
  dsimp only
  rw [State.attempt_abandoned ha, ha]
  rfl

/-- What the end of an attempt or a fault of it leaves of a state in which a report has been taken. -/
structure State.KeepsReport (s v : State) (d : DriveId) : Prop where
  link : v.link = s.link
  store : v.store = s.store
  mounts : v.mounts = s.mounts
  medium : (v.drives.get d).medium = (s.drives.get d).medium
  known : (v.drives.get d).known = (s.drives.get d).known
  miss : (v.drives.get d).miss = (s.drives.get d).miss
  presence : (v.drives.get d).presence = (s.drives.get d).presence
  changed : ∀ q, (v.events.get q).raw.getLsbD Event.mediumChanged.pos =
    (s.events.get q).raw.getLsbD Event.mediumChanged.pos

theorem State.endAttempt_keepsReport (d : DriveId) : s.KeepsReport (s.endAttempt d) d := by
  rw [State.endAttempt_eq]
  exact ⟨rfl, rfl, rfl, by rw [Quad.get_set], by rw [Quad.get_set], by rw [Quad.get_set], by rw [Quad.get_set],
    fun _ => rfl⟩

theorem State.KeepsReport.trans {a b c : State} {d : DriveId} (h : a.KeepsReport b d) (h' : b.KeepsReport c d) :
    a.KeepsReport c d :=
  ⟨h'.link.trans h.link, h'.store.trans h.store, h'.mounts.trans h.mounts, h'.medium.trans h.medium,
    h'.known.trans h.known, h'.miss.trans h.miss, h'.presence.trans h.presence,
    fun q => (h'.changed q).trans (h.changed q)⟩

/-- R155: a fault that is captured raises LINK_FAULT and no other flag. -/
theorem State.captureFault_raw (d : DriveId) (c : Cmd) (u : Option Nat) (k : LinkFaultKind) (q : PortId) :
    ((s.captureFault d c u k).events.get q).raw = (s.events.get q).raw |||
      (if s.linkFault = none then Event.linkFault.bit else 0) := by
  unfold State.captureFault
  cases h : s.linkFault with
  | none => exact State.raiseBoth_raw _ _ _
  | some r => simp

theorem State.takeFault_keepsReport (d : DriveId) (c : Cmd) (u : Option Nat) {k : LinkFaultKind}
    (hk : k = .positionTimeout ∨ k = .adaptorFault) (pos : Bool) : s.KeepsReport (s.takeFault d c u k pos) d := by
  rw [State.takeFault_nomiss s d c u k pos (by rcases hk with rfl | rfl <;> rfl) hk]
  refine ⟨rfl, rfl, rfl, by rw [Quad.get_set], by rw [Quad.get_set], by rw [Quad.get_set], by rw [Quad.get_set],
    fun q => ?_⟩
  show ((s.captureFault d c u k).events.get q).raw.getLsbD _ = _
  rw [State.captureFault_raw, BitVec.getLsbD_or]
  split
  · rw [Event.bit_getLsbD]
    simp
  · simp

theorem State.afterPoll_keepsReport {s : State} {d : DriveId} {a : Attempt} (h : s.attempts.get d = some a)
    (st : AdaptorState) : s.KeepsReport (s.afterPoll d a st) d := by
  have hend := fun (k : LinkFaultKind) (hk : k = .positionTimeout ∨ k = .adaptorFault) =>
    (s.takeFault_keepsReport d .poll (some a.unit) hk true).trans (State.endAttempt_keepsReport _ d)
  unfold State.afterPoll
  split
  · exact s.endAttempt_keepsReport d
  · cases st with
    | ready =>
      dsimp only
      split
      · exact s.endAttempt_keepsReport d
      · rw [State.setAttemptPhase_eq h]
        exact ⟨rfl, rfl, rfl, rfl, rfl, rfl, rfl, fun _ => rfl⟩
    | busy =>
      dsimp only
      split
      · exact hend _ (.inl rfl)
      · rw [State.startPollTimer_eq h]
        exact ⟨rfl, rfl, rfl, by rw [Quad.get_set], by rw [Quad.get_set], by rw [Quad.get_set], by rw [Quad.get_set],
          fun _ => rfl⟩
    | fault => exact hend _ (.inr rfl)

end Sys2Proof.Machine

namespace Sys2Proof.Proofs
open Sys2Proof.Machine

/-- Settles O40. -/
theorem probeReply : Obligations.ProbeReply := by
  unfold Obligations.ProbeReply
  intro bytes x s hdue hx
  refine ⟨fun g hc => ?refused, fun r d hd hcmd ha hh ho hr => ?taken⟩
  case refused => rw [exec_probeReply hdue, State.onReply_refuses hx (ok := fun x => x.cmd == .probe) (beq_eq_false_iff_ne.mpr hc)]
  case taken =>
    subst hd
    set b := s.endExchange.takeReport x.drive r.medium false (some r.kind) r.position with hb
    have hframe := s.endExchange.takeReport_frame x.drive r.medium false (some r.kind) r.position
    rw [← hb] at hframe
    have hdrive : b.drives.get x.drive = { s.drives.get x.drive with
        miss := 0, medium := r.medium, known := true, kind := some r.kind } := by
      rw [hframe]
      exact Quad.get_set _ _ _
    refine ⟨(b.goOnline x.drive).pollEnd x.drive .probe true, ?_, ?host, ?drives, ?position, fun q => ?raw,
      fun m hm hp hl => ?lost, fun h => ?kept⟩
    · rw [exec_probeReply_frame hdue hx hcmd ha hh, State.probeReply_good ho hr]
    all_goals rw [State.probeEnd_eq]
    case host =>
      have hmask := s.endExchange.takeReport_masks x.drive r.medium false (some r.kind) r.position
      rw [← hb] at hmask
      rw [State.setDrive_host, State.host, hmask, hframe]
      rfl
    case drives =>
      rw [hdrive, State.setDrive_drives, hframe]
      simp
    case position => exact s.endExchange.takeReport_position x.drive r.medium false (some r.kind) r.position
    case raw =>
      refine (s.endExchange.takeReport_raw x.drive r.medium false (some r.kind) r.position q).trans ?_
      simp only [Bool.false_eq_true, or_false]
      rfl
    case lost =>
      refine (State.takeReport_loses (s := s.endExchange) ⟨m, hm, hp, ?_⟩ r.position).trans ?_
      · exact hl.imp id fun h => .inr ⟨r.kind, rfl, h⟩
      · show s.mounts.set x.drive ((s.mounts.get x.drive).map _) = _
        rw [hm]
        rfl
    case kept =>
      have hk := State.takeReport_keeps' (s := s.endExchange) (d := x.drive) (p := r.medium) (c := false)
        (k := some r.kind) (fun ⟨m, hm, hp, hl⟩ => ?_) r.position
      · exact ⟨hk.1, hk.2.2.1, hk.2.1, hk.2.2.2.1⟩
      · rcases h m hm with h | ⟨h1, h2⟩
        · exact h hp
        · rcases hl with hl | hl | ⟨k, hk, hl⟩
          · rw [h1] at hl
            cases hl
          · cases hl
          · cases hk
            exact hl h2

end Sys2Proof.Proofs
end

section
/-! The POLLs of a positioning, the READ reply, RELAX and presence (R96 to R99, R102, R103). -/
namespace Sys2Proof.Machine

variable (s : State)

theorem State.abandonPending_congr {s v : State} (h : v.contexts = s.contexts) (d : DriveId) :
    v.abandonPending d = s.abandonPending d := by
  unfold State.abandonPending State.numbered
  rw [h]

theorem State.isMounted_eq_of_some {s : State} {d : DriveId} {m : MountRec} (h : s.mounts.get d = some m) :
    s.isMounted d = (m.phase == .mounted) := by rw [State.isMounted, h]

theorem State.exists_mounted_of_isMounted {s : State} {d : DriveId} (h : s.isMounted d = true) :
    ∃ m, s.mounts.get d = some m ∧ m.phase = .mounted := by
  rw [State.isMounted] at h
  split at h
  next m hm => exact ⟨m, hm, beq_iff_eq.mp h⟩
  next => exact absurd h (by decide)

theorem State.isMounted_congr {s v : State} (h : v.mounts = s.mounts) (d : DriveId) :
    v.isMounted d = s.isMounted d := by
  unfold State.isMounted
  rw [h]

/-- R103: a mount is MOUNTED after a POLL's report where it was and its medium is there unchanged. -/
theorem State.takeReport_isMounted (d : DriveId) (p c : Bool) (pos : Nat) :
    (s.takeReport d p c none pos).isMounted d = (s.isMounted d && p && !c) := by
  cases hi : s.isMounted d with
  | true =>
    obtain ⟨m, hm, hp⟩ := State.exists_mounted_of_isMounted hi
    rw [State.isMounted, State.takeReport_mounted hm hp, Quad.get_set]
    cases p <;> cases c <;> rfl
  | false =>
    have hno : ¬ s.reportLoses d p c none := fun ⟨m, hm, hp, _⟩ => by
      rw [State.isMounted_eq_of_some hm, hp] at hi
      cases hi
    rw [State.isMounted_congr (State.takeReport_keeps' hno pos).1, hi]
    rfl

/-- R78 after a POLL's report: the READ is barred exactly where something bars it. -/
theorem State.polled_noRead (d : DriveId) (r : PollReport) : (s.polled d r).noRead d = true ↔
    s.discard.get d = true ∨ s.isMounted d = false ∨ r.medium = false ∨ r.changed = true ∨
      s.abandonPending d ≠ none ∨ (s.rests.get d).timer ≠ none ∨ s.power.state = .entering := by
  have hmount : (s.polled d r).isMounted d = (s.isMounted d && r.medium && !r.changed) := by
    rw [State.polled_eq, ← State.takeReport_isMounted s d r.medium r.changed r.position]
    rfl
  have hrest : (s.polled d r).rests = s.rests ∧ (s.polled d r).power = s.power := by
    rw [State.polled_eq, State.takeReport_frame]
    exact ⟨rfl, rfl⟩
  unfold State.noRead
  rw [hmount, hrest.1, hrest.2]
  by_cases hl : s.isMounted d = true ∧ r.medium = true ∧ r.changed = false
  · obtain ⟨hi, hp, hc⟩ := hl
    have hno : ¬ s.reportLoses d r.medium r.changed none := fun ⟨_, _, _, h⟩ => by simp [hp, hc] at h
    have hk := State.takeReport_keeps' hno r.position
    have hab : (s.polled d r).abandonPending d = s.abandonPending d := State.abandonPending_congr (by
      rw [State.polled_eq]
      exact hk.2.2.2.1) d
    have hdis : (s.polled d r).discard = s.discard := by
      rw [State.polled_eq]
      exact hk.2.2.2.2
    simp [hab, hdis, hi, hp, hc, or_assoc, Option.isSome_iff_ne_none]
  · have hb : (s.isMounted d && r.medium && !r.changed) = false := by
      rw [Bool.eq_false_iff]
      intro h
      simp only [Bool.and_eq_true, Bool.not_eq_true'] at h
      exact hl ⟨h.1.1, h.1.2, h.2⟩
    rw [hb]
    refine iff_of_true (by simp) ?_
    by_cases hi : s.isMounted d = true
    · by_cases hp : r.medium = true
      · exact .inr (.inr (.inr (.inl (Bool.eq_true_of_not_eq_false fun h => hl ⟨hi, hp, h⟩))))
      · exact .inr (.inr (.inl (Bool.eq_false_of_not_eq_true hp)))
    · exact .inr (.inl (Bool.eq_false_of_not_eq_true hi))

/-- R96: the limit is tested against the mount's own snapshot, which a report leaves. -/
theorem State.polled_limitPassed {s : State} {d : DriveId} {m : MountRec} (h : s.mounts.get d = some m)
    (r : PollReport) : (s.polled d r).limitPassed d = true ↔
      m.snap.positionLimit ≤ s.now - (s.drives.get d).posStart := by
  have hm : ∃ m', (s.polled d r).mounts.get d = some m' ∧ m'.snap = m.snap := by
    rw [State.polled_eq]
    show ∃ m', (s.takeReport d r.medium r.changed none r.position).mounts.get d = some m' ∧ _
    by_cases hl : s.reportLoses d r.medium r.changed none
    · rw [State.takeReport_loses hl, Quad.get_set, h]
      exact ⟨_, rfl, rfl⟩
    · rw [(State.takeReport_keeps' hl r.position).1]
      exact ⟨m, h, rfl⟩
  have hnow : (s.polled d r).now = s.now ∧ ((s.polled d r).drives.get d).posStart = (s.drives.get d).posStart := by
    rw [State.polled_eq, State.takeReport_frame]
    exact ⟨rfl, by rw [Quad.get_set]⟩
  obtain ⟨m', hm', hsnap⟩ := hm
  unfold State.limitPassed
  rw [hm', hnow.1, hnow.2, ← hsnap]
  exact decide_eq_true_iff

/-- R98: a fault that is no miss, with the attempt that it ends. -/
theorem State.faultedEnd_eq (d : DriveId) (c : Cmd) (u : Option Nat) {k : LinkFaultKind}
    (hk : k = .positionTimeout ∨ k = .adaptorFault) (pos : Bool) : (s.takeFault d c u k pos).endAttempt d = { s with
      linkFault := LinkCapture.offered s.linkFault d c u k
      events := (s.captureFault d c u k).events
      stats := s.stats.set d { s.stats.get d with linkFaults := (s.stats.get d).linkFaults + 1 }
      scheds := if pos then s.scheds.set d { s.scheds.get d with position := none } else s.scheds
      attempts := s.attempts.set d none
      discard := s.discard.set d false
      drives := s.drives.set d { s.drives.get d with poll := none, pend := withTx (s.drives.get d).pend .relax }
      contexts := ((s.takeFault d c u k pos).endAttempt d).contexts } := by
  rw [State.endAttempt_eq, State.takeFault_nomiss s d c u k pos (by rcases hk with rfl | rfl <;> rfl) hk]
  simp

theorem mem_withTx (p : List PendTx) (x : PendTx) : x ∈ withTx p x := by
  unfold withTx
  split
  next h => simpa using h
  next => simp

theorem State.afterPoll_abandoned {a : Attempt} (h : a.abandoned = true) (d : DriveId) (st : AdaptorState) :
    s.afterPoll d a st = s.endAttempt d := if_pos h

theorem State.afterPoll_ready {a : Attempt} (h : a.abandoned = false) (d : DriveId) : s.afterPoll d a .ready =
    if s.noRead d then s.endAttempt d else s.setAttemptPhase d .needRead :=
  if_neg (by rw [h]; decide)

theorem State.afterPoll_busy {a : Attempt} (h : a.abandoned = false) (d : DriveId) : s.afterPoll d a .busy =
    if s.limitPassed d then (s.takeFault d .poll (some a.unit) .positionTimeout true).endAttempt d
    else s.startPollTimer d :=
  if_neg (by rw [h]; decide)

theorem State.afterPoll_fault {a : Attempt} (h : a.abandoned = false) (d : DriveId) : s.afterPoll d a .fault =
    (s.takeFault d .poll (some a.unit) .adaptorFault true).endAttempt d :=
  if_neg (by rw [h]; decide)

theorem State.afterPoll_timeout {s : State} {a : Attempt} (h : a.abandoned = false) {d : DriveId} {m : MountRec}
    (hm : s.mounts.get d = some m) (r : PollReport)
    (hl : m.snap.positionLimit ≤ s.now - (s.drives.get d).posStart) : (s.polled d r).afterPoll d a .busy =
      ((s.polled d r).takeFault d .poll (some a.unit) .positionTimeout true).endAttempt d := by
  rw [State.afterPoll_busy _ h]
  exact if_pos ((State.polled_limitPassed hm r).mpr hl)

/-- R98: what a fault of a positioning leaves, after the report of its POLL. -/
theorem State.polledFault (d : DriveId) (r : PollReport) (u : Option Nat) {k : LinkFaultKind}
    (hk : k = .positionTimeout ∨ k = .adaptorFault) (v : State)
    (hv : v = ((s.polled d r).takeFault d .poll u k true).endAttempt d) :
    v.attempts = s.attempts.set d none ∧ (v.scheds.get d).position = none ∧
      v.linkFault = LinkCapture.offered s.linkFault d .poll u k ∧
      (v.stats.get d).linkFaults = (s.stats.get d).linkFaults + 1 ∧ PendTx.relax ∈ (v.drives.get d).pend := by
  subst hv
  rw [State.faultedEnd_eq _ d .poll u hk true, State.polled_eq, State.takeReport_frame]
  refine ⟨rfl, ?_, rfl, ?_, ?_⟩
  · exact congrArg Sched.position (Quad.get_set _ _ _)
  · exact congrArg DriveStats.linkFaults (Quad.get_set _ _ _)
  · dsimp only
    rw [Quad.get_set]
    exact mem_withTx _ _

end Sys2Proof.Machine

namespace Sys2Proof.Proofs
open Sys2Proof.Machine

/-- Settles O42. -/
theorem positioningEvents : Obligations.PositioningEvents := by
  unfold Obligations.PositioningEvents
  intro x d a s hdue hx hd ha ho
  subst hd
  refine ⟨fun h => ?noAck, fun g h => ?noPoll, fun n hc hn hpos => ?ack, fun hc hof hk hh bytes r hr => ?reply⟩
  case noAck =>
    rw [exec_positionAck hdue, State.onExchange_refuses hx (ok := fun x => x.cmd == .position && x.ackOpen)]
    rcases h with h | h
    · simp only [beq_eq_false_iff_ne.mpr h, Bool.false_and]
    · simp only [Exchange.ackOpen_eq_false h, Bool.and_false]
  case noPoll =>
    rw [exec_positionPollReply hdue, State.onReply_refuses hx (ok := fun x => x.cmd == .poll && x.ofAttempt)]
    simpa using h
  case ack =>
    rw [exec_positionAck_taken hdue hx hc hn hpos]
    exact ⟨fun hab => ⟨_, congrArg Host.Outcome.next (State.positionAck_starts ho ha hab), rfl⟩,
      fun hab => ⟨_, congrArg Host.Outcome.next (State.positionAck_ends ho ha hab), rfl⟩⟩
  case reply =>
    have hP := s.endExchange.polled_eq x.drive r
    have hkeep := State.afterPoll_keepsReport (s := s.endExchange.polled x.drive r) (d := x.drive) (a := a)
      (by rw [hP, State.takeReport_frame]; exact ha) r.state
    have hatt : (s.endExchange.polled x.drive r).attempts = s.attempts := by
      rw [hP, State.takeReport_frame]
      rfl
    have hposn : ((s.endExchange.polled x.drive r).scheds.get x.drive).position = some r.position := by
      rw [hP]
      exact State.takeReport_position _ _ _ _ _ _
    have hends : ∀ v, v = (s.endExchange.polled x.drive r).endAttempt x.drive →
        v.attempts = s.attempts.set x.drive none ∧ (v.scheds.get x.drive).position = some r.position := by
      rintro v rfl
      rw [State.endAttempt_eq, ← hatt, ← hposn]
      exact ⟨rfl, rfl⟩
    have hdrive : (s.endExchange.polled x.drive r).drives.get x.drive = _ :=
      (congrArg (fun v => Quad.get v.drives x.drive) hP).trans (Quad.get_set _ _ _)
    have hframe : (s.endExchange.polled x.drive r).link = { s.link with exchange := none } ∧
        (s.endExchange.polled x.drive r).store = s.store := by
      rw [hP, State.takeReport_frame]
      exact ⟨rfl, rfl⟩
    refine ⟨_, ?_, hkeep.link.trans hframe.1, hkeep.store.trans hframe.2,
      hkeep.medium.trans (congrArg DriveLink.medium hdrive), hkeep.known.trans (congrArg DriveLink.known hdrive),
      hkeep.miss.trans (congrArg DriveLink.miss hdrive), hkeep.presence.trans (congrArg DriveLink.presence hdrive),
      fun p => (hkeep.changed p).trans ?raised, fun m hm hp => hkeep.mounts.trans ?mounted, fun hab => ?abandoned, fun hab hst => ?ready,
      fun m hab hst hm hlim => ?busy, fun k hab h => ?fault⟩
    · rw [exec_positionPollReply_frame hdue hx hc hof hk hh, State.positionPollReply_good ho ha hr]
    case abandoned => exact hends _ (State.afterPoll_abandoned _ hab _ _)
    case ready =>
      have hnr := s.endExchange.polled_noRead x.drive r
      rw [hst, State.afterPoll_ready _ hab]
      split
      next h =>
        obtain ⟨ha', hp'⟩ := hends _ rfl
        refine ⟨hp', fun hfree => ?_, fun _ => ha'⟩
        rcases hnr.mp h with h | h | h | h | h | h | h
        · exact absurd (hfree.1.symm.trans h) (by decide)
        · exact absurd (hfree.2.1.symm.trans h) (by decide)
        · exact absurd (hfree.2.2.1.symm.trans h) (by decide)
        · exact absurd (hfree.2.2.2.1.symm.trans h) (by decide)
        · exact absurd hfree.2.2.2.2.1 h
        · exact absurd hfree.2.2.2.2.2.1 h
        · exact absurd h hfree.2.2.2.2.2.2
      next h =>
        rw [State.setAttemptPhase_eq (by rw [hatt]; exact ha)]
        refine ⟨hposn, fun _ => congrArg (fun v => Quad.set v x.drive _) hatt, fun hbar => absurd (hnr.mpr hbar) h⟩
    case busy =>
      rw [hst, State.afterPoll_busy _ hab]
      have hno : ¬ (s.endExchange.polled x.drive r).limitPassed x.drive = true := by
        rw [State.polled_limitPassed (s := s.endExchange) hm]
        exact Nat.not_le.mpr hlim
      rw [if_neg hno, State.startPollTimer_eq (by rw [hatt]; exact ha)]
      refine ⟨congrArg (fun v => Quad.set v x.drive _) hatt, ?_, hposn⟩
      rw [Quad.get_set, hP, State.takeReport_frame]
      rfl
    case fault =>
      rcases h with ⟨hst, rfl⟩ | ⟨hst, rfl, m, hm, hlim⟩
      · refine s.endExchange.polledFault x.drive r _ (.inr rfl) _ ?_
        rw [hst, State.afterPoll_fault _ hab]
      · refine s.endExchange.polledFault x.drive r _ (.inl rfl) _ ?_
        rw [hst, State.afterPoll_timeout (s := s.endExchange) hab hm r hlim]
    case raised =>
      rw [hP]
      exact s.endExchange.takeReport_changed _ _ _ _ _ _
    case mounted =>
      rw [hP]
      exact State.takeReport_mounted (s := s.endExchange) hm hp _ _ _

end Sys2Proof.Proofs
end

section
/-! The READ reply, RELAX and presence (R97 to R99, R102, R103). -/
namespace Sys2Proof.Machine

theorem State.readReply_data {s : State} {x : Exchange} (ho : x.orphan = false) {a : Attempt}
    (ha : s.attempts.get x.drive = some a) {bytes : List Byte} {r : Result} (h : parseRead x.b bytes = some (.data r)) :
    s.readReply x bytes =
      (((s.endExchange.endedWell x.drive).takeResult x.drive a.unit r).endAttempt x.drive).settle s := by
  unfold State.readReply
  rw [ho, h, ha]
  rfl

theorem State.readReply_fault {s : State} {x : Exchange} (ho : x.orphan = false) {a : Attempt}
    (ha : s.attempts.get x.drive = some a) {bytes : List Byte} (h : parseRead x.b bytes = some .fault) :
    s.readReply x bytes =
      (((s.endExchange.endedWell x.drive).takeFault x.drive .read (some a.unit) .adaptorFault false).endAttempt
        x.drive).settle s := by
  unfold State.readReply
  rw [ho, h, ha]
  rfl

/-- R89, R102: a good transaction ends, and its drive's miss counter is 0. -/
theorem State.endedWell_eq (s : State) (d : DriveId) : s.endExchange.endedWell d = { s with
    link := { s.link with exchange := none }
    drives := s.drives.set d { s.drives.get d with miss := 0 } } := rfl

theorem State.relaxAck_good {s : State} {x : Exchange} (ho : x.orphan = false) :
    s.relaxAck x = (s.endExchange.endedWell x.drive).settle s := if_neg (by rw [ho]; decide)

/-- R102: the part after a presence POLL's good reply, before what follows at once. -/
def State.afterPresence (s : State) (d : DriveId) (r : PollReport) : State :=
  match r.state with
  | .fault => (s.polled d r).takeFault d .poll none .adaptorFault false
  | .ready | .busy => s.polled d r

theorem State.presenceReply_good {s : State} {x : Exchange} (ho : x.orphan = false) {bytes : List Byte}
    {r : PollReport} (h : parsePoll bytes = some r) :
    s.presenceReply x bytes = (s.endExchange.afterPresence x.drive r).settle s := by
  unfold State.presenceReply
  rw [ho, if_neg (by decide), h]
  rfl

theorem State.afterPresence_quiet (s : State) (d : DriveId) {r : PollReport} (h : r.state ≠ .fault) :
    s.afterPresence d r = s.polled d r := by
  unfold State.afterPresence
  split
  next hf => exact absurd hf h
  all_goals rfl

/-- R98, R102: an adaptor in the state FAULT is a fault that is no miss, with a RELAX requested. -/
theorem State.afterPresence_fault (s : State) (d : DriveId) {r : PollReport} (h : r.state = .fault) :
    s.afterPresence d r = { s.polled d r with
      linkFault := LinkCapture.offered s.linkFault d .poll none .adaptorFault
      events := ((s.polled d r).captureFault d .poll none .adaptorFault).events
      stats := s.stats.set d { s.stats.get d with linkFaults := (s.stats.get d).linkFaults + 1 }
      drives := s.drives.set d { s.drives.get d with
        miss := 0, medium := r.medium, known := true
        presence := if (s.drives.get d).link = .online then some s.settings.presencePoll
          else (s.drives.get d).presence
        pend := withTx (s.drives.get d).pend .relax } } := by
  unfold State.afterPresence
  rw [h]
  dsimp only
  rw [State.takeFault_nomiss _ d .poll none .adaptorFault false rfl (.inr rfl), State.polled_eq, State.takeReport_frame]
  simp

/-- A presence POLL's report, whether or not a fault follows it. -/
theorem State.afterPresence_keepsReport (s : State) (d : DriveId) (r : PollReport) :
    (s.polled d r).KeepsReport (s.afterPresence d r) d := by
  unfold State.afterPresence
  cases r.state with
  | fault => exact State.takeFault_keepsReport _ d .poll none (.inr rfl) false
  | ready | busy => exact ⟨rfl, rfl, rfl, rfl, rfl, rfl, rfl, fun _ => rfl⟩

/-- A presence POLL touches no attempt, no rest and no other drive. -/
theorem State.afterPresence_frame (s : State) (d : DriveId) (r : PollReport) :
    (s.afterPresence d r).attempts = s.attempts ∧ (s.afterPresence d r).rests = s.rests ∧
    ((s.afterPresence d r).scheds.get d).position = some r.position ∧
    (s.afterPresence d r).drives = s.drives.set d { s.drives.get d with
      medium := r.medium, known := true, miss := 0
      presence := if (s.drives.get d).link = .online then some s.settings.presencePoll
        else (s.drives.get d).presence
      pend := if r.state = .fault then withTx (s.drives.get d).pend .relax else (s.drives.get d).pend } := by
  have hposn : ((s.polled d r).scheds.get d).position = some r.position := by
    rw [State.polled_eq]
    exact State.takeReport_position _ _ _ _ _ _
  have hframe : (s.polled d r).attempts = s.attempts ∧ (s.polled d r).rests = s.rests := by
    rw [State.polled_eq, State.takeReport_frame]
    exact ⟨rfl, rfl⟩
  by_cases h : r.state = .fault
  · rw [State.afterPresence_fault s d h, if_pos h]
    exact ⟨hframe.1, hframe.2, hposn, rfl⟩
  · rw [State.afterPresence_quiet s d h, if_neg h]
    refine ⟨hframe.1, hframe.2, hposn, ?_⟩
    rw [State.polled_eq]

end Sys2Proof.Machine

namespace Sys2Proof.Proofs
open Sys2Proof.Machine

/-- Settles O43. -/
theorem readReply : Obligations.ReadReply := by
  unfold Obligations.ReadReply
  intro x d a bytes s hdue hx hd ha ho
  subst hd
  refine ⟨fun g hc => ?refused, fun r b hc hk hh hr hb => ?data, fun hc hk hh hr => ?fault⟩
  case refused => rw [exec_readReply hdue, State.onReply_refuses hx (ok := fun x => x.cmd == .read) (beq_eq_false_iff_ne.mpr hc)]
  case data => rw [exec_readReply_frame hdue hx hc hk hh, State.readReply_data ho ha hr, hb, State.endedWell_eq]
  case fault =>
    refine ⟨_, (exec_readReply_frame hdue hx hc hk hh bytes).trans
      (congrArg Host.Outcome.next (State.readReply_fault ho ha hr)), ?_⟩
    rw [State.faultedEnd_eq _ _ _ _ (.inr rfl), State.endedWell_eq]
    simp

/-- Settles O44. -/
theorem presenceAndRelax : Obligations.PresenceAndRelax := by
  unfold Obligations.PresenceAndRelax
  intro x d bytes s hdue hx hd
  subst hd
  refine ⟨fun h => ?noAck, fun g h => ?noPoll, fun b n hc hn hpos ho hb => ?ack,
    fun r hc hof hk hh ho hr => ?reply⟩
  case noAck =>
    rw [exec_relaxAck hdue, State.onExchange_refuses hx (ok := fun x => x.cmd == .relax && x.ackOpen)]
    rcases h with h | h
    · simp only [beq_eq_false_iff_ne.mpr h, Bool.false_and]
    · simp only [Exchange.ackOpen_eq_false h, Bool.and_false]
  case noPoll =>
    rw [exec_presencePollReply hdue, State.onReply_refuses hx (ok := fun x => x.cmd == .poll && !x.ofAttempt)]
    simpa using h
  case ack =>
    rw [exec_relaxAck_taken hdue hx hc hn hpos, State.relaxAck_good ho, hb, State.endedWell_eq]
  case reply =>
    have hP := s.endExchange.polled_eq x.drive r
    have hkeep := s.endExchange.afterPresence_keepsReport x.drive r
    obtain ⟨hatt, hrest, hpos, hdrives⟩ := s.endExchange.afterPresence_frame x.drive r
    have hframe : (s.endExchange.polled x.drive r).link = { s.link with exchange := none } ∧
        (s.endExchange.polled x.drive r).store = s.store := by
      rw [hP, State.takeReport_frame]
      exact ⟨rfl, rfl⟩
    refine ⟨_, ?_, hkeep.link.trans hframe.1, hkeep.store.trans hframe.2, hatt, hrest, hpos, hdrives,
      fun p => (hkeep.changed p).trans ?raised, fun m hm hp => hkeep.mounts.trans ?mounted, fun hf => ?fault,
      fun hf => ?quiet⟩
    · rw [exec_presencePollReply_frame hdue hx hc hof hk hh, State.presenceReply_good ho hr]
    case raised =>
      rw [hP]
      exact s.endExchange.takeReport_changed _ _ _ _ _ _
    case mounted =>
      rw [hP]
      exact State.takeReport_mounted (s := s.endExchange) hm hp _ _ _
    case fault =>
      rw [State.afterPresence_fault _ _ hf]
      exact ⟨rfl, congrArg DriveStats.linkFaults (Quad.get_set _ _ _)⟩
    case quiet =>
      rw [State.afterPresence_quiet _ _ hf, hP, State.takeReport_frame]
      exact ⟨rfl, rfl⟩

end Sys2Proof.Proofs
end

section
/-! The timers of the link and the signals of a reply (R92, R93, R96, R101, R102, R106). -/
namespace Sys2Proof.Machine

theorem PowerState.timersRun_iff (p : PowerState) :
    p.timersRun = true ↔ p = .active ∨ p = .quiet ∨ p = .entering := by
  cases p <;> decide

/-- R101, R102, R112: a drive's timer as it runs in the power state of the moment. -/
theorem State.timersRun_ite {α : Type} (s : State) (t : Option α) :
    (if s.power.state.timersRun then t else none) =
      if s.power.state = .active ∨ s.power.state = .quiet ∨ s.power.state = .entering then t else none :=
  if_congr (PowerState.timersRun_iff _) rfl rfl

theorem State.pollDue_eq (s : State) (d : DriveId) : s.pollDue d = { s with
    drives := s.drives.set d { s.drives.get d with poll := none }
    attempts := s.attempts.set d ((s.attempts.get d).map fun a => { a with phase := .needPoll }) } := by
  unfold State.pollDue State.setAttemptPhase
  show (match s.attempts.get d with | some _ => _ | none => _) = _
  cases h : s.attempts.get d with
  | some a => rfl
  | none =>
    show _ = { s with drives := _, attempts := s.attempts.set d none }
    rw [Quad.set_self _ _ _ h.symm]
    rfl

theorem State.presenceDue_eq (s : State) (d : DriveId) : s.presenceDue d = (s.setDrive d
    { s.drives.get d with presence := none, pend := withTx (s.drives.get d).pend .presencePoll }).settle s := by
  rw [State.presenceDue, State.request_eq]
  simp [State.setDrive]

theorem State.reprobeDue_eq (s : State) (d : DriveId) : s.reprobeDue d = (s.setDrive d
    { s.drives.get d with reprobe := none, pend := withTx (s.drives.get d).pend .probe }).settle s := by
  rw [State.reprobeDue, State.request_eq]
  simp [State.setDrive]

theorem exec_pollTimerExpiry {s : State} (h : s.due = none) (d : DriveId) :
    exec (.pollTimerExpiry d) s = s.onTimer (.poll d) fun s => s.pollDue d := by
  show execPollTimerExpiry d s = _
  rw [execPollTimerExpiry, State.catchUp_of_due_none h]

theorem exec_presenceTimerExpiry {s : State} (h : s.due = none) (d : DriveId) :
    exec (.presenceTimerExpiry d) s = s.onTimer (.presence d) fun s => s.presenceDue d := by
  show execPresenceTimerExpiry d s = _
  rw [execPresenceTimerExpiry, State.catchUp_of_due_none h]

theorem exec_reprobeTimerExpiry {s : State} (h : s.due = none) (d : DriveId) :
    exec (.reprobeTimerExpiry d) s = s.onTimer (.reprobe d) fun s => s.reprobeDue d := by
  show execReprobeTimerExpiry d s = _
  rw [execReprobeTimerExpiry, State.catchUp_of_due_none h]

/-- A row that is the expiry of a timer: when it cannot occur, and what it does. -/
theorem timerRow {s : State} {i : Instr} {k : TimerId} {f : State → State} (h : exec i s = s.onTimer k f) :
    (s.timer k = none → exec i s = .refused .cannotOccur) ∧
    (∀ n j m, s.timer k = some n → s.timer j = some m → m < n → exec i s = .refused .cannotOccur) ∧
    (∀ n, s.timer k = some n → (∀ j m, s.timer j = some m → n ≤ m) → exec i s = .next (f (s.pass n))) := by
  rw [h]
  exact s.onTimer_spec k f

/-- What the link signals make of a transaction with a reply frame, and which of them cannot occur at the moment. -/
theorem State.onReply_signals {s : State} {x : Exchange} (hx : s.link.exchange = some x) {ok : Exchange → Bool}
    (hok : ok x = true) (take : Exchange → List Byte → State) :
    (∀ n, x.ack = some n → 0 < n → s.onReply ok .ack take = .next (s.setExchange { x with ack := none })) ∧
    ((x.ack = none ∨ x.ack = some 0) → s.onReply ok .ack take = .refused .cannotOccur) ∧
    (x.ack = none → x.hold = none →
      s.onReply ok .hold take = .next (s.setExchange { x with hold := some s.settings.stretchLimit })) ∧
    (∀ n, x.hold = some n → 0 < n → s.onReply ok .resume take = .next (s.setExchange { x with hold := none })) ∧
    ((x.hold = none ∨ x.hold = some 0) → s.onReply ok .resume take = .refused .cannotOccur) ∧
    ((x.ack ≠ none ∨ x.hold ≠ none) → s.onReply ok .hold take = .refused .cannotOccur ∧
      ∀ bytes, s.onReply ok (.frame bytes) take = .refused .cannotOccur) := by
  have hshut : (x.ack ≠ none ∨ x.hold ≠ none) → x.replyOpen = false := fun h => by
    rw [Bool.eq_false_iff, ne_eq, Exchange.replyOpen_iff]
    exact fun ⟨h1, h2⟩ => h.elim (· h1) (· h2)
  refine ⟨fun n hn hpos => ?_, fun h => ?_, fun hk hh => ?_, fun n hn hpos => ?_, fun h => ?_,
    fun h => ⟨?_, fun bytes => ?_⟩⟩
  · exact State.onExchange_takes hx (by rw [hok, x.ackOpen_iff.mpr ⟨n, hn, hpos⟩]; rfl) _
  · exact State.onExchange_refuses hx (by rw [Exchange.ackOpen_eq_false h, Bool.and_false]) _
  · exact State.onExchange_takes hx (by rw [hok, x.replyOpen_iff.mpr ⟨hk, hh⟩]; rfl) _
  · exact State.onExchange_takes hx (by rw [hok, x.holdOpen_iff.mpr ⟨n, hn, hpos⟩]; rfl) _
  · exact State.onExchange_refuses hx (by rw [Exchange.holdOpen_eq_false h, Bool.and_false]) _
  · exact State.onExchange_refuses hx (by rw [hshut h, Bool.and_false]) _
  · exact State.onExchange_refuses hx (by rw [hshut h, Bool.and_false]) _

end Sys2Proof.Machine

namespace Sys2Proof.Proofs
open Sys2Proof.Machine

/-- The signals of a transaction whose instruction is `i`. -/
theorem linkSignals {s : State} {x : Exchange} (hx : s.link.exchange = some x) {ok : Exchange → Bool}
    (hok : ok x = true) {i : LinkSignal → Instr} {take : Exchange → List Byte → State}
    (hexec : ∀ g, exec (i g) s = s.onReply ok g take) (on : Exchange → State)
    (hon : ∀ y, on y = { s with link := { s.link with exchange := some y } }) :
      (∀ n, x.ack = some n → 0 < n → exec (i .ack) s = .next (on { x with ack := none })) ∧
      ((x.ack = none ∨ x.ack = some 0) → exec (i .ack) s = .refused .cannotOccur) ∧
      (x.ack = none → x.hold = none →
        exec (i .hold) s = .next (on { x with hold := some s.settings.stretchLimit })) ∧
      (∀ n, x.hold = some n → 0 < n → exec (i .resume) s = .next (on { x with hold := none })) ∧
      ((x.hold = none ∨ x.hold = some 0) → exec (i .resume) s = .refused .cannotOccur) ∧
      ((x.ack ≠ none ∨ x.hold ≠ none) → exec (i .hold) s = .refused .cannotOccur ∧
        ∀ bytes, exec (i (.frame bytes)) s = .refused .cannotOccur) := by
  simp only [hexec, hon]
  exact State.onReply_signals hx hok take

/-- Settles O45. -/
theorem linkTimers : Obligations.LinkTimers := by
  unfold Obligations.LinkTimers
  refine ⟨fun d s k i t hdue hkind => ?timers, fun s x i hdue hx hi on hon => ?signals⟩
  case timers =>
    have hnow : ∀ n, (s.pass n).now = s.now + n := fun n => (s.pass_fields n).2.1
    rcases hkind with ⟨rfl, rfl, rfl⟩ | ⟨rfl, rfl, rfl⟩ | ⟨rfl, rfl, rfl⟩
    · obtain ⟨hstopped, hlater, hdone⟩ := timerRow (exec_pollTimerExpiry hdue d)
      refine ⟨s.timersRun_ite _, hstopped, hlater, fun n b hn hmin hb => ⟨hb ▸ hnow n, fun _ => ?_, nofun, nofun⟩⟩
      rw [hdone n hn hmin, hb, State.pollDue_eq]
    · obtain ⟨hstopped, hlater, hdone⟩ := timerRow (exec_presenceTimerExpiry hdue d)
      refine ⟨s.timersRun_ite _, hstopped, hlater, fun n b hn hmin hb => ⟨hb ▸ hnow n, nofun, fun _ => ?_, nofun⟩⟩
      rw [hdone n hn hmin, hb, State.presenceDue_eq]
    · obtain ⟨hstopped, hlater, hdone⟩ := timerRow (exec_reprobeTimerExpiry hdue d)
      refine ⟨s.timersRun_ite _, hstopped, hlater, fun n b hn hmin hb => ⟨hb ▸ hnow n, nofun, nofun, fun _ => ?_⟩⟩
      rw [hdone n hn hmin, hb, State.reprobeDue_eq]
  case signals =>
    rcases hi with ⟨rfl, hc⟩ | ⟨rfl, hc, hof⟩ | ⟨rfl, hc, hof⟩ | ⟨rfl, hc⟩
    · exact linkSignals (ok := fun x => x.cmd == .probe) hx (beq_iff_eq.mpr hc) (exec_probeReply hdue) on hon
    · exact linkSignals (ok := fun x => x.cmd == .poll && x.ofAttempt) hx (by simp [hc, hof])
        (exec_positionPollReply hdue) on hon
    · exact linkSignals (ok := fun x => x.cmd == .poll && !x.ofAttempt) hx (by simp [hc, hof])
        (exec_presencePollReply hdue) on hon
    · exact linkSignals (ok := fun x => x.cmd == .read) hx (beq_iff_eq.mpr hc) (exec_readReply hdue) on hon

end Sys2Proof.Proofs
end

section
/-! The faults of a transaction (R91 to R93, R98, R100, R107). -/
namespace Sys2Proof.Machine

variable (s : State)

/-! ### A miss (R91, R100) -/

/-- R100: the miss counter after one more miss. -/
def State.missCount (s : State) (d : DriveId) : Nat := min 15 ((s.drives.get d).miss + 1)

/-- R91: one more miss takes the drive OFFLINE. -/
def State.missOffline (s : State) (d : DriveId) : Prop :=
  (s.drives.get d).link = .online ∧ s.settings.missLimit ≤ s.missCount d

/-- R91, R100: one more miss loses the drive's mount. -/
def State.missLoses (s : State) (d : DriveId) : Prop :=
  (s.drives.get d).link ≠ .offline ∧ s.settings.missLimit ≤ s.missCount d

/-- What misses leave of a state, `off` and `lost` saying whether the drive goes OFFLINE and its mount is lost. -/
structure State.Missed (s v : State) (d : DriveId) (off lost : Prop) (n : Nat) : Prop where
  frame : v = { s with
    drives := v.drives, events := v.events, mounts := v.mounts, discard := v.discard, works := v.works
    contexts := v.contexts, unitMap := v.unitMap, ctxReq := v.ctxReq, scheds := v.scheds }
  position : (v.scheds.get d).position = (s.scheds.get d).position
  miss : (v.drives.get d).miss = n
  offline : off → (v.drives.get d).link = .offline ∧ (v.drives.get d).presence = none ∧
    (v.drives.get d).reprobe = some s.settings.reprobeInterval ∧
    (v.drives.get d).pend = (s.drives.get d).pend.filter fun t => decide (t = .probe)
  stays : ¬ off → (v.drives.get d).link = (s.drives.get d).link ∧
    (v.drives.get d).presence = (s.drives.get d).presence ∧ (v.drives.get d).reprobe = (s.drives.get d).reprobe ∧
    (v.drives.get d).pend = (s.drives.get d).pend
  raised : ∀ p (e : Event), (v.events.get p).raw.getLsbD e.pos = true ↔
    (s.events.get p).raw.getLsbD e.pos = true ∨ (e = .driveOffline ∧
      (off ∨ lost ∧ (s.drives.get d).link = .absent ∧ s.isMounted d = true))
  mounts : ∀ m, s.mounts.get d = some m → m.phase = .mounted →
    (lost → v.mounts = s.mounts.set d (some { m with phase := .lost })) ∧ (¬ lost → v.mounts = s.mounts)

theorem DriveLink.drop_presence (l : DriveLink) : (l.drop [.relax, .presencePoll]).pend =
    l.pend.filter fun t => decide (t = .probe) := by
  refine congrArg (fun f => l.pend.filter f) ?_
  funext t
  cases t <;> rfl

/-- Nothing is missed. -/
theorem State.missed_none (d : DriveId) : s.Missed s d False False (s.drives.get d).miss :=
  ⟨rfl, rfl, rfl, nofun, fun _ => ⟨rfl, rfl, rfl, rfl⟩, fun p e => by simp, fun m _ _ => ⟨nofun, fun _ => rfl⟩⟩

theorem State.Missed.congr {s v : State} {d : DriveId} {off off' lost lost' : Prop} {n n' : Nat}
    (h : s.Missed v d off lost n) (ho : off' ↔ off) (hl : lost' ↔ lost) (hn : n' = n) :
    s.Missed v d off' lost' n' := by
  rw [propext ho, propext hl, hn]
  exact h

theorem State.raiseBoth_iff (e e' : Event) (p : PortId) : ((s.raiseBoth e').events.get p).raw.getLsbD e.pos = true ↔
    (s.events.get p).raw.getLsbD e.pos = true ∨ e = e' := by
  rw [State.raiseBoth_raw, BitVec.getLsbD_or, Bool.or_eq_true, Event.bit_getLsbD, decide_eq_true_iff]

/-- A miss that is counted below the limit. -/
theorem State.missed_counted (d : DriveId) (n : Nat) {lost : Prop} (h : lost → s.isMounted d = false) :
    s.Missed (s.setDrive d { s.drives.get d with miss := n }) d False lost n := by
  refine ⟨rfl, rfl, ?_, nofun, fun _ => ?_, fun p e => ?_, fun m hm hp => ⟨fun hl => ?_, fun _ => rfl⟩⟩
  · exact congrArg DriveLink.miss (Quad.get_set _ _ _)
  · rw [State.setDrive_drives, Quad.get_set]
    exact ⟨rfl, rfl, rfl, rfl⟩
  · refine (or_iff_left ?_).symm
    rintro ⟨-, hf | ⟨hl, -, hm⟩⟩
    · exact hf
    · rw [h hl] at hm
      cases hm
  · rw [State.isMounted_eq_of_some hm, hp] at h
    exact absurd (h hl) (by decide)

/-- R91, R100: a miss that raises DRIVE_OFFLINE and loses the mount. -/
theorem State.missed_lost (d : DriveId) {off : Prop} {l : DriveLink}
    (hoff : off → l.link = .offline ∧ l.presence = none ∧ l.reprobe = some s.settings.reprobeInterval ∧
      l.pend = (s.drives.get d).pend.filter fun t => decide (t = .probe))
    (hon : ¬ off → l = { s.drives.get d with miss := l.miss })
    (hraise : off ∨ (s.drives.get d).link = .absent ∧ s.isMounted d = true) :
    s.Missed (((s.setDrive d l).raiseBoth .driveOffline).loseMount d) d off True l.miss := by
  obtain ⟨-, -, -, -, -, -, -, hdrives, -⟩ := State.loseMount_fields ((s.setDrive d l).raiseBoth .driveOffline) d
  have hdrive : (((s.setDrive d l).raiseBoth .driveOffline).loseMount d).drives.get d = l := by
    rw [hdrives]
    exact Quad.get_set _ _ _
  refine ⟨?_, State.loseMount_position _ d d, congrArg DriveLink.miss hdrive, fun ho => ?_, fun ho => ?_,
    fun p e => ?_, fun m hm hp => ⟨fun _ => State.loseMount_mounts _ d hm hp, fun h => absurd trivial h⟩⟩
  · rw [State.loseMount_frame]
    rfl
  · rw [hdrive]
    exact hoff ho
  · rw [hdrive, hon ho]
    exact ⟨rfl, rfl, rfl, rfl⟩
  · rw [State.loseMount_frame]
    refine (State.raiseBoth_iff _ e .driveOffline p).trans (or_congr_right ?_)
    exact ⟨fun h => ⟨h, hraise.imp_right fun h => ⟨trivial, h⟩⟩, And.left⟩

theorem State.missed_of_offline {s : State} {d : DriveId} (h : (s.drives.get d).link = .offline) :
    s.missed d = s := by
  unfold State.missed
  dsimp only
  rw [h]

/-- R91: an ONLINE drive that reaches MISS_LIMIT goes OFFLINE. -/
theorem State.missed_of_online {s : State} {d : DriveId} (h : (s.drives.get d).link = .online) : s.missed d =
    if s.settings.missLimit ≤ s.missCount d then
      ((s.setDrive d { (s.drives.get d).drop [.relax, .presencePoll] with
        link := .offline, miss := s.missCount d, presence := none
        reprobe := some s.settings.reprobeInterval }).raiseBoth .driveOffline).loseMount d
    else s.setDrive d { s.drives.get d with miss := s.missCount d } := by
  unfold State.missed
  dsimp only
  rw [h]
  refine if_congr .rfl ?_ rfl
  unfold State.goOffline
  simp [State.setDrive, DriveLink.drop, State.missCount]

theorem State.missed_of_absent {s : State} {d : DriveId} (h : (s.drives.get d).link = .absent) : s.missed d =
    if s.settings.missLimit ≤ s.missCount d ∧ s.isMounted d = true then
      ((s.setDrive d { s.drives.get d with miss := s.missCount d }).raiseBoth .driveOffline).loseMount d
    else s.setDrive d { s.drives.get d with miss := s.missCount d } := by
  unfold State.missed
  dsimp only
  rw [h]
  rfl

theorem State.missed_missed (d : DriveId) : s.Missed (s.missed d) d (s.missOffline d) (s.missLoses d)
    (if (s.drives.get d).link = .offline then (s.drives.get d).miss else s.missCount d) := by
  have hoff : (s.drives.get d).link ≠ .online → (s.missOffline d ↔ False) := fun h =>
    iff_of_false (fun h' => h h'.1) nofun
  cases hl : (s.drives.get d).link with
  | offline =>
    rw [State.missed_of_offline hl, if_pos rfl]
    exact (s.missed_none d).congr (hoff (by rw [hl]; decide)) (iff_of_false (fun h => h.1 hl) nofun) rfl
  | online =>
    rw [if_neg (show LinkState.online ≠ .offline by decide)]
    by_cases hlim : s.settings.missLimit ≤ s.missCount d
    · rw [State.missed_of_online hl, if_pos hlim]
      exact (State.missed_lost s d (off := True) (l := { (s.drives.get d).drop [.relax, .presencePoll] with
          link := .offline, miss := s.missCount d, presence := none, reprobe := some s.settings.reprobeInterval })
        (fun _ => ⟨rfl, rfl, rfl, (s.drives.get d).drop_presence⟩) (fun h => absurd trivial h) (.inl trivial)).congr (iff_of_true ⟨hl, hlim⟩ trivial)
        (iff_of_true ⟨by rw [hl]; decide, hlim⟩ trivial) rfl
    · rw [State.missed_of_online hl, if_neg hlim]
      exact (s.missed_counted d (s.missCount d) False.elim).congr (iff_of_false (fun h => hlim h.2) id)
        (iff_of_false (fun h => hlim h.2) id) rfl
  | absent =>
    have hoff := hoff (by rw [hl]; decide)
    rw [if_neg (show LinkState.absent ≠ .offline by decide)]
    by_cases hlim : s.settings.missLimit ≤ s.missCount d ∧ s.isMounted d = true
    · rw [State.missed_of_absent hl, if_pos hlim]
      exact (State.missed_lost s d (off := False) nofun (fun _ => rfl) (.inr ⟨hl, hlim.2⟩)).congr hoff
        (iff_of_true ⟨by rw [hl]; decide, hlim.1⟩ trivial) rfl
    · rw [State.missed_of_absent hl, if_neg hlim]
      exact (s.missed_counted d (s.missCount d) fun h => Bool.eq_false_iff.mpr fun hm => hlim ⟨h.2, hm⟩).congr hoff
        .rfl rfl

/-! ### The fault (R98) -/

/-- The part after the fault is captured and counted. -/
def State.charged (s : State) (x : Exchange) (k : LinkFaultKind) : State :=
  (s.endExchange.captureFault x.drive x.cmd
    (if x.ofAttempt then (s.attempts.get x.drive).map Attempt.unit else none) k).count x.drive 14

/-- The part after the miss is counted too, where the fault is one. -/
def State.blamed (s : State) (x : Exchange) (k : LinkFaultKind) : State :=
  if k.miss then (s.charged x k).missed x.drive else s.charged x k

theorem State.charged_eq (x : Exchange) (k : LinkFaultKind) : s.charged x k = { s with
    link := { s.link with exchange := none }
    linkFault := LinkCapture.offered s.linkFault x.drive x.cmd
      (if x.ofAttempt then (s.attempts.get x.drive).map Attempt.unit else none) k
    events := (s.charged x k).events
    stats := s.stats.set x.drive
      { s.stats.get x.drive with linkFaults := (s.stats.get x.drive).linkFaults + 1 } } := by
  unfold State.charged
  rw [State.captureFault_frame, State.count_linkFaults]
  rfl

theorem State.charged_fields (x : Exchange) (k : LinkFaultKind) :
    (s.charged x k).attempts = s.attempts ∧ (s.charged x k).settings = s.settings ∧
    (s.charged x k).drives = s.drives ∧ (s.charged x k).scheds = s.scheds ∧ (s.charged x k).mounts = s.mounts ∧
    (s.charged x k).stats = s.stats.set x.drive
      { s.stats.get x.drive with linkFaults := (s.stats.get x.drive).linkFaults + 1 } := by
  rw [State.charged_eq]
  exact ⟨rfl, rfl, rfl, rfl, rfl, rfl⟩

theorem State.charged_raised (x : Exchange) (k : LinkFaultKind) (p : PortId) (e : Event) :
    ((s.charged x k).events.get p).raw.getLsbD e.pos = true ↔
      (s.events.get p).raw.getLsbD e.pos = true ∨ (s.linkFault = none ∧ e = .linkFault) := by
  show ((s.endExchange.captureFault _ _ _ k).events.get p).raw.getLsbD e.pos = true ↔ _
  rw [State.captureFault_raw, BitVec.getLsbD_or, Bool.or_eq_true]
  refine or_congr_right ?_
  show (if s.linkFault = none then Event.linkFault.bit else 0).getLsbD e.pos = true ↔ _
  split
  next h => rw [Event.bit_getLsbD, decide_eq_true_iff]; simp [h]
  next h => simp [h]

theorem LinkFaultKind.miss_iff {k : LinkFaultKind} (hk : k ≠ .positionTimeout ∧ k ≠ .adaptorFault) :
    k.miss = true ↔ k ≠ .stretchTimeout := by
  cases k with
  | positionTimeout => exact absurd rfl hk.1
  | adaptorFault => exact absurd rfl hk.2
  | noAck | replyError | stretchTimeout => decide

/-- R98, R100: NO_ACK and REPLY_ERROR are misses, STRETCH_TIMEOUT is none. -/
theorem State.blamed_missed (x : Exchange) {k : LinkFaultKind} (hk : k ≠ .positionTimeout ∧ k ≠ .adaptorFault) :
    (s.charged x k).Missed (s.blamed x k) x.drive (k ≠ .stretchTimeout ∧ s.missOffline x.drive)
      (k ≠ .stretchTimeout ∧ s.missLoses x.drive)
      (if k = .stretchTimeout ∨ (s.drives.get x.drive).link = .offline then (s.drives.get x.drive).miss
        else s.missCount x.drive) := by
  have hoff : (s.charged x k).missOffline x.drive ↔ s.missOffline x.drive := by
    rw [State.charged_eq]
    exact .rfl
  have hlost : (s.charged x k).missLoses x.drive ↔ s.missLoses x.drive := by
    rw [State.charged_eq]
    exact .rfl
  have hdrives : (s.charged x k).drives = s.drives := by rw [State.charged_eq]
  have hcount : (s.charged x k).missCount x.drive = s.missCount x.drive := by rw [State.missCount, hdrives]; rfl
  unfold State.blamed
  by_cases h : k = .stretchTimeout
  · rw [if_neg (mt (LinkFaultKind.miss_iff hk).mp (not_not_intro h)), if_pos (.inl h)]
    refine (State.missed_none _ _).congr (iff_of_false (fun h' => h'.1 h) id) (iff_of_false (fun h' => h'.1 h) id) ?_
    rw [hdrives]
  · rw [if_pos ((LinkFaultKind.miss_iff hk).mpr h)]
    refine (State.missed_missed _ _).congr ((and_iff_right h).trans hoff.symm) ((and_iff_right h).trans hlost.symm) ?_
    rw [hdrives, hcount]
    simp only [h, false_or]

/-- The part at the end of a transaction by a fault, before what follows at once. -/
def State.faulted (s : State) (x : Exchange) (k : LinkFaultKind) : State :=
  let b := s.blamed x k
  { b with
    scheds := if x.ofAttempt = true ∧ x.cmd ≠ .read then
      b.scheds.set x.drive { b.scheds.get x.drive with position := none } else b.scheds
    drives := b.drives.set x.drive { b.drives.get x.drive with
      presence := if (x.cmd = .probe ∨ x.cmd = .poll) ∧ (b.drives.get x.drive).link = .online then
        some b.settings.presencePoll else (b.drives.get x.drive).presence
      reprobe := if x.cmd = .probe ∧ (b.drives.get x.drive).link ≠ .online then some b.settings.reprobeInterval
        else (b.drives.get x.drive).reprobe
      poll := if x.ofAttempt then none else (b.drives.get x.drive).poll }
    attempts := if x.ofAttempt then b.attempts.set x.drive none else b.attempts
    discard := if x.ofAttempt then b.discard.set x.drive false else b.discard
    contexts := match x.ofAttempt, b.abandonPending x.drive with
      | true, some i => b.contexts.set i none
      | _, _ => b.contexts }

theorem State.takeFault_blamed (x : Exchange) {k : LinkFaultKind} (hk : k ≠ .positionTimeout ∧ k ≠ .adaptorFault) :
    s.endExchange.takeFault x.drive x.cmd (if x.ofAttempt then (s.attempts.get x.drive).map Attempt.unit else none) k
      (x.ofAttempt && x.cmd != .read) =
    { s.blamed x k with scheds := if x.ofAttempt = true ∧ x.cmd ≠ .read then
        (s.blamed x k).scheds.set x.drive { (s.blamed x k).scheds.get x.drive with position := none }
        else (s.blamed x k).scheds } := by
  unfold State.takeFault State.blamed State.charged
  have hif : (x.ofAttempt && x.cmd != .read) = true ↔ x.ofAttempt = true ∧ x.cmd ≠ .read := by
    rw [Bool.and_eq_true, bne_iff_ne]
  cases k with
  | positionTimeout => exact absurd rfl hk.1
  | adaptorFault => exact absurd rfl hk.2
  | noAck | replyError | stretchTimeout =>
    by_cases hp : x.ofAttempt = true ∧ x.cmd ≠ .read
    · exact (if_pos (hif.mpr hp)).trans (by rw [if_pos hp]; rfl)
    · exact (if_neg (mt hif.mp hp)).trans (by rw [if_neg hp])

theorem State.faultTx_eq {x : Exchange} (ho : x.orphan = false) {k : LinkFaultKind}
    (hk : k ≠ .positionTimeout ∧ k ≠ .adaptorFault) : s.faultTx x k = (s.faulted x k).settle s := by
  unfold State.faultTx
  rw [ho, if_neg (by decide)]
  dsimp only
  rw [State.takeFault_blamed s x hk, State.pollEnd_bad]
  refine congrArg (fun v => State.settle v s) ?_
  unfold State.faulted
  cases hof : x.ofAttempt with
  | true =>
    have hab : ∀ (b : State) sc dr, { b with scheds := sc, drives := dr }.abandonPending x.drive =
        b.abandonPending x.drive := fun _ _ _ => rfl
    rw [if_pos rfl, State.endAttempt_eq]
    simp [State.setDrive, hab]
    cases (s.blamed x k).abandonPending x.drive <;> rfl
  | false =>
    rw [if_neg (by decide)]
    simp [State.setDrive]

/-! ### The two waits, and a transaction that ran on over a RESET (R92, R93, R107) -/

theorem State.pass_exchange {s : State} {x : Exchange} (hx : s.link.exchange = some x) (n : Nat) :
    (s.pass n).link.exchange = some (x.fall n) := by
  obtain ⟨-, -, -, -, hlink, -⟩ := s.pass_fields n
  rw [hlink]
  show s.link.exchange.map _ = _
  rw [hx]
  rfl

theorem State.timer_exchange {s : State} {x : Exchange} (hx : s.link.exchange = some x) :
    s.timer .ack = x.ack ∧ s.timer .hold = x.hold := by
  unfold State.timer
  rw [hx]
  exact ⟨rfl, rfl⟩

theorem State.ackOut_eq {s : State} {x : Exchange} (hx : s.link.exchange = some x) : s.ackOut = s.faultTx x .noAck := by
  rw [State.ackOut, hx]

theorem State.holdOut_eq {s : State} {x : Exchange} (hx : s.link.exchange = some x) : s.holdOut = s.stretchOut x := by
  rw [State.holdOut, hx]

/-- R92: the wait for the acknowledge runs out where no other timer does before it. -/
theorem State.onTimer_ack {s : State} {x : Exchange} (hx : s.link.exchange = some x) {n : Nat} (hn : x.ack = some n)
    (h : s.noneBefore n = true) :
    s.onTimer .ack State.ackOut = .next ((s.pass n).faultTx (x.fall n) .noAck) := by
  rw [(s.onTimer_spec .ack State.ackOut).2.2 n ((State.timer_exchange hx).1.trans hn) (State.noneBefore_iff.mp h),
    State.ackOut_eq (State.pass_exchange hx n)]

theorem State.onTimer_hold {s : State} {x : Exchange} (hx : s.link.exchange = some x) {n : Nat} (hn : x.hold = some n)
    (h : s.noneBefore n = true) :
    s.onTimer .hold State.holdOut = .next ((s.pass n).stretchOut (x.fall n)) := by
  rw [(s.onTimer_spec .hold State.holdOut).2.2 n ((State.timer_exchange hx).2.trans hn) (State.noneBefore_iff.mp h),
    State.holdOut_eq (State.pass_exchange hx n)]

theorem State.endOrphan_eq (x : Exchange) : s.endOrphan x = { s with
    link := { s.link with exchange := none }
    attempts := if x.ofAttempt then s.attempts.set x.drive none else s.attempts
    discard := if x.ofAttempt then s.discard.set x.drive false else s.discard
    drives := if x.ofAttempt then s.drives.set x.drive { s.drives.get x.drive with poll := none } else s.drives
    contexts := match x.ofAttempt, s.abandonPending x.drive with
      | true, some i => s.contexts.set i none
      | _, _ => s.contexts } := by
  unfold State.endOrphan
  cases x.ofAttempt with
  | false => rfl
  | true =>
    rw [if_pos rfl, State.endAttempt_eq, State.abandonPending_congr (v := s.endExchange) (s := s) rfl]
    cases s.abandonPending x.drive <;> rfl

theorem State.faultTx_orphan {x : Exchange} (h : x.orphan = true) (k : LinkFaultKind) :
    s.faultTx x k = (s.endOrphan x).settle s := if_pos h

/-- R87: a reply that is not good ends its transaction with the fault REPLY_ERROR. -/
theorem State.badReplies {s : State} {x : Exchange} (ho : x.orphan = false) (bytes : List Byte) :
    (parseProbe bytes = none → s.probeReply x bytes = s.faultTx x .replyError) ∧
    (parsePoll bytes = none → s.positionPollReply x bytes = s.faultTx x .replyError) ∧
    (parsePoll bytes = none → s.presenceReply x bytes = s.faultTx x .replyError) ∧
    (parseRead x.b bytes = none → s.readReply x bytes = s.faultTx x .replyError) := by
  have hno : ¬ x.orphan = true := by rw [ho]; decide
  refine ⟨fun h => (if_neg hno).trans ?_, fun h => (if_neg hno).trans ?_, fun h => (if_neg hno).trans ?_,
    fun h => (if_neg hno).trans ?_⟩ <;> rw [h]

theorem State.orphanReplies {s : State} {x : Exchange} (ho : x.orphan = true) (bytes : List Byte) :
    s.probeReply x bytes = (s.endOrphan x).settle s ∧ s.positionPollReply x bytes = (s.endOrphan x).settle s ∧
    s.presenceReply x bytes = (s.endOrphan x).settle s ∧ s.readReply x bytes = (s.endOrphan x).settle s ∧
    s.positionAck x = (s.endOrphan x).settle s ∧ s.relaxAck x = (s.endOrphan x).settle s :=
  ⟨if_pos ho, if_pos ho, if_pos ho, if_pos ho, if_pos ho, if_pos ho⟩

/-- What a fault leaves of the link. -/
theorem State.faulted_link (x : Exchange) {k : LinkFaultKind} (hk : k ≠ .positionTimeout ∧ k ≠ .adaptorFault) :
    (s.faulted x k).link = ⟨none, s.link.clearing, s.link.last⟩ :=
  (congrArg State.link (s.blamed_missed x hk).frame).trans (congrArg State.link (s.charged_eq x k))

/-- The state at the end of a transaction by a fault, as the part keeps or frees the link. -/
def State.faultEnd (s : State) (x : Exchange) (k : LinkFaultKind) : State :=
  { (s.faulted x k).settle s with
    link := ⟨none, s.link.clearing || decide (k = .stretchTimeout), s.link.last⟩ }

theorem State.faultTx_faultEnd {x : Exchange} (ho : x.orphan = false) {k : LinkFaultKind}
    (hk : k = .noAck ∨ k = .replyError) : s.faultTx x k = s.faultEnd x k := by
  have hk' : k ≠ .positionTimeout ∧ k ≠ .adaptorFault := by rcases hk with rfl | rfl <;> decide
  have hlink := (State.settle_link (s.faulted x k) s).trans (s.faulted_link x hk')
  have hclear : (⟨none, s.link.clearing || decide (k = .stretchTimeout), s.link.last⟩ : Link) =
      ((s.faulted x k).settle s).link := by
    rw [hlink]
    rcases hk with rfl | rfl <;> simp
  rw [State.faultTx_eq s ho hk', State.faultEnd, hclear]

theorem State.stretchOut_faultEnd {x : Exchange} (ho : x.orphan = false) :
    s.stretchOut x = s.faultEnd x .stretchTimeout := by
  have hk : LinkFaultKind.stretchTimeout ≠ .positionTimeout ∧ LinkFaultKind.stretchTimeout ≠ .adaptorFault := by decide
  unfold State.stretchOut
  dsimp only
  rw [State.faultTx_eq s ho hk, State.settle_link, s.faulted_link x hk, State.faultEnd]
  simp

theorem exec_noAck {s : State} (h : s.due = none) : exec .noAck s = s.onTimer .ack State.ackOut := by
  show execNoAck s = _
  rw [execNoAck, State.catchUp_of_due_none h]

theorem exec_stretchTimeout {s : State} (h : s.due = none) :
    exec .stretchTimeout s = s.onTimer .hold State.holdOut := by
  show execStretchTimeout s = _
  rw [execStretchTimeout, State.catchUp_of_due_none h]

theorem exec_linkClearPatternSent {s : State} (h : s.due = none) : exec .linkClearPatternSent s =
    if s.link.clearing then .next { s with link := { s.link with clearing := false } } else .refused .cannotOccur := by
  show execLinkClearPatternSent s = _
  rw [execLinkClearPatternSent, State.catchUp_of_due_none h]

/-- The three ways in which a transaction ends by a fault (R92, R93, R87). -/
theorem faultEnds {x : Exchange} {i : Instr} {k : LinkFaultKind} {s b : State} (hdue : s.due = none)
    (hx : s.link.exchange = some x) (ho : x.orphan = false)
    (h : (∃ n, x.ack = some n ∧ s.noneBefore n = true ∧ i = .noAck ∧ k = .noAck ∧ b = s.pass n) ∨
      (∃ n, x.hold = some n ∧ s.noneBefore n = true ∧ i = .stretchTimeout ∧ k = .stretchTimeout ∧ b = s.pass n) ∨
      (b = s ∧ k = .replyError ∧ x.ack = none ∧ x.hold = none ∧ ∃ bytes,
        (i = .probeReply (.frame bytes) ∧ x.cmd = .probe ∧ parseProbe bytes = none) ∨
        (i = .positionPollReply (.frame bytes) ∧ x.cmd = .poll ∧ x.ofAttempt = true ∧ parsePoll bytes = none) ∨
        (i = .presencePollReply (.frame bytes) ∧ x.cmd = .poll ∧ x.ofAttempt = false ∧ parsePoll bytes = none) ∨
        (i = .readReply (.frame bytes) ∧ x.cmd = .read ∧ parseRead x.b bytes = none))) :
    exec i s = .next (b.faultEnd x k) := by
  rcases h with ⟨n, hn, hnb, rfl, rfl, rfl⟩ | ⟨n, hn, hnb, rfl, rfl, rfl⟩ | ⟨rfl, rfl, hack, hhold, bytes, h⟩
  · rw [exec_noAck hdue, State.onTimer_ack hx hn hnb, State.faultTx_faultEnd (x := x.fall n) _ ho (.inl rfl)]
    rfl
  · rw [exec_stretchTimeout hdue, State.onTimer_hold hx hn hnb, State.stretchOut_faultEnd (x := x.fall n) _ ho]
    rfl
  · obtain ⟨hprobe, hpoll, hpres, hread⟩ := State.badReplies (s := b) ho bytes
    rw [State.faultTx_faultEnd b ho (.inr rfl)] at hprobe hpoll hpres hread
    rcases h with ⟨rfl, hc, hp⟩ | ⟨rfl, hc, hof, hp⟩ | ⟨rfl, hc, hof, hp⟩ | ⟨rfl, hc, hp⟩
    · rw [exec_probeReply_frame hdue hx hc hack hhold, hprobe hp]
    · rw [exec_positionPollReply_frame hdue hx hc hof hack hhold, hpoll hp]
    · rw [exec_presencePollReply_frame hdue hx hc hof hack hhold, hpres hp]
    · rw [exec_readReply_frame hdue hx hc hack hhold, hread hp]

end Sys2Proof.Machine

namespace Sys2Proof.Proofs
open Sys2Proof.Machine

/-- Settles O46. -/
theorem linkFaults : Obligations.LinkFaults := by
  unfold Obligations.LinkFaults
  refine ⟨fun x d i k s b hdue hx hd ho hcase n off lost c hn hoff hlost hc => ?faults, fun s hdue => ?rest⟩
  case faults =>
    subst hd
    have hk : k ≠ .positionTimeout ∧ k ≠ .adaptorFault := by
      rcases hcase with ⟨_, _, _, _, rfl, _⟩ | ⟨_, _, _, _, rfl, _⟩ | ⟨_, rfl, _⟩ <;> decide
    have hM := b.blamed_missed x hk
    have hcharged := b.charged_eq x k
    have hoff' : off ↔ k ≠ .stretchTimeout ∧ b.missOffline x.drive := by
      rw [hoff, hn]
      exact .rfl
    have hlost' : lost ↔ k ≠ .stretchTimeout ∧ b.missLoses x.drive := by
      rw [hlost, hn]
      exact .rfl
    replace hM := hM.congr hoff' hlost' (n' := if k = .stretchTimeout ∨ (b.drives.get x.drive).link = .offline then
      (b.drives.get x.drive).miss else n) (by rw [hn]; rfl)
    obtain ⟨hatt, hsettings, hdrives, hscheds, hmounts, hstats⟩ := b.charged_fields x k
    replace hatt := (congrArg State.attempts hM.frame).trans hatt
    have hset := (congrArg State.settings hM.frame).trans hsettings
    replace hstats := (congrArg State.stats hM.frame).trans hstats
    have hdrive : (b.faulted x k).drives.get x.drive = _ := Quad.get_set _ _ _
    have hlinkc : ((b.blamed x k).drives.get x.drive).link = c := by
      by_cases h : off
      · rw [(hM.offline h).1, hc.1 h]
      · rw [(hM.stays h).1, hc.2 h, hdrives]
    have hraised : ∀ p (e : Event), ((b.faulted x k).events.get p).raw.getLsbD e.pos = true ↔ _ := hM.raised
    refine ⟨b.faulted x k, _, faultEnds hdue hx ho hcase, rfl, ?linkFault, ?stats, ?attempts, ?position, ?store,
      ?rests, ?miss, ?link, fun h => ?offline, fun h => ?stays, fun p => ⟨?raisedOffline, ?raisedFault⟩,
      fun m hm hp => ?mounts⟩
    case linkFault =>
      refine (congrArg State.linkFault hM.frame).trans ?_
      rw [hcharged]
    case store =>
      refine (congrArg State.store hM.frame).trans ?_
      rw [hcharged]
    case rests =>
      refine (congrArg State.rests hM.frame).trans ?_
      rw [hcharged]
    case stats =>
      show ((b.blamed x k).stats.get x.drive).linkFaults = _
      rw [hstats, Quad.get_set]
    case attempts =>
      show (if x.ofAttempt then (b.blamed x k).attempts.set x.drive none else (b.blamed x k).attempts) = _
      rw [hatt]
    case position =>
      show Sched.position (Quad.get (if x.ofAttempt = true ∧ x.cmd ≠ .read then _ else _) _) = _
      split
      · rw [Quad.get_set]
      · exact hM.position.trans (by rw [hscheds])
    case miss => exact (congrArg DriveLink.miss hdrive).trans hM.miss
    case link => exact (congrArg DriveLink.link hdrive).trans hlinkc
    case offline =>
      obtain ⟨hlink, hpres, hrepr, hpend⟩ := hM.offline h
      rw [hdrive]
      dsimp only
      rw [hlinkc, hc.1 h, hpres, hrepr, hset, hpend, hdrives]
      refine ⟨if_neg (fun h => absurd h.2 (by decide)), ?_, rfl⟩
      rw [hsettings]
      exact ite_self _
    case stays =>
      obtain ⟨hlink, hpres, hrepr, hpend⟩ := hM.stays h
      rw [hdrive]
      dsimp only
      rw [hlinkc, hpres, hrepr, hset, hpend, hdrives]
      exact ⟨rfl, rfl, rfl⟩
    case raisedOffline =>
      have hmounted := State.isMounted_congr hmounts x.drive
      rw [hraised, State.charged_raised, hdrives, hmounted]
      simp
    case raisedFault =>
      rw [hraised, State.charged_raised]
      simp
    case mounts =>
      have h := hM.mounts m (by rw [hmounts]; exact hm) hp
      rw [hmounts] at h
      exact h
  case rest =>
    have hackT := timerRow (exec_noAck hdue)
    have hholdT := timerRow (exec_stretchTimeout hdue)
    have hclear := exec_linkClearPatternSent hdue
    refine ⟨hackT.1, hholdT.1, hackT.2.1, hholdT.2.1, fun x hx => State.timer_exchange hx, fun hx => ?free,
      fun h => hclear.trans (if_pos h), fun h => hclear.trans (if_neg (by rw [h]; decide)), fun x ended hx ho hended => ?orphan⟩
    case free =>
      unfold State.timer
      rw [hx]
      exact ⟨rfl, rfl⟩
    case orphan =>
      have hend : ∀ b : State, ended b = b.endOrphan x := fun b => (hended b).trans (b.endOrphan_eq x).symm
      simp only [hend]
      refine ⟨fun n hn hnb => ?_, fun n t hn hnb ht => ?_, fun n hn hpos => ⟨fun hc => ?_, fun hc => ?_⟩,
        fun bytes hk hh => ⟨fun hc => ?_, fun hc hof => ?_, fun hc hof => ?_, fun hc => ?_⟩⟩
      · rw [exec_noAck hdue, State.onTimer_ack hx hn hnb, State.faultTx_orphan _ (x := x.fall n) ho]
        rfl
      · rw [exec_stretchTimeout hdue, State.onTimer_hold hx hn hnb, State.stretchOut,
          State.faultTx_orphan _ (x := x.fall n) ho, ht]
        rfl
      · rw [exec_positionAck_taken hdue hx hc hn hpos, (State.orphanReplies ho []).2.2.2.2.1]
      · rw [exec_relaxAck_taken hdue hx hc hn hpos, (State.orphanReplies ho []).2.2.2.2.2]
      all_goals obtain ⟨hprobe, hpoll, hpres, hread, -⟩ := State.orphanReplies (s := s) ho bytes
      · rw [exec_probeReply_frame hdue hx hc hk hh, hprobe]
      · rw [exec_presencePollReply_frame hdue hx hc hof hk hh, hpres]
      · rw [exec_positionPollReply_frame hdue hx hc hof hk hh, hpoll]
      · rw [exec_readReply_frame hdue hx hc hk hh, hread]

end Sys2Proof.Proofs
end

section
/-! The arithmetic of read combining (R49, R51, R52, R60). -/
namespace Sys2Proof.Machine

theorem addVotes_getD (votes : List Int) (r : Result) (i : Nat) (hv : i < votes.length) (hd : i < 8 * r.data.length)
    (hq : i < 8 * r.quals.length) : (addVotes votes r).getD i 0 = clampVote (votes.getD i 0 +
      (if (r.data.getD (i / 8) 0).getLsbD (7 - i % 8) then (r.quals.getD (i / 8) 0 : Int)
        else -(r.quals.getD (i / 8) 0 : Int))) := by
  obtain ⟨hlen, hbit⟩ := resultVotes_getD r i hd hq
  rw [← hbit]
  unfold addVotes
  rw [List.getD_eq_getElem _ _ (by rw [List.length_zipWith]; exact lt_min hv hlen), List.getElem_zipWith,
    List.getD_eq_getElem _ _ hv, List.getD_eq_getElem _ _ hlen]

theorem consensusBits_length (votes : List Int) : (consensusBits votes).length = votes.length := List.length_map _

theorem consensusBits_getD (votes : List Int) (i : Nat) :
    (consensusBits votes).getD i false = decide (0 < votes.getD i 0) := by
  have hzero : false = decide ((0 : Int) < 0) := rfl
  rw [hzero]
  exact List.getD_map ..

theorem weakCount_eq (t : Nat) (votes : List Int) :
    weakCount t votes = votes.countP fun v => decide (v.natAbs ≤ t) := by
  suffices h : ∀ i, (weakBits t i votes).length = votes.countP fun v => decide (v.natAbs ≤ t) from h 0
  induction votes with
  | nil => exact fun _ => rfl
  | cons v vs ih =>
    intro i
    rw [weakBits, List.countP_cons, ← ih (i + 1)]
    unfold weakVote
    split <;> rfl

/-! ### The order of the weak bits (R60, step 1) -/

theorem weakBits_increasing (t : Nat) (votes : List Int) :
    (weakBits t 0 votes).Pairwise fun a b => a.1 < b.1 := by
  rw [weakBits_eq, List.pairwise_map]
  exact (List.pairwise_lt_range.filter _).imp fun h => by simpa using h

theorem mem_weakBits {t : Nat} {votes : List Int} {x : Nat × Nat} (h : x ∈ weakBits t 0 votes) :
    x.2 = (votes.getD x.1 0).natAbs := by
  rw [weakBits_eq] at h
  obtain ⟨k, -, rfl⟩ := List.mem_map.mp h
  rw [Nat.zero_add]

theorem orderWeak_perm (t : Nat) (votes : List Int) : (orderWeak (weakBits t 0 votes)).Perm
    ((List.range votes.length).filter fun i => decide ((votes.getD i 0).natAbs ≤ t)) := by
  have h := (foldl_insertWeak (weakBits t 0 votes) [] .nil (weakBits_increasing t votes) nofun).1.map Prod.fst
  rw [List.nil_append] at h
  refine h.trans (.of_eq ?_)
  rw [weakBits_eq, List.map_map]
  exact (List.map_congr_left fun k _ => Nat.zero_add k).trans (List.map_id _)

theorem orderWeak_sorted (t : Nat) (votes : List Int) : (orderWeak (weakBits t 0 votes)).Pairwise fun i j =>
    (votes.getD i 0).natAbs < (votes.getD j 0).natAbs ∨
      ((votes.getD i 0).natAbs = (votes.getD j 0).natAbs ∧ i < j) := by
  obtain ⟨hperm, hsorted⟩ := foldl_insertWeak (weakBits t 0 votes) [] .nil (weakBits_increasing t votes) nofun
  unfold orderWeak
  rw [List.pairwise_map]
  refine hsorted.imp_of_mem fun ha hb h => ?_
  rw [← mem_weakBits (hperm.mem_iff.mp ha), ← mem_weakBits (hperm.mem_iff.mp hb)]
  exact h

/-! ### The weak-byte mask (R52) -/

theorem packBits_length (l : List Bool) : (packBits l).length = l.length / 8 := by
  fun_induction packBits l with
  | case1 b7 b6 b5 b4 b3 b2 b1 b0 rest ih => simp only [List.length_cons, ih]; omega
  | case2 l h =>
    symm
    rw [List.length_nil, Nat.div_eq_zero_iff]
    refine .inr (Nat.lt_of_not_le fun hl => ?_)
    match l, hl, h with
    | a :: b :: c :: d :: e :: f :: g :: k :: r, _, h => exact h a b c d e f g k r rfl

theorem weakBytes_length (t : Nat) (votes : List Int) : (weakBytes t votes).length = votes.length / 8 := by
  fun_induction weakBytes t votes with
  | case1 b7 b6 b5 b4 b3 b2 b1 b0 rest ih => simp only [List.length_cons, ih]; omega
  | case2 l h =>
    symm
    rw [List.length_nil, Nat.div_eq_zero_iff]
    refine .inr (Nat.lt_of_not_le fun hl => ?_)
    match l, hl, h with
    | a :: b :: c :: d :: e :: f :: g :: k :: r, _, h => exact h a b c d e f g k r rfl

/-- A byte is weak where one of its eight bits is. -/
theorem weakBytes_getD (t : Nat) (votes : List Int) (i : Nat) (hi : i < votes.length / 8) :
    (weakBytes t votes).getD i false = true ↔ ∃ j, 8 * i ≤ j ∧ j < 8 * i + 8 ∧ (votes.getD j 0).natAbs ≤ t := by
  fun_induction weakBytes t votes generalizing i with
  | case1 b7 b6 b5 b4 b3 b2 b1 b0 rest ih =>
    cases i with
    | zero =>
      rw [List.getD_cons_zero, List.any_eq_true]
      have hoct : ∀ j, j < 8 ↔ j = 0 ∨ j = 1 ∨ j = 2 ∨ j = 3 ∨ j = 4 ∨ j = 5 ∨ j = 6 ∨ j = 7 := by omega
      simp [hoct, weakVote, or_and_right, exists_or]
    | succ i =>
      simp only [List.length_cons] at hi
      rw [List.getD_cons_succ, ih i (by omega)]
      constructor
      · rintro ⟨j, h1, h2, h3⟩
        exact ⟨j + 8, by omega, by omega, h3⟩
      · rintro ⟨j, h1, h2, h3⟩
        obtain ⟨k, rfl⟩ : ∃ k, j = k + 8 := ⟨j - 8, by omega⟩
        exact ⟨k, by omega, by omega, h3⟩
  | case2 l h =>
    exfalso
    have hl : 8 ≤ l.length := by omega
    match l, hl, h with
    | a :: b :: c :: d :: e :: f :: g :: k :: r, _, h => exact h a b c d e f g k r rfl

/-! ### Candidates (R60) -/

theorem map_eq_map_range {β : Type} (f : Nat → β) (l : List Nat) :
    l.map f = (List.range l.length).map fun j => f (l.getD j 0) := by
  refine List.ext_getElem (by simp) fun j h1 h2 => ?_
  rw [List.getElem_map, List.getElem_map, List.getElem_range, List.getD_eq_getElem]

theorem pairsOf_eq (l : List Nat) : pairsOf l = (List.range l.length).flatMap fun i =>
    (List.range (l.length - (i + 1))).map fun j => [l.getD i 0, l.getD (i + 1 + j) 0] := by
  induction l with
  | nil => rfl
  | cons b bs ih =>
    rw [pairsOf, List.length_cons, List.range_succ_eq_map, List.flatMap_cons, List.flatMap_map, ih,
      map_eq_map_range (fun c => [b, c])]
    congr 1
    · refine List.map_congr_left fun j _ => ?_
      rw [show 0 + 1 + j = j + 1 by omega]
      rfl
    · refine List.flatMap_congr fun i _ => ?_
      rw [show bs.length + 1 - (i + 1 + 1) = bs.length - (i + 1) by omega]
      refine List.map_congr_left fun j _ => ?_
      rw [show i + 1 + 1 + j = i + 1 + j + 1 by omega]
      rfl

end Sys2Proof.Machine

namespace Sys2Proof.Proofs
open Sys2Proof.Machine

/-- Settles O47. -/
theorem votesAndCandidates : Obligations.VotesAndCandidates := by
  unfold Obligations.VotesAndCandidates
  refine ⟨addVotes_getD, fun votes i h8 hi => ?consensus, weakCount_eq,
    fun t votes => ⟨orderWeak_perm t votes, orderWeak_sorted t votes⟩, fun t size votes h8 hs hle => ?mask,
    fun order => ⟨?single, ?double, ?number, fun c hc => ?members⟩, fun votes c i h8 hi => ?inverted⟩
  case consensus =>
    rw [consensus, packBits_getLsbD _ i (by rw [consensusBits_length]; exact h8)
      (by rw [consensusBits_length]; exact hi), consensusBits_getD]
  case mask =>
    have hlen : ((weakBytes t votes).take size).length = size := by
      rw [List.length_take, weakBytes_length, Nat.min_eq_left hle]
    refine ⟨by rw [weakMask, packBits_length, hlen], fun i hi => ?_⟩
    rw [weakMask, packBits_getLsbD _ i (by rw [hlen]; exact hs) (by rw [hlen]; exact hi),
      ← weakBytes_getD t votes i (lt_of_lt_of_le hi hle), List.getD_eq_getElem?_getD, List.getElem?_take_of_lt hi,
      List.getD_eq_getElem?_getD]
  case single => exact List.append_nil _
  case double => rw [candidates, if_pos rfl, pairsOf_eq]
  case number => rw [candidates, if_pos rfl, List.length_append, List.length_map, pairsOf_length]
  case members =>
    rw [candidates, if_pos rfl, List.mem_append] at hc
    rcases hc with hc | hc
    · obtain ⟨b, hb, rfl⟩ := List.mem_map.mp hc
      obtain ⟨k, hk, rfl⟩ := List.mem_iff_getElem.mp hb
      exact .inl ⟨k, hk, by rw [List.getD_eq_getElem _ _ hk]⟩
    · exact .inr (pairsOf_mem order c hc)
  case inverted =>
    have hbits := invertBits_getD c 0 (consensusBits votes) i (by rw [consensusBits_length]; exact hi)
    have hlen : (invertBits c 0 (consensusBits votes)).length = votes.length :=
      (invertBits_length _ _ _).trans (consensusBits_length votes)
    rw [candidateBytes, packBits_getLsbD _ i (by rw [hlen]; exact h8) (by rw [hlen]; exact hi), hbits.2, Nat.zero_add,
      consensusBits_getD]

end Sys2Proof.Proofs
end

section
/-! What an evaluation and the Rest Controller leave untouched (R24, R47, R58, R62, R109, R110). -/
namespace Sys2Proof.Machine

variable (s : State)

/-! ### Flags other than those a step raises -/

theorem State.raiseBoth_other {e e' : Event} (h : e ≠ e') (p : PortId) :
    ((s.raiseBoth e').events.get p).raw.getLsbD e.pos = (s.events.get p).raw.getLsbD e.pos := by
  rw [Bool.eq_iff_iff, State.raiseBoth_iff]
  exact or_iff_left h

theorem State.raise_other {e e' : Event} (h : e ≠ e') (p q : PortId) :
    ((s.raise q e').events.get p).raw.getLsbD e.pos = (s.events.get p).raw.getLsbD e.pos := by
  by_cases hq : p = q
  · subst hq
    rw [State.raise_events, Pair.get_set, BitVec.getLsbD_or, Event.bit_getLsbD, decide_eq_false h, Bool.or_false]
  · rw [State.raise_events, Pair.get_set_ne _ hq]

theorem State.shrinkWork_other {e : Event} (h : e ≠ .workIdle) (d : DriveId) (w : List Entry) (p : PortId) :
    ((s.shrinkWork d w).events.get p).raw.getLsbD e.pos = (s.events.get p).raw.getLsbD e.pos := by
  unfold State.shrinkWork
  rw [State.leaveWork_eq]
  dsimp only
  split
  · exact State.raiseBoth_other _ h p
  · rfl

theorem State.countTerminal_other {e : Event} (h : e ≠ .mediumComplete) (d : DriveId) (p : PortId) :
    ((s.countTerminal d).events.get p).raw.getLsbD e.pos = (s.events.get p).raw.getLsbD e.pos := by
  unfold State.countTerminal
  split
  · rfl
  · dsimp only
    split
    · exact State.raiseBoth_other _ h p
    · rfl

theorem State.readyOn_other {e : Event} (h : e ≠ .deferReady) (d : DriveId) (u : Nat) (p q : PortId) :
    ((s.readyOn d u q).events.get p).raw.getLsbD e.pos = (s.events.get p).raw.getLsbD e.pos := by
  unfold State.readyOn
  dsimp only
  split
  · exact State.raise_other _ h p q
  · rfl

/-- R24: the flags that the entry of a unit into a terminal state can raise. -/
theorem State.enterTerminal_other {e : Event} (h : e ≠ .workIdle ∧ e ≠ .mediumComplete ∧ e ≠ .deferReady) (d : DriveId)
    (u : Nat) (r : UnitRec) (p : PortId) :
    ((s.enterTerminal d u r).events.get p).raw.getLsbD e.pos = (s.events.get p).raw.getLsbD e.pos := by
  obtain ⟨hwork, hmedium, hdefer⟩ := h
  unfold State.enterTerminal
  dsimp only
  rw [State.readyOn_other _ hdefer, State.readyOn_other _ hdefer, State.countTerminal_other _ hmedium,
    State.shrinkWork_other _ hwork, State.setUnit_eq]

theorem State.countTerminal_frame (d : DriveId) : s.countTerminal d =
    { s with mounts := (s.countTerminal d).mounts, events := (s.countTerminal d).events } := by
  cases h : s.mounts.get d with
  | some m =>
    conv_lhs => rw [State.countTerminal_eq s d h]
    rw [State.countTerminal_eq s d h]
  | none =>
    have hs : s.countTerminal d = s := by rw [State.countTerminal, h]
    rw [hs]

/-- The parts that the entry of a unit into a terminal state leaves. -/
theorem State.enterTerminal_fields (d : DriveId) (u : Nat) (r : UnitRec) :
    (s.enterTerminal d u r).store = s.store ∧ (s.enterTerminal d u r).rests = s.rests ∧
    (s.enterTerminal d u r).drives = s.drives ∧ (s.enterTerminal d u r).stats = s.stats ∧
    (s.enterTerminal d u r).contexts = s.contexts ∧
    ∀ e, e ≠ d → (s.enterTerminal d u r).works.get e = s.works.get e := by
  unfold State.enterTerminal
  dsimp only
  set s1 := s.setUnit d u r with hs1
  have e1 : s1 = _ := State.setUnit_eq s d u r
  set s2 := s1.shrinkWork d ((s1.works.get d).filter fun e => e.unit != u) with hs2
  have e2 : s2 = _ := State.shrinkWork_eq s1 d _
  set s3 := s2.countTerminal d with hs3
  have e3 : s3 = _ := State.countTerminal_frame s2 d
  set s4 := s3.readyOn d u .a with hs4
  have e4 : s4 = _ := State.readyOn_eq s3 d u .a
  have e5 : s4.readyOn d u .b = _ := State.readyOn_eq s4 d u .b
  rw [e5, e4, e3, e2, e1]
  exact ⟨rfl, rfl, rfl, rfl, rfl, fun e he => Quad.get_set_ne _ he _⟩

/-! ### What the end of an evaluation leaves -/

/-- The parts that the judgement of a consensus leaves: all statistics but that of BLANK among them. -/
structure State.Leaves (s t : State) (d : DriveId) : Prop where
  store : t.store = s.store
  rests : t.rests = s.rests
  drives : t.drives = s.drives
  works : ∀ e, e ≠ d → t.works.get e = s.works.get e
  stats : ∀ j, j ≠ 11 → (t.stats.get d).toList.getD j 0 = (s.stats.get d).toList.getD j 0
  flags : ∀ p, (t.events.get p).raw.getLsbD Event.restEntered.pos =
    (s.events.get p).raw.getLsbD Event.restEntered.pos

theorem State.setPhase_leaves (i : Nat) (c : OpenCtx) (ph : CtxPhase) (d : DriveId) :
    s.Leaves (s.setPhase i c ph) d :=
  ⟨rfl, rfl, rfl, fun _ _ => rfl, fun _ _ => rfl, fun _ => rfl⟩

theorem State.record_leaves (i : Nat) (c : OpenCtx) (u : Nat) (r : UnitRec) (ph : CtxPhase) (d : DriveId) :
    s.Leaves ((s.setUnit c.drive u r).setPhase i c ph) d := by
  rw [State.setUnit_eq]
  exact ⟨rfl, rfl, rfl, fun _ _ => rfl, fun _ _ => rfl, fun _ => rfl⟩

/-- R62: the limit is reached without a contributing attempt, and the unit is BLANK. -/
theorem State.limitTest_blank {s : State} {i : Nat} {c : OpenCtx} {u : Nat} {m : MountRec} {v : EvalVals} {sy amb : Bool}
    (h : m.snap.attemptLimit ≠ 0 ∧ m.snap.attemptLimit ≤ v.attempts) (h0 : v.contributing = 0) :
    s.limitTest i c u m v sy amb = ((s.enterTerminal c.drive u
      { (s.unitRec c.drive u).evaluated v amb with state := .blank }).release i).count c.drive 11 := by
  unfold State.limitTest
  dsimp only
  rw [if_pos h, if_neg (by rw [h0]; decide)]

theorem State.Leaves.countBlank {s t : State} {d : DriveId} (h : s.Leaves t d) (i : Nat) :
    s.Leaves ((t.release i).count d 11) d := by
  refine ⟨h.store, h.rests, h.drives, h.works, fun j hj => ?_, h.flags⟩
  rw [State.stats_count _ _ _ _ (by decide), if_neg hj, add_zero]
  exact h.stats j hj

theorem State.enterTerminal_leaves (d : DriveId) (u : Nat) (r : UnitRec) : s.Leaves (s.enterTerminal d u r) d := by
  obtain ⟨hstore, hrests, hdrives, hstats, -, hworks⟩ := s.enterTerminal_fields d u r
  exact ⟨hstore, hrests, hdrives, hworks, fun j _ => by rw [hstats],
    s.enterTerminal_other ⟨by decide, by decide, by decide⟩ d u r⟩

theorem State.limitTest_leaves (i : Nat) (c : OpenCtx) (u : Nat) (m : MountRec) (v : EvalVals) (sy amb : Bool) :
    s.Leaves (s.limitTest i c u m v sy amb) c.drive := by
  unfold State.limitTest
  dsimp only
  split
  · split
    · exact s.record_leaves i c u _ _ c.drive
    · exact (s.enterTerminal_leaves c.drive u _).countBlank i
  · exact s.record_leaves i c u _ _ c.drive

theorem State.judge_leaves (i : Nat) (c : OpenCtx) (u : Nat) (m : MountRec) (v : EvalVals) :
    s.Leaves (s.judge i c u m v) c.drive := by
  unfold State.judge
  dsimp only
  split
  · split
    · exact s.record_leaves i c u _ _ c.drive
    · exact s.limitTest_leaves i c u m v true false
  · split
    · exact s.setPhase_leaves i c _ c.drive
    · exact s.limitTest_leaves i c u m v true false

/-! ### The Rest Controller (R109, R110) -/

/-- R109, R110: the mean quality begins a shed rest. -/
def State.sheds (s : State) (d : DriveId) (m : MountRec) (mean : Nat) : Prop :=
  mean < m.snap.shedQuality ∧ (s.rests.get d).weakRun + 1 = m.snap.shedCount

/-- R110: a drive's rest after a shed rest has begun. -/
def Rest.shed (r : Rest) (m : MountRec) : Rest where
  timer := restTimer (max r.left (m.snap.restBase * 2 ^ r.level))
  cause := if r.left < m.snap.restBase * 2 ^ r.level then .shed else r.cause
  level := min 3 (r.level + 1)
  weakRun := 0

theorem State.reportQuality_better {s : State} {d : DriveId} {m : MountRec} {mean : Nat}
    (h : m.snap.shedQuality ≤ mean) :
    s.reportQuality d m mean = s.setRest d { s.rests.get d with weakRun := 0, level := 0 } :=
  if_neg (Nat.not_lt.mpr h)

theorem State.reportQuality_weak {s : State} {d : DriveId} {m : MountRec} {mean : Nat}
    (h : mean < m.snap.shedQuality) (hn : (s.rests.get d).weakRun + 1 ≠ m.snap.shedCount) :
    s.reportQuality d m mean = s.setRest d { s.rests.get d with weakRun := (s.rests.get d).weakRun + 1 } :=
  (if_pos h).trans (if_neg hn)

theorem State.reportQuality_sheds {s : State} {d : DriveId} {m : MountRec} {mean : Nat} (h : s.sheds d m mean) :
    s.reportQuality d m mean = { s with
      rests := s.rests.set d ((s.rests.get d).shed m)
      drives := s.drives.set d { s.drives.get d with pend := withTx (s.drives.get d).pend .relax }
      events := (s.raiseBoth .restEntered).events
      stats := s.stats.set d { s.stats.get d with rests := (s.stats.get d).rests + 1 } } := by
  refine (if_pos h.1).trans ((if_pos h.2).trans ?_)
  unfold State.shed
  dsimp only
  rw [State.request_eq]
  simp [State.setRest, Rest.shed, Rest.left]
  rfl

/-- The Rest Controller touches its rests and, at a shed rest, the drive, the events and the statistics. -/
theorem State.reportQuality_frame (d : DriveId) (m : MountRec) (mean : Nat) : s.reportQuality d m mean = { s with
    rests := (s.reportQuality d m mean).rests, drives := (s.reportQuality d m mean).drives
    events := (s.reportQuality d m mean).events, stats := (s.reportQuality d m mean).stats } := by
  by_cases h1 : mean < m.snap.shedQuality
  · by_cases h2 : (s.rests.get d).weakRun + 1 = m.snap.shedCount
    · rw [State.reportQuality_sheds ⟨h1, h2⟩]
    · rw [State.reportQuality_weak h1 h2]
      rfl
  · rw [State.reportQuality_better (Nat.not_lt.mp h1)]
    rfl

/-- A report changes no statistic but that of the rests, and that by what it finds in the rest alone. -/
theorem State.reportQuality_stats (d : DriveId) (m : MountRec) (mean : Nat) (j : Nat) (hj : j ≠ 13) :
    ((s.reportQuality d m mean).stats.get d).toList.getD j 0 = (s.stats.get d).toList.getD j 0 := by
  by_cases h1 : mean < m.snap.shedQuality
  · by_cases h2 : (s.rests.get d).weakRun + 1 = m.snap.shedCount
    · rw [State.reportQuality_sheds ⟨h1, h2⟩]
      refine (s.stats_count d 13 j (by decide)).trans ?_
      rw [if_neg hj, add_zero]
    · rw [State.reportQuality_weak h1 h2]
      rfl
  · rw [State.reportQuality_better (Nat.not_lt.mp h1)]
    rfl

/-- The Rest Controller makes the same of two states with the same rests, drives, events and rest statistic. -/
theorem State.reportQuality_congr {s t : State} (d : DriveId) (m : MountRec) (mean : Nat) (hr : t.rests = s.rests)
    (hd : t.drives = s.drives) (he : t.events = s.events) (hs : (t.stats.get d).rests = (s.stats.get d).rests) :
    (t.reportQuality d m mean).rests = (s.reportQuality d m mean).rests ∧
    (t.reportQuality d m mean).drives = (s.reportQuality d m mean).drives ∧
    (t.reportQuality d m mean).events = (s.reportQuality d m mean).events ∧
    ((t.reportQuality d m mean).stats.get d).rests = ((s.reportQuality d m mean).stats.get d).rests := by
  by_cases h1 : mean < m.snap.shedQuality
  · by_cases h2 : (s.rests.get d).weakRun + 1 = m.snap.shedCount
    · have h : t.sheds d m mean := ⟨h1, by rw [hr]; exact h2⟩
      rw [State.reportQuality_sheds ⟨h1, h2⟩, State.reportQuality_sheds h]
      refine ⟨by rw [hr], by rw [hd], ?_, ?_⟩
      · show (t.raiseBoth .restEntered).events = (s.raiseBoth .restEntered).events
        unfold State.raiseBoth State.raise
        rw [he]
      · dsimp only
        rw [Quad.get_set, Quad.get_set, hs]
    · rw [State.reportQuality_weak h1 h2, State.reportQuality_weak h1 (by rw [hr]; exact h2), hr]
      exact ⟨congrArg (fun r => Quad.set r d _) hr, hd, he, hs⟩
  · rw [State.reportQuality_better (Nat.not_lt.mp h1), State.reportQuality_better (Nat.not_lt.mp h1), hr]
    exact ⟨congrArg (fun r => Quad.set r d _) hr, hd, he, hs⟩

end Sys2Proof.Machine
end

section
/-! The evaluation of a result (R47 to R63). -/
namespace Sys2Proof.Machine

variable (s : State)

/-- The part once a result is taken into context `i` and its mean quality reported, before it is judged (R48, R50). -/
def State.weighed (s : State) (i : Nat) (c : OpenCtx) (m : MountRec) (r : Result) (v : EvalVals) : State :=
  let s := (s.setPhase i c (.evaluating v)).count c.drive 0
  (if r.sync then s else s.count c.drive 1).reportQuality c.drive m (meanQuality c.b r)

theorem State.evaluate_sync {i : Nat} {c : OpenCtx} {u : Nat} {m : MountRec} {r : Result} (h : r.sync = true)
    {c' : OpenCtx} (hc : c' = { c with votes := addVotes c.votes r }) {v : EvalVals}
    (hv : v = evalVals m.snap c.b (s.unitRec c.drive u) r (addVotes c.votes r)) :
    s.evaluate i c u m r = (s.weighed i c' m r v).judge i c' u m v := by
  subst hc hv
  unfold State.evaluate State.weighed
  simp only [h, if_true]

theorem State.evaluate_noSync {i : Nat} {c : OpenCtx} {u : Nat} {m : MountRec} {r : Result} (h : r.sync = false)
    {v : EvalVals} (hv : v = evalVals m.snap c.b (s.unitRec c.drive u) r c.votes) :
    s.evaluate i c u m r = (s.weighed i c m r v).limitTest i c u m v false false := by
  subst hv
  unfold State.evaluate State.weighed
  simp only [h, Bool.false_eq_true, if_false]

theorem State.weighed_frame (i : Nat) (c : OpenCtx) (m : MountRec) (r : Result) (v : EvalVals) :
    (s.weighed i c m r v).contexts = s.contexts.set i (some { c with phase := .evaluating v }) ∧
    (s.weighed i c m r v).unitMap = s.unitMap ∧ (s.weighed i c m r v).mounts = s.mounts ∧
    (s.weighed i c m r v).works = s.works ∧ (s.weighed i c m r v).store = s.store := by
  unfold State.weighed
  dsimp only
  rw [State.reportQuality_frame]
  split <;> exact ⟨rfl, rfl, rfl, rfl, rfl⟩

/-- R48: the counts that a result makes. -/
theorem State.weighed_stats (i : Nat) (c : OpenCtx) (m : MountRec) (r : Result) (v : EvalVals) {j : Nat} (hj : j ≠ 13) :
    ((s.weighed i c m r v).stats.get c.drive).toList.getD j 0 = (s.stats.get c.drive).toList.getD j 0 +
      (if j = 0 then 1 else 0) + (if j = 1 ∧ r.sync = false then 1 else 0) := by
  unfold State.weighed
  dsimp only
  rw [State.reportQuality_stats _ _ _ _ _ hj]
  cases h : r.sync with
  | true =>
    rw [if_pos rfl, State.stats_count _ _ _ _ (by decide)]
    simp
    rfl
  | false =>
    rw [if_neg (by decide), State.stats_count _ _ _ _ (by decide), State.stats_count _ _ _ _ (by decide)]
    simp
    rfl

/-- R109: the Rest Controller takes the mean quality of the result. -/
theorem State.weighed_report (i : Nat) (c : OpenCtx) (m : MountRec) (r : Result) (v : EvalVals) {t : State}
    (ht : t = s.reportQuality c.drive m (meanQuality c.b r)) :
    (s.weighed i c m r v).rests = t.rests ∧ (s.weighed i c m r v).drives = t.drives ∧
    (s.weighed i c m r v).events = t.events ∧
    ((s.weighed i c m r v).stats.get c.drive).rests = (t.stats.get c.drive).rests := by
  subst ht
  unfold State.weighed
  dsimp only
  split
  · refine State.reportQuality_congr _ _ _ rfl rfl rfl ?_
    exact (State.stats_count _ _ 0 13 (by decide)).trans (by rw [if_neg (by decide), add_zero]; rfl)
  · refine State.reportQuality_congr _ _ _ rfl rfl rfl ?_
    refine (State.stats_count _ _ 1 13 (by decide)).trans ?_
    rw [if_neg (by decide), add_zero]
    exact (State.stats_count _ _ 0 13 (by decide)).trans (by rw [if_neg (by decide), add_zero]; rfl)

/-! ### The judgement (R57 to R59) -/

theorem State.judge_store {i : Nat} {c : OpenCtx} {u : Nat} {m : MountRec} {v : EvalVals}
    (hp : m.snap.passes (consensus c.votes) = true) (hr : m.snap.minReads ≤ v.contributing) :
    s.judge i c u m v = s.beginStore i c u v false ⟨.recovered, if v.contributing = 1 then .clean else .voted, 0,
      (consensus c.votes).take m.snap.unitSize, List.replicate (m.snap.unitSize / 8) 0⟩ :=
  (if_pos hp).trans (if_pos hr)

theorem State.judge_search {i : Nat} {c : OpenCtx} {u : Nat} {m : MountRec} {v : EvalVals}
    (hp : m.snap.passes (consensus c.votes) = false) (hr : m.snap.minReads ≤ v.contributing)
    (ha : m.snap.repairAfter ≤ v.contributing) (h1 : 1 ≤ v.weak) (hl : v.weak ≤ m.snap.repairLimit) :
    s.judge i c u m v = s.setPhase i c (.repairing v) :=
  (if_neg (by rw [hp]; decide)).trans (if_pos ⟨max_le hr ha, h1, hl⟩)

theorem State.judge_limit {i : Nat} {c : OpenCtx} {u : Nat} {m : MountRec} {v : EvalVals}
    (h : (m.snap.passes (consensus c.votes) = true ∧ v.contributing < m.snap.minReads) ∨
      (m.snap.passes (consensus c.votes) = false ∧ (v.contributing < m.snap.minReads ∨
        v.contributing < m.snap.repairAfter ∨ v.weak = 0 ∨ m.snap.repairLimit < v.weak))) :
    s.judge i c u m v = s.limitTest i c u m v true false := by
  rcases h with ⟨hp, hr⟩ | ⟨hp, hr⟩
  · exact (if_pos hp).trans (if_neg (Nat.not_le.mpr hr))
  · refine (if_neg (by rw [hp]; decide)).trans (if_neg ?_)
    rintro ⟨hmax, h1, hl⟩
    have h2 := (max_le_iff.mp hmax)
    omega

theorem UnitRec.evaluated_false (r : UnitRec) (v : EvalVals) : r.evaluated v false = { r with
    attempts := v.attempts, contributing := v.contributing, best := v.best, weak := v.weak } := by
  rw [UnitRec.evaluated, Bool.or_false]

/-- R62: what the attempt-limit test makes of a unit without a consensus that ends its evaluation. -/
theorem State.limitTest_blank_spec (i : Nat) (c : OpenCtx) (u : Nat) (m : MountRec) (v : EvalVals) (sy : Bool)
    (hm : s.mounts.get c.drive = some m) (h : m.snap.attemptLimit ≠ 0) (hl : m.snap.attemptLimit ≤ v.attempts)
    (h0 : v.contributing = 0) (t : State) (ht : t = s.limitTest i c u m v sy false) :
    t.contexts = s.contexts.set i none ∧
    (t.stats.get c.drive).blank = (s.stats.get c.drive).blank + 1 ∧
    t.unitRec c.drive u = { s.unitRec c.drive u with
      state := .blank, attempts := v.attempts, contributing := 0, best := v.best, weak := v.weak } := by
  have hterm := s.enterTerminal_spec c.drive u m { (s.unitRec c.drive u).evaluated v false with state := .blank } hm
  rw [State.limitTest_blank ⟨h, hl⟩ h0] at ht
  generalize s.enterTerminal c.drive u { (s.unitRec c.drive u).evaluated v false with state := .blank } = w at *
  subst ht
  refine ⟨congrArg (fun x => Oct.set x i none) hterm.contexts, ?_, ?_⟩
  · refine ((w.release i).stats_count c.drive 11 11 (by decide)).trans ?_
    rw [if_pos rfl, ← hterm.stats]
    rfl
  · refine hterm.unit.trans ?_
    rw [UnitRec.evaluated_false, h0]

end Sys2Proof.Machine

namespace Sys2Proof.Proofs
open Sys2Proof.Machine

/-- Settles O48. -/
theorem evaluateResult : Obligations.EvaluateResult := by
  unfold Obligations.EvaluateResult
  intro s d u r
  refine ⟨fun h => ?dropped, fun i c m hdis hctx hm votes v hvotes hv => ?taken⟩
  case dropped =>
    unfold State.takeResult
    rcases h with h | h | h
    · exact if_pos h
    · split
      · rfl
      · rw [h]
    · split
      · rfl
      · rw [h]
        cases s.ctxOf d u <;> rfl
  case taken =>
    obtain ⟨hi, hget, rfl, hu⟩ := State.ctxOf_some hctx
    have htake : s.takeResult c.drive u r = s.evaluate i c u m r := by
      unfold State.takeResult
      rw [if_neg (by rw [hdis]; decide), hctx, hm]
    set c' : OpenCtx := { c with votes := votes } with hc'
    set b := s.weighed i c' m r v with hb
    obtain ⟨hcontexts, hmap, hmounts, hworks, hstore⟩ := s.weighed_frame i c' m r v
    rw [← hb] at hcontexts hmap hmounts hworks hstore
    have hmb : b.mounts.get c'.drive = some m := by rw [hmounts]; exact hm
    have hrec : b.unitRec c'.drive u = s.unitRec c.drive u := State.unitRec_congr hmounts hmap c.drive u
    have hset : ∀ o, b.contexts.set i o = s.contexts.set i o := fun o => by rw [hcontexts, Oct.set_set]
    have hjudge : r.sync = true → s.takeResult c.drive u r = b.judge i c' u m v := fun hs => by
      rw [if_pos hs] at hvotes
      rw [htake]
      exact s.evaluate_sync hs (by rw [hc', hvotes]) (by rw [hv, ← hvotes]; rfl)
    have hnoSync : r.sync = false → s.takeResult c.drive u r = b.limitTest i c' u m v false false := fun hs => by
      rw [if_neg (by rw [hs]; decide)] at hvotes
      have hcc : c' = c := by rw [hc', hvotes]
      rw [htake, hb, hcc]
      exact s.evaluate_noSync hs (by rw [hv, ← hvotes]; rfl)
    have hleaves : b.Leaves (s.takeResult c.drive u r) c.drive := by
      cases hs : r.sync with
      | true => rw [hjudge hs]; exact b.judge_leaves i c' u m v
      | false => rw [hnoSync hs]; exact b.limitTest_leaves i c' u m v false false
    have hstat : ∀ j, j ≠ 11 → j ≠ 13 → ((s.takeResult c.drive u r).stats.get c.drive).toList.getD j 0 =
        (s.stats.get c.drive).toList.getD j 0 + (if j = 0 then 1 else 0) +
          (if j = 1 ∧ r.sync = false then 1 else 0) := fun j h1 h2 =>
      (hleaves.stats j h1).trans (s.weighed_stats i c' m r v h2)
    have hdecided : ∀ {t ph v'}, Decides b t i c' u ph ((b.unitRec c'.drive u).evaluated v' false) →
        t.contexts = s.contexts.set i (some { c' with phase := ph }) ∧ t.unitRec c.drive u = { s.unitRec c.drive u with
          attempts := v'.attempts, contributing := v'.contributing, best := v'.best, weak := v'.weak } := fun h =>
      ⟨h.contexts.trans (hset _), h.unit.trans (by rw [hrec, UnitRec.evaluated_false])⟩
    refine ⟨_, rfl, hleaves.store.trans hstore, ?works, ?attempts, ?noSync, fun report hrep => ?report,
      fun hs hp hr => ?store, fun hs hp hr ha h1 hl => ?search, fun h => ?limit⟩
    case works =>
      rw [hleaves.works _ (by cases c.drive <;> decide), hworks]
    case attempts => exact (hstat 0 (by decide) (by decide)).trans (by simp; rfl)
    case noSync => exact (hstat 1 (by decide) (by decide)).trans (by cases r.sync <;> simp <;> rfl)
    case report =>
      obtain ⟨hrests, hdrives, hevents, hcount⟩ := s.weighed_report i c' m r v (t := report) hrep
      exact ⟨hleaves.rests.trans hrests, hleaves.drives.trans hdrives,
        (hleaves.stats 13 (by decide)).trans hcount, fun p => by rw [hleaves.flags, ← hevents]⟩
    case store =>
      rw [hjudge hs, b.judge_store hp hr]
      exact hdecided (b.decide_spec i c' u m _ _ hmb)
    case search =>
      rw [hjudge hs, b.judge_search hp hr ha h1 hl]
      exact ⟨hset _, hrec⟩
    case limit =>
      have hlimit : s.takeResult c.drive u r = b.limitTest i c' u m v r.sync false := by
        cases hs : r.sync with
        | false => exact hnoSync hs
        | true =>
          rw [hjudge hs]
          exact b.judge_limit (h.resolve_left (by rw [hs]; decide))
      rw [hlimit]
      refine ⟨fun hopen => ?_, fun h0 hle hpos => ?_, fun h0 hle hpos => ?_⟩
      · exact hdecided (b.limitTest_open i c' u m v r.sync false hmb hopen)
      · have hd := hdecided (b.limitTest_exhausted i c' u m v r.sync false hmb h0 hle hpos)
        refine ⟨hd.1, hd.2.trans ?_⟩
        cases hs : r.sync with
        | false => rfl
        | true =>
          have hweak : v.weak = weakCount m.snap.weakThreshold votes := by rw [hv]; exact if_pos hs
          rw [if_pos rfl, hweak]
      · obtain ⟨h1, h2, h3⟩ := b.limitTest_blank_spec i c' u m v r.sync hmb h0 hle hpos _ rfl
        refine ⟨h1.trans (hset _), h2.trans ?_, h3.trans (by rw [hrec])⟩
        have hblank := s.weighed_stats i c' m r v (j := 11) (by decide)
        exact congrArg (· + 1) (hblank.trans (by simp; rfl))

end Sys2Proof.Proofs
end

section
/-! The end of a repair search and of a store write (R61, R62, R64, R157). -/
namespace Sys2Proof.Machine

variable (s : State)

/-! ### The end of a repair search (R61) -/

theorem State.endSearch_one {i : Nat} {c : OpenCtx} {u : Nat} {m : MountRec} {v : EvalVals} {f : List Nat}
    (h : passing m.snap c.votes = [f]) : s.endSearch i c u m v = s.beginStore i c u v false
      ⟨.recovered, .repaired, f.length, (candidateBytes c.votes f).take m.snap.unitSize,
        List.replicate (m.snap.unitSize / 8) 0⟩ := by
  unfold State.endSearch
  dsimp only
  rw [h]

theorem State.endSearch_limit {i : Nat} {c : OpenCtx} {u : Nat} {m : MountRec} {v : EvalVals} {amb : Bool}
    (h : (passing m.snap c.votes).length ≠ 1) (ha : amb = decide (2 ≤ (passing m.snap c.votes).length)) :
    s.endSearch i c u m v = (if amb then s.count c.drive 9 else s).limitTest i c u m v true amb := by
  subst ha
  unfold State.endSearch
  dsimp only
  generalize passing m.snap c.votes = l at h
  match l, h with
  | [], _ => rfl
  | [f], h => exact absurd rfl h
  | f :: g :: fs, _ => simp

/-- R61, R157: a search that ends without a single candidate counts an ambiguous one before the limit test. -/
theorem State.countAmbiguous_frame (d : DriveId) (amb : Bool) : (if amb then s.count d 9 else s) =
    { s with stats := (if amb then s.count d 9 else s).stats } := by cases amb <;> rfl

theorem State.countAmbiguous_stats (d : DriveId) (amb : Bool) :
    ((if amb then s.count d 9 else s).stats.get d).ambiguous = (s.stats.get d).ambiguous + (if amb then 1 else 0) := by
  cases amb with
  | false => simp
  | true => exact (s.stats_count d 9 9 (by decide))

/-! ### The completion of a store write (R64) -/

/-- R157: the counts of a unit that is stored after `a` attempts. -/
def State.countStored (s : State) (d : DriveId) (w : StoreWork) (a : Nat) : State :=
  if w.state == .recovered then
    let s := s.count d (recoveredBin a)
    if w.method == .repaired then s.count d 8 else s
  else s.count d 10

theorem State.countStored_frame (d : DriveId) (w : StoreWork) (a : Nat) :
    s.countStored d w a = { s with stats := (s.countStored d w a).stats } := by
  unfold State.countStored
  split
  · dsimp only
    split <;> rfl
  · rfl

theorem State.countStored_stats (d : DriveId) (w : StoreWork) (a j : Nat) :
    ((s.countStored d w a).stats.get d).toList.getD j 0 = (s.stats.get d).toList.getD j 0 +
      (if (w.state = .recovered ∧ (j = recoveredBin a ∨ (j = 8 ∧ w.method = .repaired))) ∨
        (w.state ≠ .recovered ∧ j = 10) then 1 else 0) := by
  obtain ⟨hlt, -⟩ := recoveredBin_range a
  unfold State.countStored
  by_cases hrec : w.state = .recovered
  · rw [if_pos (beq_iff_eq.mpr hrec)]
    dsimp only
    by_cases hrep : w.method = .repaired
    · rw [if_pos (beq_iff_eq.mpr hrep), State.stats_count _ _ _ _ (by decide), State.stats_count _ _ _ _ (by omega),
        add_assoc]
      congr 1
      by_cases hj : j = recoveredBin a
      · have h8 : j ≠ 8 := by omega
        simp [hrec, hj ▸ h8, hj]
      · simp [hrec, hrep, hj]
    · rw [if_neg (by simpa using hrep), State.stats_count _ _ _ _ (by omega)]
      simp [hrec, hrep]
  · rw [if_neg (by simpa using hrec), State.stats_count _ _ _ _ (by decide)]
    simp [hrec]

theorem State.completeStore_eq (i : Nat) (c : OpenCtx) (u : Nat) (m : MountRec) (w : StoreWork) :
    s.completeStore i c u m w = State.countStored ((State.enterTerminal
      { s with store := Memory.writeBytes s.store (m.slotAddr u) (w.data ++ w.mask) } c.drive u
      { s.unitRec c.drive u with state := w.state, method := w.method, flips := w.flips }).release i) c.drive w
        (s.unitRec c.drive u).attempts := rfl

end Sys2Proof.Machine

namespace Sys2Proof.Proofs
open Sys2Proof.Machine

/-- Settles O49. -/
theorem repairSearchEnd : Obligations.RepairSearchEnd := by
  unfold Obligations.RepairSearchEnd
  intro i s hdue
  have hcatch : s.catchUp = s := State.catchUp_of_due_none hdue
  refine ⟨fun h => ?refused, fun c u m v hc hu hm hph => ?ends⟩
  case refused =>
    show execRepairSearchEnd i s = _
    unfold execRepairSearchEnd
    rw [hcatch]
    dsimp only
    split
    next c u m hw =>
      have hno := fun v => h c v (State.ctxWork_inv hw).1
      split
      next v hv => exact absurd hv (hno v)
      all_goals rfl
    next => rfl
  case ends =>
    have hexec : exec (.repairSearchEnd i) s = .next ((s.endSearch i c u m v).settle s) := by
      show execRepairSearchEnd i s = _
      unfold execRepairSearchEnd
      rw [hcatch]
      dsimp only
      rw [State.ctxWork_some hc hu hm]
      dsimp only
      rw [hph]
    refine ⟨_, hexec, ?store, fun f hf => ?one, fun hlen amb hamb => ?limit⟩
    case store =>
      by_cases h1 : (passing m.snap c.votes).length = 1
      · obtain ⟨f, hf⟩ := List.length_eq_one_iff.mp h1
        rw [s.endSearch_one hf]
        exact (s.decide_spec i c u m _ _ hm).store
      · rw [s.endSearch_limit h1 rfl]
        refine (State.limitTest_leaves _ i c u m v true _).store.trans ?_
        rw [State.countAmbiguous_frame]
    case one =>
      rw [s.endSearch_one hf]
      have hd := s.decide_spec i c u m (.storing ⟨.recovered, .repaired, f.length,
        (candidateBytes c.votes f).take m.snap.unitSize, List.replicate (m.snap.unitSize / 8) 0⟩)
        ((s.unitRec c.drive u).evaluated v false) hm
      exact ⟨hd.contexts, hd.unit.trans (UnitRec.evaluated_false _ _), hd.stats⟩
    case limit =>
      rw [s.endSearch_limit hlen hamb]
      have hframe := s.countAmbiguous_frame c.drive amb
      have hcount := s.countAmbiguous_stats c.drive amb
      set b := if amb then s.count c.drive 9 else s with hb
      have hmb : b.mounts.get c.drive = some m := by rw [hframe]; exact hm
      have hrec : b.unitRec c.drive u = s.unitRec c.drive u := by rw [hframe]; rfl
      have hcontexts : b.contexts = s.contexts := by rw [hframe]
      have hdecided : ∀ {t ph}, Decides b t i c u ph ((b.unitRec c.drive u).evaluated v amb) →
          t.contexts = s.contexts.set i (some { c with phase := ph }) ∧ t.unitRec c.drive u =
            { s.unitRec c.drive u with
              attempts := v.attempts, contributing := v.contributing, best := v.best, weak := v.weak
              ambiguous := (s.unitRec c.drive u).ambiguous || amb } := fun h =>
        ⟨h.contexts.trans (by rw [hcontexts]), h.unit.trans (by rw [hrec]; rfl)⟩
      refine ⟨((b.limitTest_leaves i c u m v true amb).stats 9 (by decide)).trans hcount, fun h => ?_,
        fun h0 hle hpos => ?_⟩
      · exact hdecided (b.limitTest_open i c u m v true amb hmb h)
      · exact hdecided (b.limitTest_exhausted i c u m v true amb hmb h0 hle hpos)

/-- Settles O50. -/
theorem storeWriteComplete : Obligations.StoreWriteComplete := by
  unfold Obligations.StoreWriteComplete
  intro i s hdue
  have hcatch : s.catchUp = s := State.catchUp_of_due_none hdue
  refine ⟨fun h => ?refused, fun c u m w hc hu hm hph slot n hslot hn => ?done⟩
  case refused =>
    show execStoreWriteComplete i s = _
    unfold execStoreWriteComplete
    rw [hcatch]
    dsimp only
    split
    next c u m hw =>
      have hno := fun v => h c v (State.ctxWork_inv hw).1
      split
      next v hv => exact absurd hv (hno v)
      all_goals rfl
    next => rfl
  case done =>
    have haddr : m.slotAddr u = slot := hslot.symm
    have hlen : (w.data ++ w.mask).length = n := by rw [List.length_append, hn]
    have hexec : exec (.storeWriteComplete i) s = if slot + n ≤ 67108864 then
        .next ((s.completeStore i c u m w).settle s) else .fault .storeAddress := by
      show execStoreWriteComplete i s = _
      unfold execStoreWriteComplete
      rw [hcatch]
      dsimp only
      rw [State.ctxWork_some hc hu hm]
      dsimp only
      rw [hph]
      dsimp only
      rw [haddr, hlen]
      exact if_congr decide_eq_true_iff rfl rfl
    refine ⟨fun hbig => hexec.trans (if_neg (Nat.not_le.mpr hbig)), fun hfits => ?_⟩
    set s0 : State := { s with store := Memory.writeBytes s.store slot (w.data ++ w.mask) } with hs0
    have hterm := s0.enterTerminal_spec c.drive u m
      { s.unitRec c.drive u with state := w.state, method := w.method, flips := w.flips } hm
    have hcomplete := s.completeStore_eq i c u m w
    rw [haddr, ← hs0] at hcomplete
    generalize s0.enterTerminal c.drive u
      { s.unitRec c.drive u with state := w.state, method := w.method, flips := w.flips } = v at *
    have hframe := (v.release i).countStored_frame c.drive w (s.unitRec c.drive u).attempts
    refine ⟨_, hexec.trans (if_pos hfits), ?_⟩
    rw [hcomplete, hframe]
    refine ⟨fun a ha => ?outside, ?inside, ?unit, fun u' hu' => ?units, fun k hk => ?map, ?contexts, ?works, ?mounts,
      fun hne hall ho p => ?idle, fun p => ?ready, fun p e he h1 h2 h3 h4 h5 => ?raised, fun hu p => ?whole,
      fun j => ?stats, fun a => ?bins⟩
    case outside =>
      refine (congrArg (Memory.readByte · a) hterm.store).trans ?_
      exact Memory.readByte_writeBytes_outside _ _ _ (by rw [hlen]; exact ha)
    case inside =>
      refine (congrArg (Memory.readBytes · slot n) hterm.store).trans ?_
      rw [← hlen]
      exact Memory.readBytes_writeBytes _ _ _
    case unit => exact hterm.unit
    case units => exact hterm.units u' hu'
    case map => exact hterm.map k hk
    case contexts => exact congrArg (fun x => Oct.set x i none) hterm.contexts
    case works => exact hterm.works
    case mounts => exact hterm.mounts
    case idle => exact hterm.idle hne hall ho p
    case ready => exact hterm.ready p
    case raised => exact hterm.readyRaw p ⟨e, he, h1, h2, h3, h4, h5⟩
    case whole => exact hterm.raw hu p
    case stats =>
      refine ((v.release i).countStored_stats c.drive w _ j).trans ?_
      exact congrArg (fun x => (Quad.get x c.drive).toList.getD j 0 + _) hterm.stats
    case bins => rfl

end Sys2Proof.Proofs
end

section
/-! Contexts and choices (R36, R44, R69 to R77, R81, R82, R173). -/
namespace Sys2Proof.Machine

variable (s : State)

/-! ### The grant of a context (R82) -/

theorem State.requestRank_some {s : State} {d : DriveId} {u : Nat} (h : s.ctxReq.get d = some u) :
    s.requestRank d = effRank ((s.entryOf d u).bind (s.effOf d)) := by
  rw [State.requestRank, h]

/-- R82: the drive of the highest class that is first in round-robin order is the one granted. -/
theorem State.grantee_eq {s : State} {d : DriveId} (hd : s.ctxReq.get d ≠ none)
    (h : ∀ e, s.ctxReq.get e ≠ none → s.requestRank e ≤ s.requestRank d ∧ (s.requestRank e = s.requestRank d →
      (d.toNat + 3 - s.ctxLast.toNat) % 4 ≤ (e.toNat + 3 - s.ctxLast.toNat) % 4)) : s.grantee = some d := by
  have htest : ∀ e, ((s.ctxReq.get e).isSome && DriveId.all.all fun x =>
      (s.ctxReq.get x).isNone || s.requestRank x ≤ s.requestRank e) = true ↔
      s.ctxReq.get e ≠ none ∧ ∀ x, s.ctxReq.get x ≠ none → s.requestRank x ≤ s.requestRank e := fun e => by
    rw [Bool.and_eq_true, Option.isSome_iff_ne_none, List.all_eq_true]
    refine and_congr_right fun _ => ⟨fun h x hx => ?_, fun h x _ => ?_⟩
    · simpa [hx] using h x (DriveId.mem_all x)
    · by_cases hx : s.ctxReq.get x = none
      · simp [hx]
      · simp [h x hx]
  refine DriveId.after_find _ _ d ((htest d).mpr ⟨hd, fun x hx => (h x hx).1⟩) fun e he => ?_
  obtain ⟨hw, hmax⟩ := (htest e).mp he
  exact (h e hw).2 (Nat.le_antisymm (h e hw).1 (hmax d hd))

/-! ### The start of an attempt (R77) -/

theorem State.startAttempt_eq (d : DriveId) (m : MountRec) (w n : Nat) : s.startAttempt d m w n = { s.newWork with
    scheds := s.scheds.set d { s.scheds.get d with
      state := .attempting, last := some w, burst := n
      savedUnits := (s.scheds.get d).savedUnits.filter fun x => x != w }
    attempts := s.attempts.set d (some
      ⟨w, if (s.scheds.get d).position = some (m.snap.target w) then .needRead else .needPosition,
        m.snap.target w, m.snap.readParams w, m.snap.b, false⟩) } := by
  have hnew : s.newWork = { s with power := s.newWork.power } := by
    unfold State.newWork
    split <;> rfl
  unfold State.startAttempt
  rw [hnew]
  simp only [beq_iff_eq]
  rfl

/-! ### The choice (R70 to R76) -/

theorem State.choose_waits {s : State} {d : DriveId} {m : MountRec} (hm : s.mounts.get d = some m)
    (h : s.lastEvaluating d = true) : s.choose d = s.setSched d { s.scheds.get d with state := .waiting } := by
  unfold State.choose
  rw [hm]
  exact if_pos h

theorem State.choose_burst {s : State} {d : DriveId} {m : MountRec} (hm : s.mounts.get d = some m)
    (h : s.lastEvaluating d = false) {u : Nat} (hb : s.burstUnit d m = some u) :
    s.choose d = s.startAttempt d m u ((s.scheds.get d).burst + 1) := by
  unfold State.choose
  rw [hm]
  dsimp only
  rw [h, if_neg (by decide), hb]

theorem State.choose_saved {s : State} {d : DriveId} {m : MountRec} (hm : s.mounts.get d = some m)
    (h : s.lastEvaluating d = false) (hb : s.burstUnit d m = none) {e : Entry} (he : s.savedChoice d m = some e) :
    s.choose d = (s.setCtxReq d none).startAttempt d m e.unit 1 := by
  unfold State.choose
  rw [hm]
  dsimp only
  rw [h, if_neg (by decide), hb]
  dsimp only
  rw [he]

theorem State.choose_rank {s : State} {d : DriveId} {m : MountRec} (hm : s.mounts.get d = some m)
    (h : s.lastEvaluating d = false) (hb : s.burstUnit d m = none) (he : s.savedChoice d m = none) :
    s.choose d = (s.sweepStep d).rank d m := by
  unfold State.choose
  rw [hm]
  dsimp only
  rw [h, if_neg (by decide), hb]
  dsimp only
  rw [he]

theorem OpenCtx.inEvaluation_eq_false {c : OpenCtx} (h : c.phase = .collecting) : c.inEvaluation = false := by
  rw [OpenCtx.inEvaluation, h]

/-- R71: the burst is repeated while nothing of a higher class waits. -/
theorem State.burstUnit_some {s : State} {d : DriveId} {m : MountRec} {u : Nat} (hl : (s.scheds.get d).last = some u)
    (ha : s.isActive d u = true) (hc : ∃ i c, s.ctxOf d u = some (i, c) ∧ c.phase = .collecting)
    (hb : (s.scheds.get d).burst < m.snap.burst)
    (hr : ∀ e ∈ s.eligibles d, effRank (s.effOf d e) ≤ effRank ((s.entryOf d u).bind (s.effOf d))) :
    s.burstUnit d m = some u := by
  obtain ⟨i, c, hctx, hph⟩ := hc
  have hany : (s.eligibles d).any (fun e => decide (effRank ((s.entryOf d u).bind (s.effOf d)) < effRank (s.effOf d e)))
      = false := by
    rw [List.any_eq_false]
    exact fun e he h => Nat.not_lt.mpr (hr e he) (of_decide_eq_true h)
  unfold State.burstUnit
  dsimp only
  rw [hl]
  dsimp only
  rw [hany, ha, hctx]
  simp [hb, OpenCtx.inEvaluation_eq_false hph]

theorem State.savedChoice_none {s : State} {d : DriveId} {m : MountRec}
    (h : ∀ e ∈ s.eligibles d, e.unit ∈ (s.scheds.get d).savedUnits → s.isActive d e.unit = false) :
    s.savedChoice d m = none := by
  refine (firstBy_none _ _).mpr (List.filter_eq_nil_iff.mpr fun e he => ?_)
  rw [Bool.and_eq_true, List.contains_iff_mem]
  exact fun ⟨hs, ha⟩ => absurd ((h e he hs).symm.trans ha) (by decide)

/-! ### The ranking and the context of the unit chosen (R72, R75, R76) -/

theorem State.rank_none {s : State} {d : DriveId} (m : MountRec) (h : s.eligibles d = []) :
    s.rank d m = (s.setCtxReq d none).setSched d { s.scheds.get d with state := .idle } := by
  unfold State.rank
  rw [(firstBy_none _ _).mpr h]

/-- What the ranking makes of its first entry. -/
def State.rankFirst (s : State) (d : DriveId) (m : MountRec) (u : Nat) : State :=
  if s.isActive d u then (s.setCtxReq d none).startAttempt d m u 1
  else if s.openCount d < s.settings.quota.get d then
    match s.freeCtx, s.noneWaiting with
    | some i, true => (s.openContext i d m u).startAttempt d m u 1
    | _, _ => (s.setCtxReq d (some u)).fallback d m
  else (s.setCtxReq d none).fallback d m

theorem State.rank_first {s : State} {d : DriveId} {m : MountRec} {before after : List Entry} {e : Entry}
    (h : s.eligibles d = before ++ e :: after)
    (hb : ∀ x ∈ before, lexLt (s.rankKey d m e) (s.rankKey d m x) = true)
    (ha : ∀ x ∈ after, lexLt (s.rankKey d m x) (s.rankKey d m e) = false) : s.rank d m = s.rankFirst d m e.unit := by
  unfold State.rank
  rw [h, firstBy_spec _ _ _ _ hb ha]
  rfl

theorem State.rankFirst_active {s : State} {d : DriveId} {u : Nat} (m : MountRec) (h : s.isActive d u = true) :
    s.rankFirst d m u = (s.setCtxReq d none).startAttempt d m u 1 := if_pos h

theorem State.rankFirst_opens {s : State} {d : DriveId} {u : Nat} (m : MountRec) (h : s.isActive d u = false)
    (hq : s.openCount d < s.settings.quota.get d) {i : Nat} (hf : s.freeCtx = some i)
    (hn : ∀ x, s.ctxReq.get x = none) : s.rankFirst d m u = (s.openContext i d m u).startAttempt d m u 1 := by
  refine (if_neg (by rw [h]; decide)).trans ((if_pos hq).trans ?_)
  rw [hf, s.noneWaiting_iff.mpr hn]

/-- R75, R81: a unit that cannot have a context leaves the choice to the fallback, with its request where the drive is
below its quota. -/
theorem State.rankFirst_falls {s : State} {d : DriveId} {u : Nat} (m : MountRec) (h : s.isActive d u = false) {r : State}
    (hr : (s.openCount d < s.settings.quota.get d ∧ (s.freeCtx = none ∨ ∃ x, s.ctxReq.get x ≠ none) ∧
        r = s.setCtxReq d (some u)) ∨
      (s.settings.quota.get d ≤ s.openCount d ∧ r = s.setCtxReq d none)) : s.rankFirst d m u = r.fallback d m := by
  refine (if_neg (by rw [h]; decide)).trans ?_
  rcases hr with ⟨hq, hf, rfl⟩ | ⟨hq, rfl⟩
  · refine (if_pos hq).trans ?_
    split
    next i hi hn =>
      rcases hf with hf | ⟨x, hx⟩
      · rw [hf] at hi
        cases hi
      · exact absurd (s.noneWaiting_iff.mp hn x) hx
    next => rfl
  · exact if_neg (Nat.not_lt.mpr hq)

theorem State.fallback_none {s : State} {d : DriveId} (m : MountRec)
    (h : ∀ x ∈ s.eligibles d, s.isActive d x.unit = false) :
    s.fallback d m = s.setSched d { s.scheds.get d with state := .waiting } := by
  unfold State.fallback
  rw [(firstBy_none _ _).mpr (List.filter_eq_nil_iff.mpr fun x hx => by rw [h x hx]; decide)]

theorem State.fallback_first {s : State} {d : DriveId} {m : MountRec} {before after : List Entry} {e : Entry}
    (h : (s.eligibles d).filter (fun x => s.isActive d x.unit) = before ++ e :: after)
    (hb : ∀ x ∈ before, lexLt (s.rankKey d m e) (s.rankKey d m x) = true)
    (ha : ∀ x ∈ after, lexLt (s.rankKey d m x) (s.rankKey d m e) = false) :
    s.fallback d m = s.startAttempt d m e.unit 1 := by
  unfold State.fallback
  rw [h, firstBy_spec _ _ _ _ hb ha]

/-! ### The sweep (R36) -/

theorem State.nextOpen_none (d : DriveId) (c n : Nat) (h : ∀ w, c ≤ w → w < c + n → s.isTerminal d w = true) :
    s.nextOpen d c n = none := by
  induction n generalizing c with
  | zero => rfl
  | succ n ih =>
    rw [State.nextOpen, if_pos (h c (Nat.le_refl c) (by omega))]
    exact ih (c + 1) fun w h1 h2 => h w (by omega) (by omega)

theorem State.nextOpen_some (d : DriveId) (c n u : Nat) (h1 : c ≤ u) (h2 : u < c + n) (hu : s.isTerminal d u = false)
    (h : ∀ w, c ≤ w → w < u → s.isTerminal d w = true) : s.nextOpen d c n = some u := by
  induction n generalizing c with
  | zero => omega
  | succ n ih =>
    rw [State.nextOpen]
    by_cases hc : c = u
    · rw [hc, if_neg (by rw [hu]; decide)]
    · rw [if_pos (h c (Nat.le_refl c) (by omega))]
      exact ih (c + 1) (by omega) (by omega) fun w h3 h4 => h w (by omega) h4

theorem State.sweepStep_off {s : State} {d : DriveId} {m : MountRec} (hm : s.mounts.get d = some m)
    (h : m.sweepOn = false ∨ ∃ e ∈ s.eligibles d, 2 < effRank (s.effOf d e)) : s.sweepStep d = s := by
  unfold State.sweepStep
  rw [hm]
  refine if_neg ?_
  rw [Bool.and_eq_true, Bool.not_eq_true', List.any_eq_false]
  rintro ⟨hon, hnone⟩
  rcases h with h | ⟨e, he, hr⟩
  · rw [h] at hon
    cases hon
  · exact hnone e he (decide_eq_true hr)

/-- What the sweep makes of the candidate that it finds. -/
def State.swept (s : State) (d : DriveId) (m : MountRec) : Option Nat → State
  | some u =>
    match s.demand d u .sweep with
    | (s', .merged) | (s', .inserted) => s'.setMount d (some { m with cursor := u + 1, sweepOn := u + 1 < m.u })
    | _ => s
  | none =>
    let s' := s.setMount d (some { m with cursor := m.u, sweepOn := false })
    if (s.works.get d).isEmpty then s'.raiseBoth .workIdle else s'

theorem State.sweepStep_on {s : State} {d : DriveId} {m : MountRec} (hm : s.mounts.get d = some m)
    (hon : m.sweepOn = true) (h : ∀ e ∈ s.eligibles d, effRank (s.effOf d e) ≤ 2) :
    s.sweepStep d = s.swept d m (s.nextOpen d m.cursor (m.u - m.cursor)) := by
  have htest : (m.sweepOn && !(s.eligibles d).any fun e => effRank (some .sweep) < effRank (s.effOf d e)) = true := by
    rw [hon, Bool.true_and, Bool.not_eq_true', List.any_eq_false]
    exact fun e he hlt => Nat.not_lt.mpr (h e he) (of_decide_eq_true hlt)
  unfold State.sweepStep
  rw [hm]
  refine (if_pos htest).trans ?_
  unfold State.swept
  cases s.nextOpen d m.cursor (m.u - m.cursor) <;> rfl

theorem State.swept_dropped {s : State} {d : DriveId} {u : Nat} (m : MountRec)
    (h : (s.demand d u .sweep).2 = .dropped) : s.swept d m (some u) = s := by
  unfold State.swept
  dsimp only
  generalize s.demand d u .sweep = p at h ⊢
  obtain ⟨t, o⟩ := p
  cases h
  rfl

theorem State.swept_placed {s : State} {d : DriveId} {u : Nat} (m : MountRec)
    (h : (s.demand d u .sweep).2 = .merged ∨ (s.demand d u .sweep).2 = .inserted) :
    s.swept d m (some u) = (s.demand d u .sweep).1.setMount d
      (some { m with cursor := u + 1, sweepOn := decide (u + 1 < m.u) }) := by
  unfold State.swept
  dsimp only
  generalize s.demand d u .sweep = p at h ⊢
  obtain ⟨t, o⟩ := p
  rcases h with h | h <;> cases h <;> rfl

theorem State.swept_none (d : DriveId) (m : MountRec) {off : State}
    (h : off = s.setMount d (some { m with cursor := m.u, sweepOn := false })) :
    s.swept d m none = if s.works.get d = [] then off.raiseBoth .workIdle else off := by
  subst h
  exact if_congr List.isEmpty_iff rfl rfl

end Sys2Proof.Machine

namespace Sys2Proof.Proofs
open Sys2Proof.Machine

/-- Settles O51. -/
theorem contextGrant : Obligations.ContextGrant := by
  unfold Obligations.ContextGrant
  intro s
  refine ⟨fun h => ?refused, fun hf hw => ?due, fun d i u m hf hd hm hrank => ?granted⟩
  case refused =>
    show stepOut s.grantStep = _
    rw [State.grantStep, if_neg]
    · rfl
    · rw [State.grantDue_iff]
      rintro ⟨hfree, d, hd⟩
      exact h.elim hfree fun h => hd (h d)
  case due =>
    unfold State.due
    exact if_pos (s.grantDue_iff.mpr ⟨hf, hw⟩)
  case granted =>
    have hgrantee : s.grantee = some d := State.grantee_eq (by rw [hd]; exact nofun) fun e he => by
      obtain ⟨x, hx⟩ := Option.ne_none_iff_exists'.mp he
      exact hrank s.requestRank (fun e x hx => State.requestRank_some hx) e x hx
    have hgrant : s.grantContext = (s.openContext i d m u).settle s := by
      unfold State.grantContext
      rw [hgrantee, hf]
      dsimp only
      rw [hd, hm]
    have hexec : exec .contextGrant s = .next ((s.openContext i d m u).settle s) := by
      show stepOut s.grantStep = _
      rw [State.grantStep, if_pos (s.grantDue_iff.mpr ⟨by rw [hf]; exact nofun, d, by rw [hd]; exact nofun⟩), hgrant]
      rfl
    obtain ⟨hi, hfree⟩ := State.freeCtx_some hf
    have hunit := s.unitRec_setUnit d u { s.unitRec d u with state := .active } hm
    have hmap : (s.openContext i d m u).unitMap =
        (s.setUnit d u { s.unitRec d u with state := .active }).unitMap := by rw [State.openContext_eq]
    have hmounts : (s.openContext i d m u).mounts =
        (s.setUnit d u { s.unitRec d u with state := .active }).mounts := by
      rw [State.openContext_eq, (get_setUnit s d u _).2.1]
    have hrec := State.unitRec_congr hmounts hmap d
    refine ⟨_, hexec, (by rw [hmap]; exact State.openContext_eq ..), hi, hfree, (hrec u).trans ((hunit u).trans (if_pos rfl)),
      fun u' hu' => (hrec u').trans ((hunit u').trans (if_neg hu')), fun k hk => ?_⟩
    rw [hmap]
    exact s.setUnit_map d u _ hm k hk

/-- Settles O52. -/
theorem schedulerChoice : Obligations.SchedulerChoice := by
  unfold Obligations.SchedulerChoice
  intro s d m hm
  refine ⟨State.choose_waits hm, fun u start heval hstart => ?choices, State.sweepStep_off hm, fun hon hmax => ?sweep,
    fun t e pos hpos => ?key⟩
  case choices =>
    have hstart' : ∀ t w n, start t w n = t.startAttempt d m w n := fun t w n =>
      (hstart t w n).trans (t.startAttempt_eq d m w n).symm
    simp only [hstart']
    refine ⟨fun hl ha hc hb hr => State.choose_burst hm heval (State.burstUnit_some hl ha hc hb hr),
      fun saved hsaved hb e before after hlist hbefore hafter => ?saved, fun hb hnone q hq => ?ranked⟩
    case saved =>
      refine State.choose_saved hm heval hb ?_
      unfold State.savedChoice
      rw [← hsaved, hlist]
      exact firstBy_spec _ _ _ _ hbefore hafter
    case ranked =>
      rw [State.choose_rank hm heval hb (State.savedChoice_none hnone), ← hq]
      refine ⟨State.rank_none m, fun e before after hlist hbefore hafter => ?_⟩
      rw [State.rank_first hlist hbefore hafter]
      refine ⟨State.rankFirst_active m, fun i hna hq hf hn => State.rankFirst_opens m hna hq hf hn,
        fun r hna hr => ?_⟩
      rw [State.rankFirst_falls m hna hr]
      have hsame : r.eligibles d = q.eligibles d ∧ (∀ u, r.isActive d u = q.isActive d u) ∧
          ∀ e, r.rankKey d m e = q.rankKey d m e := by
        rcases hr with ⟨-, -, rfl⟩ | ⟨-, rfl⟩ <;> exact ⟨rfl, fun _ => rfl, fun _ => rfl⟩
      obtain ⟨helig, hact, hkey⟩ := hsame
      refine ⟨fun h => State.fallback_none m fun x hx => ?_,
        fun e' before' after' hlist' hbefore' hafter' => State.fallback_first (before := before') (after := after') ?_
          (fun x hx => ?_) fun x hx => ?_⟩
      · rw [hact]
        exact h x (helig ▸ hx)
      · simp only [helig, hact]
        exact hlist'
      · rw [hkey, hkey]
        exact hbefore' x hx
      · rw [hkey, hkey]
        exact hafter' x hx
  case sweep =>
    rw [State.sweepStep_on hm hon hmax]
    refine ⟨fun u h1 h2 hu h => ?_, fun h off hoff => ?_⟩
    · rw [s.nextOpen_some d m.cursor (m.u - m.cursor) u h1 (by omega) hu h]
      exact ⟨State.swept_dropped m, State.swept_placed m⟩
    · rw [s.nextOpen_none d m.cursor (m.u - m.cursor) fun w h1 h2 => h w h1 (by omega)]
      exact s.swept_none d m hoff
  case key =>
    subst hpos
    unfold State.rankKey
    cases t.marked d e <;> cases m.snap.kind <;> simp [flag, distance]

end Sys2Proof.Proofs
end

section
/-! The rests and the quiet timer (R108 to R112, R114, R115). -/
namespace Sys2Proof.Machine

variable (s : State)

theorem State.rested_iff (d : DriveId) : s.rested d = true ↔ s.timer (.rest d) = some 0 := beq_iff_eq

theorem State.any_rested : DriveId.all.any s.rested = true ↔ ∃ d, s.timer (.rest d) = some 0 := by
  rw [List.any_eq_true]
  exact ⟨fun ⟨d, _, h⟩ => ⟨d, (s.rested_iff d).mp h⟩, fun ⟨d, h⟩ => ⟨d, DriveId.mem_all d, (s.rested_iff d).mpr h⟩⟩

/-- R112: no rest has run out, and nothing follows. -/
theorem State.restsOver_none {s : State} (h : ∀ d, s.timer (.rest d) ≠ some 0) : s.restsOver = s := by
  unfold State.restsOver
  exact if_neg fun hany => (s.any_rested.mp hany).elim fun d hd => h d hd

/-- R112: the rests that have run out are stopped, and the choices follow. -/
theorem State.restsOver_some {s : State} (h : ∃ d, s.timer (.rest d) = some 0) : ∃ r : Quad Rest,
    s.restsOver = ({ s with rests := r }).settle s ∧ ∀ d, r.get d =
      if s.timer (.rest d) = some 0 then { s.rests.get d with timer := none, cause := .none } else s.rests.get d := by
  unfold State.restsOver
  rw [if_pos (s.any_rested.mpr h)]
  exact ⟨_, rfl, fun d => (Quad.get_ofFn _ d).trans (if_congr (s.rested_iff d) rfl rfl)⟩

/-- R115: what the entry into QUIET asks of a drive. -/
def State.relaxOpen (s : State) (d : DriveId) : State :=
  if (s.openMount d).isSome && (s.drives.get d).link == .online then s.request d .relax else s

theorem State.relaxOpen_eq (d : DriveId) : s.relaxOpen d = { s with
    drives := s.drives.set d (if s.openMount d ≠ none ∧ (s.drives.get d).link = .online then
      { s.drives.get d with pend := withTx (s.drives.get d).pend .relax } else s.drives.get d) } := by
  have htest : ((s.openMount d).isSome && (s.drives.get d).link == .online) = true ↔
      s.openMount d ≠ none ∧ (s.drives.get d).link = .online := by
    rw [Bool.and_eq_true, Option.isSome_iff_ne_none, beq_iff_eq]
  unfold State.relaxOpen
  by_cases h : s.openMount d ≠ none ∧ (s.drives.get d).link = .online
  · rw [if_pos (htest.mpr h), if_pos h, State.request_eq]
    rfl
  · rw [if_neg (mt htest.mp h), if_neg h, Quad.set_get]

theorem State.relaxEach_drives (d : DriveId) : (s.eachDrive State.relaxOpen).drives.get d =
    if s.openMount d ≠ none ∧ (s.drives.get d).link = .online then
      { s.drives.get d with pend := withTx (s.drives.get d).pend .relax } else s.drives.get d := by
  have h := s.eachDrive_at (f := State.relaxOpen) (o := fun d t => (t.drives.get d, t.mounts.get d)) (fun t d e he => ?_)
    (fun t t' d h => ?_) d
  · have h1 := congrArg Prod.fst h
    refine h1.trans ?_
    rw [State.relaxOpen_eq]
    exact Quad.get_set _ _ _
  · rw [State.relaxOpen_eq]
    exact Prod.ext (Quad.get_set_ne _ he.symm _) rfl
  · obtain ⟨hd, hm⟩ := Prod.mk.injEq .. ▸ h
    have ho : t.openMount d = t'.openMount d := by rw [State.openMount, hm]; rfl
    rw [State.relaxOpen_eq, State.relaxOpen_eq, ho, hd]
    exact Prod.ext ((Quad.get_set _ _ _).trans (Quad.get_set _ _ _).symm) hm

theorem State.relaxEach_frame : s.eachDrive State.relaxOpen =
    { s with drives := (s.eachDrive State.relaxOpen).drives } := by
  unfold State.eachDrive
  simp only [State.relaxOpen_eq]

end Sys2Proof.Machine

namespace Sys2Proof.Proofs
open Sys2Proof.Machine

/-- Settles O53. -/
theorem restsAndQuiet : Obligations.RestsAndQuiet := by
  unfold Obligations.RestsAndQuiet
  refine ⟨fun s d m mean r hr => ?reports, fun s hdue => ?timers⟩
  case reports =>
    subst hr
    refine ⟨State.reportQuality_better, State.reportQuality_weak, fun hlow hcount => ⟨_, rfl, ?_⟩⟩
    rw [State.reportQuality_sheds ⟨hlow, hcount⟩]
    exact ⟨rfl, rfl, fun p => s.raiseBoth_raw _ p, congrArg DriveStats.rests (Quad.get_set _ _ _), rfl, rfl, rfl, rfl⟩
  case timers =>
    have hcatch : s.catchUp = s := State.catchUp_of_due_none hdue
    have hrest : ∀ d, exec (.restExpiry d) s = s.onTimer (.rest d) fun s => s := fun d => by
      show execRestExpiry d s = _
      rw [execRestExpiry, hcatch]
    have hquiet : exec .quietTimerExpiry s = s.onTimer .quiet State.enterQuiet := by
      show execQuietTimerExpiry s = _
      rw [execQuietTimerExpiry, hcatch]
    have hquietT := s.onTimer_spec .quiet State.enterQuiet
    simp only [hrest, hquiet]
    refine ⟨fun d => s.timersRun_ite _, ?quietRuns, fun d => (s.onTimer_spec (.rest d) _).1,
      fun d => (s.onTimer_spec (.rest d) _).2.1, fun d n hn hmin => ⟨(s.onTimer_spec (.rest d) _).2.2 n hn hmin, ?runsOut⟩,
      fun g b n hb => ?pass, hquietT.1, hquietT.2.1, fun n hn hmin b hb => ?quiet⟩
    case quietRuns => exact if_congr beq_iff_eq rfl rfl
    case runsOut => rw [State.elapse_timer, hn, Option.map_some, Nat.sub_self]
    case pass =>
      subst hb
      exact ⟨State.restsOver_none, State.restsOver_some⟩
    case quiet =>
      subst hb
      set b := s.pass n with hb
      set q : State := { b with power := { b.power with state := .quiet, quiet := none } } with hq
      refine ⟨q.eachDrive State.relaxOpen, (hquietT.2.2 n hn hmin).trans ?_, q.relaxEach_frame, fun d => ?_⟩
      · rfl
      · exact q.relaxEach_drives d

end Sys2Proof.Proofs
end

section
/-! The entry into SAVING, the save image and the wake (R108, R170 to R172). -/
namespace Sys2Proof.Machine

variable (s : State)

/-- What stands before the entry into SAVING is not due where that entry is. -/
theorem State.due_enterSaving {s : State} (h : s.due = some .enterSaving) : s.savingDue = true ∧
    s.grantDue = false ∧ (∀ d, s.unmountDue d = false) ∧ ∀ p, (s.ports.get p).waitingDue = none := by
  unfold State.due at h
  split at h
  next => cases h
  next hgrant =>
    split at h
    next => cases h
    split at h
    next => cases h
    next hunmount =>
      split at h
      next => cases h
      split at h
      next => cases h
      split at h
      next => cases h
      next ha =>
        split at h
        next => cases h
        next hb =>
          split at h
          next hs =>
            refine ⟨hs, Bool.eq_false_iff.mpr hgrant, fun d => ?_, fun p => ?_⟩
            · exact Bool.eq_false_iff.mpr (List.find?_eq_none.mp hunmount d (DriveId.mem_all d))
            · cases p with
              | a => exact Option.not_isSome_iff_eq_none.mp ha
              | b => exact Option.not_isSome_iff_eq_none.mp hb
          next => cases h

theorem State.savingDue_iff : s.savingDue = true ↔ s.power.state = .entering ∧ s.settled = true := by
  rw [State.savingDue, Bool.and_eq_true, beq_iff_eq]

theorem Port.waitingDue_eq_none {q : Port} (h : q.waitingDue = none) : q.waiting = none ∨ q.inProgress ≠ none := by
  unfold Port.waitingDue at h
  split at h
  next hp => exact .inr (Option.isSome_iff_ne_none.mp hp)
  next => exact .inl h

theorem DriveLink.drop_probes (l : DriveLink) : l.drop [.probe, .presencePoll] =
    { l with pend := l.pend.filter fun t => decide (t = .relax) } := by
  have h : (fun t => !([.probe, .presencePoll] : List PendTx).contains t) = fun t => decide (t = .relax) := by
    funext t
    cases t <;> rfl
  rw [DriveLink.drop, h]

/-! ### The bytes of the save image (R171) -/

theorem imageBytes_length (body : List Byte) : (imageBytes body).length = body.length + 8 := by
  simp only [imageBytes, List.length_append, leBytes_length]
  omega

/-- The three runs of the save area, read back. -/
theorem Memory.readBytes_image (m : Memory) (a n : Nat) (body : List Byte) (hn : n = body.length) {m' : Memory}
    (hm : m' = Memory.writeBytes m a (imageBytes body)) :
    Memory.readBytes m' a 4 = leBytes 4 n ∧ Memory.readBytes m' (a + 4) n = body ∧
    Memory.readBytes m' (a + 4 + n) 4 = leBytes 4 (c32 (leBytes 4 n ++ body)).toNat := by
  have hwhole : Memory.readBytes m' a (4 + n + 4) = imageBytes body := by
    have h := Memory.readBytes_writeBytes (imageBytes body) m a
    rw [imageBytes_length, ← hm, ← hn] at h
    rw [← h]
    congr 1
    omega
  rw [Memory.readBytes_append, Memory.readBytes_append, imageBytes, ← hn] at hwhole
  obtain ⟨hhead, hcrc⟩ := List.append_inj hwhole (by
    rw [List.length_append, List.length_append, Memory.readBytes_length, Memory.readBytes_length, leBytes_length, hn])
  obtain ⟨hlen, hbody⟩ := List.append_inj hhead (by rw [Memory.readBytes_length, leBytes_length])
  exact ⟨hlen, hbody, by rw [← Nat.add_assoc] at hcrc; exact hcrc⟩

/-! ### The wake (R172) -/

/-- In DORMANT no rest runs, and time is all that passes. -/
theorem State.pass_dormant {s : State} (h : s.power.state = .dormant) (n : Nat) : s.pass n = s.elapse n := by
  refine State.restsOver_none fun d hd => ?_
  have hstate : (s.elapse n).power.state = .dormant := h
  have hnone : (s.elapse n).timer (.rest d) = none := by
    unfold State.timer
    rw [hstate]
    rfl
  rw [hnone] at hd
  cases hd

theorem State.timer_wake : s.timer .wake = if s.power.state = .dormant then s.power.wakeTimer else none :=
  if_congr beq_iff_eq rfl rfl

end Sys2Proof.Machine

namespace Sys2Proof.Proofs
open Sys2Proof.Machine

/-- Settles O54. -/
theorem savingAndWaking : Obligations.SavingAndWaking := by
  unfold Obligations.SavingAndWaking
  intro s
  refine ⟨fun g hg h => ?notDue, s.settled_iff, fun h => ?order, fun g hg hstate hsettled => ?enters,
    fun hdue h => ?notSaving, fun im hdue hstate hsaved n hn => ?writes, fun h => ?noWake, fun n hstate hwake hmin => ?wakes⟩
  case notDue =>
    subst hg
    show stepOut (State.savingStep _) = _
    rw [State.savingStep, if_neg]
    · rfl
    · rw [State.savingDue_iff]
      rintro ⟨h1, h2⟩
      rcases h with h | h
      · exact h h1
      · rw [h] at h2
        cases h2
  case order =>
    obtain ⟨hsaving, hgrant, hunmount, hwaiting⟩ := State.due_enterSaving h
    have hsettled := s.savingDue_iff.mp hsaving
    refine ⟨hsettled, fun d m hm hp => ?_, ?_, fun p => Port.waitingDue_eq_none (hwaiting p)⟩
    · have hd := (s.unmountDue_iff d).mpr ⟨⟨m, hm, hp⟩, (s.settled_iff.mp hsettled.2).1 d⟩
      rw [hunmount d] at hd
      cases hd
    · by_contra hno
      rw [not_or, not_forall] at hno
      rw [s.grantDue_iff.mpr hno] at hgrant
      cases hgrant
  case enters =>
    subst hg
    refine ⟨(s.upTo .enterSaving).enterSaving, ?_, rfl, rfl, fun d => Quad.get_map .., fun d => ?_⟩
    · show stepOut (State.savingStep _) = _
      rw [State.savingStep, if_pos ((State.savingDue_iff _).mpr ⟨hstate, hsettled⟩)]
      rfl
    · exact (Quad.get_map ..).trans (DriveLink.drop_probes _)
  case notSaving =>
    show execSaveImageWriteComplete s = _
    unfold execSaveImageWriteComplete
    rw [State.catchUp_of_due_none hdue]
    dsimp only
    split
    next hs hsaved =>
      rcases h with h | h
      · exact absurd hs h
      · rw [h] at hsaved
        cases hsaved
    next => rfl
  case writes =>
    have hlen := imageBytes_length im.body
    rw [← hn] at hlen
    have hexec : exec .saveImageWriteComplete s =
        if Config.saveBase + (n + 8) ≤ 67108864 then .next (s.imageWritten im) else .fault .storeAddress := by
      show execSaveImageWriteComplete s = _
      unfold execSaveImageWriteComplete
      rw [State.catchUp_of_due_none hdue]
      dsimp only
      rw [hstate, hsaved]
      dsimp only
      rw [hlen]
      exact if_congr decide_eq_true_iff rfl rfl
    have hbase : Config.saveBase = 66060288 := rfl
    have hstore : (s.imageWritten im).store = Memory.writeBytes s.store 66060288 (imageBytes im.body) := by
      rw [← hbase, State.imageWritten]
    rw [hbase] at hexec
    have hread := Memory.readBytes_image s.store 66060288 n im.body hn hstore
    rw [show 66060288 + 4 = 66060292 from rfl] at hread
    refine ⟨fun hbig => hexec.trans (if_neg (by omega)), fun hfits =>
      ⟨s.imageWritten im, hexec.trans (if_pos (by omega)), by rw [State.imageWritten],
        fun a ha => ?_, hread⟩⟩
    have hout : a < 66060288 ∨ 66060288 + (imageBytes im.body).length ≤ a := by omega
    rw [hstore]
    exact Memory.readByte_writeBytes_outside (imageBytes im.body) s.store 66060288 hout
  case noWake =>
    refine (s.onTimer_spec .wake State.wake).1 ?_
    rw [State.timer_wake]
    rcases h with h | h
    · exact if_neg h
    · rw [h]
      exact ite_self _
  case wakes =>
    have htimer : s.timer .wake = some n := by rw [State.timer_wake, if_pos hstate, hwake]
    have hexec : exec .wakeTimerExpiry s = .next (s.elapse n).wake := by
      show s.onTimer .wake State.wake = _
      rw [(s.onTimer_spec .wake State.wake).2.2 n htimer hmin, State.pass_dormant hstate]
    exact ⟨_, hexec, rfl, rfl, rfl, rfl, rfl, rfl, rfl, rfl, rfl, fun d => ⟨by cases d <;> rfl, by cases d <;> rfl⟩, rfl⟩

end Sys2Proof.Proofs
end

section
/-! The check of the save image (R151, R173, R174). -/
namespace Sys2Proof.Machine

variable (s : State)

/-- R173: what the check of the save area asks of the bytes. -/
theorem imageMatches_iff (store : Memory) {n : Nat}
    (hn : n = leField (Memory.readBytes store Config.saveBase 4) 4 0) : imageMatches store = true ↔
      n + 8 ≤ Config.saveBytes ∧ (c32 (Memory.readBytes store Config.saveBase (4 + n))).toNat =
        leField (Memory.readBytes store (Config.saveBase + 4 + n) 4) 4 0 := by
  subst hn
  unfold imageMatches
  dsimp only
  rw [Bool.and_eq_true, decide_eq_true_iff, beq_iff_eq]

theorem State.restoreCheck_good {s : State} {im : SaveImage} (hs : s.saved = some im)
    (h : imageMatches s.store = true) : s.restoreCheck = s.restore im := by
  unfold State.restoreCheck
  rw [hs]
  exact if_pos h

theorem State.restoreCheck_failed {s : State} (h : imageMatches s.store = false ∨ s.saved = none) :
    s.restoreCheck = s.clearAll EventRegs.afterFailure := by
  unfold State.restoreCheck
  split
  next im hs => exact if_neg (by rw [h.resolve_right (by rw [hs]; exact nofun)]; decide)
  next => rfl

/-- R173: the units that a drive's scheduler begins with are those whose votes the image holds. -/
theorem SaveImage.mem_schedOf (im : SaveImage) (d : DriveId) (u : Nat) : u ∈ (im.schedOf d).savedUnits ↔
    ∃ c ∈ im.contexts.toList, ∃ x, c = some x ∧ x.drive = d ∧ x.unit = some u := by
  unfold SaveImage.schedOf
  rw [List.mem_filterMap]
  refine exists_congr fun c => and_congr_right fun _ => ?_
  cases c with
  | none => simp
  | some c =>
    by_cases h : c.drive = d
    · simp [h]
    · simp [h]

theorem EventRegs.afterFailure_attention : EventRegs.afterFailure.attention = true := by decide

end Sys2Proof.Machine

namespace Sys2Proof.Proofs
open Sys2Proof.Machine

/-- Settles O55. -/
theorem restoreCheck : Obligations.RestoreCheck := by
  unfold Obligations.RestoreCheck
  intro lost s
  have hbytes : Config.storeBytes = 67108864 := rfl
  have hin : (lost.all fun c => inStore c.1 1) = true ↔ ∀ c ∈ lost, c.1 < 67108864 := by
    rw [List.all_eq_true]
    refine forall_congr' fun c => forall_congr' fun _ => ?_
    rw [inStore, decide_eq_true_iff, hbytes, Nat.add_one_le_iff]
  refine ⟨fun h => if_neg h, fun h ⟨c, hc, hbig⟩ => (if_pos h).trans (if_neg fun hall => ?_),
    fun h hall b n good hb hn hgood => ?checked⟩
  · exact Nat.not_lt.mpr hbig (hin.mp hall c hc)
  case checked =>
    subst hb
    set b : State := { s with store := Memory.writeCells s.store lost } with hb
    have hexec : exec (.restoreCheckEnd lost) s = .next (b.restoreCheck.settle b) :=
      (if_pos h).trans (if_pos (hin.mpr hall))
    have hbase : Config.saveBase = 66060288 := rfl
    have hsize : Config.saveBytes = 1048576 := rfl
    have hmatch := imageMatches_iff b.store (n := n) (by rw [hbase]; exact hn)
    rw [hbase, hsize] at hmatch
    replace hmatch := hmatch.trans hgood.symm
    refine ⟨fun im hg hs => ?good, fun hbad => ?failed⟩
    case good =>
      refine ⟨b.restore im, by rw [hexec, State.restoreCheck_good (s := b) hs (hmatch.mpr hg)], rfl, rfl, rfl, rfl, rfl, rfl, rfl,
        rfl, rfl, rfl, rfl, fun p => by cases p <;> rfl, rfl, fun p => by cases p <;> rfl, fun d => ⟨?_, ?_, ?_, ?_, ?_⟩,
        rfl, rfl, rfl, rfl, rfl, rfl⟩
      · cases d <;> rfl
      · cases d <;> rfl
      · exact ⟨(im.schedOf d).savedUnits, Quad.get_ofFn _ d, im.mem_schedOf d⟩
      · cases d <;> rfl
      · cases d <;> rfl
    case failed =>
      have hno : imageMatches b.store = false ∨ b.saved = none :=
        hbad.imp_left fun hg => Bool.eq_false_iff.mpr fun hm => hg (hmatch.mp hm)
      refine ⟨b.clearAll EventRegs.afterFailure, by rw [hexec, State.restoreCheck_failed (s := b) hno], rfl, rfl, rfl, rfl,
        fun d => by cases d <;> exact ⟨rfl, rfl, rfl, rfl⟩, fun p => ?_, rfl, rfl, rfl, rfl, rfl, rfl, rfl⟩
      have hevents : (b.clearAll EventRegs.afterFailure).events.get p = EventRegs.afterFailure := by cases p <;> rfl
      refine ⟨hevents, by cases p <;> rfl, by cases p <;> rfl, by cases p <;> rfl, ?_⟩
      rw [State.attention, hevents, EventRegs.afterFailure_attention]

end Sys2Proof.Proofs
end

section
/-! What `settle` withdraws (R78, R79, R83, R113). -/
namespace Sys2Proof.Machine

variable (s : State)

/-! ### The contexts by their numbers -/

/-- The context of a number, where it is open. -/
def State.ctxAt (s : State) (i : Nat) : Option OpenCtx := (s.contexts.get? i).join

theorem State.numbered_map : s.numbered = (List.range 8).map fun i => (i, s.ctxAt i) := rfl

theorem State.ctxAt_congr {s t : State} {i : Nat} (h : t.contexts.get? i = s.contexts.get? i) :
    t.ctxAt i = s.ctxAt i := by
  rw [State.ctxAt, State.ctxAt, h]

/-- The number of a context that is abandon-pending with a drive's attempt. -/
def State.pendingAt (s : State) (d : DriveId) (i : Nat) : Option Nat :=
  match s.ctxAt i with
  | some c => if c.drive == d && c.abandonPending then some i else none
  | none => none

theorem State.abandonPending_map (d : DriveId) :
    s.abandonPending d = (List.range 8).findSome? (s.pendingAt d) := by
  unfold State.abandonPending
  rw [State.numbered_map, List.findSome?_map]
  rfl

theorem findSome?_congr_of_mem {α β : Type} {f g : α → Option β} {l : List α} (h : ∀ a ∈ l, f a = g a) :
    l.findSome? f = l.findSome? g := by
  induction l with
  | nil => rfl
  | cons a l ih =>
    rw [List.findSome?_cons, List.findSome?_cons, h a (List.mem_cons_self ..),
      ih fun b hb => h b (List.mem_cons_of_mem _ hb)]

/-- An abandon-pending context belongs to its own drive. -/
theorem State.abandonPending_some {s : State} {d : DriveId} {i : Nat} (h : s.abandonPending d = some i) :
    i < 8 ∧ ∃ c, s.ctxAt i = some c ∧ c.drive = d := by
  rw [State.abandonPending_map] at h
  obtain ⟨j, hj, hf⟩ := List.exists_of_findSome?_eq_some h
  unfold State.pendingAt at hf
  split at hf
  next c hc =>
    split at hf
    next hcd =>
      cases hf
      rw [Bool.and_eq_true, beq_iff_eq] at hcd
      exact ⟨List.mem_range.mp hj, c, hc, hcd.1⟩
    next => cases hf
  next => cases hf

/-- The contexts of one drive alone say which of them is abandon-pending. -/
theorem State.abandonPending_of_ctxAt {s t : State} {d : DriveId}
    (h : ∀ i, i < 8 → t.ctxAt i = s.ctxAt i ∨ (t.ctxAt i = none ∧ ∃ c, s.ctxAt i = some c ∧ c.drive ≠ d)) :
    t.abandonPending d = s.abandonPending d := by
  rw [State.abandonPending_map, State.abandonPending_map]
  refine findSome?_congr_of_mem fun i hi => ?_
  unfold State.pendingAt
  rcases h i (List.mem_range.mp hi) with h | ⟨ht, c, hc, hd⟩
  · rw [h]
  · rw [ht, hc]
    dsimp only
    rw [if_neg]
    rw [Bool.and_eq_true, beq_iff_eq]
    exact fun h => hd h.1

/-! ### The attempts that end (R78, R79, R113) -/

/-- R78, R113: a drive's attempt has a transaction that waits for the link and is withdrawn. -/
def State.withdraws (s : State) (d : DriveId) : Prop :=
  ∃ a, s.attempts.get d = some a ∧ s.blocked d a.phase = true

theorem State.withdraws_iff (d : DriveId) : s.withdraws d ↔ ∃ a, s.attempts.get d = some a ∧
    ((a.phase = .needRead ∧ (s.discard.get d = true ∨ s.isMounted d = false ∨ s.abandonPending d ≠ none ∨
        (s.rests.get d).timer ≠ none)) ∨
      (a.phase = .needPosition ∧ (s.rests.get d).timer ≠ none)) := by
  refine exists_congr fun a => and_congr_right fun _ => ?_
  cases a.phase <;> simp [State.blocked, Option.isSome_iff_ne_none, or_assoc]

theorem State.withdrawRead_ends {s : State} {d : DriveId} (h : s.withdraws d) : s.withdrawRead d = s.endAttempt d := by
  obtain ⟨a, ha, hb⟩ := h
  unfold State.withdrawRead
  rw [ha]
  exact if_pos hb

theorem State.withdrawRead_stays {s : State} {d : DriveId} (h : ¬ s.withdraws d) : s.withdrawRead d = s := by
  unfold State.withdrawRead
  split
  next a ha => exact if_neg fun hb => h ⟨a, ha, hb⟩
  next => rfl

/-- The part in the midst of the withdrawals, those of the drives `done` being behind it. -/
structure State.Withdrawing (s q : State) (done : DriveId → Prop) : Prop where
  frame : q = { s with attempts := q.attempts, discard := q.discard, drives := q.drives, contexts := q.contexts }
  contexts : ∀ i, i < 8 → q.contexts.get? i = s.contexts.get? i ∨
    (q.contexts.get? i = some none ∧ ∃ d, (done d ∧ s.withdraws d) ∧ s.abandonPending d = some i)
  ended : ∀ d, done d ∧ s.withdraws d → q.attempts.get d = none ∧ q.discard.get d = false ∧
    q.drives.get d = { s.drives.get d with poll := none } ∧
    ∀ i, s.abandonPending d = some i → q.contexts.get? i = some none
  kept : ∀ d, ¬ (done d ∧ s.withdraws d) → q.attempts.get d = s.attempts.get d ∧
    q.discard.get d = s.discard.get d ∧ q.drives.get d = s.drives.get d

theorem State.withdrawing_start : s.Withdrawing s fun _ => False :=
  ⟨rfl, fun _ _ => .inl rfl, fun _ h => h.1.elim, fun _ _ => ⟨rfl, rfl, rfl⟩⟩

theorem State.Withdrawing.abandonPending {s q : State} {done : DriveId → Prop} (h : s.Withdrawing q done) {d : DriveId}
    (hd : ¬ done d) : q.abandonPending d = s.abandonPending d := by
  refine State.abandonPending_of_ctxAt fun i hi => ?_
  rcases h.contexts i hi with hc | ⟨hc, e, ⟨he, -⟩, hp⟩
  · exact .inl (State.ctxAt_congr hc)
  · obtain ⟨-, c, hsome, hdrive⟩ := State.abandonPending_some hp
    refine .inr ⟨by rw [State.ctxAt, hc]; rfl, c, hsome, fun hcd => hd ?_⟩
    rw [← hcd, hdrive]
    exact he

theorem State.Withdrawing.withdraws_iff {s q : State} {done : DriveId → Prop} (h : s.Withdrawing q done) {d : DriveId}
    (hd : ¬ done d) : q.withdraws d ↔ s.withdraws d := by
  obtain ⟨hatt, hdis, -⟩ := h.kept d fun hx => hd hx.1
  have hmount : q.isMounted d = s.isMounted d := State.isMounted_congr (by rw [h.frame]) d
  have hrests : q.rests = s.rests := by rw [h.frame]
  rw [State.withdraws_iff, State.withdraws_iff, hatt, hdis, hmount, h.abandonPending hd, hrests]

/-- One more drive's attempt is withdrawn, or none of it. -/
theorem State.Withdrawing.step {s q : State} {done : DriveId → Prop} (h : s.Withdrawing q done) {d : DriveId}
    (hd : ¬ done d) : s.Withdrawing (q.withdrawRead d) fun e => done e ∨ e = d := by
  by_cases hw : s.withdraws d
  · have hpend := h.abandonPending hd
    rw [State.withdrawRead_ends ((h.withdraws_iff hd).mpr hw), State.endAttempt_eq, hpend]
    obtain ⟨-, -, hdrive⟩ := h.kept d fun hx => hd hx.1
    have hget : ∀ i, (match s.abandonPending d with
        | some j => q.contexts.set j none | none => q.contexts).get? i =
        if s.abandonPending d = some i then some none else q.contexts.get? i := fun i => by
      cases hp : s.abandonPending d with
      | none => rw [if_neg nofun]
      | some j =>
        obtain ⟨hj, -⟩ := State.abandonPending_some hp
        by_cases hij : j = i
        · rw [hij, if_pos rfl, ← hij]
          exact Oct.get?_set _ hj _
        · rw [if_neg fun h => hij (Option.some.inj h)]
          exact Oct.get?_set_ne _ (fun h => hij h.symm) _
    refine ⟨?_, fun i hi => ?_, fun e he => ?_, fun e he => ?_⟩
    · conv_lhs => rw [h.frame]
    · by_cases hp : s.abandonPending d = some i
      · exact .inr ⟨(hget i).trans (if_pos hp), d, ⟨.inr rfl, hw⟩, hp⟩
      · have hsame := (hget i).trans (if_neg hp)
        exact (h.contexts i hi).imp hsame.trans fun ⟨hn, e, ⟨he, hwe⟩, hpe⟩ =>
          ⟨hsame.trans hn, e, ⟨.inl he, hwe⟩, hpe⟩
    · by_cases hed : e = d
      · subst hed
        refine ⟨Quad.get_set _ _ _, Quad.get_set _ _ _, (Quad.get_set _ _ _).trans (by rw [hdrive]), fun i hp => ?_⟩
        exact (hget i).trans (if_pos hp)
      · obtain ⟨h1, h2, h3, h4⟩ := h.ended e ⟨he.1.resolve_right hed, he.2⟩
        refine ⟨(Quad.get_set_ne _ hed _).trans h1, (Quad.get_set_ne _ hed _).trans h2,
          (Quad.get_set_ne _ hed _).trans h3, fun i hp => (hget i).trans ?_⟩
        split
        · rfl
        · exact h4 i hp
    · have hed : e ≠ d := fun hed => he ⟨.inr hed, hed ▸ hw⟩
      obtain ⟨h1, h2, h3⟩ := h.kept e fun hx => he ⟨.inl hx.1, hx.2⟩
      exact ⟨(Quad.get_set_ne _ hed _).trans h1, (Quad.get_set_ne _ hed _).trans h2,
        (Quad.get_set_ne _ hed _).trans h3⟩
  · rw [State.withdrawRead_stays (mt (h.withdraws_iff hd).mp hw)]
    have hiff : ∀ e, ((done e ∨ e = d) ∧ s.withdraws e) ↔ (done e ∧ s.withdraws e) := fun e =>
      ⟨fun ⟨h1, h2⟩ => ⟨h1.resolve_right fun hed => hw (hed ▸ h2), h2⟩, fun ⟨h1, h2⟩ => ⟨.inl h1, h2⟩⟩
    refine ⟨h.frame, fun i hi => (h.contexts i hi).imp_right fun ⟨hn, e, he, hp⟩ => ⟨hn, e, (hiff e).mpr he, hp⟩,
      fun e he => h.ended e ((hiff e).mp he), fun e he => h.kept e fun hx => he ((hiff e).mpr hx)⟩

/-- R78, R113: all four drives' waiting transactions that are barred have been withdrawn. -/
theorem State.withdrawing_all : s.Withdrawing (s.eachDrive State.withdrawRead) fun _ => True := by
  have h := (((s.withdrawing_start.step (d := .d0) id).step (d := .d1) (by simp)).step (d := .d2) (by simp)).step
    (d := .d3) (by simp)
  have hall : ∀ d : DriveId, (((False ∨ d = .d0) ∨ d = .d1) ∨ d = .d2) ∨ d = .d3 := fun d => by cases d <;> simp
  have heq : (fun d : DriveId => (((False ∨ d = .d0) ∨ d = .d1) ∨ d = .d2) ∨ d = .d3) = fun _ => True :=
    funext fun d => eq_true (hall d)
  rw [heq] at h
  exact h

/-! ### The requests that end (R83) -/

theorem State.withdrawRequest_eq (d : DriveId) : s.withdrawRequest d = { s with
    ctxReq := s.ctxReq.set d ((s.ctxReq.get d).filter (s.requestStands d)) } := by
  unfold State.withdrawRequest
  cases h : s.ctxReq.get d with
  | none =>
    rw [Option.filter_none, Quad.set_self _ _ _ h.symm]
  | some u =>
    dsimp only
    by_cases hs : s.requestStands d u = true
    · rw [if_pos hs, Option.filter_some, if_pos hs, Quad.set_self _ _ _ h.symm]
    · rw [if_neg hs, Option.filter_some, if_neg hs]
      rfl

/-- R83: what the withdrawal of the requests leaves of each. -/
theorem State.withdrawRequests_spec : s.eachDrive State.withdrawRequest =
      { s with ctxReq := (s.eachDrive State.withdrawRequest).ctxReq } ∧
    ∀ d, (s.eachDrive State.withdrawRequest).ctxReq.get d = (s.ctxReq.get d).filter (s.requestStands d) := by
  refine ⟨by unfold State.eachDrive; simp only [State.withdrawRequest_eq], fun d => ?_⟩
  have h := s.eachDrive_at (f := State.withdrawRequest)
    (o := fun d t => (t.ctxReq.get d, { t with ctxReq := Quad.four none })) (fun t d e he => ?_) (fun t t' d h => ?_) d
  · refine (congrArg Prod.fst h).trans ?_
    rw [State.withdrawRequest_eq]
    exact Quad.get_set _ _ _
  · rw [State.withdrawRequest_eq]
    exact Prod.ext (Quad.get_set_ne _ he.symm _) rfl
  · obtain ⟨hreq, hframe⟩ := Prod.mk.inj h
    have hstands : t.requestStands d = t'.requestStands d := by
      have hq := congrArg (fun q : State => q.requestStands d) hframe
      exact hq
    rw [State.withdrawRequest_eq, State.withdrawRequest_eq, hstands]
    exact Prod.ext ((Quad.get_set _ _ _).trans ((congrArg _ hreq).trans (Quad.get_set _ _ _).symm)) hframe

theorem State.requestStands_iff (d : DriveId) (u : Nat) : s.requestStands d u = true ↔
    s.isTerminal d u = false ∧ s.entryOf d u ≠ none ∧ s.isMounted d = true ∧ (s.rests.get d).timer = none ∧
      (s.drives.get d).link = .online ∧ (s.power.state = .active ∨ s.power.state = .quiet) ∧
      s.openCount d < s.settings.quota.get d := by
  have hrun : ∀ p : PowerState, p.running = true ↔ p = .active ∨ p = .quiet := fun p => by cases p <;> decide
  simp [State.requestStands, hrun, Option.isSome_iff_ne_none, and_assoc]

end Sys2Proof.Machine
end

section
/-! The schedulers' states and choices in `settle` (R68 to R77, R116). -/
namespace Sys2Proof.Machine

variable (s : State)

/-! ### The state of a scheduler before the choices (R68, R69) -/

/-- R68, R69: a drive's scheduler as its attempt, its run conditions and its inputs leave it. -/
def State.noted (before s : State) (d : DriveId) : Sched :=
  let c := s.scheds.get d
  if (s.attempts.get d).isSome && (s.mounts.get d).isSome && s.power.state.running then
    { c with state := .attempting, owed := false }
  else if !s.runnable d then { c with state := .stopped, owed := false }
  else if c.state == .stopped || c.state == .attempting || c.owed
      || before.schedInputs d != s.schedInputs d then
    { c with state := .waiting, owed := true }
  else c

theorem State.noteChoice_eq (b : State) (d : DriveId) :
    State.noteChoice b s d = { s with scheds := s.scheds.set d (State.noted b s d) } := by
  unfold State.noteChoice State.noted
  dsimp only
  split
  · rfl
  split
  · rfl
  split
  · rfl
  · rw [Quad.set_get]

/-- All that a scheduler's note depends on. -/
def State.schedView (s : State) (d : DriveId) : State := { s with scheds := Quad.four (s.scheds.get d) }

theorem Quad.get_four {α : Type} (x : α) (d : DriveId) : (Quad.four x).get d = x := by cases d <;> rfl

theorem State.noted_view (b : State) (d : DriveId) : State.noted b (s.schedView d) d = State.noted b s d := by
  cases d <;> rfl

/-- R68, R69: what the notes leave of each scheduler. -/
theorem State.noteChoices_spec (b : State) : s.eachDrive (State.noteChoice b) =
      { s with scheds := (s.eachDrive (State.noteChoice b)).scheds } ∧
    ∀ d, (s.eachDrive (State.noteChoice b)).scheds.get d = State.noted b s d := by
  refine ⟨by unfold State.eachDrive; simp only [State.noteChoice_eq], fun d => ?_⟩
  have h := s.eachDrive_at (f := State.noteChoice b) (o := fun d t => t.schedView d) (fun t d e he => ?_)
    (fun t t' d h => ?_) d
  · have hd := congrArg (fun t : State => t.scheds.get d) h
    dsimp only [State.schedView] at hd
    rw [Quad.get_four, Quad.get_four] at hd
    rw [hd, State.noteChoice_eq]
    exact Quad.get_set _ _ _
  · unfold State.schedView
    rw [State.noteChoice_eq]
    dsimp only
    rw [Quad.get_set_ne _ he.symm]
  · have hnote : State.noted b t d = State.noted b t' d := by
      rw [← t.noted_view, ← t'.noted_view, h]
    have hframe := congrArg (fun q : State => { q with scheds := Quad.four (State.noted b t d) }) h
    rw [State.noteChoice_eq, State.noteChoice_eq]
    unfold State.schedView
    dsimp only
    rw [Quad.get_set, Quad.get_set, ← hnote]
    exact hframe

theorem PowerState.running_iff (p : PowerState) : p.running = true ↔ p = .active ∨ p = .quiet := by
  cases p <;> decide

/-- R68: the conditions under which a drive's scheduler can run. -/
theorem State.runnable_iff (d : DriveId) : s.runnable d = true ↔
    (s.isMounted d = true ∧ (s.drives.get d).link = .online ∧ (s.rests.get d).timer = none ∧
      (s.drives.get d).pend = [] ∧ (∀ x, s.link.exchange = some x → x.drive ≠ d) ∧
      (s.power.state = .active ∨ s.power.state = .quiet)) ∧ s.attempts.get d = none ∧ s.discard.get d = false := by
  have hlink : s.onLink d = false ↔ ∀ x, s.link.exchange = some x → x.drive ≠ d := by
    unfold State.onLink
    cases s.link.exchange with
    | none => simp
    | some x => simp
  unfold State.runnable
  simp only [Bool.and_eq_true, Bool.not_eq_true', beq_iff_eq, Option.isNone_iff_eq_none, List.isEmpty_iff,
    PowerState.running_iff, hlink]
  tauto

theorem State.noted_attempting {b s : State} {d : DriveId} (ha : s.attempts.get d ≠ none) (hm : s.mounts.get d ≠ none)
    (hp : s.power.state = .active ∨ s.power.state = .quiet) :
    State.noted b s d = { s.scheds.get d with state := .attempting, owed := false } := by
  refine if_pos ?_
  rw [Option.isSome_iff_ne_none.mpr ha, Option.isSome_iff_ne_none.mpr hm, (PowerState.running_iff _).mpr hp]
  rfl

theorem State.noted_free {b s : State} {d : DriveId}
    (h : s.attempts.get d = none ∨ s.mounts.get d = none ∨ (s.power.state ≠ .active ∧ s.power.state ≠ .quiet)) :
    State.noted b s d = if !s.runnable d then { s.scheds.get d with state := .stopped, owed := false }
      else if (s.scheds.get d).state == .stopped || (s.scheds.get d).state == .attempting || (s.scheds.get d).owed
          || b.schedInputs d != s.schedInputs d then { s.scheds.get d with state := .waiting, owed := true }
      else s.scheds.get d := by
  refine if_neg ?_
  simp only [Bool.and_eq_true, Option.isSome_iff_ne_none, PowerState.running_iff]
  rintro ⟨⟨ha, hm⟩, hp⟩
  rcases h with h | h | h
  · exact ha h
  · exact hm h
  · exact hp.elim h.1 h.2

theorem State.noted_stopped {b s : State} {d : DriveId}
    (h : s.attempts.get d = none ∨ s.mounts.get d = none ∨ (s.power.state ≠ .active ∧ s.power.state ≠ .quiet))
    (hr : s.runnable d = false) :
    State.noted b s d = { s.scheds.get d with state := .stopped, owed := false } := by
  rw [State.noted_free h, hr]
  rfl

/-- R69: a scheduler that can run owes a choice where it became able to, its attempt ended or an input changed. -/
theorem State.noted_runnable {b s : State} {d : DriveId} (hr : s.runnable d = true) :
    ((s.scheds.get d).state = .stopped ∨ (s.scheds.get d).state = .attempting ∨ (s.scheds.get d).owed = true ∨
        b.schedInputs d ≠ s.schedInputs d →
      State.noted b s d = { s.scheds.get d with state := .waiting, owed := true }) ∧
    (¬ ((s.scheds.get d).state = .stopped ∨ (s.scheds.get d).state = .attempting ∨ (s.scheds.get d).owed = true ∨
        b.schedInputs d ≠ s.schedInputs d) → State.noted b s d = s.scheds.get d) := by
  have hfree := State.noted_free (b := b) (s := s) (d := d) (.inl ((s.runnable_iff d).mp hr).2.1)
  have htest : ((s.scheds.get d).state == .stopped || (s.scheds.get d).state == .attempting || (s.scheds.get d).owed
      || b.schedInputs d != s.schedInputs d) = true ↔ (s.scheds.get d).state = .stopped ∨
        (s.scheds.get d).state = .attempting ∨ (s.scheds.get d).owed = true ∨
        b.schedInputs d ≠ s.schedInputs d := by
    simp only [Bool.or_eq_true, beq_iff_eq, bne_iff_ne, or_assoc]
  rw [hfree, hr]
  exact ⟨fun h => (if_neg (by decide)).trans (if_pos (htest.mpr h)),
    fun h => (if_neg (by decide)).trans (if_neg (mt htest.mp h))⟩

/-! ### The inputs of a scheduler (R69) -/

/-- A context of the drive as an input of its scheduler. -/
def State.inputAt (s : State) (d : DriveId) (i : Nat) : Option (Option Nat × Bool) :=
  (s.ctxAt i).bind fun c => if c.drive = d then some (c.unit, c.inEvaluation) else none

theorem State.schedInputs_contexts (d : DriveId) : (s.schedInputs d).contexts =
    (List.range 8).filterMap fun i => (s.inputAt d i).map fun x => (i, x) := by
  unfold State.schedInputs State.inputAt
  rw [State.numbered_map, List.filterMap_map]
  refine List.filterMap_congr fun i _ => ?_
  dsimp only [Function.comp]
  cases s.ctxAt i with
  | none => rfl
  | some c => by_cases h : c.drive = d <;> simp [h]

theorem State.mem_inputs (d : DriveId) (i : Nat) (x : Option Nat × Bool) (hi : i < 8) :
    (i, x) ∈ (s.schedInputs d).contexts ↔ s.inputAt d i = some x := by
  rw [State.schedInputs_contexts, List.mem_filterMap]
  constructor
  · rintro ⟨j, -, h⟩
    obtain ⟨y, hy, hyx⟩ := Option.map_eq_some_iff.mp h
    cases hyx
    exact hy
  · exact fun h => ⟨i, List.mem_range.mpr hi, by rw [h]; rfl⟩

theorem State.inputs_contexts_eq_iff (s t : State) (d : DriveId) :
    (s.schedInputs d).contexts = (t.schedInputs d).contexts ↔ ∀ i, i < 8 → s.inputAt d i = t.inputAt d i := by
  constructor
  · intro h i hi
    refine Option.ext fun x => ?_
    rw [← s.mem_inputs d i x hi, ← t.mem_inputs d i x hi, h]
  · intro h
    rw [State.schedInputs_contexts, State.schedInputs_contexts]
    exact List.filterMap_congr fun i hi => by rw [h i (List.mem_range.mp hi)]

/-- R69: an input of a scheduler has changed. -/
theorem State.schedInputs_ne_iff (b s : State) (d : DriveId) : b.schedInputs d ≠ s.schedInputs d ↔
    b.works.get d ≠ s.works.get d ∨ b.ctxReq.get d ≠ s.ctxReq.get d ∨ b.sweepOn d ≠ s.sweepOn d ∨
      b.options ≠ s.options ∨ b.settings.quota.get d ≠ s.settings.quota.get d ∨
      b.lastEvaluating d ≠ s.lastEvaluating d ∨ ∃ i, i < 8 ∧ b.inputAt d i ≠ s.inputAt d i := by
  have hsplit : b.schedInputs d = s.schedInputs d ↔ b.works.get d = s.works.get d ∧
      (b.schedInputs d).contexts = (s.schedInputs d).contexts ∧ b.lastEvaluating d = s.lastEvaluating d ∧
      b.ctxReq.get d = s.ctxReq.get d ∧ b.sweepOn d = s.sweepOn d ∧ b.options = s.options ∧
      b.settings.quota.get d = s.settings.quota.get d := SchedInputs.mk.injEq .. ▸ .rfl
  have hctx : (∃ i, i < 8 ∧ b.inputAt d i ≠ s.inputAt d i) ↔
      ¬ (b.schedInputs d).contexts = (s.schedInputs d).contexts := by
    rw [State.inputs_contexts_eq_iff]
    push Not
    rfl
  rw [hctx, ne_eq, hsplit]
  tauto

end Sys2Proof.Machine
end

section
/-! What a choice leaves untouched, and the states it can leave a scheduler in (R36, R69 to R77, R116). -/
namespace Sys2Proof.Machine

variable (s : State)

/-- A mount but for its sweep. -/
def MountRec.unswept (m : MountRec) : MountRec := { m with sweepOn := false, cursor := 0 }

/-- What choices can change: the map, the lists, contexts, requests, schedulers, attempts and events, the sweep of a
mount, and a QUIET part's state. -/
structure State.Turned (s t : State) : Prop where
  frame : t = { s with
    events := t.events, mounts := t.mounts, unitMap := t.unitMap, works := t.works, contexts := t.contexts
    ctxReq := t.ctxReq, ctxLast := t.ctxLast, scheds := t.scheds, attempts := t.attempts, power := t.power }
  power : { t.power with state := .active } = { s.power with state := .active }
  awake : t.power.state = s.power.state ∨ (s.power.state = .quiet ∧ t.power.state = .active)
  mounts : ∀ d, (t.mounts.get d).map MountRec.unswept = (s.mounts.get d).map MountRec.unswept

theorem State.Turned.refl : s.Turned s := ⟨rfl, rfl, .inl rfl, fun _ => rfl⟩

theorem State.Turned.trans {a b c : State} (h : a.Turned b) (h' : b.Turned c) : a.Turned c where
  frame := by
    rw [h'.frame, h.frame]
  power := h'.power.trans h.power
  awake := by
    rcases h.awake with h1 | ⟨h1, h2⟩
    · rcases h'.awake with h3 | ⟨h3, h4⟩
      · exact .inl (h3.trans h1)
      · exact .inr ⟨h1 ▸ h3, h4⟩
    · rcases h'.awake with h3 | ⟨h3, h4⟩
      · exact .inr ⟨h1, h3.trans h2⟩
      · exact .inr ⟨h1, h4⟩
  mounts d := (h'.mounts d).trans (h.mounts d)

/-- The choice of one drive leaves the schedulers, attempts and requests of the others. -/
structure State.Choosing (s t : State) (d : DriveId) : Prop where
  turned : s.Turned t
  others : ∀ e, e ≠ d → t.scheds.get e = s.scheds.get e ∧ t.attempts.get e = s.attempts.get e ∧
    t.ctxReq.get e = s.ctxReq.get e

theorem State.Choosing.refl (d : DriveId) : s.Choosing s d := ⟨.refl s, fun _ _ => ⟨rfl, rfl, rfl⟩⟩

theorem State.Choosing.trans {a b c : State} {d : DriveId} (h : a.Choosing b d) (h' : b.Choosing c d) :
    a.Choosing c d := by
  refine ⟨h.turned.trans h'.turned, fun e he => ?_⟩
  obtain ⟨h1, h2, h3⟩ := h.others e he
  obtain ⟨h4, h5, h6⟩ := h'.others e he
  exact ⟨h4.trans h1, h5.trans h2, h6.trans h3⟩

theorem State.setSched_choosing (d : DriveId) (c : Sched) : s.Choosing (s.setSched d c) d :=
  ⟨⟨rfl, rfl, .inl rfl, fun _ => rfl⟩, fun _ he => ⟨Quad.get_set_ne _ he _, rfl, rfl⟩⟩

theorem State.setCtxReq_choosing (d : DriveId) (v : Option Nat) : s.Choosing (s.setCtxReq d v) d :=
  ⟨⟨rfl, rfl, .inl rfl, fun _ => rfl⟩, fun _ he => ⟨rfl, rfl, Quad.get_set_ne _ he _⟩⟩

theorem State.setAttempt_choosing (d : DriveId) (a : Option Attempt) : s.Choosing (s.setAttempt d a) d :=
  ⟨⟨rfl, rfl, .inl rfl, fun _ => rfl⟩, fun _ he => ⟨rfl, Quad.get_set_ne _ he _, rfl⟩⟩

theorem State.raiseBoth_choosing (e : Event) (d : DriveId) : s.Choosing (s.raiseBoth e) d :=
  ⟨⟨rfl, rfl, .inl rfl, fun _ => rfl⟩, fun _ _ => ⟨rfl, rfl, rfl⟩⟩

theorem State.newWork_choosing (d : DriveId) : s.Choosing s.newWork d := by
  unfold State.newWork
  split
  next h => exact ⟨⟨rfl, rfl, .inr ⟨beq_iff_eq.mp h, rfl⟩, fun _ => rfl⟩, fun _ _ => ⟨rfl, rfl, rfl⟩⟩
  next => exact .refl s d

theorem State.setMount_choosing {s : State} {d : DriveId} {v : Option MountRec}
    (h : v.map MountRec.unswept = (s.mounts.get d).map MountRec.unswept) : s.Choosing (s.setMount d v) d := by
  refine ⟨⟨rfl, rfl, .inl rfl, fun e => ?_⟩, fun _ _ => ⟨rfl, rfl, rfl⟩⟩
  show ((s.mounts.set d v).get e).map _ = _
  by_cases he : e = d
  · rw [he, Quad.get_set, h]
  · rw [Quad.get_set_ne _ he]

/-- R77: the start of an attempt. -/
theorem State.startAttempt_choosing (d : DriveId) (m : MountRec) (u n : Nat) :
    s.Choosing (s.startAttempt d m u n) d :=
  ((s.newWork_choosing d).trans (State.setSched_choosing _ d _)).trans (State.setAttempt_choosing _ d _)

/-- R44: the opening of a context. -/
theorem State.openContext_choosing (i : Nat) (d : DriveId) (m : MountRec) (u : Nat) :
    s.Choosing (s.openContext i d m u) d := by
  rw [State.openContext_eq]
  exact ⟨⟨rfl, rfl, .inl rfl, fun _ => rfl⟩,
    fun _ he => ⟨Quad.get_set_ne _ he _, rfl, Quad.get_set_ne _ he _⟩⟩

/-! ### The demand of a sweep (R29, R36) -/

theorem State.setWork_choosing (d : DriveId) (w : List Entry) : s.Choosing (s.setWork d w) d :=
  ⟨⟨rfl, rfl, .inl rfl, fun _ => rfl⟩, fun _ _ => ⟨rfl, rfl, rfl⟩⟩

theorem State.insertEntry_choosing (d : DriveId) (e : Entry) : s.Choosing (s.insertEntry d e) d := by
  rw [State.insertEntry_eq]
  unfold State.woken
  split
  next h => exact ⟨⟨rfl, rfl, .inr ⟨h.2, rfl⟩, fun _ => rfl⟩, fun _ _ => ⟨rfl, rfl, rfl⟩⟩
  next => exact ⟨⟨rfl, rfl, .inl rfl, fun _ => rfl⟩, fun _ _ => ⟨rfl, rfl, rfl⟩⟩

/-- R30, R32: a displaced entry of the sweep moves the cursor back. -/
theorem State.displace_choosing (d : DriveId) (e : Entry) : s.Choosing (s.displace d e) d := by
  rw [State.displace_eq]
  refine ⟨⟨rfl, rfl, .inl rfl, fun x => ?_⟩, fun x hx => ⟨rfl, rfl, Quad.get_set_ne _ hx _⟩⟩
  dsimp only
  split
  · by_cases hx : x = d
    · rw [hx, Quad.get_set]
      cases s.mounts.get d <;> rfl
    · rw [Quad.get_set_ne _ hx]
  · rfl

theorem State.demand_choosing (d : DriveId) (u : Nat) : s.Choosing (s.demand d u .sweep).1 d := by
  cases ht : s.isTerminal d u with
  | true =>
    rw [State.demand_terminal ht]
    exact .refl s d
  | false =>
    unfold State.demand
    rw [ht, if_neg (by decide)]
    split
    · dsimp only [State.placed]
      split
      · exact (State.setWork_choosing _ d _).trans (State.newWork_choosing _ d)
      · exact State.setWork_choosing _ d _
    · split
      · exact State.insertEntry_choosing _ d _
      · split
        · exact (State.displace_choosing _ d _).trans (State.insertEntry_choosing _ d _)
        · exact .refl s d

/-- R36: the sweep's step. -/
theorem State.sweepStep_choosing (d : DriveId) : s.Choosing (s.sweepStep d) d := by
  unfold State.sweepStep
  split
  · exact .refl s d
  next m hm =>
    split
    · split
      next u hu =>
        have hd := s.demand_choosing d u
        have hsweep : ∀ t : State, s.Choosing t d → s.Choosing
            (t.setMount d (some { m with cursor := u + 1, sweepOn := u + 1 < m.u })) d := fun t ht =>
          ht.trans (State.setMount_choosing (by rw [ht.turned.mounts d, hm]; rfl))
        split
        next t heq =>
          rw [heq] at hd
          exact hsweep t hd
        next t heq =>
          rw [heq] at hd
          exact hsweep t hd
        next => exact .refl s d
      next =>
        have hoff : s.Choosing (s.setMount d (some { m with cursor := m.u, sweepOn := false })) d :=
          State.setMount_choosing (by rw [hm]; rfl)
        dsimp only
        split
        · exact hoff.trans (State.raiseBoth_choosing _ _ d)
        · exact hoff
    · exact .refl s d

theorem State.sweepStep_attempts (d : DriveId) : (s.sweepStep d).attempts = s.attempts := by
  unfold State.sweepStep
  split
  · rfl
  · split
    · split
      next u hu =>
        have hd : (s.demand d u .sweep).1.attempts = s.attempts := by rw [State.demand_frame]
        split
        next t heq => rw [heq] at hd; exact hd
        next t heq => rw [heq] at hd; exact hd
        next => rfl
      next =>
        dsimp only
        split <;> rfl
    · rfl

/-! ### How a choice ends -/

/-- A choice starts an attempt, or leaves its scheduler without one. -/
def State.Chooses (s t : State) (d : DriveId) : Prop := ∃ q, s.Choosing q d ∧ q.attempts = s.attempts ∧
  ((∃ m u n, t = q.startAttempt d m u n) ∨
    ∃ st, (st = .waiting ∨ st = .idle) ∧ t = q.setSched d { q.scheds.get d with state := st })

theorem State.Choosing.chooses {s q t : State} {d : DriveId} (h : s.Choosing q d) (ha : q.attempts = s.attempts)
    (h' : q.Chooses t d) : s.Chooses t d := by
  obtain ⟨r, hr, hra, hend⟩ := h'
  exact ⟨r, h.trans hr, hra.trans ha, hend⟩

theorem State.startAttempt_chooses (d : DriveId) (m : MountRec) (u n : Nat) : s.Chooses (s.startAttempt d m u n) d :=
  ⟨s, .refl s d, rfl, .inl ⟨m, u, n, rfl⟩⟩

theorem State.waits_chooses (d : DriveId) {st : SchedState} (h : st = .waiting ∨ st = .idle) :
    s.Chooses (s.setSched d { s.scheds.get d with state := st }) d :=
  ⟨s, .refl s d, rfl, .inr ⟨st, h, rfl⟩⟩

theorem State.fallback_chooses (d : DriveId) (m : MountRec) : s.Chooses (s.fallback d m) d := by
  unfold State.fallback
  split
  · exact s.startAttempt_chooses d m _ 1
  · exact s.waits_chooses d (.inl rfl)

theorem State.openContext_attempts (i : Nat) (d : DriveId) (m : MountRec) (u : Nat) :
    (s.openContext i d m u).attempts = s.attempts := by rw [State.openContext_eq]

theorem State.rank_chooses (d : DriveId) (m : MountRec) : s.Chooses (s.rank d m) d := by
  have hreq := fun v => s.setCtxReq_choosing d v
  unfold State.rank
  split
  · exact (hreq none).chooses rfl (State.waits_chooses _ d (.inr rfl))
  · split
    · exact (hreq none).chooses rfl (State.startAttempt_chooses _ d m _ 1)
    · split
      · split
        · exact (s.openContext_choosing _ d m _).chooses (s.openContext_attempts _ d m _)
            (State.startAttempt_chooses _ d m _ 1)
        · exact (hreq _).chooses rfl (State.fallback_chooses _ d m)
      · exact (hreq none).chooses rfl (State.fallback_chooses _ d m)

theorem State.choose_chooses {s : State} {d : DriveId} (h : s.mounts.get d ≠ none) : s.Chooses (s.choose d) d := by
  unfold State.choose
  split
  next hm => exact absurd hm h
  next m hm =>
    split
    · exact s.waits_chooses d (.inl rfl)
    · split
      · exact s.startAttempt_chooses d m _ _
      · split
        · exact (s.setCtxReq_choosing d none).chooses rfl (State.startAttempt_chooses _ d m _ 1)
        · exact (s.sweepStep_choosing d).chooses (s.sweepStep_attempts d) (State.rank_chooses _ d m)

theorem State.Chooses.choosing {s t : State} {d : DriveId} (h : s.Chooses t d) : s.Choosing t d := by
  obtain ⟨q, hq, -, ⟨m, u, n, rfl⟩ | ⟨st, -, rfl⟩⟩ := h
  · exact hq.trans (q.startAttempt_choosing d m u n)
  · exact hq.trans (q.setSched_choosing d _)

theorem State.choose_choosing (d : DriveId) : s.Choosing (s.choose d) d := by
  by_cases h : s.mounts.get d = none
  · rw [State.choose, h]
    exact .refl s d
  · exact (State.choose_chooses h).choosing

theorem State.makeChoice_choosing (d : DriveId) : s.Choosing (s.makeChoice d) d := by
  unfold State.makeChoice
  dsimp only
  split
  · exact (s.setSched_choosing d _).trans (State.choose_choosing _ d)
  · exact .refl s d

/-- The choices, drive after drive. -/
theorem State.makeChoices_turned : s.Turned (s.eachDrive State.makeChoice) :=
  (((s.makeChoice_choosing .d0).turned.trans (State.makeChoice_choosing _ .d1).turned).trans
    (State.makeChoice_choosing _ .d2).turned).trans (State.makeChoice_choosing _ .d3).turned

/-- A scheduler that is not stopped, and is ATTEMPTING exactly where its drive has an attempt. -/
def State.inStep (s : State) (d : DriveId) : Prop := (s.scheds.get d).state ≠ .stopped ∧
  ((s.scheds.get d).state = .attempting ↔ s.attempts.get d ≠ none)

theorem State.Chooses.inStep {s t : State} {d : DriveId} (h : s.Chooses t d) (ha : s.attempts.get d = none) :
    t.inStep d := by
  obtain ⟨q, -, hqa, ⟨m, u, n, rfl⟩ | ⟨st, hst, rfl⟩⟩ := h
  · unfold State.inStep
    rw [State.startAttempt_eq]
    dsimp only
    rw [Quad.get_set, Quad.get_set]
    exact ⟨nofun, iff_of_true rfl nofun⟩
  · have hnone : (q.setSched d { q.scheds.get d with state := st }).attempts.get d = none := by
      show q.attempts.get d = none
      rw [hqa, ha]
    have hstate : ((q.setSched d { q.scheds.get d with state := st }).scheds.get d).state = st :=
      congrArg Sched.state (Quad.get_set _ _ _)
    unfold State.inStep
    rw [hnone, hstate]
    rcases hst with rfl | rfl <;> exact ⟨nofun, iff_of_false nofun fun h => h rfl⟩

/-- A choice leaves a scheduler in step that was not STOPPED and had no attempt. -/
theorem State.makeChoice_inStep {s : State} {d : DriveId} (h : s.inStep d) (ha : s.attempts.get d = none) :
    (s.makeChoice d).inStep d := by
  unfold State.makeChoice
  dsimp only
  split
  · set q := s.setSched d { s.scheds.get d with owed := false } with hq
    by_cases hm : q.mounts.get d = none
    · rw [State.choose, hm]
      have hsched : q.scheds.get d = { s.scheds.get d with owed := false } := Quad.get_set _ _ _
      have hstate : (q.scheds.get d).state = (s.scheds.get d).state := by rw [hsched]
      unfold State.inStep
      rw [hstate]
      exact h
    · exact (State.choose_chooses hm).inStep ha
  · exact h

theorem State.makeChoice_settled {s : State} {d : DriveId} (h : (s.scheds.get d).owed = false) : s.makeChoice d = s :=
  if_neg (by rw [h]; decide)

/-- What the choices make of a drive is what its own choice makes, the drives before it having chosen. -/
theorem State.makeChoices_at (d : DriveId) : ∃ q : State, (q.scheds.get d = s.scheds.get d ∧
    q.attempts.get d = s.attempts.get d ∧ q.ctxReq.get d = s.ctxReq.get d) ∧
    (s.eachDrive State.makeChoice).scheds.get d = (q.makeChoice d).scheds.get d ∧
    (s.eachDrive State.makeChoice).attempts.get d = (q.makeChoice d).attempts.get d ∧
    (s.eachDrive State.makeChoice).ctxReq.get d = (q.makeChoice d).ctxReq.get d := by
  have hother : ∀ (t : State) (e : DriveId), d ≠ e → _ := fun t e he => (t.makeChoice_choosing e).others d he
  have step : ∀ {a b c : State}, (b.scheds.get d = a.scheds.get d ∧ b.attempts.get d = a.attempts.get d ∧
      b.ctxReq.get d = a.ctxReq.get d) → (c.scheds.get d = b.scheds.get d ∧ c.attempts.get d = b.attempts.get d ∧
      c.ctxReq.get d = b.ctxReq.get d) → (c.scheds.get d = a.scheds.get d ∧ c.attempts.get d = a.attempts.get d ∧
      c.ctxReq.get d = a.ctxReq.get d) := fun ⟨h1, h2, h3⟩ ⟨h4, h5, h6⟩ =>
    ⟨h4.trans h1, h5.trans h2, h6.trans h3⟩
  unfold State.eachDrive
  cases d with
  | d0 => exact ⟨s, ⟨rfl, rfl, rfl⟩, step (step (hother _ .d1 nofun) (hother _ .d2 nofun)) (hother _ .d3 nofun)⟩
  | d1 => exact ⟨s.makeChoice .d0, hother _ .d0 nofun, step (hother _ .d2 nofun) (hother _ .d3 nofun)⟩
  | d2 => exact ⟨_, step (hother _ .d0 nofun) (hother _ .d1 nofun), hother _ .d3 nofun⟩
  | d3 => exact ⟨_, step (step (hother _ .d0 nofun) (hother _ .d1 nofun)) (hother _ .d2 nofun), ⟨rfl, rfl, rfl⟩⟩

end Sys2Proof.Machine
end

section
/-! What follows a command at the same moment (R68, R69, R78, R83, R114). -/
namespace Sys2Proof.Machine

variable (s : State)

/-- The part after the withdrawals and the notes, before the choices. -/
def State.prepared (s b : State) : State :=
  ((s.quietTimer.eachDrive State.withdrawRead).eachDrive State.withdrawRequest).eachDrive (State.noteChoice b)

theorem State.settle_eq (b : State) : s.settle b =
    (if (s.prepared b).choicesHeld then s.prepared b else (s.prepared b).eachDrive State.makeChoice).quietTimer := rfl

theorem State.quietTimer_withdraws (d : DriveId) : s.quietTimer.withdraws d ↔ s.withdraws d := by
  rw [State.quietTimer_eq]
  exact .rfl

/-- What the withdrawals and the notes make of the part. -/
structure State.Prepared (s b w : State) : Prop where
  frame : w = { s with
    attempts := w.attempts, discard := w.discard, drives := w.drives, contexts := w.contexts, ctxReq := w.ctxReq
    scheds := w.scheds, power := w.power }
  power : w.power = s.quietTimer.power
  contexts : ∀ i, i < 8 → w.contexts.get? i = s.contexts.get? i ∨
    (w.contexts.get? i = some none ∧ ∃ d, s.withdraws d ∧ s.abandonPending d = some i)
  ended : ∀ d, s.withdraws d → w.attempts.get d = none ∧ w.discard.get d = false ∧
    w.drives.get d = { s.drives.get d with poll := none } ∧
    ∀ i, s.abandonPending d = some i → w.contexts.get? i = some none
  kept : ∀ d, ¬ s.withdraws d → w.attempts.get d = s.attempts.get d ∧ w.discard.get d = s.discard.get d ∧
    w.drives.get d = s.drives.get d
  ctxReq : ∀ d, w.ctxReq.get d = (s.ctxReq.get d).filter (w.requestStands d)
  scheds : ∀ d, w.scheds.get d = State.noted b { w with scheds := s.scheds } d

theorem State.prepared_spec (b : State) : s.Prepared b (s.prepared b) := by
  have hw := s.quietTimer.withdrawing_all
  set s2 := s.quietTimer.eachDrive State.withdrawRead with hs2
  obtain ⟨hreqFrame, hreq⟩ := s2.withdrawRequests_spec
  set s3 := s2.eachDrive State.withdrawRequest with hs3
  obtain ⟨hnoteFrame, hnote⟩ := s3.noteChoices_spec b
  have hw' : s.prepared b = s3.eachDrive (State.noteChoice b) := rfl
  rw [hw']
  set w := s3.eachDrive (State.noteChoice b) with hwdef
  have hframe2 : s2 = { s with
      attempts := s2.attempts, discard := s2.discard, drives := s2.drives, contexts := s2.contexts
      power := s.quietTimer.power } := by
    conv_lhs => rw [hw.frame]
    rw [State.quietTimer_eq]
  have hw3 : { w with scheds := s.scheds } = s3 := by
    rw [hnoteFrame]
    have hsched : s3.scheds = s.scheds := by rw [hreqFrame, hframe2]
    rw [← hsched]
  have hstands : w.requestStands = s2.requestStands := by
    rw [hnoteFrame, hreqFrame]
    rfl
  have hfields : w.attempts = s2.attempts ∧ w.discard = s2.discard ∧ w.drives = s2.drives ∧
      w.contexts = s2.contexts ∧ w.power = s2.power ∧ w.ctxReq = s3.ctxReq ∧ s2.ctxReq = s.ctxReq := by
    rw [hnoteFrame, hreqFrame]
    exact ⟨rfl, rfl, rfl, rfl, rfl, rfl, by rw [hframe2]⟩
  obtain ⟨hatt, hdis, hdrives, hctx, hpower, hctxReq, hreq0⟩ := hfields
  have hfirst : s.quietTimer.attempts = s.attempts ∧ s.quietTimer.discard = s.discard ∧
      s.quietTimer.drives = s.drives ∧ s.quietTimer.contexts = s.contexts ∧
      ∀ d, s.quietTimer.abandonPending d = s.abandonPending d := by
    rw [State.quietTimer_eq]
    exact ⟨rfl, rfl, rfl, rfl, fun _ => rfl⟩
  obtain ⟨hatt1, hdis1, hdrives1, hctx1, hpend1⟩ := hfirst
  have hcontexts := hw.contexts
  have hended := hw.ended
  have hkept := hw.kept
  simp only [true_and, State.quietTimer_withdraws, hatt1, hdis1, hdrives1, hctx1, hpend1] at hcontexts hended hkept
  refine ⟨?_, ?_, ?_, ?_, ?_, fun d => ?_, fun d => ?_⟩
  · conv_lhs => rw [hnoteFrame, hreqFrame, hframe2]
    rw [hatt, hdis, hdrives, hctx, hpower, hctxReq]
    conv_rhs => rw [hframe2]
  · rw [hpower, hframe2]
  · rw [hctx]
    exact hcontexts
  · rw [hatt, hdis, hdrives, hctx]
    exact hended
  · rw [hatt, hdis, hdrives]
    exact hkept
  · rw [hctxReq, hreq d, hstands, hreq0]
  · rw [hw3]
    exact hnote d

end Sys2Proof.Machine
end

section
/-! `SettleFrame` (R68, R69, R78, R79, R83, R113, R114). -/
namespace Sys2Proof.Machine

variable (s : State)

/-- R114: an ACTIVE part without work. -/
def State.idles (s : State) : Prop := s.power.state = .active ∧ s.withoutWork = true

theorem State.withoutWork_iff : s.withoutWork = true ↔
    (∀ d, s.isMounted d = true → s.works.get d = [] ∧ s.sweepOn d = false) ∧ (∀ c ∈ s.contexts.toList, c = none) ∧
      (∀ d, s.attempts.get d = none) ∧ s.loader.stage = .idle ∧ s.loader.write = .idle := by
  have hdrives : (DriveId.all.all fun d => !s.isMounted d || ((s.works.get d).isEmpty && !s.sweepOn d)) = true ↔
      ∀ d, s.isMounted d = true → s.works.get d = [] ∧ s.sweepOn d = false := by
    rw [List.all_eq_true]
    refine ⟨fun h d hm => ?_, fun h d _ => ?_⟩
    · simpa [hm] using h d (DriveId.mem_all d)
    · cases hm : s.isMounted d with
      | false => rfl
      | true => simp [h d hm]
  unfold State.withoutWork
  rw [Bool.and_eq_true, Bool.and_eq_true, Bool.and_eq_true, Bool.and_eq_true, hdrives, Quad.all_iff, List.all_eq_true]
  simp only [Option.isNone_iff_eq_none, beq_iff_eq, and_assoc]

/-- R114: the quiet timer of a part that idles, and of one that does not. -/
theorem State.quietTimer_quiet : (s.idles → s.quietTimer.power.quiet =
      some (s.power.quiet.getD (s.settings.quietDelay * 1000))) ∧
    (¬ s.idles → s.quietTimer.power.quiet = none) := by
  rw [State.quietTimer_eq]
  exact ⟨fun h => if_pos h, fun h => if_neg h⟩

theorem State.quietTimer_idles : s.quietTimer.idles ↔ s.idles := by
  rw [State.quietTimer_eq]
  exact .rfl

theorem State.choicesHeld_iff : s.choicesHeld = true ↔ (s.freeCtx ≠ none ∧ ∃ d, s.ctxReq.get d ≠ none) ∨
    ∃ p ip, (s.ports.get p).inProgress = some ip ∧
      ∀ i c, s.ctxOf ip.drive ip.unit = some (i, c) → c.phase = .collecting := by
  have hports : (s.abandonDue .a = true ∨ s.abandonDue .b = true) ↔ ∃ p, s.abandonDue p = true :=
    ⟨fun h => h.elim (fun h => ⟨.a, h⟩) fun h => ⟨.b, h⟩, fun ⟨p, h⟩ => by cases p <;> simp [h]⟩
  unfold State.choicesHeld
  rw [Bool.or_eq_true, Bool.or_eq_true, or_assoc, hports, State.grantDue_iff]
  exact or_congr_right (exists_congr fun p => s.abandonDue_iff p)

/-! ### The part before the choices -/

/-- R68: the conditions of a drive but for its attempt and the discard flag. -/
def State.runs (s : State) (d : DriveId) : Prop :=
  s.isMounted d = true ∧ (s.drives.get d).link = .online ∧ (s.rests.get d).timer = none ∧
    (s.drives.get d).pend = [] ∧ (∀ x, s.link.exchange = some x → x.drive ≠ d) ∧
    (s.power.state = .active ∨ s.power.state = .quiet)

section
variable {s b w : State} (h : s.Prepared b w)
include h

theorem State.Prepared.powerQuiet : { w.power with quiet := none } = { s.power with quiet := none } := by
  rw [h.power, State.quietTimer_eq]

theorem State.Prepared.powerState : w.power.state = s.power.state := by
  rw [h.power, State.quietTimer_eq]

theorem State.Prepared.drive (d : DriveId) :
    { w.drives.get d with poll := none } = { s.drives.get d with poll := none } := by
  by_cases hd : s.withdraws d
  · rw [(h.ended d hd).2.2.1]
  · rw [(h.kept d hd).2.2]

theorem State.Prepared.driveLink (d : DriveId) : (w.drives.get d).link = (s.drives.get d).link ∧
    (w.drives.get d).pend = (s.drives.get d).pend := by
  by_cases hd : s.withdraws d
  · rw [(h.ended d hd).2.2.1]
    exact ⟨rfl, rfl⟩
  · rw [(h.kept d hd).2.2]
    exact ⟨rfl, rfl⟩

/-- What neither the withdrawals nor the notes touch. -/
theorem State.Prepared.fields : w.mounts = s.mounts ∧ w.unitMap = s.unitMap ∧ w.works = s.works ∧ w.rests = s.rests ∧
    w.link = s.link ∧ w.settings = s.settings ∧ w.ports = s.ports ∧ w.options = s.options := by
  rw [h.frame]
  exact ⟨rfl, rfl, rfl, rfl, rfl, rfl, rfl, rfl⟩

theorem State.Prepared.runnable_iff (d : DriveId) : ({ w with scheds := s.scheds } : State).runnable d = true ↔
    s.runs d ∧ w.attempts.get d = none ∧ w.discard.get d = false := by
  obtain ⟨hmounts, -, -, hrests, hlink, -⟩ := h.fields
  have hm : ({ w with scheds := s.scheds } : State).isMounted d = s.isMounted d := State.isMounted_congr hmounts d
  obtain ⟨honline, hpend⟩ := h.driveLink d
  rw [State.runnable_iff, hm]
  dsimp only
  rw [honline, hpend, hrests, hlink, h.powerState]
  rfl

/-- R83: a request of a drive stands under conditions of which the count of its contexts alone is new. -/
theorem State.Prepared.requestStands_iff (d : DriveId) (u : Nat) : w.requestStands d u = true ↔
    s.isTerminal d u = false ∧ s.entryOf d u ≠ none ∧ s.isMounted d = true ∧ (s.rests.get d).timer = none ∧
      (s.drives.get d).link = .online ∧ (s.power.state = .active ∨ s.power.state = .quiet) ∧
      w.openCount d < s.settings.quota.get d := by
  obtain ⟨hmounts, hmap, hworks, hrests, -, hset, -⟩ := h.fields
  have hterm : w.isTerminal d u = s.isTerminal d u := by
    rw [State.isTerminal, State.unitRec_congr hmounts hmap]
    rfl
  have hentry : w.entryOf d u = s.entryOf d u := by
    rw [State.entryOf, hworks]
    rfl
  obtain ⟨honline, -⟩ := h.driveLink d
  rw [State.requestStands_iff, hterm, hentry, State.isMounted_congr hmounts d, hrests, honline, h.powerState, hset]

/-- R68: a drive with an attempt in flight. -/
theorem State.Prepared.attempting {d : DriveId} (ha : w.attempts.get d ≠ none) (hm : s.mounts.get d ≠ none)
    (hr : s.power.state = .active ∨ s.power.state = .quiet) :
    w.scheds.get d = { s.scheds.get d with state := .attempting, owed := false } := by
  rw [h.scheds]
  exact State.noted_attempting (s := { w with scheds := s.scheds }) ha (by rw [h.fields.1]; exact hm)
    (by rw [h.powerState]; exact hr)

/-- R68: a drive without an attempt that counts. -/
theorem State.Prepared.stopped {d : DriveId} (hfree : w.attempts.get d = none ∨ s.mounts.get d = none ∨
      (s.power.state ≠ .active ∧ s.power.state ≠ .quiet))
    (hr : ¬ (s.runs d ∧ w.attempts.get d = none ∧ w.discard.get d = false)) :
    w.scheds.get d = { s.scheds.get d with state := .stopped, owed := false } := by
  rw [h.scheds]
  refine State.noted_stopped (s := { w with scheds := s.scheds }) ?_
    (Bool.eq_false_iff.mpr (mt (h.runnable_iff d).mp hr))
  rw [h.fields.1, h.powerState]
  exact hfree

/-- R69: a drive whose scheduler can run. -/
theorem State.Prepared.waits {d : DriveId} (hr : s.runs d) (ha : w.attempts.get d = none)
    (hd : w.discard.get d = false) :
    ((s.scheds.get d).state = .stopped ∨ (s.scheds.get d).state = .attempting ∨ (s.scheds.get d).owed = true ∨
        b.schedInputs d ≠ w.schedInputs d →
      w.scheds.get d = { s.scheds.get d with state := .waiting, owed := true }) ∧
    (¬ ((s.scheds.get d).state = .stopped ∨ (s.scheds.get d).state = .attempting ∨ (s.scheds.get d).owed = true ∨
        b.schedInputs d ≠ w.schedInputs d) → w.scheds.get d = s.scheds.get d) := by
  have hnoted := State.noted_runnable (b := b) ((h.runnable_iff d).mpr ⟨hr, ha, hd⟩)
  rw [← h.scheds d] at hnoted
  have hlast : (w.scheds.get d).last = (s.scheds.get d).last := by
    by_cases hc : (s.scheds.get d).state = .stopped ∨ (s.scheds.get d).state = .attempting ∨
        (s.scheds.get d).owed = true ∨ b.schedInputs d ≠ ({ w with scheds := s.scheds } : State).schedInputs d
    · rw [hnoted.1 hc]
    · rw [hnoted.2 hc]
  have hinputs : ({ w with scheds := s.scheds } : State).schedInputs d = w.schedInputs d := by
    have hjudging : ({ w with scheds := s.scheds } : State).lastEvaluating d = w.lastEvaluating d := by
      unfold State.lastEvaluating
      rw [hlast]
      rfl
    unfold State.schedInputs
    rw [hjudging]
    rfl
  rw [hinputs] at hnoted
  exact hnoted

/-- A scheduler that can run is in step before its choice. -/
theorem State.Prepared.inStep {d : DriveId} (hr : s.runs d) (ha : w.attempts.get d = none)
    (hd : w.discard.get d = false) : w.inStep d := by
  unfold State.inStep
  rw [ha]
  by_cases hc : (s.scheds.get d).state = .stopped ∨ (s.scheds.get d).state = .attempting ∨
      (s.scheds.get d).owed = true ∨ b.schedInputs d ≠ w.schedInputs d
  · rw [(h.waits hr ha hd).1 hc]
    exact ⟨nofun, iff_of_false nofun fun h => h rfl⟩
  · rw [(h.waits hr ha hd).2 hc]
    exact ⟨fun h => hc (.inl h), iff_of_false (fun h => hc (.inr (.inl h))) fun h => h rfl⟩

/-- A drive whose run conditions fail owes no choice. -/
theorem State.Prepared.owesNone {d : DriveId} (hr : ¬ s.runs d) : (w.scheds.get d).owed = false := by
  by_cases hc : w.attempts.get d ≠ none ∧ s.mounts.get d ≠ none ∧ (s.power.state = .active ∨ s.power.state = .quiet)
  · rw [h.attempting hc.1 hc.2.1 hc.2.2]
  · rw [h.stopped (by tauto) fun h => hr h.1]

end

/-! ### The choices -/

/-- The part after the choices, where they are not held. -/
def State.chosen (s : State) : State := if s.choicesHeld then s else s.eachDrive State.makeChoice

theorem State.chosen_turned : s.Turned s.chosen := by
  unfold State.chosen
  split
  · exact .refl s
  · exact s.makeChoices_turned

/-- A drive that owes no choice is left as it was. -/
theorem State.chosen_settled {s : State} {d : DriveId} (h : (s.scheds.get d).owed = false) :
    s.chosen.scheds.get d = s.scheds.get d ∧ s.chosen.attempts.get d = s.attempts.get d ∧
      s.chosen.ctxReq.get d = s.ctxReq.get d := by
  unfold State.chosen
  split
  · exact ⟨rfl, rfl, rfl⟩
  · obtain ⟨q, ⟨hs, ha, hc⟩, hsched, hatt, hreq⟩ := s.makeChoices_at d
    rw [State.makeChoice_settled (by rw [hs]; exact h)] at hsched hatt hreq
    exact ⟨hsched.trans hs, hatt.trans ha, hreq.trans hc⟩

/-- R70 to R76: a drive that can choose is in step afterwards. -/
theorem State.chosen_inStep {s : State} {d : DriveId} (h : s.inStep d) (ha : s.attempts.get d = none) :
    s.chosen.inStep d := by
  unfold State.chosen
  split
  · exact h
  · obtain ⟨q, ⟨hs, hqa, -⟩, hsched, hatt, -⟩ := s.makeChoices_at d
    have hstep : q.inStep d := by
      rw [State.inStep, hs, hqa]
      exact h
    have hafter := State.makeChoice_inStep hstep (hqa.trans ha)
    rw [State.inStep, ← hsched, ← hatt] at hafter
    exact hafter

end Sys2Proof.Machine

namespace Sys2Proof.Proofs
open Sys2Proof.Machine

/-- Settles O5. -/
theorem settleFrame : Obligations.SettleFrame := by
  unfold Obligations.SettleFrame
  intro s b t runs ends ht hruns hends
  set w := s.prepared b with hw
  have hp := s.prepared_spec b
  rw [← hw] at hp
  replace hends : ∀ d, ends d ↔ s.withdraws d := fun d => (hends d).trans (s.withdraws_iff d).symm
  obtain rfl : runs = s.runs := funext fun d => propext (hruns d)
  obtain rfl : ends = s.withdraws := funext fun d => propext (hends d)
  have htq : t = w.chosen.quietTimer := ht.trans (s.settle_eq b)
  have hturned := w.chosen_turned
  obtain ⟨hmounts, hmap, hworks, hrests, hlink, hset, hports, hoptions⟩ := hp.fields
  have htimer : t = { w.chosen with power := { w.chosen.power with quiet := t.power.quiet } } := by
    rw [htq, State.quietTimer_eq]
  have htpower : { t.power with quiet := none } = { w.chosen.power with quiet := none } := by
    rw [htimer]
  have hdrives : t.drives = w.drives := by
    rw [htimer, hturned.frame]
  have hdiscard : t.discard = w.discard := by
    rw [htimer, hturned.frame]
  have hstate : t.power.state = w.chosen.power.state := by
    rw [htimer]
  have hsame : t.scheds = w.chosen.scheds ∧ t.attempts = w.chosen.attempts ∧ t.ctxReq = w.chosen.ctxReq := by
    rw [htimer]
    exact ⟨rfl, rfl, rfl⟩
  obtain ⟨hscheds, hattempts, hctxReq⟩ := hsame
  refine ⟨by rw [ht]; exact s.settle_host b, fun d => ?mounts, fun d => ?drives, ?power, ?awake, fun d => ?drive,
    fun idle hidle => ?quiet, w, hp.frame, hp.powerQuiet, hp.contexts, fun d => ⟨hp.ended d, hp.kept d, ?requests⟩,
    fun d changed choice hchanged hchoice => ?scheds, fun held turn hheld hturn => ?choices⟩
  case mounts =>
    have hm := hturned.mounts d
    rw [hmounts] at hm
    rw [htimer]
    exact hm
  case drives =>
    rw [hdrives]
    exact hp.drive d
  case power =>
    have h1 := congrArg (fun p : Power => { p with state := .active }) htpower
    have h2 := congrArg (fun p : Power => { p with quiet := none }) hturned.power
    have h3 := congrArg (fun p : Power => { p with state := .active }) hp.powerQuiet
    exact (h1.trans h2).trans h3
  case awake =>
    rw [hstate, ← hp.powerState]
    exact hturned.awake
  case drive =>
    rw [hscheds, hattempts, hdiscard, hctxReq]
    have hfree : ∀ {P : Prop}, (P → w.attempts.get d = none ∧ w.discard.get d = false) → P → s.runs d →
        (w.chosen.scheds.get d).state ≠ .stopped ∧
          ((w.chosen.scheds.get d).state = .attempting ↔ w.chosen.attempts.get d ≠ none) ∧
          w.discard.get d = false := fun hP p hr => by
      obtain ⟨ha, hd⟩ := hP p
      obtain ⟨hns, hiff⟩ := State.chosen_inStep (hp.inStep hr ha hd) ha
      exact ⟨hns, hiff, hd⟩
    refine ⟨fun a ha hne => ?_, hfree fun h => ?_, fun h hno => ?_, fun h => ?_⟩
    · have hwa : w.attempts.get d = some a := (hp.kept d hne).1.trans ha
      by_cases hc : (s.mounts.get d).isSome ∧ (s.power.state = .active ∨ s.power.state = .quiet)
      · have hnote := hp.attempting (by rw [hwa]; exact nofun) (Option.isSome_iff_ne_none.mp hc.1) hc.2
        obtain ⟨h1, h2, -⟩ := State.chosen_settled (s := w) (d := d) (by rw [hnote])
        rw [h1, h2, if_pos hc, hnote]
        exact ⟨hwa, rfl⟩
      · have hnote := hp.stopped (d := d) (by
          rw [Option.isSome_iff_ne_none] at hc
          tauto) fun hr => by rw [hwa] at hr; cases hr.2.1
        obtain ⟨h1, h2, -⟩ := State.chosen_settled (s := w) (d := d) (by rw [hnote])
        rw [h1, h2, if_neg hc, hnote]
        exact ⟨hwa, rfl⟩
    · by_cases he : s.withdraws d
      · obtain ⟨h1, h2, -⟩ := hp.ended d he
        exact ⟨h1, h2⟩
      · obtain ⟨h1, h2, -⟩ := hp.kept d he
        obtain ⟨h3, h4⟩ := h.resolve_left he
        exact ⟨h1.trans h3, h2.trans h4⟩
    · have hwa : w.attempts.get d = none := by
        by_cases he : s.withdraws d
        · exact (hp.ended d he).1
        · exact (hp.kept d he).1.trans (h.resolve_left he)
      have hnote := hp.stopped (.inl hwa) fun ⟨hr, _, hd⟩ => hno ⟨hr, by
        by_cases he : s.withdraws d
        · exact .inl he
        · exact .inr ((hp.kept d he).2.1.symm.trans hd)⟩
      obtain ⟨h1, h2, -⟩ := State.chosen_settled (s := w) (d := d) (by rw [hnote])
      rw [h1, h2, hnote]
      exact ⟨rfl, hwa⟩
    · have hnr : ¬ s.runs d := fun ⟨h1, h2, h3, _, _, h6⟩ => by
        rcases h with h | h | h | h
        · rw [h] at h1
          cases h1
        · exact h h3
        · exact h h2
        · exact h6.elim h.1 h.2
      obtain ⟨-, -, h3⟩ := State.chosen_settled (hp.owesNone hnr)
      rw [h3, hp.ctxReq]
      refine Option.filter_eq_none_iff.mpr fun u _ hs => ?_
      obtain ⟨-, -, h1, h2, h3, h4, -⟩ := (hp.requestStands_iff d u).mp hs
      rcases h with h | h | h | h
      · rw [h] at h1
        cases h1
      · exact h h2
      · exact h h3
      · exact h4.elim h.1 h.2
  case quiet =>
    have hidles : ∀ q, idle q ↔ q.idles := fun q => (hidle q).trans (and_congr_right' q.withoutWork_iff.symm)
    have hiff : t.idles ↔ w.chosen.idles := by
      rw [htq]
      exact State.quietTimer_idles _
    have hsettings : w.chosen.settings = s.settings := by
      rw [hturned.frame]
      exact hset
    have hquiet : w.chosen.power.quiet = s.quietTimer.power.quiet := by
      have h1 := congrArg Power.quiet hturned.power
      rw [← hp.power]
      exact h1
    have htimers := w.chosen.quietTimer_quiet
    rw [← htq, hsettings, hquiet, ← hiff] at htimers
    simp only [hidles]
    refine ⟨fun hs htd => (htimers.1 htd).trans ?_, fun htd hs => (htimers.1 htd).trans ?_, htimers.2⟩
    · rw [s.quietTimer_quiet.1 hs]
      rfl
    · rw [s.quietTimer_quiet.2 hs]
      rfl
  case requests =>
    rw [hp.ctxReq]
    congr 1
    funext u
    rw [Bool.eq_iff_iff, hp.requestStands_iff, decide_eq_true_iff]
  case scheds =>
    have hinputs : changed ↔ b.schedInputs d ≠ w.schedInputs d := by
      have hsweep : w.sweepOn d = s.sweepOn d := by rw [State.sweepOn, hmounts]; rfl
      rw [State.schedInputs_ne_iff, hworks, hoptions, hset, hsweep]
      exact hchanged
    simp only [hchoice, hinputs]
    refine ⟨hp.attempting, hp.stopped, fun hr ha hd => hp.waits hr ha hd⟩
  case choices =>
    have hheld' : held ↔ w.choicesHeld = true := by
      rw [hheld, State.choicesHeld_iff, hports]
    have hturn' : ∀ d q, turn d q = q.makeChoice d := fun d q => hturn d q
    refine ⟨w.chosen, fun h => if_pos (hheld'.mp h), fun h => ?_, htimer⟩
    simp only [hturn']
    exact if_neg (mt hheld'.mpr h)

end Sys2Proof.Proofs
end
